-- ==== Sys2Proof/Word.lean ====
section
/-! DEFINITION. The words of the ES416: numbers, tags, frame kinds, reasons, straps and the frame itself. -/

namespace Sys2Proof

/-- A station number, 0 to 31: store stations 0 to 15, client stations 16 to 31 (R189; 00_scope.md 3). -/
abbrev StationNo := BitVec 5

/-- A set of store stations as the roster mark of a frame holds it: bit i for station i (R189). -/
abbrev Mark := BitVec 16

/-- A block number as a frame carries it, 0 to 16,777,215 (R9, R189). -/
abbrev Block := BitVec 24

/-- A block version, an unsigned 32-bit number compared without wrap-around (R4). -/
abbrev Version := BitVec 32

/-- The 1024 data bytes of a block, the first bit sent being the most significant (R1, R189). -/
abbrev Data := BitVec 8192

/-- The 256 bits of a status report (R193). -/
abbrev Report := BitVec 256

/-- The greatest version a block can have (R5). -/
def maxVersion : Version := 4294967295#32

/-- The tag of a request: who originated it and its sequence number (00_scope.md 3, R189). -/
structure Tag where
  origin : StationNo
  seq : BitVec 8
  deriving DecidableEq, Repr

/-- The 21 frame kinds, in the order of their codes (R190). -/
inductive Kind where
  | present | roster | rosterQuery | peerDown | rejoin | caughtUp | replayDone | stationReset
  | order | ack | nack | data | unavailable | current
  | read | write | flush | fetch | replay
  | statusQuery | statusReport
  deriving DecidableEq, Repr

/-- The reasons a NACK or an UNAVAILABLE carries (R190). -/
inductive Reason where
  | rosterMismatch | outOfRange | cacheFull | tableFull | versionLimit | noData | resetting
  | notCurrent | mediaError
  deriving DecidableEq, Repr

/-- The configuration carried in PRESENT and ROSTER: copies code and volume code (R163, R189). -/
structure Configuration where
  copiesCode : BitVec 2
  volumeCode : BitVec 3
  deriving DecidableEq, Repr

/-- The levels of the strap pins (R163). -/
structure Straps where
  number : BitVec 4
  copiesCode : BitVec 2
  volumeCode : BitVec 3
  writeBack : Bool
  deriving DecidableEq, Repr

/-- The bits of a stored record that have changed when it is read, by their positions in the record: those that stay
so, and those read wrongly this once (R93). -/
structure BitChanges where
  lasting : List Nat
  passing : List Nat
  deriving DecidableEq, Repr

/-- What every frame carries about its sender: the sender number and the sender's roster mark (R189). -/
structure Source where
  sender : StationNo
  mark : Mark
  deriving DecidableEq, Repr

/-- What a STATION_RESET carries: its sender's fields and the station it is addressed to (R175, R190). -/
structure ResetOrder where
  src : Source
  target : StationNo
  deriving DecidableEq, Repr

/-- A frame: the fields of R189 but for the class, which the kind fixes (R190), and the check field,
which the rest fixes. A field the kind does not use holds zero (R189). -/
structure Frame where
  kind : Kind
  sender : StationNo
  mark : Mark
  tag : Tag
  target : StationNo
  block : Block
  version : Version
  aux : BitVec 8
  payload : Data
  report : Report
  deriving DecidableEq, Repr

end Sys2Proof
end

