-- ==== Sys2Proof/Syntax.lean ====
section
/-! DEFINITION. The commands of the block: one constructor per row of spec/opcode_table.json, in the table's order. -/

namespace Sys2Proof

/-- A command: one happening that reaches the station from outside. The frames carry the fields that R190 gives
their kind; a timer's expiry carries what tells that timer from the others of its kind. -/
inductive Instr where
  /-- Supply rise or assertion of the reset pin (R164). -/
  | powerOnReset
  /-- Release of the reset pin with supply good, the strap pins at these levels (R163, R164). -/
  | resetRelease (straps : Straps)
  /-- The memory raises ready for operation `op`; of a stored record read, `changes` are the bits that have changed
  since it was last read (R92, R93). The strap pins are at `straps`, which a restart at the end of a drain reads
  (R163). -/
  | mediaReady (op : Nat) (changes : BitChanges) (straps : Straps)
  /-- The memory raises fault, or ready and fault together, for operation `op` (R92). -/
  | mediaFault (op : Nat)
  /-- The 50 ms timer of the attempt in service expires (R98). -/
  | attemptTimeout
  /-- The 2 s probe limit expires (R105). -/
  | probeLimitExpiry
  /-- The line is idle: recessive for 11 bit times (R179, R181). -/
  | lineIdle
  /-- The 7 arbitration bits are over. `others` are the class and sender bits of the other stations that contended
  (R180). -/
  | arbitrationEnd (others : List (BitVec 7))
  /-- An attempt ends with every bit echoed (R182). -/
  | frameSent
  /-- A bit read back differs from the bit driven (R182). -/
  | attemptFailed
  /-- A received frame fails the receive check (R183). -/
  | receiveCheckFail
  | presentHeard (src : Source) (candidates : Mark) (conf : Configuration)
  | rosterHeard (src : Source) (conf : Configuration)
  | rosterQueryHeard (src : Source)
  | peerDownHeard (src : Source) (named : StationNo)
  | rejoinHeard (src : Source)
  | caughtUpHeard (src : Source)
  | replayDoneHeard (src : Source) (target : StationNo) (sweep : Bool)
  /-- A STATION_RESET; `straps` are the levels at the strap pins, which a restart reads (R163). -/
  | stationResetHeard (order : ResetOrder) (straps : Straps)
  | orderHeard (src : Source) (tag : Tag) (block : Block) (version : Version)
  | ackHeard (src : Source) (tag : Tag) (block : Block) (version : Version)
  | nackHeard (src : Source) (tag : Tag) (block : Block) (version : Version) (reason : BitVec 8)
  | dataHeard (src : Source) (tag : Tag) (block : Block) (version : Version) (data : Data)
  | unavailableHeard (src : Source) (tag : Tag) (block : Block) (reason : BitVec 8)
  | currentHeard (src : Source) (tag : Tag) (block : Block) (version : Version)
  | readHeard (src : Source) (tag : Tag) (block : Block)
  | writeHeard (src : Source) (tag : Tag) (block : Block) (data : Data)
  | flushHeard (src : Source) (tag : Tag)
  | fetchHeard (src : Source) (tag : Tag) (block : Block) (version : Version) (unknownMark : Bool)
  | replayHeard (src : Source) (tag : Tag) (target : StationNo) (block : Block) (version : Version)
      (data : Data)
  | statusQueryHeard (src : Source) (tag : Tag) (target : StationNo)
  | statusReportHeard (src : Source) (tag : Tag) (target : StationNo) (report : Report)
  | leadWaitExpiry (tag : Tag)
  | readSlotWaitExpiry (tag : Tag)
  | fetchSlotWaitExpiry (tag : Tag)
  | rosterAnswerWaitExpiry
  | ackWindowExpiry (tag : Tag)
  | requestLifetimeExpiry (tag : Tag)
  | retireHoldEnd (tag : Tag)
  | replayRetryTimeExpiry (peer : StationNo) (block : Block)
  | replayAnswerWaitExpiry (tag : Tag)
  | replayDoneReoffer (peer : StationNo)
  | fetchWindowClose (tag : Tag)
  | parkEnd (block : Block)
  | sweepBlockRetake (block : Block)
  | rejoinRequeue
  | catchUpLimitExpiry
  | caughtUpRequeue
  | listeningWindowExpiry
  | quietTimerExpiry
  | presentReoffer
  | rosterQueryRepeat
  | ownPeerDownReoffer
  deriving DecidableEq, Repr

end Sys2Proof
end

