-- ==== Sys2Proof/Decode.lean ====
section
/-! DEFINITION. The command a word spells by the bits of spec/opcode_table.json. -/

namespace Sys2Proof

/-- No row of the table gives any bits (its `fields` are empty and it has no `fixed`), so no word spells a
command. A frame on the line has a layout of its own (R189): Machine/Operands.lean reads it. -/
def decodeTableWord (_nbits _w : Nat) : Option Instr := none

end Sys2Proof
end

