-- ==== Sys2Proof/Config.lean ====
section
/-! DEFINITION. The fixed numbers of the manual (capacities, limits and times in microseconds) and the free values it leaves open. -/

namespace Sys2Proof.Config

/-- The answer slot: 60 µs (R15). -/
def answerSlot : Nat := 60
/-- The ack window: 3 ms (R36). -/
def ackWindow : Nat := 3000
/-- The fetch window: 2 ms (R145). -/
def fetchWindow : Nat := 2000
/-- The lifetime of a request table entry: 100 ms (R67). -/
def lifetime : Nat := 100000
/-- The retire hold of a finished entry: 100 ms (R69). -/
def retireHold : Nat := 100000
/-- The timeout of a media attempt: 50 ms (R98). -/
def attemptTimeout : Nat := 50000
/-- The probe limit: 2 s (R104). -/
def probeLimit : Nat := 2000000
/-- The listening window: 25 ms (R168). -/
def listeningWindow : Nat := 25000
/-- The quiet timer: 15 ms (R171). -/
def quietTimer : Nat := 15000
/-- The delay before a refused or dropped frame is offered again, an entry pushed again or a block fetched
again: 5 ms (R129, R132, R137, R144, R153, R161, R171, R177). -/
def retryDelay : Nat := 5000
/-- The repeat of an unanswered ROSTER_QUERY: 25 ms (R170). -/
def queryRepeat : Nat := 25000
/-- The catch-up limit: 500 ms (R153). -/
def catchUpLimit : Nat := 500000
/-- The hold-off of a re-notice: 3 ms (R117). -/
def holdOff : Nat := 3000
/-- The wait for the answer to a REPLAY: 3 ms (R133). -/
def replayAnswerWait : Nat := 3000
/-- The parking of a repair entry whose fetch went unanswered: 50 ms (R146). -/
def parkUnanswered : Nat := 50000

/-- Entries of the request table (R58). -/
def tableSize : Nat := 24
/-- Cache slots (R72). -/
def slotCount : Nat := 48
/-- Places of the media command queue (R97). -/
def mediaQueueSize : Nat := 8
/-- Attempts a media command receives (R99, R101). -/
def mediaAttempts : Nat := 4
/-- Places of the transmit queue (R186). -/
def queueSize : Nat := 16
/-- Places of the transmit queue open to classes 1, 2 and 3 (R186). -/
def queueSizeLowClasses : Nat := 14
/-- Failed attempts after which a frame is dropped (R182). -/
def frameAttempts : Nat := 4
/-- Entries of the missed-write pool (R124). -/
def poolSize : Nat := 1024
/-- Entries of the repair list (R139). -/
def repairSize : Nat := 64
/-- Pushes in progress (R128). -/
def pushLimit : Nat := 2
/-- Fetches in progress (R143). -/
def fetchLimit : Nat := 4
/-- Attempts of a fetch or of a push (R133, R146). -/
def ownAttempts : Nat := 3
/-- WRITE_RECORDs of the cache the flusher leaves uncompleted (R84). -/
def flushLimit : Nat := 2
/-- Misses in a row that declare a peer down (R111). -/
def missLimit : Nat := 3
/-- Groups of the volume (R10). -/
def groupCount : Nat := 64

/-- FREE VALUE. What a write ended by fault or timeout leaves in the memory (R96): 0 the former record, 1 the
new record, 2 a damaged record with the written mark set, 3 a damaged record with the mark as it was. The
argument counts the free values used, so that each is chosen afresh. -/
opaque failedWriteLeaves : Nat → BitVec 2

/-- FREE VALUE. Whether a write whose read-back ended by fault or timeout left a damaged record (R96). -/
opaque failedReadBackDamages : Nat → Bool

/-- FREE VALUE. Whether the reports of one happening for two co-replicas are taken last rank first
(R125: "in any order"). -/
opaque reportsReversed : Nat → Bool

end Sys2Proof.Config
end

