-- ==== Sys2Proof/Machine/State.lean ====
section
/-! DEFINITION. The state of one ES416, block by block, and the state after reset. -/

namespace Sys2Proof.Machine

/-- Why the station is OUT (R177). -/
inductive OutReason where
  | mediaDown | duplicateNumber | badStrap
  deriving DecidableEq, Repr

/-- The station states (00_scope.md 4). -/
inductive StationState where
  | starting | listening | forming | serving | catchingUp | spectator | resetting
  | out (reason : OutReason)
  deriving DecidableEq, Repr

/-! ### Bus Interface -/

/-- Why the station queued a frame: the rule that owns it decides what follows when it is sent, dropped or
withdrawn (R182, R187). -/
inductive Purpose where
  /-- PRESENT of formation (R171). -/
  | present
  /-- ROSTER answer (R174). -/
  | roster
  /-- ROSTER_QUERY of a pending check (R170). -/
  | rosterQuery
  /-- PEER_DOWN that the Peer Table queued about `peer` (R113, R117). -/
  | peerNotice (peer : StationNo)
  /-- PEER_DOWN naming the station itself on repair list overflow (R142). -/
  | overflowNotice
  /-- PEER_DOWN naming the station itself on entering OUT(MEDIA_DOWN) (R177). -/
  | mediaDownNotice
  /-- REJOIN of the catch-up with this serial number (R152). -/
  | rejoin (serial : Nat)
  /-- CAUGHT_UP (R161). -/
  | caughtUp
  /-- REPLAY_DONE to `peer`, with its sweep flag (R137). -/
  | replayDone (peer : StationNo) (sweep : Bool)
  /-- ORDER that leads (R25). -/
  | leadOrder
  /-- ORDER that supersedes (R31). -/
  | supersedeOrder
  /-- ACK or NACK for a client write or FLUSH, or for a REPLAY (R21, R34, R35, R89, R135). -/
  | acknowledgement
  /-- DATA or UNAVAILABLE of a CLIENT_READ entry (R42, R47, R51). -/
  | readAnswer
  /-- DATA, CURRENT or UNAVAILABLE of a PEER_FETCH entry (R151). -/
  | fetchAnswer
  /-- FETCH of an own fetch (R144). -/
  | ownFetch
  /-- REPLAY of an own push (R129). -/
  | ownReplay
  /-- STATUS_REPORT (R192). -/
  | statusReport
  /-- A frame whose owner was emptied by a station reset while the frame waited (R188). -/
  | orphan
  deriving DecidableEq, Repr

/-- Where a frame of the transmit queue stands (R181). -/
inductive FramePhase where
  | queued | contending | inTransmission
  deriving DecidableEq, Repr

/-- The states of a request table entry (R60). -/
inductive EntryState where
  | lookup | waitOrder | committing | slotWait | draining | outstanding
  | acked | refused | answered | suppressed | silent | done | expired
  deriving DecidableEq, Repr

/-- What follows when a withdrawal takes effect (R48, R49, R56, R151): nothing more at the entry, or the entry
that queued the answer enters this state. -/
inductive Withdrawal where
  | plain
  | entryBecomes (state : EntryState)
  deriving DecidableEq, Repr

/-- A frame in the transmit queue (R186). -/
structure TxFrame where
  frame : Frame
  purpose : Purpose
  phase : FramePhase
  /-- Failed attempts so far (R182). -/
  attempts : Nat
  /-- A withdrawal request held until arbitration ends (R187). -/
  withdrawal : Option Withdrawal
  deriving DecidableEq, Repr

/-- What the station does on the line (R180 to R182). -/
inductive LinePhase where
  | quiet | arbitrating | driving
  deriving DecidableEq, Repr

structure Bus where
  /-- The transmit queue, in the order of acceptance (R186). -/
  queue : List TxFrame
  line : LinePhase
  /-- Whether new frames are accepted: not after a station reset until the old frames are gone (R188). -/
  accepting : Bool
  /-- The frame just sent, whose own hearing is due: the next frame heard, if equal, is *own* (R184). -/
  echo : Option Frame
  deriving DecidableEq, Repr

/-! ### Membership Controller -/

structure Membership where
  state : StationState
  /-- The strap values held since the last restart (R163). -/
  straps : Straps
  /-- The roster as its mark; zero for none (R12). -/
  mark : Mark
  /-- The placement table: the replica list of each of the 64 groups, or no list at all (R11, R12). -/
  placement : List (List StationNo)
  /-- Whether the station fixed its roster as a member and has not since left for SPECTATOR (R177). -/
  member : Bool
  candidates : Mark
  quietTimer : Option Nat
  listeningWindow : Option Nat
  rosterWait : Option Nat
  checkPending : Bool
  queryTimer : Option Nat
  sweepNeeded : Bool
  /-- When each PRESENT refused or dropped is offered again, oldest first (R171). -/
  presentReoffers : List Nat
  ownDownReoffer : Option Nat
  deriving DecidableEq, Repr

/-! ### Request Engine -/

/-- The kinds of request table entry (R58). -/
inductive EntryKind where
  | clientRead | clientWrite | clientFlush | peerFetch | ownFetch | ownReplay
  deriving DecidableEq, Repr

/-- A held version as a lookup delivers it: known or *unknown* (R6). -/
inductive HeldVersion where
  | known (version : Version)
  | unknown
  deriving DecidableEq, Repr

/-- The answers heard from one station for a tag: for each kind heard, its highest version (R58). -/
structure HeardAnswer where
  station : StationNo
  ack : Option Version
  nack : Option Version
  data : Option Version
  unavailable : Option Version
  current : Option Version
  deriving DecidableEq, Repr

/-- The answer queued for a tag: its kind and version (R58). -/
structure AnswerSent where
  kind : Kind
  version : Version
  deriving DecidableEq, Repr

/-- A member of a drain set: a slot with the block and version it held (R88). -/
structure DrainMember where
  slot : Nat
  block : Block
  version : Version
  deriving DecidableEq, Repr

/-- A request table entry (R58). -/
structure Entry where
  tag : Tag
  kind : EntryKind
  /-- Absent for CLIENT_FLUSH. -/
  block : Option Block
  state : EntryState
  reason : Option Reason
  /-- The HELD slot of a write, or the current slot a read or fetch in SLOT_WAIT holds. -/
  slot : Option Nat
  ownVersion : Option HeldVersion
  committed : Option Version
  followed : Option Version
  /-- MODEL: the place of the followed ORDER in the order of the bus (R40). -/
  followSeq : Nat
  /-- The version of the station's superseding ORDER (R31). -/
  superseded : Option Version
  heard : List HeardAnswer
  sent : Option AnswerSent
  /-- The ack window's expiry time, while it runs (R36). -/
  ackWindow : Option Nat
  created : Nat
  finished : Option Nat
  attempts : Nat
  /-- The expiry of the lead wait or slot wait, while it runs (R16). -/
  wait : Option Nat
  /-- Why the lookup of a read or fetch cannot serve (R43, R44). -/
  failure : Option Reason
  /-- The sender of a peer's FETCH (R149). -/
  requester : Option StationNo
  /-- The requester's version of a peer's FETCH (R149). -/
  requested : Option HeldVersion
  /-- The peer of a push (R129). -/
  target : Option StationNo
  /-- The drain set of a FLUSH (R88). -/
  drain : List DrainMember
  deriving DecidableEq, Repr

/-! ### Block Cache and Media Port -/

/-- The owner of a HELD slot (R72). -/
inductive HeldOwner where
  | clientWrite (tag : Tag)
  | replayTarget (tag : Tag)
  | ownFetch (id : Nat)
  deriving DecidableEq, Repr

/-- A cache slot with the fields its state gives it (R72). -/
inductive Slot where
  | free
  | held (block : Block) (data : Data) (owner : HeldOwner) (version : Option Version)
  | filling (block : Block)
  | clean (block : Block) (version : Version) (data : Data) (recency : Nat)
  | dirty (block : Block) (version : Version) (data : Data) (order : Nat)
  | writing (block : Block) (version : Version) (data : Data)
  | retiring (block : Block) (version : Version) (data : Data)
  deriving DecidableEq, Repr

/-- A media command; `slot` is the cache slot it was issued for (R94 to R96). -/
inductive MediaCmd where
  | readHeader (block : Block)
  | readRecord (block : Block) (slot : Nat)
  | writeRecord (block : Block) (version : Version) (data : Data) (slot : Nat)
  deriving DecidableEq, Repr

/-- The two media reads a lookup can wait on (R77). -/
inductive ReadKind where
  | header | record
  deriving DecidableEq, Repr

/-- Who waits for a lookup (R77), or for a media read to decide (R6, R28). -/
inductive LookupUser where
  /-- A write entry's version lookup (R23). -/
  | write (tag : Tag)
  /-- A follow decision deferred to the end of a media read (R28). -/
  | decision (tag : Tag)
  /-- A CLIENT_READ or PEER_FETCH entry's copy lookup (R43). -/
  | copy (tag : Tag)
  /-- A push's copy lookup (R129). -/
  | push (id : Nat)
  /-- A fetch's version lookup (R144). -/
  | fetch (id : Nat)
  /-- The comparison of R53 or R151: a DATA of this version was heard after the station sent its own. -/
  | stale (version : Version)
  /-- The comparison of R131: an ACK of this version was heard from the peer for the push under this tag. -/
  | replayAck (tag : Tag) (peer : StationNo) (version : Version)
  deriving DecidableEq, Repr

structure Waiter where
  block : Block
  on : ReadKind
  user : LookupUser
  deriving DecidableEq, Repr

/-- The sources of a commit that may be pending (R80, R81). -/
inductive CommitSource where
  | replay (tag : Tag)
  | ownFetch (id : Nat)
  deriving DecidableEq, Repr

/-- A commit that waits on a media read with its slot HELD (R80). -/
structure PendingCommit where
  block : Block
  on : ReadKind
  slot : Nat
  version : Version
  data : Data
  source : CommitSource
  deriving DecidableEq, Repr

structure Cache where
  /-- The 48 slots (R72). -/
  slots : List Slot
  commitOrder : Nat
  /-- The recency last given to a CLEAN slot; a higher recency is a later use (R74). -/
  recency : Nat
  /-- The waiting list of media commands, oldest first (R83). -/
  waiting : List MediaCmd
  waiters : List Waiter
  pendings : List PendingCommit
  deriving DecidableEq, Repr

/-- What the port has presented to the memory (R92, R96, R104). -/
inductive PortPhase where
  | idle | reading | writing | readingBack | probing
  deriving DecidableEq, Repr

structure Port where
  /-- The media command queue; its head is the command in service (R97). -/
  queue : List MediaCmd
  retry : Nat
  phase : PortPhase
  /-- MODEL: the number of the operation last presented. -/
  op : Nat
  /-- The expiry of the attempt's 50 ms timer (R98). -/
  timer : Option Nat
  probeLimit : Option Nat
  down : Bool
  deriving DecidableEq, Repr

/-- A block record of the record memory (R1). `version` and `data` are what the record was written with, which is
what correction restores (log 5). -/
structure Record where
  written : Bool
  version : Version
  data : Data
  /-- The bit positions of the stored record that are wrong, ascending (R93). -/
  wrong : List Nat
  /-- What a failed write left reads beyond correction until it is rewritten (R96). -/
  damaged : Bool
  deriving DecidableEq, Repr

/-! ### Peer Table, Replay Engine, Repair Engine -/

inductive PeerState where
  | present | absent | catchingUp
  deriving DecidableEq, Repr

/-- A peer entry (R109). -/
structure PeerEntry where
  peer : StationNo
  state : PeerState
  misses : Nat
  lastNotice : Option Nat
  deriving DecidableEq, Repr

/-- An entry of the missed-write pool (R124). A peer's list is its entries in the order of the pool. -/
structure Missed where
  peer : StationNo
  block : Block
  recorded : Nat
  retry : Option Nat
  push : Bool
  deriving DecidableEq, Repr

/-- How far a push has come (R129, R131, R133). -/
inductive PushPhase where
  | lookup
  | queued
  /-- The REPLAY is sent; the answer is awaited until this moment. -/
  | awaiting (due : Nat)
  /-- An ACK is taken and its comparison waits on a version lookup. -/
  | comparing
  deriving DecidableEq, Repr

/-- A push in progress (R128). `tag` is the tag of its OWN_REPLAY entry, once made. -/
structure Push where
  id : Nat
  peer : StationNo
  block : Block
  tag : Option Tag
  phase : PushPhase
  deriving DecidableEq, Repr

/-- A REPLAY_DONE that waits to be offered again (R137). -/
structure Reoffer where
  peer : StationNo
  sweep : Bool
  due : Nat
  deriving DecidableEq, Repr

structure Replay where
  pool : List Missed
  /-- The overflow flags, bit i for station i (R124). -/
  overflow : Mark
  pushes : List Push
  lastServed : Option StationNo
  reoffers : List Reoffer
  deriving DecidableEq, Repr

inductive RepairState where
  | ready | fetching
  | parked (due : Nat)
  deriving DecidableEq, Repr

/-- An entry of the repair list (R139). -/
structure RepairEntry where
  block : Block
  state : RepairState
  deriving DecidableEq, Repr

/-- How far a fetch has come (R144 to R147). -/
inductive FetchPhase where
  | lookup
  | queued
  /-- The FETCH is sent; the window closes at this moment. -/
  | window (due : Nat)
  /-- The taken DATA is offered as a commit. -/
  | committing
  deriving DecidableEq, Repr

/-- A fetch in progress (R143), of a repair entry or of the sweep. -/
structure Fetch where
  id : Nat
  block : Block
  sweep : Bool
  phase : FetchPhase
  tag : Option Tag
  /-- The fetch buffer: the highest DATA taken (R145). -/
  buffer : Option (Version × Data)
  currentTaken : Bool
  deriving DecidableEq, Repr

/-- A sweep block to be taken again: when, or at once (R144, R148). -/
structure Retake where
  block : Block
  due : Option Nat
  deriving DecidableEq, Repr

/-- The repair list, the fetches and the catch-up record (R139, R143, R162). -/
structure Repair where
  list : List RepairEntry
  fetches : List Fetch
  /-- A catch-up is in progress (R152). -/
  active : Bool
  /-- MODEL: which catch-up of this restart it is. -/
  serial : Nat
  rejoinSent : Bool
  awaited : Mark
  limit : Option Nat
  /-- The sweep group set, ascending (R152). -/
  sweepSet : List Nat
  group : Option Nat
  cursor : Nat
  waitingRoom : List Block
  retakes : List Retake
  unverified : Nat
  rejoinRequeue : Option Nat
  caughtUpRequeue : Option Nat
  deriving DecidableEq, Repr

/-- The eight counters of the status report, in its order (R196). -/
structure Counters where
  corrected : BitVec 16
  uncorrectable : BitVec 16
  refreshes : BitVec 16
  discarded : BitVec 16
  droppedOnTransmit : BitVec 16
  answersDropped : BitVec 16
  entriesExpired : BitVec 16
  mismatchedPresent : BitVec 16
  deriving DecidableEq, Repr

/-- The whole state of the station, its record memory and its queue of waiting commands. -/
structure State where
  /-- The levels at the strap pins, as last brought by a command that can end in a restart (R163; log 4). -/
  pins : Straps
  /-- The reset pin is asserted (R164). -/
  resetHeld : Bool
  /-- The station's own clock, in microseconds. -/
  clock : Nat
  /-- MODEL: free values used so far. -/
  freeCount : Nat
  /-- MODEL: the next number for a push, a fetch or a catch-up. -/
  nextId : Nat
  /-- The record memory: written records by block number, ascending (R1, R2). -/
  media : List (Nat × Record)
  bus : Bus
  member : Membership
  table : List Entry
  /-- The sequence counter (R62). -/
  sequence : BitVec 8
  /-- MODEL: ORDERs followed so far (R40). -/
  followCount : Nat
  cache : Cache
  port : Port
  peers : List PeerEntry
  replay : Replay
  repair : Repair
  counters : Counters
  /-- The commands that wait, first in, first out. -/
  pending : List Instr
  deriving DecidableEq, Repr

/-- Why the machine would stop with a fault. The manual gives every happening an effect or states that it has
none, so no meaning raises one: the type is empty. -/
inductive Fault where
  deriving DecidableEq, Repr

/-- Why the machine would refuse a command. -/
inductive Refusal where
  /-- The command has no meaning yet. Raised by the dispatch alone, for a command not modelled; safe. No arm of
  the dispatch raises it now. -/
  | notModelled (mnemonic : String)
  deriving DecidableEq, Repr

/-! ### The state after reset -/

/-- Strap values before any restart has read the pins (log 4). -/
def Straps.zero : Straps := { number := 0, copiesCode := 0, volumeCode := 0, writeBack := false }

/-- The Bus Interface after power-on reset (R188). -/
def Bus.reset : Bus := { queue := [], line := .quiet, accepting := true, echo := none }

/-- The Membership Controller at a restart, with the straps read and the sweep-needed flag of R166 (R165). -/
def Membership.restart (straps : Straps) (sweepNeeded : Bool) : Membership where
  state := .starting
  straps := straps
  mark := 0
  placement := []
  member := false
  candidates := 0
  quietTimer := none
  listeningWindow := none
  rosterWait := none
  checkPending := false
  queryTimer := none
  sweepNeeded := sweepNeeded
  presentReoffers := []
  ownDownReoffer := none

/-- The Block Cache after either reset (R91). -/
def Cache.reset : Cache where
  slots := List.replicate Config.slotCount .free
  commitOrder := 0
  recency := 0
  waiting := []
  waiters := []
  pendings := []

/-- The Media Port after either reset, the last operation presented having been number `op` (R108). -/
def Port.reset (op : Nat) : Port where
  queue := []
  retry := 0
  phase := .idle
  op := op
  timer := none
  probeLimit := none
  down := false

/-- The Replay Engine after either reset (R138). -/
def Replay.reset : Replay :=
  { pool := [], overflow := 0, pushes := [], lastServed := none, reoffers := [] }

/-- The Repair Engine after either reset (R139, R162, R165). -/
def Repair.reset : Repair where
  list := []
  fetches := []
  active := false
  serial := 0
  rejoinSent := false
  awaited := 0
  limit := none
  sweepSet := []
  group := none
  cursor := 0
  waitingRoom := []
  retakes := []
  unverified := 0
  rejoinRequeue := none
  caughtUpRequeue := none

/-- Every counter cleared (R195). -/
def Counters.zero : Counters where
  corrected := 0
  uncorrectable := 0
  refreshes := 0
  discarded := 0
  droppedOnTransmit := 0
  answersDropped := 0
  entriesExpired := 0
  mismatchedPresent := 0

/-- The machine right after a power-on reset, the reset pin still asserted (R164): every block at the value its
chapter gives (R165), the record memory never-written (R2; log 6). The straps are read, and the sweep-needed
flag set or cleared, when the pin is released (R163, R166; logs 3 and 4). -/
def State.reset : State where
  pins := Straps.zero
  resetHeld := true
  clock := 0
  freeCount := 0
  nextId := 0
  media := []
  bus := Bus.reset
  member := Membership.restart Straps.zero false
  table := []
  sequence := 0
  followCount := 0
  cache := Cache.reset
  port := Port.reset 0
  peers := []
  replay := Replay.reset
  repair := Repair.reset
  counters := Counters.zero
  pending := []

end Sys2Proof.Machine
end

