-- ==== Sys2Proof/WellFormed.lean ====
section
/-! DEFINITION. Which commands are well formed: the bounds the manual sets that the operand types do not. -/

namespace Sys2Proof

/-- A store station's number (00_scope.md 3): 0 to 15. -/
def StationNo.isStore (n : StationNo) : Bool := decide (n.toNat < 16)

/-- A client station's number (00_scope.md 3): 16 to 31. -/
def StationNo.isClient (n : StationNo) : Bool := !n.isStore

/-- The greatest volume any valid strap gives: 2^22 blocks (R8). -/
def greatestVolume : Nat := 4194304

/-- Whether the operands of a command lie in the ranges the manual gives them: a timer that concerns a peer
names a store station (R109, R124), a timer that concerns a listed block names a block below the greatest volume (R139),
and the tag of the station's own fetch or push originates at a store station (R62). -/
def Instr.wellFormed : Instr → Bool
  | .replayRetryTimeExpiry p b => p.isStore && decide (b.toNat < greatestVolume)
  | .replayDoneReoffer p => p.isStore
  | .replayAnswerWaitExpiry t => t.origin.isStore
  | .fetchWindowClose t => t.origin.isStore
  | .parkEnd b => decide (b.toNat < greatestVolume)
  | .sweepBlockRetake b => decide (b.toNat < greatestVolume)
  | .powerOnReset | .resetRelease _ | .mediaReady _ _ _ | .mediaFault _ | .attemptTimeout
  | .probeLimitExpiry | .lineIdle | .arbitrationEnd _ | .frameSent | .attemptFailed
  | .receiveCheckFail | .presentHeard _ _ _ | .rosterHeard _ _ | .rosterQueryHeard _
  | .peerDownHeard _ _ | .rejoinHeard _ | .caughtUpHeard _ | .replayDoneHeard _ _ _
  | .stationResetHeard _ _ | .orderHeard _ _ _ _ | .ackHeard _ _ _ _ | .nackHeard _ _ _ _ _
  | .dataHeard _ _ _ _ _ | .unavailableHeard _ _ _ _ | .currentHeard _ _ _ _ | .readHeard _ _ _
  | .writeHeard _ _ _ _ | .flushHeard _ _ | .fetchHeard _ _ _ _ _ | .replayHeard _ _ _ _ _ _
  | .statusQueryHeard _ _ _ | .statusReportHeard _ _ _ _ | .leadWaitExpiry _
  | .readSlotWaitExpiry _ | .fetchSlotWaitExpiry _ | .rosterAnswerWaitExpiry | .ackWindowExpiry _
  | .requestLifetimeExpiry _ | .retireHoldEnd _ | .rejoinRequeue | .catchUpLimitExpiry
  | .caughtUpRequeue | .listeningWindowExpiry | .quietTimerExpiry | .presentReoffer
  | .rosterQueryRepeat | .ownPeerDownReoffer => true

end Sys2Proof
end

