-- ==== Sys2Proof/Machine/Operands.lean ====
section
/-! DEFINITION. Frames: their classes, codes and layout on the line, the frame check and the receive check, and the frame of each kind. -/

namespace Sys2Proof.Machine

/-! ### Kinds (R190) -/

/-- The 21 kinds in the order of their codes. -/
def allKinds : List Kind :=
  [.present, .roster, .rosterQuery, .peerDown, .rejoin, .caughtUp, .replayDone, .stationReset,
   .order, .ack, .nack, .data, .unavailable, .current, .read, .write, .flush, .fetch, .replay,
   .statusQuery, .statusReport]

/-- The code of a kind (R190). -/
def kindCode : Kind → BitVec 5
  | .present => 0 | .roster => 1 | .rosterQuery => 2 | .peerDown => 3 | .rejoin => 4
  | .caughtUp => 5 | .replayDone => 6 | .stationReset => 7 | .order => 8 | .ack => 9
  | .nack => 10 | .data => 11 | .unavailable => 12 | .current => 13 | .read => 14
  | .write => 15 | .flush => 16 | .fetch => 17 | .replay => 18 | .statusQuery => 19
  | .statusReport => 20

/-- The kind with a code; codes 21 to 31 are not assigned (R190). -/
def kindOfCode (c : BitVec 5) : Option Kind := allKinds[c.toNat]?

/-- The class of a kind, 0 most urgent (R190). -/
def kindClass : Kind → BitVec 2
  | .present | .roster | .rosterQuery | .peerDown | .rejoin | .caughtUp | .replayDone
  | .stationReset => 0
  | .order | .ack | .nack | .data | .unavailable | .current => 1
  | .read | .write | .flush | .fetch | .replay => 2
  | .statusQuery | .statusReport => 3

/-- Whether a kind uses its tag fields (R190). -/
def usesTag : Kind → Bool
  | .order | .ack | .nack | .data | .unavailable | .current | .read | .write | .flush | .fetch
  | .replay | .statusQuery | .statusReport => true
  | .present | .roster | .rosterQuery | .peerDown | .rejoin | .caughtUp | .replayDone
  | .stationReset => false

/-- Whether a kind uses its target field (R185, R190). -/
def usesTarget : Kind → Bool
  | .peerDown | .replayDone | .stationReset | .replay | .statusQuery | .statusReport => true
  | .present | .roster | .rosterQuery | .rejoin | .caughtUp | .order | .ack | .nack | .data
  | .unavailable | .current | .read | .write | .flush | .fetch => false

/-- Whether a kind uses its block field (R190). -/
def usesBlock : Kind → Bool
  | .order | .ack | .nack | .data | .unavailable | .current | .read | .write | .fetch | .replay => true
  | .present | .roster | .rosterQuery | .peerDown | .rejoin | .caughtUp | .replayDone
  | .stationReset | .flush | .statusQuery | .statusReport => false

/-- The bits of the version field a kind uses: all, the low 16 (the candidate set of PRESENT), or none
(R189, R190). The high 16 of PRESENT, sent as zero, are not examined when heard; R189 says that of whole fields only
(DESIGN CHOICE, log 67). -/
def versionBits : Kind → BitVec 32
  | .order | .ack | .nack | .data | .current | .fetch | .replay => 0xFFFFFFFF
  | .present => 0x0000FFFF
  | .roster | .rosterQuery | .peerDown | .rejoin | .caughtUp | .replayDone | .stationReset
  | .unavailable | .read | .write | .flush | .statusQuery | .statusReport => 0

/-- The bits of the aux field a kind uses (R189, R190). The others of a kind that uses some, bits 7 to 5 of PRESENT and
ROSTER and 7 to 1 of REPLAY_DONE and FETCH, are not examined when heard; R189 says that of whole fields only (DESIGN
CHOICE, log 67). -/
def auxBits : Kind → BitVec 8
  | .present | .roster => 0x1F
  | .replayDone | .fetch => 0x01
  | .nack | .unavailable => 0xFF
  | .rosterQuery | .peerDown | .rejoin | .caughtUp | .stationReset | .order | .ack | .data
  | .current | .read | .write | .flush | .replay | .statusQuery | .statusReport => 0

/-- Whether a kind carries a payload (R189). -/
def hasPayload : Kind → Bool
  | .data | .write | .replay => true
  | .present | .roster | .rosterQuery | .peerDown | .rejoin | .caughtUp | .replayDone
  | .stationReset | .order | .ack | .nack | .unavailable | .current | .read | .flush | .fetch
  | .statusQuery | .statusReport => false

/-- Whether a kind carries a status report (R189). -/
def hasReport : Kind → Bool
  | .statusReport => true
  | .present | .roster | .rosterQuery | .peerDown | .rejoin | .caughtUp | .replayDone
  | .stationReset | .order | .ack | .nack | .data | .unavailable | .current | .read | .write
  | .flush | .fetch | .replay | .statusQuery => false

/-- The code of a reason in the aux field (R190). -/
def reasonCode : Reason → BitVec 8
  | .rosterMismatch => 1 | .outOfRange => 2 | .cacheFull => 3 | .tableFull => 4
  | .versionLimit => 5 | .noData => 6 | .resetting => 7 | .notCurrent => 8 | .mediaError => 9

/-- The configuration in the aux field: copies code in bits 1 and 0, volume code in bits 4 to 2 (R189). -/
def configurationAux (c : Configuration) : BitVec 8 :=
  (c.volumeCode.zeroExtend 8 <<< 2) ||| c.copiesCode.zeroExtend 8

/-- The configuration an aux field carries (R189). -/
def auxConfiguration (a : BitVec 8) : Configuration :=
  { copiesCode := a.extractLsb' 0 2, volumeCode := a.extractLsb' 2 3 }

/-- A frame with every field its kind does not use at zero: as it is sent, and as much of it as is examined
when it is heard (R189). The bits of a field that its kind uses in part are taken in the same way (DESIGN CHOICE, log
67). -/
def examined (f : Frame) : Frame where
  kind := f.kind
  sender := f.sender
  mark := f.mark
  tag := if usesTag f.kind then f.tag else { origin := 0, seq := 0 }
  target := if usesTarget f.kind then f.target else 0
  block := if usesBlock f.kind then f.block else 0
  version := f.version &&& versionBits f.kind
  aux := f.aux &&& auxBits f.kind
  payload := if hasPayload f.kind then f.payload else 0
  report := if hasReport f.kind then f.report else 0

/-! ### Layout and frame check (R189) -/

/-- The bits of a word, most significant first. -/
def bitsOf {w : Nat} (x : BitVec w) : List Bool := (List.range w).map fun i => x.getMsbD i

/-- The word that bits spell, most significant first. -/
def wordOf (w : Nat) (l : List Bool) : BitVec w :=
  BitVec.ofNat w (l.foldl (fun n b => 2 * n + b.toNat) 0)

/-- One bit taken into the frame check register (R189). -/
def checkStep (r : BitVec 32) (b : Bool) : BitVec 32 :=
  if r.msb != b then (r <<< 1) ^^^ 0x04C11DB7 else r <<< 1

/-- The frame check over bits in the order sent (R189). -/
def frameCheck (l : List Bool) : BitVec 32 := ~~~ (l.foldl checkStep 0xFFFFFFFF)

/-- The header, from class to aux: 110 bits (R189). -/
def headerBits (f : Frame) : List Bool :=
  bitsOf (kindClass f.kind) ++ bitsOf f.sender ++ bitsOf (kindCode f.kind) ++ bitsOf f.mark
    ++ bitsOf f.tag.origin ++ bitsOf f.tag.seq ++ bitsOf f.target ++ bitsOf f.block
    ++ bitsOf f.version ++ bitsOf f.aux

/-- Every field before the check field, as sent (R189). -/
def bodyBits (f : Frame) : List Bool :=
  let g := examined f
  headerBits g ++ (if hasPayload g.kind then bitsOf g.payload else [])
    ++ (if hasReport g.kind then bitsOf g.report else [])

/-- The whole frame on the line (R189). -/
def encodeFrame (f : Frame) : List Bool := bodyBits f ++ bitsOf (frameCheck (bodyBits f))

/-- The length of a frame of a kind: 142, 8,334 or 398 bits (R189). -/
def frameLength (k : Kind) : Nat :=
  142 + (if hasPayload k then 8192 else 0) + (if hasReport k then 256 else 0)

/-- `n` bits of a frame from bit `i` on, as a word. -/
def fieldOf (l : List Bool) (i n : Nat) : BitVec n := wordOf n ((l.drop i).take n)

/-- The frame of a kind that bits hold, unused fields not examined (R189). -/
def readFrame (k : Kind) (l : List Bool) : Frame :=
  examined
    { kind := k
      sender := fieldOf l 2 5
      mark := fieldOf l 12 16
      tag := { origin := fieldOf l 28 5, seq := fieldOf l 33 8 }
      target := fieldOf l 41 5
      block := fieldOf l 46 24
      version := fieldOf l 70 32
      aux := fieldOf l 102 8
      payload := fieldOf l 110 8192
      report := fieldOf l 110 256 }

/-- The receive check: the frame heard, or none where the frame is discarded (R183). Bits cut short have not
the length of their kind. -/
def receiveCheck (l : List Bool) : Option Frame :=
  match kindOfCode (fieldOf l 7 5) with
  | none => none
  | some k =>
    if l.length = frameLength k ∧ fieldOf l 0 2 = kindClass k
        ∧ fieldOf l (frameLength k - 32) 32 = frameCheck (l.take (frameLength k - 32)) then
      some (readFrame k l)
    else none

/-! ### Arbitration (R179, R180) -/

/-- The 7 bits over which contention is settled: the class, then the sender's number (R180). -/
def arbitrationValue (f : Frame) : BitVec 7 := kindClass f.kind ++ f.sender

/-- The contest over the `n` lower bits, most significant first, against those still contending (R180): a bit sent as
0 is dominant, so a station that sends 1 reads it dominant where another sends 0, has lost and stops driving (R179). -/
def contest (own : BitVec 7) : Nat → List (BitVec 7) → Bool
  | 0, _ => true
  | n + 1, others =>
    if own.getLsbD n && others.any fun o => !o.getLsbD n then false
    else contest own n (others.filter fun o => o.getLsbD n == own.getLsbD n)

/-- The station reaches the end of the 7 bits without a loss (R180). -/
def winsArbitration (f : Frame) (others : List (BitVec 7)) : Bool := contest (arbitrationValue f) 7 others

/-! ### The frame of each kind -/

/-- A frame of a kind with nothing but its sender and roster mark. -/
def bareFrame (k : Kind) (src : Source) : Frame where
  kind := k
  sender := src.sender
  mark := src.mark
  tag := { origin := 0, seq := 0 }
  target := 0
  block := 0
  version := 0
  aux := 0
  payload := 0
  report := 0

def presentFrame (src : Source) (candidates : Mark) (c : Configuration) : Frame :=
  { bareFrame .present src with version := candidates.zeroExtend 32, aux := configurationAux c }

def rosterFrame (src : Source) (c : Configuration) : Frame :=
  { bareFrame .roster src with aux := configurationAux c }

def rosterQueryFrame (src : Source) : Frame := bareFrame .rosterQuery src

def peerDownFrame (src : Source) (named : StationNo) : Frame :=
  { bareFrame .peerDown src with target := named }

def rejoinFrame (src : Source) : Frame := bareFrame .rejoin src

def caughtUpFrame (src : Source) : Frame := bareFrame .caughtUp src

def replayDoneFrame (src : Source) (target : StationNo) (sweep : Bool) : Frame :=
  { bareFrame .replayDone src with target := target, aux := if sweep then 1 else 0 }

def stationResetFrame (src : Source) (target : StationNo) : Frame :=
  { bareFrame .stationReset src with target := target }

def orderFrame (src : Source) (tag : Tag) (b : Block) (v : Version) : Frame :=
  { bareFrame .order src with tag := tag, block := b, version := v }

def ackFrame (src : Source) (tag : Tag) (b : Block) (v : Version) : Frame :=
  { bareFrame .ack src with tag := tag, block := b, version := v }

def nackFrame (src : Source) (tag : Tag) (b : Block) (v : Version) (reason : BitVec 8) : Frame :=
  { bareFrame .nack src with tag := tag, block := b, version := v, aux := reason }

def dataFrame (src : Source) (tag : Tag) (b : Block) (v : Version) (d : Data) : Frame :=
  { bareFrame .data src with tag := tag, block := b, version := v, payload := d }

def unavailableFrame (src : Source) (tag : Tag) (b : Block) (reason : BitVec 8) : Frame :=
  { bareFrame .unavailable src with tag := tag, block := b, aux := reason }

def currentFrame (src : Source) (tag : Tag) (b : Block) (v : Version) : Frame :=
  { bareFrame .current src with tag := tag, block := b, version := v }

def readFrameOf (src : Source) (tag : Tag) (b : Block) : Frame :=
  { bareFrame .read src with tag := tag, block := b }

def writeFrame (src : Source) (tag : Tag) (b : Block) (d : Data) : Frame :=
  { bareFrame .write src with tag := tag, block := b, payload := d }

def flushFrame (src : Source) (tag : Tag) : Frame := { bareFrame .flush src with tag := tag }

/-- A FETCH: the version field is 0 and the unknown mark set where the requester's version is unknown (R189). -/
def fetchFrame (src : Source) (tag : Tag) (b : Block) (v : Version) (unknownMark : Bool) : Frame :=
  { bareFrame .fetch src with
    tag := tag, block := b, version := v, aux := if unknownMark then 1 else 0 }

def replayFrame (src : Source) (tag : Tag) (target : StationNo) (b : Block) (v : Version)
    (d : Data) : Frame :=
  { bareFrame .replay src with tag := tag, target := target, block := b, version := v, payload := d }

def statusQueryFrame (src : Source) (tag : Tag) (target : StationNo) : Frame :=
  { bareFrame .statusQuery src with tag := tag, target := target }

def statusReportFrame (src : Source) (tag : Tag) (target : StationNo) (r : Report) : Frame :=
  { bareFrame .statusReport src with tag := tag, target := target, report := r }

/-- The command that hearing a frame is, the strap pins being at these levels (R163). -/
def hearingOf (pins : Straps) (f : Frame) : Instr :=
  let src : Source := { sender := f.sender, mark := f.mark }
  match f.kind with
  | .present => .presentHeard src (f.version.extractLsb' 0 16) (auxConfiguration f.aux)
  | .roster => .rosterHeard src (auxConfiguration f.aux)
  | .rosterQuery => .rosterQueryHeard src
  | .peerDown => .peerDownHeard src f.target
  | .rejoin => .rejoinHeard src
  | .caughtUp => .caughtUpHeard src
  | .replayDone => .replayDoneHeard src f.target (f.aux.getLsbD 0)
  | .stationReset => .stationResetHeard { src := src, target := f.target } pins
  | .order => .orderHeard src f.tag f.block f.version
  | .ack => .ackHeard src f.tag f.block f.version
  | .nack => .nackHeard src f.tag f.block f.version f.aux
  | .data => .dataHeard src f.tag f.block f.version f.payload
  | .unavailable => .unavailableHeard src f.tag f.block f.aux
  | .current => .currentHeard src f.tag f.block f.version
  | .read => .readHeard src f.tag f.block
  | .write => .writeHeard src f.tag f.block f.payload
  | .flush => .flushHeard src f.tag
  | .fetch => .fetchHeard src f.tag f.block f.version (f.aux.getLsbD 0)
  | .replay => .replayHeard src f.tag f.target f.block f.version f.payload
  | .statusQuery => .statusQueryHeard src f.tag f.target
  | .statusReport => .statusReportHeard src f.tag f.target f.report

/-- The command that bits received from the line make: the hearing of the frame, or its discard (R183, R184). -/
def receptionOf (pins : Straps) (l : List Bool) : Instr :=
  match receiveCheck l with
  | some f => hearingOf pins f
  | none => .receiveCheckFail

end Sys2Proof.Machine
end

