-- ==== Sys2Proof/Machine/Flags.lean ====
section
/-! DEFINITION. Flags of the station: what its state admits, its counters and its status report. -/

namespace Sys2Proof.Machine

/-! ### The station state -/

/-- SERVING or CATCHING_UP: the states in which the data protocols and the recovery side work. -/
def inService (s : State) : Bool :=
  decide (s.member.state = .serving) || decide (s.member.state = .catchingUp)

/-- The station's own number, from its straps (R163). -/
def ownNumber (s : State) : StationNo := s.member.straps.number.zeroExtend 5

/-- What the station's frames carry about their sender (R12, R189). -/
def self (s : State) : Source := { sender := ownNumber s, mark := s.member.mark }

/-- The station's configuration (R163). -/
def ownConfiguration (s : State) : Configuration :=
  { copiesCode := s.member.straps.copiesCode, volumeCode := s.member.straps.volumeCode }

/-- The copies value: codes 01, 10 and 11 give 1, 2 and 3 (R163). -/
def copies (s : State) : Nat := s.member.straps.copiesCode.toNat

/-- The straps are valid: copies code not 00 and volume code not 7 (R163). -/
def validStraps (p : Straps) : Bool := decide (p.copiesCode ≠ 0) && decide (p.volumeCode ≠ 7)

/-- The volume size V = 2^(16 + volume code) (R8). -/
def volume (s : State) : Nat := 2 ^ (16 + s.member.straps.volumeCode.toNat)

/-- The block number is below V (R9). -/
def inRange (s : State) (b : Block) : Bool := decide (b.toNat < volume s)

/-- The group of a block (R10). -/
def groupOf (b : Block) : Nat := b.toNat % Config.groupCount

/-- Station `n` is in the set `m`; only store stations can be. -/
def inMark (m : Mark) (n : StationNo) : Bool := m.getLsbD n.toNat

/-- The set holding one station (R189). -/
def markOf (n : StationNo) : Mark := BitVec.ofNat 16 (2 ^ n.toNat)

/-- The members of a set in ascending station number. -/
def markMembers (m : Mark) : List StationNo :=
  ((List.range 16).map (BitVec.ofNat 5)).filter fun n => inMark m n

/-- A member of the roster (00_scope.md 3). -/
def isMember (s : State) (n : StationNo) : Bool := inMark s.member.mark n

/-- The frame's roster mark equals the station's. -/
def markMatches (s : State) (src : Source) : Bool := decide (src.mark = s.member.mark)

/-! ### Placement (R11, R13, R14) -/

/-- The replica list of group `g` over the members in ascending number (R11). -/
def replicaList (members : List StationNo) (copies g : Nat) : List StationNo :=
  (List.range copies).map fun k => members.getD ((g + k) % members.length) 0

/-- The placement table of a roster (R11). -/
def buildPlacement (mark : Mark) (copies : Nat) : List (List StationNo) :=
  (List.range Config.groupCount).map (replicaList (markMembers mark) copies)

/-- The replica list of a group. Outside a roster fixed as a member the station is a replica of no group: the
table holds no lists (R12), or is kept unused in SPECTATOR (R12, R169; log 37). -/
def replicas (s : State) (g : Nat) : List StationNo :=
  if s.member.member then s.member.placement.getD g [] else []

/-- The station holds group `g` (R13). -/
def holdsGroup (s : State) (g : Nat) : Bool := (replicas s g).contains (ownNumber s)

/-- The station is a replica of the block's group (R13). -/
def isReplica (s : State) (b : Block) : Bool := holdsGroup s (groupOf b)

/-- The co-replicas of the station for a group (R14). -/
def coReplicas (s : State) (g : Nat) : List StationNo :=
  if holdsGroup s g then (replicas s g).filter (fun n => decide (n ≠ ownNumber s)) else []

/-- The groups the station holds. -/
def heldGroups (s : State) : List Nat := (List.range Config.groupCount).filter (holdsGroup s)

/-- The groups the station shares with peer `p` (R14). -/
def sharedGroups (s : State) (p : StationNo) : List Nat :=
  (heldGroups s).filter fun g => (replicas s g).contains p

/-! ### The Peer Table, as others read it (R121) -/

/-- The peer's entry. -/
def peerEntry (s : State) (p : StationNo) : Option PeerEntry :=
  s.peers.find? fun e => decide (e.peer = p)

def peerState (s : State) (p : StationNo) : Option PeerState := (peerEntry s p).map (·.state)

def isPresent (s : State) (p : StationNo) : Bool := decide (peerState s p = some .present)

def isAbsent (s : State) (p : StationNo) : Bool := decide (peerState s p = some .absent)

def isCatchingUp (s : State) (p : StationNo) : Bool := decide (peerState s p = some .catchingUp)

/-- PRESENT or CATCHING_UP. -/
def isLive (s : State) (p : StationNo) : Bool := isPresent s p || isCatchingUp s p

/-- The group has a co-replica marked PRESENT or CATCHING_UP (R143, R156). -/
def groupLive (s : State) (g : Nat) : Bool := (coReplicas s g).any (isLive s)

/-- The slot wait over an answering list: 60 µs for each station before this one that is marked PRESENT (R15). -/
def slotWait (s : State) (answering : List StationNo) : Nat :=
  Config.answerSlot * (answering.takeWhile fun n => decide (n ≠ ownNumber s)).countP (isPresent s)

/-- The stations after this one in an answering list. -/
def stationsAfter (s : State) (answering : List StationNo) : List StationNo :=
  (answering.dropWhile fun n => decide (n ≠ ownNumber s)).drop 1

/-! ### Counters (R195) -/

/-- A counter advanced by one; at 65,535 it stays (R195). -/
def advance (c : BitVec 16) : BitVec 16 := if c = 65535 then c else c + 1

def countCorrected (s : State) : State :=
  { s with counters := { s.counters with corrected := advance s.counters.corrected } }

def countUncorrectable (s : State) : State :=
  { s with counters := { s.counters with uncorrectable := advance s.counters.uncorrectable } }

def countRefresh (s : State) : State :=
  { s with counters := { s.counters with refreshes := advance s.counters.refreshes } }

def countDiscarded (s : State) : State :=
  { s with counters := { s.counters with discarded := advance s.counters.discarded } }

def countDropped (s : State) : State :=
  { s with counters := { s.counters with
      droppedOnTransmit := advance s.counters.droppedOnTransmit } }

def countAnswerDropped (s : State) : State :=
  { s with counters := { s.counters with answersDropped := advance s.counters.answersDropped } }

def countExpired (s : State) : State :=
  { s with counters := { s.counters with entriesExpired := advance s.counters.entriesExpired } }

def countMismatched (s : State) : State :=
  { s with counters := { s.counters with
      mismatchedPresent := advance s.counters.mismatchedPresent } }

/-! ### The status report (R193, R194) -/

def Slot.isFree : Slot → Bool
  | .free => true
  | .held .. | .filling .. | .clean .. | .dirty .. | .writing .. | .retiring .. => false

/-- DIRTY, WRITING or RETIRING: its data is not yet on the media (R72). -/
def Slot.isUnwritten : Slot → Bool
  | .dirty .. | .writing .. | .retiring .. => true
  | .free | .held .. | .filling .. | .clean .. => false

/-- Free slots (R72). -/
def freeSlots (s : State) : Nat := s.cache.slots.countP Slot.isFree

/-- Dirty slots (R72). -/
def dirtySlots (s : State) : Nat := s.cache.slots.countP Slot.isUnwritten

/-- The code of a station state (R194). -/
def stateCode : StationState → BitVec 4
  | .starting => 0 | .listening => 1 | .forming => 2 | .serving => 3 | .catchingUp => 4
  | .spectator => 5 | .resetting => 6 | .out _ => 7

/-- The code of an OUT reason, 0 outside OUT (R194). -/
def reasonOfState : StationState → BitVec 4
  | .out .mediaDown => 1 | .out .duplicateNumber => 2 | .out .badStrap => 3
  | .starting | .listening | .forming | .serving | .catchingUp | .spectator | .resetting => 0

/-- The sweep cursor as reported: 16,777,215 when there is no current group (R193, R194). -/
def reportedCursor (s : State) : BitVec 24 :=
  match s.repair.group with
  | none => 16777215
  | some _ => BitVec.ofNat 24 s.repair.cursor

/-- The status report: its fields in order, each most significant bit first (R193). -/
def statusReport (s : State) : Report :=
  stateCode s.member.state ++ reasonOfState s.member.state ++ s.member.mark ++ reportedCursor s
    ++ BitVec.ofNat 24 s.repair.unverified ++ BitVec.ofNat 6 (freeSlots s)
    ++ BitVec.ofNat 6 (dirtySlots s) ++ BitVec.ofNat 5 s.table.length
    ++ BitVec.ofNat 7 s.repair.list.length ++ BitVec.ofNat 16 s.replay.pool.length
    ++ s.replay.overflow ++ s.counters.corrected ++ s.counters.uncorrectable
    ++ s.counters.refreshes ++ s.counters.discarded ++ s.counters.droppedOnTransmit
    ++ s.counters.answersDropped ++ s.counters.entriesExpired ++ s.counters.mismatchedPresent

end Sys2Proof.Machine
end

