-- ==== Sys2Proof/Machine/Ops.lean ====
section
/-! DEFINITION. The named operations every meaning is written over: time, transmit queue, record memory, request table, cache slots and the media command queue. -/

namespace Sys2Proof.Machine

/-! ### Time -/

/-- The clock at moment `due` at the earliest: taking a timer's expiry moves time on to it (log 1). -/
def reach (s : State) (due : Nat) : State := { s with clock := max s.clock due }

/-! ### The request table (R58 to R69) -/

def EntryState.finished : EntryState → Bool
  | .acked | .refused | .answered | .suppressed | .silent | .done | .expired => true
  | .lookup | .waitOrder | .committing | .slotWait | .draining | .outstanding => false

/-- The entry with a tag (R58: at most one). -/
def findEntry (s : State) (t : Tag) : Option Entry := s.table.find? fun e => decide (e.tag = t)

/-- Change the entry with a tag. -/
def updateEntry (s : State) (t : Tag) (f : Entry → Entry) : State :=
  { s with table := s.table.map fun e => if e.tag = t then f e else e }

/-- Take the entry with a tag out of the table. -/
def dropEntry (s : State) (t : Tag) : State :=
  { s with table := s.table.filter fun e => decide (e.tag ≠ t) }

/-- A new entry as R58 makes it: every optional field absent, created now. -/
def newEntry (s : State) (t : Tag) (kind : EntryKind) (b : Option Block) (st : EntryState) : Entry where
  tag := t
  kind := kind
  block := b
  state := st
  reason := none
  slot := none
  ownVersion := none
  committed := none
  followed := none
  followSeq := 0
  superseded := none
  heard := []
  sent := none
  ackWindow := none
  created := s.clock
  finished := if st.finished then some s.clock else none
  attempts := 1
  wait := none
  failure := none
  requester := none
  requested := none
  target := none
  drain := []

/-- Put an entry at the end of the table. -/
def addEntry (s : State) (e : Entry) : State := { s with table := s.table ++ [e] }

/-- The lookup is one that the entry with this tag waits for. -/
def LookupUser.isFor (t : Tag) : LookupUser → Bool
  | .write t' => decide (t' = t)
  | .decision t' => decide (t' = t)
  | .copy t' => decide (t' = t)
  | .push _ | .fetch _ | .stale _ | .replayAck .. => false

/-- Remove the waiters that meet `sel`: they stopped waiting (R77). -/
def dropWaiters (s : State) (sel : LookupUser → Bool) : State :=
  { s with cache := { s.cache with waiters := s.cache.waiters.filter fun w => !sel w.user } }

/-- The finished time of an entry that enters a finished state; one that already stands in it keeps its own
(R60). -/
def Entry.finishTime (e : Entry) (st : EntryState) (now : Nat) : Option Nat :=
  if e.state = st then e.finished else some now

/-- The entry enters a finished state: its wait ends, it holds no slot and it waits for no lookup
(R16, R60, R69, R77). -/
def finishEntry (s : State) (t : Tag) (st : EntryState) : State :=
  dropWaiters
    (updateEntry s t fun e =>
      { e with state := st, finished := e.finishTime st s.clock, wait := none, slot := none })
    (LookupUser.isFor t)

/-- The entry becomes EXPIRED and is counted (R67). -/
def expireEntry (s : State) (t : Tag) : State := countExpired (finishEntry s t .expired)

/-- The highest of a version heard before, if any, and one heard now. -/
def highest (old : Option Version) (v : Version) : Option Version :=
  match old with
  | some w => if w < v then some v else some w
  | none => some v

/-- An answer of a kind and version added to what one station is recorded to have answered (R58). Kinds that
are no answers change nothing. -/
def HeardAnswer.add (h : HeardAnswer) (k : Kind) (v : Version) : HeardAnswer :=
  match k with
  | .ack => { h with ack := highest h.ack v }
  | .nack => { h with nack := highest h.nack v }
  | .data => { h with data := highest h.data v }
  | .unavailable => { h with unavailable := highest h.unavailable v }
  | .current => { h with current := highest h.current v }
  | .present | .roster | .rosterQuery | .peerDown | .rejoin | .caughtUp | .replayDone
  | .stationReset | .order | .read | .write | .flush | .fetch | .replay | .statusQuery
  | .statusReport => h

/-- Heard answers with one more answer: at most one record per station (R58). -/
def addAnswer (l : List HeardAnswer) (n : StationNo) (k : Kind) (v : Version) : List HeardAnswer :=
  if l.any (fun h => decide (h.station = n)) then
    l.map fun h => if h.station = n then h.add k v else h
  else
    l ++ [({ station := n, ack := none, nack := none, data := none, unavailable := none,
             current := none } : HeardAnswer).add k v]

/-- Record an answer in the entry with a tag (R36, R50, R58). -/
def recordAnswer (s : State) (t : Tag) (n : StationNo) (k : Kind) (v : Version) : State :=
  updateEntry s t fun e => { e with heard := addAnswer e.heard n k v }

/-- Record the answer queued for a tag (R58). -/
def recordSent (s : State) (t : Tag) (k : Kind) (v : Version) : State :=
  updateEntry s t fun e => { e with sent := some { kind := k, version := v } }

/-- A DATA is recorded as sent in the entry (R48). -/
def Entry.sentData (e : Entry) : Bool :=
  match e.sent with
  | some a => decide (a.kind = .data)
  | none => false

/-- A NACK is recorded as sent in the entry (R21). -/
def Entry.sentNack (e : Entry) : Bool :=
  match e.sent with
  | some a => decide (a.kind = .nack)
  | none => false

/-- The block of an entry; every kind but CLIENT_FLUSH has one (R58). -/
def Entry.blk (e : Entry) : Block := e.block.getD 0

/-- `a` is reused before `b`: it finished earlier, or at the same time and was created earlier (R63). -/
def reusedBefore (a b : Entry) : Bool :=
  decide (a.finished.getD 0 < b.finished.getD 0)
    || (decide (a.finished.getD 0 = b.finished.getD 0) && decide (a.created < b.created))

/-- The finished entry to be reused early, the first in the table among equals (R63; log 38). -/
def oldestFinished (s : State) : Option Entry :=
  (s.table.filter fun e => e.state.finished).foldl
    (fun best e =>
      match best with
      | none => some e
      | some b => if reusedBefore e b then some e else some b)
    none

/-- The table can give an entry: a free one, or a finished one reused early (R20, R63). -/
def canGiveEntry (s : State) : Bool :=
  decide (s.table.length < Config.tableSize) || (oldestFinished s).isSome

/-- The next free tag of the station's own: the sequence counter's value, or the next value not in the table
(R62). -/
def ownTag (s : State) : Tag :=
  let tagAt (k : Nat) : Tag := { origin := ownNumber s, seq := s.sequence + BitVec.ofNat 8 k }
  match (List.range 256).find? fun k => (findEntry s (tagAt k)).isNone with
  | some k => tagAt k
  | none => tagAt 0

/-- Take that tag: the counter goes on behind it, from 255 to 0 (R62). -/
def takeTag (s : State) : State := { s with sequence := (ownTag s).seq + 1 }

/-! ### The transmit queue (R181, R186, R187) -/

/-- A refused frame that counts as an answer: class 1, a ROSTER or a STATUS_REPORT (R186). -/
def isAnswer (k : Kind) : Bool :=
  decide (kindClass k = 1) || decide (k = .roster) || decide (k = .statusReport)

/-- Frames of classes 1, 2 and 3 in a queue. -/
def lowClassCount (q : List TxFrame) : Nat :=
  q.countP fun t => decide (kindClass t.frame.kind ≠ 0)

/-- The Bus Interface accepts a frame of this kind now (R186; after a station reset, R188). -/
def accepts (s : State) (k : Kind) : Bool :=
  s.bus.accepting && decide (s.bus.queue.length < Config.queueSize)
    && (decide (kindClass k = 0) || decide (lowClassCount s.bus.queue < Config.queueSizeLowClasses))

/-- A frame as it enters the queue. -/
def queuedFrame (f : Frame) (p : Purpose) : TxFrame :=
  { frame := f, purpose := p, phase := .queued, attempts := 0, withdrawal := none }

/-- Offer a frame: it is queued, or refused, a refused answer being counted (R186). -/
def offer (s : State) (f : Frame) (p : Purpose) : State :=
  if accepts s f.kind then
    { s with bus := { s.bus with queue := s.bus.queue ++ [queuedFrame f p] } }
  else if isAnswer f.kind then countAnswerDropped s
  else s

/-- Replace the transmit queue; after a station reset the interface accepts frames again once it is empty
(R188). -/
def setQueue (s : State) (q : List TxFrame) : State :=
  { s with bus := { s.bus with queue := q, accepting := s.bus.accepting || q.isEmpty } }

/-- An entry whose answer is withdrawn enters this state: an ANSWERED one does, and a READ or FETCH entry that finished
otherwise is SUPPRESSED by a frame that withdraws an answer queued before it was restarted (R49; log 55). -/
def Entry.entersOnWithdrawal (e : Entry) (st : EntryState) : Bool :=
  decide (e.state = .answered)
    || (decide (st = .suppressed) && e.state.finished
      && (decide (e.kind = .clientRead) || decide (e.kind = .peerFetch)))

/-- What the withdrawal of a frame does beyond taking it from the queue: a withdrawn REPLAY_DONE restores the
overflow flag it carried (R137), a withdrawn DATA is no longer recorded as sent (R48), and the entry whose
answer it was enters the state its rule names. A withdrawn CURRENT or UNAVAILABLE stays recorded as the answer sent
(DESIGN CHOICE, log 60). -/
def afterWithdrawal (s : State) (f : TxFrame) (w : Withdrawal) : State :=
  let s1 :=
    match f.purpose with
    | .replayDone p true =>
      { s with replay := { s.replay with overflow := s.replay.overflow ||| markOf p } }
    | .readAnswer | .fetchAnswer =>
      if f.frame.kind = .data then updateEntry s f.frame.tag fun e => { e with sent := none } else s
    | _ => s
  match w with
  | .plain => s1
  | .entryBecomes st =>
    match findEntry s1 f.frame.tag with
    | none => s1
    | some e =>
      if e.entersOnWithdrawal st then
        if st = .expired then expireEntry s1 f.frame.tag else finishEntry s1 f.frame.tag st
      else s1

/-- Ask to withdraw every frame that meets `sel` (R187): a queued one leaves the queue, a contending one holds
the request until arbitration ends, one in transmission is not touched. Of two requests made while a frame contends
the later is the one held (DESIGN CHOICE, log 54). -/
def withdraw (s : State) (sel : TxFrame → Bool) (w : Withdrawal) : State :=
  let gone := s.bus.queue.filter fun f => sel f && decide (f.phase = .queued)
  let keep := (s.bus.queue.filter fun f => !(sel f && decide (f.phase = .queued))).map fun f =>
    if sel f && decide (f.phase = .contending) then { f with withdrawal := some w } else f
  if gone.isEmpty then { s with bus := { s.bus with queue := keep } }
  else gone.foldl (fun s f => afterWithdrawal s f w) (setQueue s keep)

/-- A frame of this purpose. -/
def forPurpose (p : Purpose) (f : TxFrame) : Bool := decide (f.purpose = p)

/-- A frame of this purpose that carries this tag. -/
def forTag (p : Purpose) (t : Tag) (f : TxFrame) : Bool :=
  decide (f.purpose = p) && decide (f.frame.tag = t)

/-- The frame of this purpose and tag queued last, of those whose transmission has not begun. For an answer it is the
entry's own: an older one was queued before the entry was restarted (R55). -/
def waitingFrame (s : State) (p : Purpose) (t : Tag) : Option TxFrame :=
  (s.bus.queue.filter fun f => forTag p t f && decide (f.phase ≠ .inTransmission)).getLast?

/-! ### The record memory (R1, R2, R93, R96) -/

/-- The record of a block never written: zero data, version 0, written mark clear (R2). What an unlisted block
number reads as. -/
def neverWritten : Record := { written := false, version := 0, data := 0, wrong := [], damaged := false }

/-- The record as a write leaves it that the memory has carried out (R96). -/
def newRecord (v : Version) (d : Data) : Record :=
  { written := true, version := v, data := d, wrong := [], damaged := false }

/-- A bit position put in its ascending place, or taken out where it stands already: a wrong bit that changes again
is right. -/
def flipBit (p : Nat) : List Nat → List Nat
  | [] => [p]
  | q :: l => if p < q then p :: q :: l else if p = q then l else q :: flipBit p l

/-- The record with the bits at these positions changed. -/
def Record.flip (r : Record) (ps : List Nat) : Record := { r with wrong := ps.foldl (fun l p => flipBit p l) r.wrong }

/-- A burst count and the end of its last burst, with one more wrong position taken in: a burst is the wrong bits
within 8 consecutive positions (R93). -/
def takeWrong (a : Nat × Nat) (p : Nat) : Nat × Nat := if p < a.2 then a else (a.1 + 1, p + 8)

/-- The least number of bursts that ascending wrong positions can be grouped into (R93). -/
def burstCount (l : List Nat) : Nat := (l.foldl takeWrong (0, 0)).1

/-- The check unit on a record read: the bursts it corrects, at most three, or none where the record is beyond
correction (R93, R96). -/
def Record.check (r : Record) : Option Nat :=
  if r.damaged = false ∧ burstCount r.wrong ≤ 3 then some (burstCount r.wrong) else none

/-- The record stored for a block number. -/
def readMedia (m : List (Nat × Record)) (a : Nat) : Record :=
  match m.find? fun c => decide (c.1 = a) with
  | some c => c.2
  | none => neverWritten

/-- A record put into a list whose block numbers rise, in place of the one stored there. -/
def insertRecord (a : Nat) (r : Record) : List (Nat × Record) → List (Nat × Record)
  | [] => [(a, r)]
  | c :: m =>
    if a < c.1 then (a, r) :: c :: m
    else if a = c.1 then (a, r) :: m
    else c :: insertRecord a r m

/-- Store a record. A record whose written mark is clear reads as never-written (R2, R93; log 9), so it is not
listed. -/
def writeMedia (m : List (Nat × Record)) (a : Nat) (r : Record) : List (Nat × Record) :=
  if r.written then insertRecord a r m else m.filter fun c => decide (c.1 ≠ a)

/-- The wrong positions of a record strictly rise. -/
def Record.wf (r : Record) : Bool := decide (r.wrong.Pairwise fun a b => a < b)

/-- The canonical form of the record memory: block numbers strictly rising, every listed record written, its wrong
positions strictly rising. -/
def mediaWf (m : List (Nat × Record)) : Bool :=
  decide (m.Pairwise fun a b => a.1 < b.1) && m.all fun c => c.2.written && c.2.wf

/-- Change the stored record of a block. -/
def storeRecord (s : State) (b : Block) (r : Record) : State :=
  { s with media := writeMedia s.media b.toNat r }

/-! ### Cache slots (R72 to R75) -/

/-- The slot is the current slot of the block: FILLING, CLEAN, DIRTY or WRITING (R73). -/
def Slot.isCurrentOf (b : Block) : Slot → Bool
  | .filling b' => decide (b' = b)
  | .clean b' _ _ _ => decide (b' = b)
  | .dirty b' _ _ _ => decide (b' = b)
  | .writing b' _ _ => decide (b' = b)
  | .free | .held .. | .retiring .. => false

/-- Version and data of a slot in CLEAN, DIRTY or WRITING. -/
def Slot.copy : Slot → Option (Version × Data)
  | .clean _ v d _ => some (v, d)
  | .dirty _ v d _ => some (v, d)
  | .writing _ v d => some (v, d)
  | .free | .held .. | .filling .. | .retiring .. => none

def Slot.isFilling : Slot → Bool
  | .filling _ => true
  | .free | .held .. | .clean .. | .dirty .. | .writing .. | .retiring .. => false

def slotAt (s : State) (i : Nat) : Slot := s.cache.slots.getD i .free

def setSlot (s : State) (i : Nat) (x : Slot) : State :=
  { s with cache := { s.cache with slots := s.cache.slots.set i x } }

/-- The index of the block's current slot (R73). -/
def currentSlot (s : State) (b : Block) : Option Nat :=
  s.cache.slots.findIdx? (Slot.isCurrentOf b)

/-- The block's current copy, where its current slot is CLEAN, DIRTY or WRITING: slot, version and data. -/
def currentCopy (s : State) (b : Block) : Option (Nat × Version × Data) :=
  match currentSlot s b with
  | none => none
  | some i => (slotAt s i).copy.map fun c => (i, c.1, c.2)

/-- The held version, where a current slot in CLEAN, DIRTY or WRITING gives it (R73). -/
def heldVersion (s : State) (b : Block) : Option Version := (currentCopy s b).map fun c => c.2.1

/-- The block's current slot is FILLING. -/
def isFilling (s : State) (b : Block) : Bool :=
  match currentSlot s b with
  | none => false
  | some i => (slotAt s i).isFilling

/-- A new place at the end of the recency order (R74). -/
def nextRecency (s : State) : State := { s with cache := { s.cache with recency := s.cache.recency + 1 } }

/-- A CLEAN slot becomes the most recently used (R74). -/
def touchSlot (s : State) (i : Nat) : State :=
  match slotAt s i with
  | .clean b v d _ => setSlot (nextRecency s) i (.clean b v d (s.cache.recency + 1))
  | .free | .held .. | .filling .. | .dirty .. | .writing .. | .retiring .. => s

/-- The slot becomes CLEAN, the most recently used (R74, R78, R86). -/
def makeClean (s : State) (i : Nat) (b : Block) (v : Version) (d : Data) : State :=
  setSlot (nextRecency s) i (.clean b v d (s.cache.recency + 1))

/-- The slot becomes DIRTY with a new commit order (R72). -/
def makeDirty (s : State) (i : Nat) (b : Block) (v : Version) (d : Data) : State :=
  setSlot { s with cache := { s.cache with commitOrder := s.cache.commitOrder + 1 } } i
    (.dirty b v d (s.cache.commitOrder + 1))

/-- A write entry in LOOKUP, WAIT_ORDER, COMMITTING or ACKED pins its block's slot (R75). -/
def Entry.pinsBlock (e : Entry) (b : Block) : Bool :=
  decide (e.kind = .clientWrite) && decide (e.block = some b)
    && (decide (e.state = .lookup) || decide (e.state = .waitOrder)
      || decide (e.state = .committing) || decide (e.state = .acked))

/-- A read or fetch entry in SLOT_WAIT that holds the slot pins it (R75). -/
def Entry.holdsSlot (e : Entry) (i : Nat) : Bool :=
  (decide (e.kind = .clientRead) || decide (e.kind = .peerFetch))
    && decide (e.state = .slotWait) && decide (e.slot = some i)

/-- The CLEAN slot of this block at this index is pinned (R75). -/
def pinned (s : State) (i : Nat) (b : Block) : Bool :=
  s.table.any fun e => e.pinsBlock b || e.holdsSlot i

/-- The CLEAN slots open to replacement, with their recency (R74, R75). -/
def replaceable (s : State) : List (Nat × Nat) :=
  s.cache.slots.zipIdx.filterMap fun x =>
    match x.1 with
    | .clean b _ _ r => if pinned s x.2 b then none else some (x.2, r)
    | .free | .held .. | .filling .. | .dirty .. | .writing .. | .retiring .. => none

/-- The pair of lowest recency. -/
def leastRecent : List (Nat × Nat) → Option (Nat × Nat)
  | [] => none
  | x :: l =>
    match leastRecent l with
    | none => some x
    | some y => if y.2 < x.2 then some y else some x

/-- Allocation: a FREE slot, otherwise the least recently used CLEAN slot not pinned, otherwise no slot (R74). Of
several FREE slots the one of lowest index is given (DESIGN CHOICE, log 41). The slot given is to be filled afresh by
the requester. -/
def allocate (s : State) : Option Nat :=
  match s.cache.slots.findIdx? Slot.isFree with
  | some i => some i
  | none => (leastRecent (replaceable s)).map (·.1)

/-- Free every HELD slot whose owner meets `sel`. -/
def freeHeld (s : State) (sel : HeldOwner → Bool) : State :=
  { s with cache := { s.cache with slots := s.cache.slots.map fun x =>
      match x with
      | .held _ _ o _ => if sel o then .free else x
      | .free | .filling .. | .clean .. | .dirty .. | .writing .. | .retiring .. => x } }

/-! ### The media command queue (R83, R97, R98) -/

/-- What the port presents first for a command: a write for WRITE_RECORD, a read otherwise (R94 to R96). -/
def firstPhase : MediaCmd → PortPhase
  | .readHeader _ => .reading
  | .readRecord _ _ => .reading
  | .writeRecord _ _ _ _ => .writing

/-- Present a new operation to the memory. -/
def present (s : State) (ph : PortPhase) : State :=
  { s with port := { s.port with phase := ph, op := s.port.op + 1 } }

/-- Present the first operation of an attempt: the 50 ms timer starts (R98). -/
def startAttempt (s : State) (ph : PortPhase) : State :=
  present { s with port := { s.port with timer := some (s.clock + Config.attemptTimeout) } } ph

/-- Take the command at the head of the queue into service, if the port is idle: its first attempt begins with
a retry count of 0 (R97, R99). -/
def serveHead (s : State) : State :=
  match s.port.queue with
  | [] => s
  | c :: _ =>
    if s.port.phase = .idle ∧ s.port.down = false then
      startAttempt { s with port := { s.port with retry := 0 } } (firstPhase c)
    else s

/-- Issue a media command: into the queue, or behind the commands that wait (R83). A port that is down takes
none (R107). -/
def issue (s : State) (c : MediaCmd) : State :=
  if s.port.down then s
  else if s.cache.waiting = [] ∧ s.port.queue.length < Config.mediaQueueSize then
    serveHead { s with port := { s.port with queue := s.port.queue ++ [c] } }
  else { s with cache := { s.cache with waiting := s.cache.waiting ++ [c] } }

/-- Empty the waiting list into the queue as far as room lasts (R83). -/
def refillQueue (s : State) : State :=
  let room := Config.mediaQueueSize - s.port.queue.length
  { s with
    port := { s.port with queue := s.port.queue ++ s.cache.waiting.take room }
    cache := { s.cache with waiting := s.cache.waiting.drop room } }

def MediaCmd.isWrite : MediaCmd → Bool
  | .writeRecord .. => true
  | .readHeader .. | .readRecord .. => false

def MediaCmd.isHeaderOf (b : Block) : MediaCmd → Bool
  | .readHeader b' => decide (b' = b)
  | .readRecord .. | .writeRecord .. => false

/-- Every command the cache has issued and not yet seen completed. -/
def commandsInFlight (s : State) : List MediaCmd := s.port.queue ++ s.cache.waiting

/-- A READ_HEADER of the block is in flight (R77). -/
def headerInFlight (s : State) (b : Block) : Bool := (commandsInFlight s).any (MediaCmd.isHeaderOf b)

/-- WRITE_RECORDs uncompleted (R84). -/
def writesInFlight (s : State) : Nat := (commandsInFlight s).countP MediaCmd.isWrite

/-- Add a waiter on a media read (R77). -/
def addWaiter (s : State) (b : Block) (k : ReadKind) (u : LookupUser) : State :=
  { s with cache := { s.cache with waiters := s.cache.waiters ++ [{ block := b, on := k, user := u }] } }

end Sys2Proof.Machine
end

