-- ==== Sys2Proof/Machine/Recovery.lean ====
section
/-! DEFINITION. The recovery side: ends of pushes and fetches, the sweep group set, the start of a catch-up, the repair list, the Peer Table and the missed-write lists. -/

namespace Sys2Proof.Machine

/-! ### Ends of the station's own entries -/

/-- An own entry still OUTSTANDING enters a finished state (R130, R148). -/
def closeOwn (s : State) (t : Tag) (st : EntryState) : State :=
  match findEntry s t with
  | none => s
  | some e =>
    if e.state = .outstanding then (if st = .expired then expireEntry s t else finishEntry s t st)
    else s

/-- A push ends: its list entry, if still there, is no longer being pushed and has this retry time; its
OWN_REPLAY entry enters the state; its REPLAY is withdrawn if its transmission has not begun (R129 to R133). -/
def endPush (s : State) (p : Push) (retry : Option Nat) (st : EntryState) : State :=
  let s1 := { s with replay := { s.replay with
      pushes := s.replay.pushes.filter fun q => decide (q.id ≠ p.id)
      pool := s.replay.pool.map fun m =>
        if m.peer = p.peer ∧ m.block = p.block then { m with push := false, retry := retry } else m } }
  let s2 := dropWaiters s1 fun u => decide (u = .push p.id)
  match p.tag with
  | none => s2
  | some t => withdraw (closeOwn s2 t st) (forTag .ownReplay t) .plain

/-- End every push that meets `sel` (R130). -/
def endPushes (s : State) (sel : Push → Bool) (st : EntryState) : State :=
  (s.replay.pushes.filter sel).foldl (fun s p => endPush s p none st) s

/-- A fetch ends: its OWN_FETCH entry, if made, enters the state, and its FETCH is withdrawn if its transmission
has not begun (R146 to R148). -/
def endFetch (s : State) (f : Fetch) (st : EntryState) : State :=
  let s1 := { s with repair := { s.repair with
      fetches := s.repair.fetches.filter fun g => decide (g.id ≠ f.id) } }
  let s2 := dropWaiters s1 fun u => decide (u = .fetch f.id)
  match f.tag with
  | none => s2
  | some t => withdraw (closeOwn s2 t st) (forTag .ownFetch t) .plain

/-- End every fetch that meets `sel` (R148). -/
def endFetches (s : State) (sel : Fetch → Bool) (st : EntryState) : State :=
  (s.repair.fetches.filter sel).foldl (fun s f => endFetch s f st) s

/-- Drop the pending commit of a fetch and free its slot (R80, R148). -/
def dropFetchCommit (s : State) (id : Nat) : State :=
  freeHeld
    { s with cache := { s.cache with
        pendings := s.cache.pendings.filter fun p => decide (p.source ≠ .ownFetch id) } }
    fun o => decide (o = .ownFetch id)

/-! ### The sweep group set (R160) and unverified blocks (R156) -/

/-- A group number put in its ascending place; one already in the set is not added twice. -/
def insertGroup (g : Nat) : List Nat → List Nat
  | [] => [g]
  | h :: l => if g < h then g :: h :: l else if g = h then h :: l else h :: insertGroup g l

/-- Add groups to the sweep group set (R160): only groups the station holds; the current group is restarted. -/
def addGroups (s : State) (gs : List Nat) : State :=
  gs.foldl
    (fun s g =>
      if holdsGroup s g then
        { s with repair := { s.repair with
            sweepSet := insertGroup g s.repair.sweepSet
            cursor := if s.repair.group = some g then g else s.repair.cursor } }
      else s)
    s

/-- Count `n` more blocks unverified, V at most (R156). -/
def countUnverified (s : State) (n : Nat) : State :=
  { s with repair := { s.repair with unverified := min (volume s) (s.repair.unverified + n) } }

/-- Blocks that wait for room and whose group has no live co-replica are counted unverified and stop waiting
(R159). -/
def dropDeadRoom (s : State) : State :=
  let dead := s.repair.waitingRoom.filter fun b => !groupLive s (groupOf b)
  let s1 := { s with repair := { s.repair with
      waitingRoom := s.repair.waitingRoom.filter fun b => groupLive s (groupOf b) } }
  countUnverified s1 dead.length

/-! ### The start of a catch-up (R152) -/

/-- Entries of a kind still unfinished enter the state, and the answers of that kind still queued are withdrawn if
their transmission has not begun (R56, R70). An entry already ANSWERED whose answer is withdrawn so enters the state
too, its finished time renewed, an EXPIRED one counted (DESIGN CHOICE, log 44). -/
def closeAnswers (s : State) (k : EntryKind) (p : Purpose) (st : EntryState) : State :=
  let s1 := (s.table.filter fun e => decide (e.kind = k) && !e.state.finished).foldl
    (fun s e => if st = .expired then expireEntry s e.tag else finishEntry s e.tag st) s
  withdraw s1 (forPurpose p) (.entryBecomes st)

/-- Queue the REJOIN of the catch-up in progress; refused, it is queued again 5 ms later (R153). -/
def queueRejoin (s : State) : State :=
  if accepts s .rejoin then
    offer { s with repair := { s.repair with rejoinRequeue := none } } (rejoinFrame (self s))
      (.rejoin s.repair.serial)
  else
    { s with repair := { s.repair with rejoinRequeue := some (s.clock + Config.retryDelay) } }

/-- A REJOIN or CAUGHT_UP of any catch-up. -/
def isCatchUpFrame (f : TxFrame) : Bool :=
  match f.purpose with
  | .rejoin _ => true
  | .caughtUp => true
  | _ => false

/-- SERVING to CATCHING_UP: a queued lead ORDER is withdrawn and reads in progress fall silent (R26, R39, R56). -/
def stopServing (s : State) : State :=
  if s.member.state = .serving then
    closeAnswers (withdraw s (forPurpose .leadOrder) .plain) .clientRead .readAnswer .silent
  else s

/-- Step 2 of R152: forget the catch-up in progress. A block it held back to be taken again is dropped with the
sweep's place (DESIGN CHOICE, log 28). -/
def forgetCatchUp (s : State) : State :=
  let s1 := withdraw (endFetches s (·.sweep) .done) isCatchUpFrame .plain
  { s1 with repair := { s1.repair with
      awaited := 0
      limit := none
      rejoinSent := false
      group := none
      retakes := []
      rejoinRequeue := none
      caughtUpRequeue := none } }

/-- A catch-up begins, or begins afresh (R152). -/
def beginCatchUp (s : State) : State :=
  let s1 := stopServing s
  let s2 := forgetCatchUp { s1 with member := { s1.member with state := .catchingUp } }
  let s3 := { s2 with
    nextId := s2.nextId + 1
    repair := { s2.repair with
      active := true
      serial := s2.nextId
      sweepSet := if s2.member.sweepNeeded then heldGroups s2 else s2.repair.sweepSet
      unverified := 0 } }
  queueRejoin s3

/-! ### The repair list (R139 to R142) -/

def isListed (s : State) (b : Block) : Bool := s.repair.list.any fun e => decide (e.block = b)

/-- While a block is listed the station sends no ORDER, DATA, CURRENT or REPLAY for it (R139): what waits in the
transmit queue is withdrawn (R26, R31, R151; a READ's DATA, log 19; every answer to a FETCH, the UNAVAILABLE of a
refused one included, DESIGN CHOICE, log 46) and pushes of the block end (R130). -/
def holdBack (s : State) (b : Block) : State :=
  let s1 := withdraw s
    (fun f => (forPurpose .leadOrder f || forPurpose .supersedeOrder f) && decide (f.frame.block = b)) .plain
  let s2 := withdraw s1
    (fun f => decide (f.frame.block = b)
      && (forPurpose .fetchAnswer f || (forPurpose .readAnswer f && decide (f.frame.kind = .data))))
    (.entryBecomes .silent)
  endPushes s2 (fun p => decide (p.block = b)) .done

/-- Place a block at the tail of the repair list as READY (R140). -/
def placeReady (s : State) (b : Block) : State :=
  holdBack
    { s with repair := { s.repair with
        list := s.repair.list ++ [{ block := b, state := .ready }] } }
    b

/-- The list overflows (R142; log 35). -/
def overflowRepair (s : State) (b : Block) : State :=
  if s.member.state = .catchingUp ∧ s.member.sweepNeeded = true then addGroups s [groupOf b]
  else
    let s1 := { s with member := { s.member with sweepNeeded := true } }
    beginCatchUp (offer s1 (peerDownFrame (self s1) (ownNumber s1)) .overflowNotice)

/-- Place a block on the repair list (R140, R142): only in SERVING or CATCHING_UP, only in range (R9), and not
twice. -/
def listBlock (s : State) (b : Block) : State :=
  if !inService s || !inRange s b || isListed s b then s
  else if s.repair.list.length < Config.repairSize then placeReady s b
  else overflowRepair s b

/-- Blocks that wait for room and are on the repair list by now wait no longer. -/
def dropListedRoom (s : State) : State :=
  { s with repair := { s.repair with
      waitingRoom := s.repair.waitingRoom.filter fun b => !isListed s b } }

/-- The oldest block that waits for room takes a free place (R141, R159). -/
def fillRoom (s : State) : State :=
  let s1 := dropListedRoom s
  match s1.repair.waitingRoom with
  | [] => s1
  | b :: rest =>
    if s1.repair.list.length < Config.repairSize then
      placeReady { s1 with repair := { s1.repair with waitingRoom := rest } } b
    else s1

/-- A block leaves the repair list (R141): its repair fetch in lookup or window ends (R148), and its place goes
to a block that waits for room. -/
def unlistBlock (s : State) (b : Block) : State :=
  if isListed s b then
    let s1 := { s with repair := { s.repair with
        list := s.repair.list.filter fun e => decide (e.block ≠ b) } }
    fillRoom (endFetches s1
      (fun f => decide (f.block = b) && !f.sweep && decide (f.phase ≠ .committing)) .done)
  else s

/-- The state of a listed block's entry. -/
def setRepairState (s : State) (b : Block) (st : RepairState) : State :=
  { s with repair := { s.repair with
      list := s.repair.list.map fun e => if e.block = b then { e with state := st } else e } }

/-! ### REPLAY_DONE (R137) -/

def overflowed (s : State) (p : StationNo) : Bool := inMark s.replay.overflow p

/-- Offer REPLAY_DONE to `p` with this sweep flag: queued, the overflow flag is cleared, whatever sweep flag the
frame carries (for one offered again with a clear flag DESIGN CHOICE, log 27); refused, it is offered again 5 ms later
and a set flag stays set (R137). -/
def offerReplayDone (s : State) (p : StationNo) (sweep : Bool) : State :=
  if accepts s .replayDone then
    offer { s with replay := { s.replay with overflow := s.replay.overflow &&& ~~~ markOf p } }
      (replayDoneFrame (self s) p sweep) (.replayDone p sweep)
  else
    { s with replay := { s.replay with
        overflow := if sweep then s.replay.overflow ||| markOf p else s.replay.overflow
        reoffers := s.replay.reoffers ++ [{ peer := p, sweep := sweep, due := s.clock + Config.retryDelay }] } }

/-- Queue REPLAY_DONE for `p`; the sweep flag is its overflow flag at this moment (R137). -/
def queueReplayDone (s : State) (p : StationNo) : State :=
  if inService s then offerReplayDone s p (overflowed s p) else s

def isReplayDoneTo (p : StationNo) (f : TxFrame) : Bool :=
  match f.purpose with
  | .replayDone q _ => decide (q = p)
  | _ => false

/-- A peer's missed-write list (R124). -/
def missedList (s : State) (p : StationNo) : List Missed :=
  s.replay.pool.filter fun m => decide (m.peer = p)

def isMissed (s : State) (p : StationNo) (b : Block) : Bool :=
  s.replay.pool.any fun m => decide (m.peer = p) && decide (m.block = b)

/-- Free the entry (p, b) after an ACK (R127); a CATCHING_UP peer's empty list draws REPLAY_DONE (R137). -/
def freeMissed (s : State) (p : StationNo) (b : Block) : State :=
  if isMissed s p b then
    let s1 := { s with replay := { s.replay with
        pool := s.replay.pool.filter fun m => !(decide (m.peer = p) && decide (m.block = b)) } }
    if (missedList s1 p).isEmpty && isCatchingUp s1 p then queueReplayDone s1 p else s1
  else s

/-! ### The Peer Table (R111 to R120) -/

/-- Change a peer's entry. -/
def updatePeer (s : State) (p : StationNo) (f : PeerEntry → PeerEntry) : State :=
  { s with peers := s.peers.map fun e => if e.peer = p then f e else e }

/-- Take a peer out of the awaited set; the limit stops when the set is empty (R154, R155). -/
def unawait (s : State) (p : StationNo) : State :=
  let left := s.repair.awaited &&& ~~~ markOf p
  { s with repair := { s.repair with
      awaited := left
      limit := if left = 0 then none else s.repair.limit } }

/-- The change to ABSENT is handed on (R120): pushes to the peer end (R130), a REPLAY_DONE to it is withdrawn
(R137), an awaited peer's groups go to the sweep (R155), and blocks waiting for room may lose their last live
co-replica (R159). -/
def handOnAbsent (s : State) (p : StationNo) : State :=
  let s1 := endPushes s (fun q => decide (q.peer = p)) .done
  let s2 := withdraw s1 (isReplayDoneTo p) .plain
  let s3 := if s2.repair.active && inMark s2.repair.awaited p then
      addGroups (unawait s2 p) (sharedGroups s2 p) else s2
  dropDeadRoom s3

/-- The peer's entry becomes ABSENT with its miss count cleared, and the change is handed on (R113, R115). -/
def markAbsent (s : State) (p : StationNo) : State :=
  if isLive s p then
    handOnAbsent (updatePeer s p fun e => { e with state := .absent, misses := 0 }) p
  else s

/-- Queue PEER_DOWN naming `p` and set its last down-notice time (R113, R117). -/
def notice (s : State) (p : StationNo) : State :=
  offer (updatePeer s p fun e => { e with lastNotice := some s.clock }) (peerDownFrame (self s) p)
    (.peerNotice p)

/-- Declare a peer down (R113); an ABSENT peer's entry is left and no frame queued. -/
def declareDown (s : State) (p : StationNo) : State :=
  if inService s && isLive s p then
    handOnAbsent
      (notice (updatePeer s p fun e => { e with state := .absent, misses := 0 }) p) p
  else s

/-- A miss reported for a peer; the third in a row declares it down (R111). -/
def reportMiss (s : State) (p : StationNo) : State :=
  if inService s && isLive s p then
    match peerEntry s p with
    | none => s
    | some e =>
      if e.misses + 1 < Config.missLimit then
        updatePeer s p fun e => { e with misses := e.misses + 1 }
      else declareDown s p
  else s

/-- Give a peer up: its list is freed, its pushes end, its overflow flag is set and it is declared down (R126). -/
def giveUp (s : State) (p : StationNo) : State :=
  let s1 := { s with replay := { s.replay with
      pool := s.replay.pool.filter fun m => decide (m.peer ≠ p)
      overflow := s.replay.overflow ||| markOf p } }
  declareDown (endPushes s1 (fun q => decide (q.peer = p)) .done) p

/-- Record that peer `p` missed block `b` (R125). A new entry withdraws a REPLAY_DONE still queued for the peer
(R137). -/
def recordMissed (s : State) (p : StationNo) (b : Block) : State :=
  if !inService s || overflowed s p || !inRange s b || isMissed s p b then s
  else if s.replay.pool.length < Config.poolSize then
    withdraw
      { s with replay := { s.replay with
          pool := s.replay.pool
            ++ [{ peer := p, block := b, recorded := s.clock, retry := none, push := false }] } }
      (isReplayDoneTo p) .plain
  else giveUp s p

/-- A frame of R117 from an ABSENT member: PEER_DOWN naming it is queued again, unless its last notice lies less
than 3 ms back. -/
def renotice (s : State) (p : StationNo) : State :=
  match peerEntry s p with
  | none => s
  | some e =>
    if e.state = .absent then
      match e.lastNotice with
      | none => notice s p
      | some t => if s.clock < t + Config.holdOff then s else notice s p
    else s

/-- The Peer Table takes a frame of this source (R110). -/
def peerTakes (s : State) (src : Source) : Bool :=
  inService s && markMatches s src && isMember s src.sender && decide (src.sender ≠ ownNumber s)

/-- A sign of life seen by the Peer Table (R117). -/
def signOfLife (s : State) (src : Source) : State :=
  if peerTakes s src then renotice s src.sender else s

/-! ### The report of an ack window (R36, R37) -/

/-- A co-replica has answered: an ACK at least at the followed version, or a NACK (R36). -/
def hasAnswered (e : Entry) (n : StationNo) : Bool :=
  e.heard.any fun h =>
    decide (h.station = n)
      && (h.nack.isSome
        || match h.ack, e.followed with
          | some a, some f => decide (f ≤ a)
          | some _, none => true
          | none, _ => false)

/-- Co-replicas in an order of report: of two, either may come first (R125; log 14). -/
def reportOrder (s : State) (l : List StationNo) : List StationNo :=
  match l with
  | [a, b] => if Config.reportsReversed s.freeCount then [b, a] else [a, b]
  | l => l

/-- One silent co-replica reported: a live one as a miss, and its missed-write entry in any case (R37, R111). The miss
is taken before the entry is made (DESIGN CHOICE, log 50). -/
def reportSilent (s : State) (b : Block) (p : StationNo) : State :=
  if isAbsent s p then recordMissed s p b else recordMissed (reportMiss s p) p b

/-- The report of R37 for a write entry. -/
def reportWindow (s : State) (e : Entry) : State :=
  let silent := (coReplicas s (groupOf e.blk)).filter fun n => !hasAnswered e n
  (reportOrder s silent).foldl (fun s p => reportSilent s e.blk p)
    { s with freeCount := s.freeCount + 1 }

/-- The block is listed at once for each co-replica marked ABSENT when an ORDER is followed (R37). -/
def recordAbsent (s : State) (b : Block) : State :=
  let absent := (coReplicas s (groupOf b)).filter (isAbsent s)
  (reportOrder s absent).foldl (fun s p => recordMissed s p b)
    { s with freeCount := s.freeCount + 1 }

/-! ### Giving an entry (R63) -/

/-- Room in the table: as it stands, or with the oldest finished entry closed and taken out, the report of a
running ack window made first (R36, R63). None where the table cannot give an entry. -/
def giveEntry (s : State) : Option State :=
  if s.table.length < Config.tableSize then some s
  else
    match oldestFinished s with
    | none => none
    | some e => some (dropEntry (if e.ackWindow.isSome then reportWindow s e else s) e.tag)

end Sys2Proof.Machine
end

