-- ==== Sys2Proof/Machine/Commits.lean ====
section
/-! DEFINITION. Commits: the commit rule, the answers that report them, and the writes that lead, follow, supersede, decline and commit. -/

namespace Sys2Proof.Machine

/-! ### Lookups (R77) -/

/-- How a copy lookup is answered (R43, R129). -/
inductive CopyAnswer where
  /-- From the current slot at this index, at once. -/
  | hit (slot : Nat)
  /-- The lookup waits on a READ_RECORD. -/
  | waits
  /-- No slot could be allocated. -/
  | noSlot
  /-- The port is down: answered as failed (R107). -/
  | failed
  deriving DecidableEq, Repr

/-- A version lookup: answered at once from a current slot in CLEAN, DIRTY or WRITING, otherwise by a media read
that it waits on (R77). A port that is down answers unknown (R107). -/
def versionLookup (s : State) (b : Block) (u : LookupUser) : State × Option HeldVersion :=
  match currentCopy s b with
  | some (i, v, _) => (touchSlot s i, some (.known v))
  | none =>
    if s.port.down then (s, some .unknown)
    else if isFilling s b then (addWaiter s b .record u, none)
    else if headerInFlight s b then (addWaiter s b .header u, none)
    else (issue (addWaiter s b .header u) (.readHeader b), none)

/-- The version lookup of a comparison of R53, R131 or R151: taken at once where the block has a current slot in
CLEAN, DIRTY or WRITING, with no lookup made, and otherwise by a version lookup (R6). -/
def compareLookup (s : State) (b : Block) (u : LookupUser) : State × Option HeldVersion :=
  match heldVersion s b with
  | some v => (s, some (.known v))
  | none => versionLookup s b u

/-- A copy lookup: answered at once from a current slot in CLEAN, DIRTY or WRITING, otherwise by a READ_RECORD
into a FILLING slot (R77). -/
def copyLookup (s : State) (b : Block) (u : LookupUser) : State × CopyAnswer :=
  match currentCopy s b with
  | some (i, _, _) => (touchSlot s i, .hit i)
  | none =>
    if s.port.down then (s, .failed)
    else if isFilling s b then (addWaiter s b .record u, .waits)
    else
      match allocate s with
      | none => (s, .noSlot)
      | some i =>
        (issue (addWaiter (setSlot s i (.filling b)) b .record u) (.readRecord b i), .waits)

/-! ### The commit rule (R79 to R81) -/

/-- A commit of `v` is accepted against this held version (R79). -/
def commitAccepted (held : HeldVersion) (v : Version) : Bool :=
  match held with
  | .unknown => true
  | .known h => decide (h < v)

/-- The former current slot gives way to slot `i`: a WRITING slot becomes RETIRING, any other is freed (R79). -/
def retireFormer (s : State) (b : Block) (i : Nat) : State :=
  match currentSlot s b with
  | none => s
  | some j =>
    if j = i then s
    else
      match slotAt s j with
      | .writing b' v' d' => setSlot s j (.retiring b' v' d')
      | .free | .held .. | .filling .. | .clean .. | .dirty .. | .retiring .. => setSlot s j .free

/-- The slot becomes current by a commit: DIRTY under write-back, WRITING with its record issued otherwise
(R79, R85). -/
def makeCurrent (s : State) (i : Nat) (b : Block) (v : Version) (d : Data) : State :=
  if s.member.straps.writeBack then makeDirty s i b v d
  else issue (setSlot s i (.writing b v d)) (.writeRecord b v d i)

/-- Reads and fetches in SLOT_WAIT that were not refused hold the block's current slot after a commit other than a
refresh, and the failure of their lookup no longer counts (R45, R47, R79; log 20). -/
def holdNewSlot (s : State) (b : Block) (i : Nat) : State :=
  { s with table := s.table.map fun e =>
      if (e.kind = .clientRead ∨ e.kind = .peerFetch) ∧ e.state = .slotWait ∧ e.reason = none
          ∧ e.block = some b then { e with slot := some i, failure := none } else e }

/-- What every accepted commit but a refresh does beside the slots, `i` being the block's current slot after it:
waiting reads hold that slot (R45), and the block stops waiting for room (R159) and leaves the repair list (R79,
R141). -/
def commitSettles (s : State) (b : Block) (i : Nat) : State :=
  let s1 := holdNewSlot s b i
  unlistBlock
    { s1 with repair := { s1.repair with
        waitingRoom := s1.repair.waitingRoom.filter fun c => decide (c ≠ b) } } b

/-- An accepted commit of (b, v, d) from the slot `i` (R79). -/
def acceptCommit (s : State) (i : Nat) (b : Block) (v : Version) (d : Data) : State :=
  commitSettles (makeCurrent (retireFormer s b i) i b v d) b i

/-- The repair entry of a repair fetch is still its own: listed, FETCHING, and no later fetch has taken it
(R147). -/
def ownsEntry (s : State) (f : Fetch) : Bool :=
  !f.sweep
    && s.repair.list.any (fun e => decide (e.block = f.block) && decide (e.state = .fetching))
    && !s.repair.fetches.any (fun g => decide (g.block = f.block) && !g.sweep && decide (f.id < g.id))

/-- A fetch ends settled: its entry is DONE and its repair entry, if still listed, leaves the list (R147). -/
def settleFetch (s : State) (f : Fetch) : State :=
  if ownsEntry s f then unlistBlock (endFetch s f .done) f.block else endFetch s f .done

def findFetch (s : State) (id : Nat) : Option Fetch :=
  s.repair.fetches.find? fun f => decide (f.id = id)

/-- The report of a decided commit to its source (R81): a REPLAY's target answers ACK with the version it then
holds (R135), a fetch ends (R147). -/
def reportCommit (s : State) (b : Block) (src : CommitSource) (holds : Version) : State :=
  match src with
  | .replay t => offer s (ackFrame (self s) t b holds) .acknowledgement
  | .ownFetch id =>
    match findFetch s id with
    | none => s
    | some f => settleFetch s f

/-- Decide an offered commit against the held version given for it (R79). -/
def decideCommit (s : State) (i : Nat) (b : Block) (v : Version) (d : Data) (src : CommitSource)
    (held : HeldVersion) : State :=
  match held with
  | .known h =>
    if h < v then reportCommit (acceptCommit s i b v d) b src v
    else reportCommit (setSlot s i .free) b src h
  | .unknown => reportCommit (acceptCommit s i b v d) b src v

/-- Let an offered commit wait on a media read of its block (R80). -/
def addPending (s : State) (p : PendingCommit) : State :=
  { s with cache := { s.cache with pendings := s.cache.pendings ++ [p] } }

/-- Offer a commit whose slot is HELD: decided at once where the block has a current copy, otherwise pending on
the block's media read (R80). -/
def offerCommit (s : State) (i : Nat) (b : Block) (v : Version) (d : Data) (src : CommitSource) : State :=
  match heldVersion s b with
  | some h => decideCommit s i b v d src (.known h)
  | none =>
    if s.port.down then decideCommit s i b v d src .unknown
    else
      let p (k : ReadKind) : PendingCommit :=
        { block := b, on := k, slot := i, version := v, data := d, source := src }
      if isFilling s b then addPending s (p .record)
      else if headerInFlight s b then addPending s (p .header)
      else issue (addPending s (p .header)) (.readHeader b)

/-! ### Refusing a write (R20, R21, R33) -/

/-- The version a NACK names: the held version where it is known, otherwise 0 (R7, R21). Known is the current
slot's version, or where there is none what the write's own lookup answered; an EXPIRED entry's lookup counts no
more, since its block is no longer pinned (DESIGN CHOICE, log 42). -/
def nackVersion (s : State) (b : Block) (own : Option HeldVersion) : Version :=
  match heldVersion s b with
  | some v => v
  | none =>
    match own with
    | some (.known v) => v
    | some .unknown | none => 0

/-- A NACK for a write makes no repair entry where it says OUT_OF_RANGE or RESETTING (R21). -/
def refusalLists (r : Reason) : Bool := decide (r ≠ .outOfRange) && decide (r ≠ .resetting)

/-- The repair entry that a NACK makes (R21). -/
def listRefused (s : State) (b : Block) (r : Reason) : State :=
  if refusalLists r then listBlock s b else s

/-- Queue a NACK for a write's tag (R21). -/
def offerNack (s : State) (t : Tag) (b : Block) (v : Version) (r : Reason) : State :=
  offer s (nackFrame (self s) t b v (reasonCode r)) .acknowledgement

/-- The write entry becomes REFUSED for this reason, its NACK recorded and its HELD slot freed (R21). The NACK is
recorded also where the queue refused it (DESIGN CHOICE, log 61). -/
def refuseEntry (s : State) (t : Tag) (v : Version) (r : Reason) : State :=
  freeHeld
    (updateEntry (finishEntry s t .refused) t fun e =>
      { e with reason := some r, sent := some { kind := .nack, version := v } })
    fun o => decide (o = .clientWrite t)

/-- NACK a write that has an entry (R21). -/
def nackWrite (s : State) (e : Entry) (r : Reason) : State :=
  let v := nackVersion s e.blk e.ownVersion
  listRefused (refuseEntry (offerNack s e.tag e.blk v r) e.tag v r) e.blk r

/-- NACK a new write or an ORDER without data: a REFUSED entry is made if the table can give one (R20, R33), the NACK
recorded in it also where the queue refused it (DESIGN CHOICE, log 61). The NACK is offered before the entry is given,
so before the running ack window of one reused early is reported (R63), which may offer PEER_DOWN and withdraw frames
(DESIGN CHOICE, log 69). -/
def nackNew (s : State) (t : Tag) (b : Block) (r : Reason) : State :=
  let v := nackVersion s b none
  let s1 := offerNack s t b v r
  let s2 :=
    match giveEntry s1 with
    | none => s1
    | some s' =>
      addEntry s' { newEntry s' t .clientWrite (some b) .refused with
        reason := some r, sent := some { kind := .nack, version := v } }
  listRefused s2 b r

/-- NACK an ORDER that finds the entry EXPIRED: it stays EXPIRED, and one NACK is sent for the tag at most
(R21, R33). The NACK is recorded also where the queue refused it, and a later ORDER then draws none (DESIGN CHOICE,
log 61). -/
def nackExpired (s : State) (e : Entry) : State :=
  if e.sentNack then s
  else
    let v := nackVersion s e.blk none
    listBlock (recordSent (offerNack s e.tag e.blk v .noData) e.tag .nack v) e.blk

/-! ### Committing on an ORDER (R29, R30, R34, R35) -/

/-- The lifetime of an entry has passed (R67). -/
def lifetimePassed (s : State) (e : Entry) : Bool := decide (e.created + Config.lifetime ≤ s.clock)

/-- The entry is ACKED with ACK of `v` queued and recorded (R34, R35), also where the queue refused it (DESIGN CHOICE,
log 61). -/
def ackWrite (s : State) (t : Tag) (b : Block) (v : Version) : State :=
  finishEntry (recordSent (offer s (ackFrame (self s) t b v) .acknowledgement) t .ack v) t .acked

/-- The cache has accepted version `v` for a write's tag: ACK at once under write-back (R34); under write-through
the entry is in COMMITTING until the record is written (R35), or EXPIRED where its lifetime has already passed
when it returns there (R67). -/
def writeCommitted (s : State) (e : Entry) (v : Version) : State :=
  let s1 := updateEntry s e.tag fun x => { x with committed := some v, slot := none }
  if s1.member.straps.writeBack then ackWrite s1 e.tag e.blk v
  else
    let s2 := updateEntry s1 e.tag fun x => { x with state := .committing, finished := none }
    if e.state = .acked ∧ lifetimePassed s e then expireEntry s2 e.tag else s2

/-- Commit the held data on the followed ORDER (R29). -/
def commitHeld (s : State) (e : Entry) (v : Version) : State :=
  match e.slot with
  | none => s
  | some i =>
    match slotAt s i with
    | .held _ d _ _ => writeCommitted (acceptCommit s i e.blk v d) e v
    | .free | .filling .. | .clean .. | .dirty .. | .writing .. | .retiring .. => s

/-- Commit the tag's data again at a higher version from the current slot `i` (R30, R81). A DIRTY slot stays DIRTY,
as R30 and R81 say, under write-through too, where R79 and R85 have a commit issue its WRITE_RECORD at once: the
flusher issues it (DESIGN CHOICE, log 45). -/
def recommit (s : State) (e : Entry) (v : Version) (i : Nat) : State :=
  match slotAt s i with
  | .dirty _ _ d _ => writeCommitted (commitSettles (makeDirty s i e.blk v d) e.blk i) e v
  | .clean _ _ d _ => writeCommitted (commitSettles (makeCurrent s i e.blk v d) e.blk i) e v
  | .writing _ _ d =>
    match allocate s with
    | none => nackWrite s e .cacheFull
    | some j => writeCommitted (acceptCommit s j e.blk v d) e v
  | .free | .held .. | .filling .. | .retiring .. => s

/-- Supersede an ORDER: the station's own ORDER one above its held version, or NACK at the maximum (R5, R31). -/
def supersede (s : State) (e : Entry) (held : Version) : State :=
  if held = maxVersion then nackWrite s e .versionLimit
  else
    updateEntry (offer s (orderFrame (self s) e.tag e.blk (held + 1)) .supersedeOrder) e.tag fun x =>
      { x with superseded := some (held + 1) }

/-- A commit of the block is pending (R80). -/
def pendingOn (s : State) (b : Block) : Option ReadKind :=
  (s.cache.pendings.find? fun p => decide (p.block = b)).map (·.on)

/-- The media read to whose end a follow decision must be deferred, if any (R28). -/
def deferTo (s : State) (b : Block) : Option ReadKind :=
  if isFilling s b then some .record else pendingOn s b

/-- Defer a follow decision (R28); it waits once. -/
def deferDecision (s : State) (t : Tag) (b : Block) (k : ReadKind) : State :=
  if s.cache.waiters.any fun w => decide (w.user = .decision t) then s
  else addWaiter s b k (.decision t)

/-- The held version a write entry compares: the current slot's, otherwise what the entry's own lookup delivered
(R28, R80). Where that was unknown it stays unknown, also for a decision deferred to another media read that delivers
a known version and leaves no current slot (DESIGN CHOICE, log 43). -/
def heldForWrite (s : State) (e : Entry) : HeldVersion :=
  match heldVersion s e.blk with
  | some v => .known v
  | none => e.ownVersion.getD .unknown

/-- The decision of an entry that has not yet committed (R28). -/
def decideFirst (s : State) (e : Entry) (v : Version) : State :=
  match heldForWrite s e with
  | .unknown => commitHeld s e v
  | .known h =>
    if h < v then commitHeld s e v
    else if isListed s e.blk then s
    else supersede s e h

/-- The decision of an entry that has committed for its tag: commit again while the current slot still holds the
tag's data, NO_DATA otherwise (R30, R33; log 18). -/
def decideAgain (s : State) (e : Entry) (committed v : Version) : State :=
  match currentCopy s e.blk with
  | none => nackWrite s e .noData
  | some (i, h, _) =>
    if h = committed then (if h < v then recommit s e v i else s)
    else nackWrite s e .noData

/-- Take the follow decision of a write entry, or defer it to the end of a media read (R28). -/
def decideFollow (s : State) (t : Tag) : State :=
  match findEntry s t with
  | none => s
  | some e =>
    match e.followed with
    | none => s
    | some v =>
      if e.state = .waitOrder ∨ e.state = .committing ∨ e.state = .acked then
        match deferTo s e.blk with
        | some k => deferDecision s t e.blk k
        | none =>
          match e.committed with
          | some c => decideAgain s e c v
          | none => decideFirst s e v
      else s

/-! ### Leading (R24 to R26) -/

/-- The replica may lead the write (R24). -/
def mayLead (s : State) (e : Entry) : Bool :=
  decide (s.member.state = .serving) && !isListed s e.blk
    && match e.ownVersion with
      | some (.known _) => true
      | some .unknown | none => false

/-- The lead wait of an entry has ended (R25). -/
def leadExpire (s : State) (t : Tag) : State :=
  match findEntry s t with
  | none => s
  | some e =>
    let s1 := updateEntry s t fun x => { x with wait := none }
    if mayLead s1 e then
      match heldForWrite s1 e with
      | .unknown => s1
      | .known h =>
        if h = maxVersion then nackWrite s1 e .versionLimit
        else offer s1 (orderFrame (self s1) t e.blk (h + 1)) .leadOrder
    else s1

/-- Begin the lead wait, if the replica may lead; a wait of zero slots ends at once (R15, R24; log 15). -/
def beginLead (s : State) (t : Tag) : State :=
  match findEntry s t with
  | none => s
  | some e =>
    if mayLead s e then
      let w := slotWait s (replicas s (groupOf e.blk))
      let s1 := updateEntry s t fun x => { x with wait := some (s.clock + w) }
      if w = 0 then leadExpire s1 t else s1
    else s

/-- The version lookup of a write entry stores its answer: the entry leaves LOOKUP for WAIT_ORDER (R23). -/
def storeOwnVersion (s : State) (t : Tag) (a : HeldVersion) : State :=
  updateEntry s t fun e =>
    if e.state = .lookup then { e with state := .waitOrder, ownVersion := some a } else e

/-- What follows in WAIT_ORDER: the deferred decision, or the lead wait (R23). -/
def afterLookup (s : State) (t : Tag) : State :=
  match findEntry s t with
  | none => s
  | some e =>
    if e.state = .waitOrder then
      if e.followed.isSome then decideFollow s t else beginLead s t
    else s

/-- The version lookup of a write entry is answered (R23); a finished entry discards the answer. -/
def writeAnswered (s : State) (t : Tag) (a : HeldVersion) : State :=
  match findEntry s t with
  | none => s
  | some e => if e.state = .lookup then afterLookup (storeOwnVersion s t a) t else s

/-! ### Following (R27) -/

/-- Follow an ORDER: the ack window starts afresh, absent co-replicas are listed, and the decision is taken unless
the lookup is still to answer (R27, R28, R36, R37). -/
def follow (s : State) (e : Entry) (v : Version) : State :=
  let s1 := updateEntry { s with followCount := s.followCount + 1 } e.tag fun x =>
    { x with
      followed := some v
      followSeq := s.followCount
      ackWindow := some (s.clock + Config.ackWindow)
      wait := none }
  let s2 := recordAbsent s1 e.blk
  if e.state = .lookup then s2 else decideFollow s2 e.tag

/-- What any ORDER for the tag cancels, whatever its version and sender: the lead wait and a lead ORDER not yet in
transmission (R26); a superseding ORDER where the version heard is not below its own (R31). With no entry of the tag
nothing is withdrawn (R61), also where an ORDER of the station for that tag is still queued, whose entry has left the
table; R26 and R31 would have it withdrawn (DESIGN CHOICE, log 64). -/
def orderCancels (s : State) (t : Tag) (v : Version) : State :=
  match findEntry s t with
  | none => s
  | some e =>
    if e.kind = .clientWrite then
      let s1 := updateEntry s t fun x => { x with wait := none }
      let s2 := withdraw s1 (forTag .leadOrder t) .plain
      withdraw s2 (fun f => forTag .supersedeOrder t f && decide (f.frame.version ≤ v)) .plain
    else s

/-- The ORDER reaches the table (R27, R33; log 17). -/
def orderReaches (s : State) (t : Tag) (b : Block) (v : Version) : State :=
  match findEntry s t with
  | none => nackNew s t b .noData
  | some e =>
    if e.kind = .clientWrite then
      match e.state with
      | .expired => nackExpired s e
      | .lookup | .waitOrder | .committing | .acked =>
        if (match e.followed with
            | none => true
            | some f => decide (f < v)) then follow s e v else s
      | .refused | .slotWait | .draining | .outstanding | .answered | .suppressed | .silent | .done => s
    else s

/-- An ORDER heard, as the Request Engine takes it (R9, R26, R27). What it cancels leaves the queue before what it
leads to is offered (DESIGN CHOICE, log 66). One in range cancels also where its mark differs, the station holds no copy
of its block's group or is out of service, where R13 and R27 have it not acted on; one out of range cancels nothing
(R9) (DESIGN CHOICE, log 68). -/
def takeOrder (s : State) (src : Source) (t : Tag) (b : Block) (v : Version) : State :=
  if inRange s b then
    let s1 := orderCancels s t v
    if markMatches s1 src && isReplica s1 b && inService s1 then orderReaches s1 t b v else s1
  else s

/-! ### The record of a write is on the media (R35, R86) -/

/-- A write entry waits for the record of this block and version (R35). -/
def Entry.awaitsRecord (e : Entry) (b : Block) (v : Version) : Bool :=
  decide (e.kind = .clientWrite) && decide (e.state = .committing) && decide (e.block = some b)
    && decide (e.committed = some v)

/-- A WRITE_RECORD has completed successfully for slot `i`: WRITING becomes CLEAN, RETIRING is freed, and the write
entries waiting on the record are acknowledged (R35, R86), several in the order of the table (DESIGN CHOICE, log 13). -/
def recordWritten (s : State) (b : Block) (v : Version) (i : Nat) : State :=
  let s1 :=
    match slotAt s i with
    | .writing b' v' d' => makeClean s i b' v' d'
    | .retiring _ _ _ => setSlot s i .free
    | .free | .held .. | .filling .. | .clean .. | .dirty .. => s
  (s1.table.filter fun e => e.awaitsRecord b v).foldl (fun s e => ackWrite s e.tag b v) s1

end Sys2Proof.Machine
end

