-- ==== Sys2Proof/Machine/Requests.lean ====
section
/-! DEFINITION. Reads and fetches answered: lookups, slot waits, suppression, correction answers and stale self-detection. -/

namespace Sys2Proof.Machine

/-! ### What the heard answers say (R46, R50, R150) -/

/-- A DATA of some version that meets `p` is recorded. -/
def Entry.heardData (e : Entry) (p : Version → Bool) : Bool :=
  e.heard.any fun h =>
    match h.data with
    | some v => p v
    | none => false

def Entry.heardUnavailable (e : Entry) : Bool := e.heard.any fun h => h.unavailable.isSome

def Entry.heardCurrent (e : Entry) : Bool := e.heard.any fun h => h.current.isSome

/-- The entry with the answers that can suppress it: those of other stations, once it has queued an answer of its own
(R50; log 48). -/
def Entry.withoutOwn (e : Entry) (own : StationNo) : Entry :=
  if e.sent.isSome then { e with heard := e.heard.filter fun h => decide (h.station ≠ own) } else e

/-- The frame is the station's own, and the entry queued it (R50; log 48). -/
def Entry.queuedIt (e : Entry) (s : State) (src : Source) : Bool :=
  e.sent.isSome && decide (src.sender = ownNumber s)

/-- An answer counts for the entry: its block and roster mark are right (R50). -/
def countsFor (s : State) (e : Entry) (src : Source) (b : Block) : Bool :=
  decide (e.block = some b) && markMatches s src

/-! ### Queuing an answer (R42, R47, R48, R151) -/

/-- The purpose of an entry's answers. -/
def answerPurpose (k : EntryKind) : Purpose :=
  if k = .peerFetch then .fetchAnswer else .readAnswer

/-- Queue an answer and finish the entry ANSWERED with the answer recorded; refused, the entry is SILENT
(R42, R47, R151; log 21). -/
def answer (s : State) (e : Entry) (f : Frame) : State :=
  if accepts s f.kind then
    finishEntry (recordSent (offer s f (answerPurpose e.kind)) e.tag f.kind f.version) e.tag .answered
  else finishEntry (offer s f (answerPurpose e.kind)) e.tag .silent

/-- Queue DATA from the block's current slot, which becomes the most recently used (R47, R51, R74, R151). -/
def answerData (s : State) (e : Entry) : State :=
  match currentCopy s e.blk with
  | none => finishEntry s e.tag .silent
  | some (i, v, d) =>
    let s1 := answer s e (dataFrame (self s) e.tag e.blk v d)
    if accepts s .data then touchSlot s1 i else s1

def answerUnavailable (s : State) (e : Entry) (r : Reason) : State :=
  answer s e (unavailableFrame (self s) e.tag e.blk (reasonCode r))

/-- The reason of an UNAVAILABLE (R47): MEDIA_ERROR where the lookup's media read failed and no commit has made a
current slot since, which would have cleared the failure (`holdNewSlot`); otherwise NOT_CURRENT. -/
def unavailableReason (e : Entry) : Reason :=
  if e.failure = some .mediaError then .mediaError else .notCurrent

/-- Every station after this one in the answering list is ABSENT, or there is none (R47, R151). -/
def lastToAnswer (s : State) (answering : List StationNo) : Bool :=
  (stationsAfter s answering).all (isAbsent s)

/-- The answering list of an entry: its group's replica list, for a FETCH without the requester (R15). -/
def answeringList (s : State) (e : Entry) : List StationNo :=
  let l := replicas s (groupOf e.blk)
  if e.kind = .peerFetch then l.filter fun n => decide (some n ≠ e.requester) else l

/-! ### The end of a slot wait (R42, R47, R151) -/

/-- The entry can serve (R47). -/
def canServe (s : State) (e : Entry) : Bool :=
  decide (s.member.state = .serving) && !isListed s e.blk && e.slot.isSome
    && (currentCopy s e.blk).isSome && !e.sentData

/-- The slot wait of a READ entry ends (R42, R47). -/
def expireRead (s : State) (e : Entry) : State :=
  match e.reason with
  | some r => answerUnavailable s e r
  | none =>
    if canServe s e then answerData s e
    else if lastToAnswer s (answeringList s e) then answerUnavailable s e (unavailableReason e)
    else finishEntry s e.tag .silent

/-- The version is above the requester's; the unknown mark is below every version (R149). -/
def aboveRequested (e : Entry) (v : Version) : Bool :=
  match e.requested with
  | some (.known r) => decide (r < v)
  | some .unknown | none => true

/-- The slot wait of a PEER_FETCH entry ends (R149, R151). -/
def expireFetch (s : State) (e : Entry) : State :=
  match e.reason with
  | some r => answerUnavailable s e r
  | none =>
    if isListed s e.blk || e.sentData then finishEntry s e.tag .silent
    else
      match heldVersion s e.blk with
      | some v =>
        if aboveRequested e v then answerData s e
        else answer s e (currentFrame (self s) e.tag e.blk v)
      | none =>
        if lastToAnswer s (answeringList s e) then answerUnavailable s e (unavailableReason e)
        else finishEntry s e.tag .silent

/-- The slot wait of an entry ends (R16). -/
def expireWait (s : State) (t : Tag) : State :=
  match findEntry s t with
  | none => s
  | some e => if e.kind = .peerFetch then expireFetch s e else expireRead s e

/-- The entry enters SLOT_WAIT and its slot wait begins; a wait of zero slots ends at once (R15, R46, R150;
log 15). -/
def beginWait (s : State) (t : Tag) : State :=
  match findEntry s t with
  | none => s
  | some e =>
    let w := slotWait s (answeringList s e)
    let s1 := updateEntry s t fun x => { x with state := .slotWait, wait := some (s.clock + w) }
    if w = 0 then expireWait s1 t else s1

/-! ### The end of a lookup (R43, R44, R46, R150) -/

/-- The lookup of a READ entry ends (R46). -/
def endReadLookup (s : State) (x : Entry) : State :=
  let e := x.withoutOwn (ownNumber s)
  let free := decide (s.member.state = .serving) && !isListed s e.blk
  match e.slot, heldVersion s e.blk with
  | some _, some v =>
    let below := e.heardData fun d => decide (d < v)
    let above := e.heardData fun d => decide (v ≤ d)
    if free && below && !above && !e.sentData then answerData s e
    else if (!free && below) || above || e.heardUnavailable then finishEntry s e.tag .suppressed
    else beginWait s e.tag
  | _, _ =>
    if (e.heardData fun _ => true) || e.heardUnavailable then finishEntry s e.tag .suppressed
    else beginWait s e.tag

/-- The lookup of a PEER_FETCH entry ends (R150). -/
def endFetchLookup (s : State) (x : Entry) : State :=
  let e := x.withoutOwn (ownNumber s)
  let anyAnswer := (e.heardData fun _ => true) || e.heardCurrent || e.heardUnavailable
  match heldVersion s e.blk with
  | some v =>
    if (if aboveRequested e v then (e.heardData fun d => decide (v ≤ d)) || e.heardUnavailable
        else anyAnswer) then finishEntry s e.tag .suppressed
    else beginWait s e.tag
  | none => if anyAnswer then finishEntry s e.tag .suppressed else beginWait s e.tag

/-- What the lookup of a READ or FETCH entry leaves in it: the block's current slot and version, or the reason why it
cannot serve and an unknown version (R44, R58). -/
def Entry.withCopy (e : Entry) (copy : Option (Nat × Version × Data)) (failure : Reason) : Entry :=
  match copy with
  | some (i, v, _) => { e with slot := some i, ownVersion := some (.known v), failure := none }
  | none => { e with slot := none, ownVersion := some .unknown, failure := some failure }

/-- A copy lookup of an entry in LOOKUP has ended: with the block's current slot in hand, or cannot serve with
this reason (R43, R44). -/
def copyAnswered (s : State) (t : Tag) (failure : Reason) : State :=
  match findEntry s t with
  | none => s
  | some e =>
    if e.state = .lookup then
      let s1 := updateEntry s t fun x => x.withCopy (currentCopy s e.blk) failure
      match findEntry s1 t with
      | none => s1
      | some e1 => if e1.kind = .peerFetch then endFetchLookup s1 e1 else endReadLookup s1 e1
    else s

/-- An entry makes its copy lookup (R43). -/
def beginCopyLookup (s : State) (t : Tag) (b : Block) : State :=
  match copyLookup s b (.copy t) with
  | (s1, .hit _) => copyAnswered s1 t .mediaError
  | (s1, .waits) => s1
  | (s1, .noSlot) => copyAnswered s1 t .notCurrent
  | (s1, .failed) => copyAnswered s1 t .mediaError

/-- Why a READ or a FETCH is refused: the mark is checked first, the range second (R42, R149). -/
def refusal (s : State) (src : Source) (b : Block) : Option Reason :=
  if !markMatches s src then some .rosterMismatch
  else if !inRange s b then some .outOfRange
  else none

/-- An entry just made or restarted in LOOKUP is refused, or makes its lookup (R42, R43, R149). -/
def takeUp (s : State) (src : Source) (t : Tag) (b : Block) : State :=
  match refusal s src b with
  | some r => beginWait (updateEntry s t fun e => { e with reason := some r }) t
  | none => beginCopyLookup s t b

/-- An entry as a repeated request restarts it (R55, R66): heard answers cleared, created now, unfinished, its lookup
to be made again. -/
def Entry.restarted (e : Entry) (now : Nat) : Entry :=
  { e with
    state := .lookup
    reason := none
    slot := none
    ownVersion := none
    heard := []
    created := now
    finished := none
    wait := none
    failure := none }

/-- An ANSWERED entry with DATA sent, as a repeated request renews it (R55, R66). -/
def Entry.renewed (e : Entry) (now : Nat) : Entry :=
  { e with heard := [], created := now, finished := some now }

/-- A repeated READ or FETCH at an entry of its kind (R55, R66). -/
def repeated (s : State) (src : Source) (e : Entry) : State :=
  match e.state with
  | .answered | .suppressed | .silent | .expired =>
    if e.sentData then
      if e.state = .answered then updateEntry s e.tag fun x => x.renewed s.clock else s
    else takeUp (updateEntry s e.tag fun x => x.restarted s.clock) src e.tag e.blk
  | .lookup | .slotWait | .waitOrder | .committing | .draining | .outstanding | .acked | .refused
  | .done => s

/-! ### Suppression (R42, R49, R150) -/

/-- The entry's own answer where it is still in the transmit queue, its transmission not begun. -/
def waitingAnswer (s : State) (e : Entry) : Option TxFrame := waitingFrame s (answerPurpose e.kind) e.tag

/-- The version a suppressor is measured against: the current slot's (R49, R150), and where the block has none any more
that of the DATA or CURRENT still queued (DESIGN CHOICE, log 56). -/
def measuredVersion (s : State) (e : Entry) : Option Version :=
  match heldVersion s e.blk with
  | some v => some v
  | none =>
    match waitingAnswer s e with
    | some f => if f.frame.kind = .unavailable then none else some f.frame.version
    | none => none

/-- The entry answers, or means to answer, with data in hand. -/
def hasData (s : State) (e : Entry) : Bool :=
  match e.state with
  | .slotWait => e.slot.isSome
  | _ =>
    match waitingAnswer s e with
    | some f => decide (f.frame.kind ≠ .unavailable)
    | none => false

/-- A heard DATA of this version (or, with none, an UNAVAILABLE) suppresses a READ entry (R49). -/
def suppressesRead (s : State) (e : Entry) (v : Option Version) : Bool :=
  match v with
  | none => true
  | some d =>
    if e.reason.isNone && hasData s e then
      match measuredVersion s e with
      | some h => decide (h ≤ d)
      | none => true
    else true

/-- A heard answer of this kind and version suppresses a PEER_FETCH entry (R149, R150). -/
def suppressesFetch (s : State) (e : Entry) (k : Kind) (v : Version) : Bool :=
  if e.reason.isSome then decide (k ≠ .current)
  else
    match measuredVersion s e with
    | some h =>
      if aboveRequested e h then
        decide (k = .unavailable) || (decide (k = .data) && decide (h ≤ v))
      else true
    | none => true

/-- The entry is suppressed (R49, R150): in its slot wait the wait is cancelled; and its answers still queued are
withdrawn, those from before it was restarted included, also where it is finished without an answer by then (log 55).
In LOOKUP it is not suppressed (R49). -/
def suppress (s : State) (e : Entry) : State :=
  let answers := forTag (answerPurpose e.kind) e.tag
  if e.state = .slotWait then withdraw (finishEntry s e.tag .suppressed) answers .plain
  else if e.state.finished then withdraw s answers (.entryBecomes .suppressed)
  else s

/-! ### Correction answers and stale copies (R51, R53, R151) -/

/-- A correction answer is due on hearing DATA of version `v`, by the entry as that DATA finds it (R51; log 22). -/
def correctionDue (s : State) (e : Entry) (v : Version) : Bool :=
  decide (s.member.state = .serving) && !isListed s e.blk
    && (decide (e.state = .slotWait) || decide (e.state = .suppressed)) && !e.sentData
    && match heldVersion s e.blk with
      | some h => decide (v < h) && !e.heardData fun d => decide (h ≤ d)
      | none => false

/-- Compare a DATA heard with the held version; above it, the block is in doubt (R6, R53). -/
def staleTest (s : State) (b : Block) (v : Version) (held : HeldVersion) : State :=
  match held with
  | .known h => if h < v then listBlock s b else s
  | .unknown => s

/-- A station that has DATA recorded as sent hears a DATA for the tag (R53, R151). -/
def staleDetect (s : State) (e : Entry) (v : Version) : State :=
  if e.sentData && inService s && inRange s e.blk then
    match compareLookup s e.blk (.stale v) with
    | (s1, some a) => staleTest s1 e.blk v a
    | (s1, none) => s1
  else s

/-- Suppress the entry with this tag if the answer heard does so. -/
def suppressIf (s : State) (t : Tag) (test : Entry → Bool) : State :=
  match findEntry s t with
  | none => s
  | some e => if test e then suppress s e else s

/-- Make the correction answer under this tag. -/
def correct (s : State) (t : Tag) : State :=
  match findEntry s t with
  | none => s
  | some e => answerData s e

/-- Apply stale self-detection to the entry as it now stands (log 23). -/
def staleIf (s : State) (t : Tag) (v : Version) : State :=
  match findEntry s t with
  | none => s
  | some e => staleDetect s e v

/-! ### Answers delivered to the table (R36, R50, R61, R131, R132, R145) -/

/-- A fetch whose current attempt bears this tag. -/
def fetchOfTag (s : State) (t : Tag) : Option Fetch := s.repair.fetches.find? fun f => decide (f.tag = some t)

/-- A push whose OWN_REPLAY entry bears this tag. -/
def pushOfTag (s : State) (t : Tag) : Option Push := s.replay.pushes.find? fun p => decide (p.tag = some t)

def updateFetch (s : State) (id : Nat) (f : Fetch → Fetch) : State :=
  { s with repair := { s.repair with
      fetches := s.repair.fetches.map fun g => if g.id = id then f g else g } }

def updatePush (s : State) (id : Nat) (f : Push → Push) : State :=
  { s with replay := { s.replay with
      pushes := s.replay.pushes.map fun p => if p.id = id then f p else p } }

/-- The fetch window of the attempt is open (R145). -/
def windowOpen (f : Fetch) : Bool :=
  match f.phase with
  | .window _ => true
  | .lookup | .queued | .committing => false

/-- The fetch buffer after a DATA: replaced only by a higher version (R145). -/
def takeData (f : Fetch) (v : Version) (d : Data) : Fetch :=
  match f.buffer with
  | none => { f with buffer := some (v, d) }
  | some (w, _) => if w < v then { f with buffer := some (v, d) } else f

/-- DATA for the station's own fetch (R145). -/
def fetchTakesData (s : State) (t : Tag) (v : Version) (d : Data) : State :=
  match fetchOfTag s t with
  | none => s
  | some f => if windowOpen f then updateFetch s f.id fun g => takeData g v d else s

/-- CURRENT for the station's own fetch (R145). -/
def fetchTakesCurrent (s : State) (t : Tag) : State :=
  match fetchOfTag s t with
  | none => s
  | some f => if windowOpen f then updateFetch s f.id fun g => { g with currentTaken := true } else s

/-- DATA delivered to the entry with its tag (R49 to R53, R145, R150, R151). Answers that it suppresses leave the queue
before a correction answer is offered (DESIGN CHOICE, log 66). -/
def deliverData (s : State) (src : Source) (t : Tag) (b : Block) (v : Version) (d : Data) : State :=
  match findEntry s t with
  | none => s
  | some e =>
    if countsFor s e src b then
      let s1 := recordAnswer s t src.sender .data v
      match e.kind with
      | .clientRead =>
        let s2 := suppressIf s1 t fun e => suppressesRead s1 e (some v) && !e.queuedIt s1 src
        staleIf (if correctionDue s e v then correct s2 t else s2) t v
      | .peerFetch =>
        staleIf (suppressIf s1 t fun e => suppressesFetch s1 e .data v && !e.queuedIt s1 src) t v
      | .ownFetch => fetchTakesData s1 t v d
      | .clientWrite | .clientFlush | .ownReplay => s
    else s

/-- UNAVAILABLE delivered to the entry with its tag (R49, R50, R145, R150). -/
def deliverUnavailable (s : State) (src : Source) (t : Tag) (b : Block) : State :=
  match findEntry s t with
  | none => s
  | some e =>
    if countsFor s e src b then
      let s1 := recordAnswer s t src.sender .unavailable 0
      match e.kind with
      | .clientRead => suppressIf s1 t fun e => suppressesRead s1 e none && !e.queuedIt s1 src
      | .peerFetch =>
        suppressIf s1 t fun e => suppressesFetch s1 e .unavailable 0 && !e.queuedIt s1 src
      | .ownFetch => s1
      | .clientWrite | .clientFlush | .ownReplay => s
    else s

/-- CURRENT delivered to the entry with its tag (R145, R150); an out-of-range block is not acted on (R9). -/
def deliverCurrent (s : State) (src : Source) (t : Tag) (b : Block) (v : Version) : State :=
  match findEntry s t with
  | none => s
  | some e =>
    if countsFor s e src b && inRange s b then
      let s1 := recordAnswer s t src.sender .current v
      match e.kind with
      | .peerFetch => suppressIf s1 t fun e => suppressesFetch s1 e .current v && !e.queuedIt s1 src
      | .ownFetch => fetchTakesCurrent s1 t
      | .clientRead | .clientWrite | .clientFlush | .ownReplay => s
    else s

/-- An answer of the target counts for the push under its tag (R131). -/
def countsForPush (s : State) (e : Entry) (src : Source) (b : Block) : Bool :=
  decide (e.kind = .ownReplay) && decide (e.target = some src.sender) && countsFor s e src b

/-- An entry of the pool is being pushed. -/
def beingPushed (s : State) (p : StationNo) (b : Block) : Bool :=
  s.replay.pushes.any fun q => decide (q.peer = p) && decide (q.block = b)

/-- The comparison of an ACK with the held version (R131): equal or higher frees the entry, lower leaves it; an
unknown held version has the outcome of lower (R6). The push ends, its REPLAY withdrawn, before a REPLAY_DONE is
offered (DESIGN CHOICE, log 66). Where a NACK or a drop ended the push while the comparison waited, a lower one leaves
the retry time that they set (DESIGN CHOICE, log 52). -/
def replayCompare (s : State) (t : Tag) (p : StationNo) (b : Block) (v : Version)
    (held : HeldVersion) : State :=
  let enough := match held with
    | .known h => decide (h ≤ v)
    | .unknown => false
  match pushOfTag s t with
  | some q =>
    let s1 := endPush s q none .done
    if enough then freeMissed s1 p b else s1
  | none => if enough && !beingPushed s p b then freeMissed s p b else s

/-- The comparison that an ACK of a REPLAY calls for is taken at once, or waits on a version lookup (R6, R131). -/
def beginCompare (s : State) (t : Tag) (p : StationNo) (b : Block) (v : Version) : State :=
  match compareLookup s b (.replayAck t p v) with
  | (s1, some a) => replayCompare s1 t p b v a
  | (s1, none) => s1

/-- The ACK of a REPLAY is taken: the answer wait of a push in progress stops, and every ACK that counts is compared,
in SERVING and CATCHING_UP (R131, R138). -/
def replayAcked (s : State) (t : Tag) (p : StationNo) (b : Block) (v : Version) : State :=
  match pushOfTag s t with
  | some q => beginCompare (updatePush s q.id fun x => { x with phase := .comparing }) t p b v
  | none => if inService s then beginCompare s t p b v else s

/-- ACK delivered to the entry with its tag (R36, R131). -/
def deliverAck (s : State) (src : Source) (t : Tag) (b : Block) (v : Version) : State :=
  match findEntry s t with
  | none => s
  | some e =>
    match e.kind with
    | .clientWrite => if inRange s b then recordAnswer s t src.sender .ack v else s
    | .ownReplay =>
      if countsForPush s e src b then
        replayAcked (recordAnswer s t src.sender .ack v) t src.sender b v
      else s
    | .clientRead | .clientFlush | .peerFetch | .ownFetch => s

/-- A NACK counts for a push in progress: it ends with its retry time 5 ms ahead (R132). -/
def replayNacked (s : State) (t : Tag) : State :=
  match pushOfTag s t with
  | none => s
  | some q => endPush s q (some (s.clock + Config.retryDelay)) .done

/-- NACK delivered to the entry with its tag (R36, R132). -/
def deliverNack (s : State) (src : Source) (t : Tag) (b : Block) (v : Version) : State :=
  match findEntry s t with
  | none => s
  | some e =>
    match e.kind with
    | .clientWrite => if inRange s b then recordAnswer s t src.sender .nack v else s
    | .ownReplay =>
      if countsForPush s e src b then replayNacked (recordAnswer s t src.sender .nack v) t else s
    | .clientRead | .clientFlush | .peerFetch | .ownFetch => s

/-! ### Requests taken up (R19, R20, R41, R65, R88, R135, R149) -/

/-- A repeated WRITE (R65). -/
def repeatedWrite (s : State) (e : Entry) : State :=
  if e.kind = .clientWrite then
    match e.state with
    | .acked =>
      offer s (ackFrame (self s) e.tag e.blk (e.committed.getD 0)) .acknowledgement
    | .refused =>
      match e.reason with
      | some r => offerNack s e.tag e.blk (nackVersion s e.blk none) r
      | none => s
    | .lookup | .waitOrder | .committing | .slotWait | .draining | .outstanding | .answered
    | .suppressed | .silent | .done | .expired => s
  else s

/-- A WRITE that the table has an entry for takes the HELD slot of check 4, or is refused with CACHE_FULL; then it
makes its version lookup (R20, R22, R23). -/
def admitHeld (s : State) (e : Entry) (b : Block) (d : Data) : State :=
  match allocate s with
  | none => nackWrite s e .cacheFull
  | some i =>
    let s1 := updateEntry (setSlot s i (.held b d (.clientWrite e.tag) none)) e.tag fun x =>
      { x with slot := some i }
    match versionLookup s1 b (.write e.tag) with
    | (s2, some a) => writeAnswered s2 e.tag a
    | (s2, none) => s2

/-- A new WRITE at a replica in SERVING or CATCHING_UP: the four checks in their order (R20; log 16). -/
def admitWrite (s : State) (src : Source) (t : Tag) (b : Block) (d : Data) : State :=
  if !markMatches s src then nackNew s t b .rosterMismatch
  else if !inRange s b then nackNew s t b .outOfRange
  else
    match giveEntry s with
    | none => listRefused (offerNack s t b (nackVersion s b none) .tableFull) b .tableFull
    | some s1 =>
      let e := newEntry s1 t .clientWrite (some b) .lookup
      admitHeld (addEntry s1 e) e b d

/-- A WRITE heard (R19, R65). -/
def takeWrite (s : State) (src : Source) (t : Tag) (b : Block) (d : Data) : State :=
  if isReplica s b && (inService s || decide (s.member.state = .resetting)) then
    match findEntry s t with
    | some e => repeatedWrite s e
    | none => if inService s then admitWrite s src t b d else nackNew s t b .resetting
  else s

/-- A READ heard (R41, R55). -/
def takeRead (s : State) (src : Source) (t : Tag) (b : Block) : State :=
  if isReplica s b && decide (s.member.state = .serving) then
    match findEntry s t with
    | some e => if e.kind = .clientRead then repeated s src e else s
    | none =>
      match giveEntry s with
      | none => s
      | some s1 => takeUp (addEntry s1 (newEntry s1 t .clientRead (some b) .lookup)) src t b
  else s

/-- The requester's version of a FETCH (R149, R189). -/
def requestedVersion (v : Version) (unknownMark : Bool) : HeldVersion :=
  if unknownMark then .unknown else .known v

/-- A FETCH heard (R66, R149). -/
def takeFetch (s : State) (src : Source) (t : Tag) (b : Block) (v : Version) (unknownMark : Bool) :
    State :=
  if inService s && isReplica s b && (coReplicas s (groupOf b)).contains src.sender then
    match findEntry s t with
    | some e =>
      if e.kind = .peerFetch then
        let s1 :=
          if e.state.finished && !e.sentData then
            updateEntry s t fun x =>
              { x with
                requester := some src.sender
                requested := some (requestedVersion v unknownMark) }
          else s
        match findEntry s1 t with
        | none => s1
        | some e1 => repeated s1 src e1
      else s
    | none =>
      match giveEntry s with
      | none => s
      | some s1 =>
        takeUp
          (addEntry s1 { newEntry s1 t .peerFetch (some b) .lookup with
            requester := some src.sender, requested := some (requestedVersion v unknownMark) })
          src t b
  else s

/-- The drain set of a FLUSH: every slot in DIRTY or WRITING with its version (R88). -/
def drainSet (s : State) : List DrainMember :=
  s.cache.slots.zipIdx.filterMap fun x =>
    match x.1 with
    | .dirty b v _ _ => some { slot := x.2, block := b, version := v }
    | .writing b v _ => some { slot := x.2, block := b, version := v }
    | .free | .held .. | .filling .. | .clean .. | .retiring .. => none

/-- A member stays in its drain set while its slot holds the recorded version in DIRTY or WRITING (R89). -/
def stillDrains (s : State) (m : DrainMember) : Bool :=
  match slotAt s m.slot with
  | .dirty b v _ _ => decide (b = m.block) && decide (v = m.version)
  | .writing b v _ => decide (b = m.block) && decide (v = m.version)
  | .free | .held .. | .filling .. | .clean .. | .retiring .. => false

/-- A FLUSH heard (R66, R88). -/
def takeFlush (s : State) (src : Source) (t : Tag) : State :=
  if inService s && markMatches s src && (findEntry s t).isNone then
    match giveEntry s with
    | none => s
    | some s1 =>
      addEntry s1 { newEntry s1 t .clientFlush none .draining with drain := drainSet s1 }
  else s

/-- A REPLAY heard by its target (R135, R136). -/
def takeReplay (s : State) (src : Source) (t : Tag) (b : Block) (v : Version) (d : Data) : State :=
  if inService s && markMatches s src && isReplica s b then
    if !inRange s b then offerNack s t b (nackVersion s b none) .outOfRange
    else
      match allocate s with
      | none => listBlock (offerNack s t b (nackVersion s b none) .cacheFull) b
      | some i =>
        offerCommit (setSlot s i (.held b d (.replayTarget t) (some v))) i b v d (.replay t)
  else s

end Sys2Proof.Machine
end

