-- ==== Sys2Proof/Machine/Engines.lean ====
section
/-! DEFINITION. The engines that work of themselves inside a happening: pushes, fetches, the sweep, the end of a catch-up, the flusher and the FLUSH answers; and the rule that lets them work until nothing is left to do. -/

namespace Sys2Proof.Machine

/-! ### Pushes (R128, R129) -/

def findPush (s : State) (id : Nat) : Option Push := s.replay.pushes.find? fun p => decide (p.id = id)

/-- A push ends with its retry time 5 ms ahead (R129, R132). -/
def postponePush (s : State) (p : Push) : State :=
  endPush s p (some (s.clock + Config.retryDelay)) .done

/-- The tests a push makes before its REPLAY is queued (R129). -/
def mayPush (s : State) (p : Push) : Bool :=
  inService s && isLive s p.peer && !isListed s p.block

/-- The OWN_REPLAY entry of a push under a fresh tag: made for the first attempt, its tag replaced and its attempt
count raised for a later one (R62, R129, R133). The former tag is current until then, also while the copy lookup of
the later attempt waits on a media read (DESIGN CHOICE, log 51). Answers recorded under it stay in the entry (DESIGN
CHOICE, log 57). -/
def tagPush (s : State) (p : Push) : State :=
  let t := ownTag s
  let s1 := takeTag s
  let s2 :=
    match p.tag with
    | none =>
      addEntry s1 { newEntry s1 t .ownReplay (some p.block) .outstanding with target := some p.peer }
    | some old => updateEntry s1 old fun e => { e with tag := t, attempts := e.attempts + 1 }
  updatePush s2 p.id fun q => { q with tag := some t }

/-- Queue the REPLAY of a push that has its entry (R129). -/
def queueReplay (s : State) (p : Push) : State :=
  match currentCopy s p.block, p.tag with
  | some (i, v, d), some t =>
    if accepts s .replay then
      updatePush
        (touchSlot (offer s (replayFrame (self s) t p.peer p.block v d) .ownReplay) i)
        p.id fun q => { q with phase := .queued }
    else postponePush s p
  | _, _ => endPush s p none .done

/-- A push with data in hand goes on to its entry and its REPLAY (R129). Where the report of an entry reused early for
it (R63) ends this push, its peer declared down or given up (R130), the reused entry has left the table and no
OWN_REPLAY entry is made (DESIGN CHOICE, log 70). -/
def pushInHand (s : State) (p : Push) : State :=
  if mayPush s p then
    match (if p.tag.isNone then giveEntry s else some s) with
    | none => postponePush s p
    | some s1 =>
      match findPush s1 p.id with
      | none => s1
      | some q =>
        if mayPush s1 q then
          let s2 := tagPush s1 q
          match findPush s2 p.id with
          | none => s2
          | some r => queueReplay s2 r
        else endPush s1 q none .done
  else endPush s p none .done

/-- A push makes its copy lookup (R129). A retry whose lookup finds no slot ends with its OWN_REPLAY entry DONE (DESIGN
CHOICE, log 58). A port that is down answers the lookup as failed: no retry time is set, and the entry of a retry is
DONE (DESIGN CHOICE, log 63). -/
def lookupPush (s : State) (p : Push) : State :=
  match copyLookup (updatePush s p.id fun q => { q with phase := .lookup }) p.block (.push p.id) with
  | (s1, .hit _) => pushInHand s1 p
  | (s1, .waits) => s1
  | (s1, .noSlot) => postponePush s1 p
  | (s1, .failed) => endPush s1 p none .done

/-- The copy lookup of a push is answered by its media read (R129). Where the read failed, the push ends with no retry
time and the OWN_REPLAY entry of a retry is DONE; R129 has the list entry wait until the block leaves the repair list,
and where a full list could not take the block (R142) the entry is eligible again at once (DESIGN CHOICE, log 63). -/
def pushAnswered (s : State) (id : Nat) : State :=
  match findPush s id with
  | none => s
  | some p =>
    if p.phase = .lookup then
      if (currentCopy s p.block).isSome then pushInHand s p else endPush s p none .done
    else s

/-- A list entry is eligible for a push (R128). -/
def eligible (s : State) (m : Missed) : Bool :=
  inService s && isLive s m.peer && !isListed s m.block && !m.push
    && match m.retry with
      | none => true
      | some t => decide (t ≤ s.clock)

/-- The store stations in the order in which the next push is offered to them (R128). With no last-served peer, as
after a restart, the turn starts at station 0 (DESIGN CHOICE, log 65). -/
def turnOrder (last : Option StationNo) : List StationNo :=
  let start := match last with
    | none => 0
    | some p => p.toNat + 1
  (List.range 16).map fun k => BitVec.ofNat 5 ((start + k) % 16)

/-- The entry the next push takes: the oldest eligible one of the first peer in turn that has one (R128). -/
def nextPush (s : State) : Option Missed :=
  (turnOrder s.replay.lastServed).findSome? fun p =>
    s.replay.pool.find? fun m => decide (m.peer = p) && eligible s m

/-- Begin a push of an entry (R128). -/
def beginPush (s : State) (m : Missed) : State :=
  let p : Push := { id := s.nextId, peer := m.peer, block := m.block, tag := none, phase := .lookup }
  lookupPush
    { s with
      nextId := s.nextId + 1
      replay := { s.replay with
        pool := s.replay.pool.map fun x =>
          if x.peer = m.peer ∧ x.block = m.block then { x with push := true, retry := none } else x
        pushes := s.replay.pushes ++ [p]
        lastServed := some m.peer } }
    p

/-- The Replay Engine begins a push while fewer than 2 are in progress (R128). -/
def pushStep (s : State) : Option State :=
  if inService s && decide (s.replay.pushes.length < Config.pushLimit) then
    (nextPush s).map (beginPush s)
  else none

/-! ### Fetches (R143 to R147) -/

/-- A sweep block is to be taken again, from this moment on or at once (R144, R148). -/
def addRetake (s : State) (b : Block) (due : Option Nat) : State :=
  { s with repair := { s.repair with retakes := s.repair.retakes ++ [{ block := b, due := due }] } }

/-- A fetch ends without an answer to settle it: a repair entry is PARKED or READY, a sweep block is taken again
(R144, R146, R148). -/
def setAside (s : State) (f : Fetch) (st : EntryState) (repair : RepairState) (due : Option Nat) : State :=
  let own := ownsEntry s f
  let s1 := endFetch s f st
  if f.sweep then addRetake s1 f.block due
  else if own then setRepairState s1 f.block repair
  else s1

/-- The fetch ends without an attempt (R144). -/
def endNoAttempt (s : State) (f : Fetch) : State :=
  setAside s f .done (.parked (s.clock + Config.retryDelay)) (some (s.clock + Config.retryDelay))

/-- The OWN_FETCH entry of a fetch under a fresh tag (R62, R144, R146). The former tag is current until then, also
while the version lookup of the later attempt waits on a media read (DESIGN CHOICE, log 51), and answers recorded under
it stay in the entry (DESIGN CHOICE, log 57). -/
def tagFetch (s : State) (f : Fetch) : State :=
  let t := ownTag s
  let s1 := takeTag s
  let s2 :=
    match f.tag with
    | none => addEntry s1 (newEntry s1 t .ownFetch (some f.block) .outstanding)
    | some old => updateEntry s1 old fun e => { e with tag := t, attempts := e.attempts + 1 }
  updateFetch s2 f.id fun g => { g with tag := some t }

/-- The version a FETCH names: the current slot's, otherwise the lookup's answer (R144). -/
def fetchVersion (s : State) (b : Block) (a : HeldVersion) : HeldVersion :=
  match heldVersion s b with
  | some v => .known v
  | none => a

/-- The FETCH frame for a requester's version (R144, R189). -/
def ownFetchFrame (s : State) (t : Tag) (b : Block) (v : HeldVersion) : Frame :=
  match v with
  | .known w => fetchFrame (self s) t b w false
  | .unknown => fetchFrame (self s) t b 0 true

/-- Queue the FETCH of a fetch that has its entry (R144). -/
def queueFetch (s : State) (f : Fetch) (a : HeldVersion) : State :=
  match f.tag with
  | none => s
  | some t =>
    if accepts s .fetch then
      updateFetch (offer s (ownFetchFrame s t f.block (fetchVersion s f.block a)) .ownFetch) f.id fun g =>
        { g with phase := .queued, buffer := none, currentTaken := false }
    else endNoAttempt s f

/-- The version lookup of a fetch is answered (R144). -/
def fetchAnswered (s : State) (id : Nat) (a : HeldVersion) : State :=
  match findFetch s id with
  | none => s
  | some f =>
    if f.phase = .lookup then
      match (if f.tag.isNone then giveEntry s else some s) with
      | none => endNoAttempt s f
      | some s1 =>
        match findFetch s1 id with
        | none => s1
        | some g =>
          let s2 := tagFetch s1 g
          match findFetch s2 id with
          | none => s2
          | some h => queueFetch s2 h a
    else s

/-- A fetch makes its version lookup (R144, R146). -/
def lookupFetch (s : State) (f : Fetch) : State :=
  match versionLookup (updateFetch s f.id fun g => { g with phase := .lookup }) f.block (.fetch f.id) with
  | (s1, some a) => fetchAnswered s1 f.id a
  | (s1, none) => s1

/-- Begin a fetch of a block, of the repair list or of the sweep (R143, R144). -/
def beginFetch (s : State) (b : Block) (sweep : Bool) : State :=
  let f : Fetch :=
    { id := s.nextId, block := b, sweep := sweep, phase := .lookup, tag := none, buffer := none,
      currentTaken := false }
  lookupFetch
    { s with
      nextId := s.nextId + 1
      repair := { s.repair with fetches := s.repair.fetches ++ [f] } }
    f

/-- The oldest READY entry whose group has a live co-replica (R143). -/
def nextRepair (s : State) : Option RepairEntry :=
  s.repair.list.find? fun e => decide (e.state = .ready) && groupLive s (groupOf e.block)

/-! ### The sweep (R156 to R159) -/

/-- A sweep is running: a catch-up in progress in CATCHING_UP (R152). -/
def sweeping (s : State) : Bool := decide (s.member.state = .catchingUp) && s.repair.active

/-- The blocks of a group from the cursor to its end, below V (R10, R156). -/
def blocksLeft (s : State) (cursor : Nat) : Nat :=
  (volume s - cursor + (Config.groupCount - 1)) / Config.groupCount

/-- The current group leaves the set and there is no current group (R156, R157). -/
def leaveGroup (s : State) (g : Nat) : State :=
  { s with repair := { s.repair with
      sweepSet := s.repair.sweepSet.filter fun h => decide (h ≠ g)
      group := none } }

/-- The current group is skipped, its blocks from the cursor on counted unverified (R156). -/
def skipGroup (s : State) (g : Nat) : State :=
  leaveGroup (countUnverified s (blocksLeft s s.repair.cursor)) g

/-- The lowest group of the set becomes current, and is skipped if it has no live co-replica (R156). -/
def groupStep (s : State) : Option State :=
  if sweeping s && s.repair.group.isNone then
    match s.repair.sweepSet with
    | [] => none
    | g :: _ =>
      let s1 := { s with repair := { s.repair with group := some g, cursor := g } }
      some (if groupLive s1 g then s1 else skipGroup s1 g)
  else none

/-- The cursor goes on by 64; past the group's last block the group leaves (R157). -/
def advanceCursor (s : State) (g : Nat) : State :=
  let s1 := { s with repair := { s.repair with cursor := s.repair.cursor + Config.groupCount } }
  if s1.repair.cursor < volume s1 then s1 else leaveGroup s1 g

/-- Take up the block at the cursor: passed over if listed, fetched otherwise (R157). -/
def takeCursor (s : State) (g : Nat) : State :=
  if groupLive s g then
    let b : Block := BitVec.ofNat 24 s.repair.cursor
    let s1 := advanceCursor s g
    if isListed s b then s1 else beginFetch s1 b true
  else skipGroup s g

/-- Take a sweep block again: passed over if listed, unverified if its group has no live co-replica, fetched
otherwise (R144, R148, R156, R157; log 28). A block set aside twice is taken again once (DESIGN CHOICE, log 53). -/
def takeAgain (s : State) (r : Retake) : State :=
  let s1 := { s with repair := { s.repair with
      retakes := s.repair.retakes.filter fun x => decide (x ≠ r) } }
  if isListed s1 r.block then s1
  else if groupLive s1 (groupOf r.block) then beginFetch s1 r.block true
  else countUnverified s1 1

/-- The sweep's next block, while it runs and is not paused (R143, R157, R159): a block to be taken again whose time
has come, otherwise the cursor's (log 28). -/
def sweepStep (s : State) : Option State :=
  if sweeping s && s.repair.waitingRoom.isEmpty then
    match s.repair.retakes.find? fun r => r.due.isNone with
    | some r => some (takeAgain s r)
    | none => s.repair.group.map (takeCursor s)
  else none

/-- The Repair Engine begins a fetch while fewer than 4 are in progress: a repair entry first, then the sweep
(R143). -/
def fetchStep (s : State) : Option State :=
  if inService s && decide (s.repair.fetches.length < Config.fetchLimit) then
    match nextRepair s with
    | some e => some (beginFetch (setRepairState s e.block .fetching) e.block false)
    | none => sweepStep s
  else none

/-- A sweep block goes on the repair list, or waits for room (R159); one that is there or waits already is not added
twice. -/
def listSweepBlock (s : State) (b : Block) : State :=
  if isListed s b || s.repair.waitingRoom.contains b then s
  else if s.repair.list.length < Config.repairSize then placeReady s b
  else { s with repair := { s.repair with waitingRoom := s.repair.waitingRoom ++ [b] } }

/-- A fetch ends unanswered after its three attempts (R146, R158). -/
def endUnanswered (s : State) (f : Fetch) : State :=
  if f.sweep then
    let s1 := endFetch s f .done
    if groupLive s1 (groupOf f.block) then listSweepBlock s1 f.block else countUnverified s1 1
  else
    let own := ownsEntry s f
    let s1 := endFetch s f .done
    if own then setRepairState s1 f.block (.parked (s.clock + Config.parkUnanswered)) else s1

/-- The attempts made under the fetch's or push's entry (R58). -/
def attemptsOf (s : State) (t : Option Tag) : Nat :=
  match t with
  | none => 0
  | some t =>
    match findEntry s t with
    | none => 0
    | some e => e.attempts

/-- The fetch window closes (R146, R147). -/
def closeWindow (s : State) (f : Fetch) : State :=
  match f.buffer with
  | some (v, d) =>
    match allocate s with
    | none => endNoAttempt s f
    | some i =>
      offerCommit
        (updateFetch (setSlot s i (.held f.block d (.ownFetch f.id) (some v))) f.id fun g =>
          { g with phase := .committing })
        i f.block v d (.ownFetch f.id)
  | none =>
    if f.currentTaken then settleFetch s f
    else if attemptsOf s f.tag < Config.ownAttempts then lookupFetch s f
    else endUnanswered s f

/-! ### The end of a catch-up (R161) -/

/-- Queue CAUGHT_UP; refused, it is queued again 5 ms later (R161). -/
def queueCaughtUp (s : State) : State :=
  if accepts s .caughtUp then
    offer { s with repair := { s.repair with caughtUpRequeue := none } } (caughtUpFrame (self s)) .caughtUp
  else
    { s with repair := { s.repair with caughtUpRequeue := some (s.clock + Config.retryDelay) } }

/-- Everything a catch-up waits for is done (R161). -/
def catchUpDone (s : State) : Bool :=
  sweeping s && s.repair.rejoinSent && decide (s.repair.awaited = 0) && s.repair.sweepSet.isEmpty
    && !s.repair.fetches.any (·.sweep) && s.repair.waitingRoom.isEmpty

/-- The catch-up ends: CAUGHT_UP queued, SERVING, the sweep-needed flag cleared (R161, R166). A sweep block still to
be taken again, in its 5 ms or waiting for a place, is dropped, since no sweep is left to take it (DESIGN CHOICE, log
28). -/
def endCatchUp (s : State) : State :=
  let s1 := queueCaughtUp s
  { s1 with
    member := { s1.member with state := .serving, sweepNeeded := false }
    repair := { s1.repair with active := false, limit := none, retakes := [] } }

def catchUpStep (s : State) : Option State := if catchUpDone s then some (endCatchUp s) else none

/-! ### The flusher (R84) and the FLUSH answers (R89) -/

/-- The DIRTY slots with their commit orders. -/
def dirtyOrders (s : State) : List (Nat × Nat) :=
  s.cache.slots.zipIdx.filterMap fun x =>
    match x.1 with
    | .dirty _ _ _ o => some (x.2, o)
    | .free | .held .. | .filling .. | .clean .. | .writing .. | .retiring .. => none

/-- The flusher works in every state but OUT(MEDIA_DOWN) (R84). The cache issues nothing either once the port is
down (R86). -/
def flusherRuns (s : State) : Bool :=
  decide (s.member.state ≠ .out .mediaDown) && !s.port.down

/-- Issue the WRITE_RECORD of a DIRTY slot, which becomes WRITING (R84). -/
def flushSlot (s : State) (i : Nat) : State :=
  match slotAt s i with
  | .dirty b v d _ => issue (setSlot s i (.writing b v d)) (.writeRecord b v d i)
  | .free | .held .. | .filling .. | .clean .. | .writing .. | .retiring .. => s

/-- The flusher issues the DIRTY slot of lowest commit order while fewer than 2 WRITE_RECORDs are uncompleted
(R84). -/
def flusherStep (s : State) : Option State :=
  if flusherRuns s && decide (writesInFlight s < Config.flushLimit) then
    (leastRecent (dirtyOrders s)).map fun x => flushSlot s x.1
  else none

/-- The drain set without the members that have left it (R89). -/
def pruneDrain (s : State) (e : Entry) : Entry :=
  if e.state = .draining then { e with drain := e.drain.filter (stillDrains s) } else e

/-- Members whose slots hold the recorded version no more leave their drain sets for good (R89). -/
def drainStep (s : State) : Option State :=
  if s.table.any fun e => decide (e.state = .draining) && !e.drain.all (stillDrains s) then
    some { s with table := s.table.map (pruneDrain s) }
  else none

/-- A FLUSH whose drain set is empty (R89). -/
def drained (s : State) (e : Entry) : Bool :=
  decide (e.kind = .clientFlush) && decide (e.state = .draining) && !e.drain.any (stillDrains s)

/-- The FLUSH is answered with ACK of version 0 and its entry is ACKED (R89), the ACK recorded also where the queue
refused it (DESIGN CHOICE, log 61). Of several drained FLUSHes the first in the table is answered first (DESIGN CHOICE,
log 13). -/
def flushAnswerStep (s : State) : Option State :=
  (s.table.find? (drained s)).map fun e =>
    finishEntry
      (recordSent (offer s (ackFrame (self s) e.tag 0 0) .acknowledgement) e.tag .ack 0) e.tag .acked

/-- The first engine that has something to do (log 13). -/
def engineStep (s : State) : Option State :=
  (drainStep s).orElse fun _ =>
  (flushAnswerStep s).orElse fun _ =>
  (flusherStep s).orElse fun _ =>
  (groupStep s).orElse fun _ =>
  (fetchStep s).orElse fun _ =>
  (pushStep s).orElse fun _ => catchUpStep s

/-- The engines work, `n` steps at most, until none has anything to do. -/
def settleWithin : Nat → State → State
  | 0, s => s
  | n + 1, s =>
    match engineStep s with
    | none => s
    | some s' => settleWithin n s'

/-- More steps than the engines can make inside one happening: each begins one of at most 2 pushes or 4 fetches,
issues one of at most 2 records, prunes the drain sets once, answers one of 24 entries, passes over one of 64 listed
blocks or skips one of 64 groups, and each fetch or push that ends at once is set aside for a time or leaves a bounded
list. -/
def settleBound : Nat := 4096

/-- The end of a happening: the engines begin what its effects let them begin (log 13). -/
def settle (s : State) : State := settleWithin settleBound s

end Sys2Proof.Machine
end

