-- ==== Sys2Proof/Machine/Membership.lean ====
section
/-! DEFINITION. The Membership Controller: restarts, listening, formation, adoption, leaving service, OUT and the ROSTER answers. -/

namespace Sys2Proof.Machine

/-! ### Leaving service (R26, R31, R39, R56, R70, R80, R123, R138, R148, R162, R174) -/

/-- Frames withdrawn when the station leaves SERVING and CATCHING_UP for RESETTING, SPECTATOR or OUT, beside the
answers (R26, R31, R70, R123, R138, R162, R174). -/
def leavesWithService (p : Purpose) : Bool :=
  match p with
  | .roster | .peerNotice _ | .rejoin _ | .caughtUp | .replayDone _ _ | .leadOrder
  | .supersedeOrder | .ownFetch | .ownReplay => true
  | .present | .rosterQuery | .overflowNotice | .mediaDownNotice | .acknowledgement | .readAnswer
  | .fetchAnswer | .statusReport | .orphan => false

/-- A write entry that has not committed: LOOKUP or WAIT_ORDER (R39). -/
def Entry.uncommitted (e : Entry) : Bool :=
  decide (e.kind = .clientWrite) && (decide (e.state = .lookup) || decide (e.state = .waitOrder))

/-- Write entries on entering RESETTING: those uncommitted are refused with RESETTING (R39), in the order of the table
(DESIGN CHOICE, log 13). -/
def refuseWrites (s : State) : State :=
  (s.table.filter Entry.uncommitted).foldl (fun s e => nackWrite s e .resetting) s

/-- Write entries on entering SPECTATOR or OUT: the unfinished become EXPIRED with their ack windows dropped
(R39). So does a COMMITTING one when the station goes from RESETTING to OUT, a change R39 does not name (DESIGN CHOICE,
log 47). -/
def expireWrites (s : State) : State :=
  (s.table.filter fun e => decide (e.kind = .clientWrite) && !e.state.finished).foldl
    (fun s e => expireEntry (updateEntry s e.tag fun x => { x with ackWindow := none }) e.tag) s

/-- The unfinished entries of a kind become EXPIRED (R67, R70). -/
def expireKind (s : State) (k : EntryKind) : State :=
  (s.table.filter fun e => decide (e.kind = k) && !e.state.finished).foldl
    (fun s e => expireEntry s e.tag) s

/-- Requests in progress end: as for RESETTING, or as for SPECTATOR and OUT (R39, R56, R70). On entering RESETTING the
NACKs RESETTING (R39) are offered before the queued answers to READs and FETCHes are withdrawn (R56, R70), so that the
places these free come too late for the NACKs (DESIGN CHOICE, log 66). -/
def endRequests (s : State) (resetting : Bool) : State :=
  let st : EntryState := if resetting then .silent else .expired
  let s1 := if resetting then refuseWrites s else expireKind (expireWrites s) .clientFlush
  closeAnswers (closeAnswers s1 .clientRead .readAnswer st) .peerFetch .fetchAnswer st

/-- Pushes and fetches end and every OWN_FETCH and OWN_REPLAY entry still OUTSTANDING is EXPIRED; FETCHING entries
are READY again (R70, R138, R148). -/
def endOwnWork (s : State) : State :=
  let s1 := expireKind (expireKind
    (endFetches (endPushes s (fun _ => true) .expired) (fun _ => true) .expired) .ownFetch) .ownReplay
  { s1 with repair := { s1.repair with
      list := s1.repair.list.map fun e => if e.state = .fetching then { e with state := .ready } else e } }

/-- HELD slots are freed, pending commits dropped and lookups given up (R80, R87). -/
def abandonCache (s : State) : State :=
  let s1 := freeHeld s fun _ => true
  { s1 with cache := { s1.cache with pendings := [], waiters := [] } }

/-- The catch-up ends without CAUGHT_UP, its record kept for the report, and no timer of the recovery side or of
the ROSTER answer runs on (R138, R162, R174). -/
def stopServiceTimers (s : State) : State :=
  { s with
    member := { s.member with rosterWait := none, queryTimer := none }
    replay := { s.replay with reoffers := [] }
    repair := { s.repair with
      active := false
      limit := none
      rejoinRequeue := none
      caughtUpRequeue := none } }

/-- The station leaves for `next`, which is RESETTING, SPECTATOR or OUT. The frames that leave with service are
withdrawn before anything is offered (DESIGN CHOICE, log 66). -/
def leaveService (s : State) (next : StationState) : State :=
  let s1 := { s with member := { s.member with state := next } }
  let s2 := withdraw s1 (fun f => leavesWithService f.purpose) .plain
  stopServiceTimers (abandonCache (endOwnWork (endRequests s2 (decide (next = .resetting)))))

/-! ### OUT (R177) -/

/-- Queue PEER_DOWN naming the station itself; refused, it is offered again 5 ms later (R177). -/
def queueOwnDown (s : State) : State :=
  if accepts s .peerDown then
    offer { s with member := { s.member with ownDownReoffer := none } }
      (peerDownFrame (self s) (ownNumber s)) .mediaDownNotice
  else
    { s with member := { s.member with ownDownReoffer := some (s.clock + Config.retryDelay) } }

def isOut (s : State) : Bool :=
  match s.member.state with
  | .out _ => true
  | .starting | .listening | .forming | .serving | .catchingUp | .spectator | .resetting => false

/-- Enter OUT; the reason does not change while the station is OUT (R177). PEER_DOWN naming the station is offered last,
after the withdrawals of the change, and may take a place they free (DESIGN CHOICE, log 66). -/
def enterOut (s : State) (r : OutReason) : State :=
  if isOut s then s
  else
    let s1 := leaveService s (.out r)
    let s2 := { s1 with member := { s1.member with
        listeningWindow := none
        quietTimer := none
        presentReoffers := [] } }
    if r = .mediaDown ∧ s2.member.member = true then queueOwnDown s2 else s2

/-! ### Restarts (R163 to R167) -/

/-- Every block but the Bus Interface at its reset values, the counters cleared, the straps read from the pins as
they stand (R163, R165). -/
def resetBlocks (s : State) (sweepNeeded : Bool) : State :=
  { s with
    member := Membership.restart s.pins sweepNeeded
    table := []
    sequence := 0
    followCount := 0
    cache := Cache.reset
    port := Port.reset s.port.op
    peers := []
    replay := Replay.reset
    repair := Repair.reset
    counters := Counters.zero }

/-- STARTING: invalid straps lead to OUT(BAD_STRAP) with no probe, otherwise the probe limit starts and a probe is
presented (R104, R163, R167). -/
def enterStarting (s : State) : State :=
  if validStraps s.member.straps then
    startAttempt
      { s with port := { s.port with probeLimit := some (s.clock + Config.probeLimit) } } .probing
  else { s with member := { s.member with state := .out .badStrap } }

/-- A frame left in the queue at a station reset has no owner any more (R188; log 32). -/
def orphaned (f : TxFrame) : TxFrame := { f with purpose := .orphan, withdrawal := none }

/-- A station reset restarts the station: the frames queued before it go on, and none is accepted until the last
of them has left (R175, R176, R188). -/
def stationRestart (s : State) (sweepNeeded : Bool) : State :=
  let q := s.bus.queue.map orphaned
  enterStarting
    (resetBlocks { s with bus := { s.bus with queue := q, accepting := q.isEmpty } } sweepNeeded)

/-- The drain is complete: no slot is DIRTY, WRITING or RETIRING (R90). -/
def drainComplete (s : State) : Bool := decide (dirtySlots s = 0)

/-- In RESETTING with the drain complete the station restarts, its sweep-needed flag as it was (R90, R166,
R176). -/
def drainCheck (s : State) : State :=
  if s.member.state = .resetting ∧ drainComplete s = true then stationRestart s s.member.sweepNeeded
  else s

/-! ### Listening, formation and adoption (R168 to R173) -/

/-- A PRESENT of the station is in the transmit queue. -/
def presentQueued (s : State) : Bool := s.bus.queue.any (forPurpose .present)

/-- A PRESENT refused or dropped is to be offered again 5 ms later (R171). -/
def presentAgain (s : State) : State :=
  { s with member := { s.member with
      presentReoffers := s.member.presentReoffers ++ [s.clock + Config.retryDelay] } }

/-- Queue PRESENT with the candidate set as it stands, roster mark zero; refused, it is offered again 5 ms later
(R171). -/
def queuePresent (s : State) : State :=
  if accepts s .present then
    offer s (presentFrame (self s) s.member.candidates (ownConfiguration s)) .present
  else presentAgain s

/-- Enter LISTENING when the memory has answered a probe (R104, R168). -/
def enterListening (s : State) : State :=
  { s with member := { s.member with
      state := .listening
      listeningWindow := some (s.clock + Config.listeningWindow) } }

/-- Enter FORMING (R171). -/
def enterForming (s : State) : State :=
  queuePresent
    { s with member := { s.member with
        state := .forming
        listeningWindow := none
        candidates := markOf (ownNumber s)
        quietTimer := some (s.clock + Config.quietTimer) } }

/-- The Peer Table of a roster: every other member PRESENT (R109). -/
def makePeers (s : State) (mark : Mark) : List PeerEntry :=
  ((markMembers mark).filter fun n => decide (n ≠ ownNumber s)).map fun n =>
    { peer := n, state := .present, misses := 0, lastNotice := none }

/-- The roster is fixed and the station is a member: its mark, placement table and Peer Table (R11, R12, R109). -/
def fixRoster (s : State) (mark : Mark) : State :=
  { s with
    member := { s.member with
      mark := mark
      placement := buildPlacement mark (copies s)
      member := true }
    peers := makePeers s mark }

/-- Listening and formation are over: their timers stop and a PRESENT not yet in transmission is withdrawn
(R168, R169, R173). -/
def endFormation (s : State) : State :=
  let s1 := withdraw s (forPurpose .present) .plain
  { s1 with member := { s1.member with
      listeningWindow := none
      quietTimer := none
      presentReoffers := [] } }

/-- Formation closes (R173). -/
def closeFormation (s : State) : State :=
  let s1 := fixRoster (endFormation s) s.member.candidates
  if s1.member.sweepNeeded then beginCatchUp s1
  else { s1 with member := { s1.member with state := .serving } }

/-- Queue ROSTER_QUERY; refused, it is offered again at the next 25 ms mark (R170; log 26). -/
def queueRosterQuery (s : State) : State :=
  if accepts s .rosterQuery then
    offer { s with member := { s.member with queryTimer := none } } (rosterQueryFrame (self s)) .rosterQuery
  else
    { s with member := { s.member with queryTimer := some (s.clock + Config.queryRepeat) } }

/-- The number of members of a roster. -/
def markSize (m : Mark) : Nat := (markMembers m).length

/-- Adoption of the roster that a heard frame's mark names; `conf` is the configuration it carries, if its kind
carries one (R169). PRESENT is withdrawn first, then ROSTER_QUERY is offered, then REJOIN (DESIGN CHOICE, log 66). -/
def adopt (s : State) (mark : Mark) (conf : Option Configuration) : State :=
  let s1 := endFormation s
  let mismatch := match conf with
    | some c => decide (c ≠ ownConfiguration s)
    | none => false
  if mismatch || !inMark mark (ownNumber s) || decide (markSize mark < copies s) then
    { s1 with member := { s1.member with state := .spectator, mark := mark } }
  else
    let s2 := fixRoster s1 mark
    match conf with
    | some _ => beginCatchUp s2
    | none =>
      beginCatchUp (queueRosterQuery { s2 with member := { s2.member with checkPending := true } })

/-- The configuration check failed: the station leaves membership for SPECTATOR (R170). -/
def becomeSpectator (s : State) : State :=
  let s1 := leaveService s .spectator
  { s1 with member := { s1.member with member := false, checkPending := false } }

/-! ### ROSTER answers (R170, R174) -/

/-- A ROSTER of the station is in the transmit queue. -/
def rosterQueued (s : State) : Bool := s.bus.queue.any (forPurpose .roster)

/-- The roster answer wait ends: ROSTER is queued (R174). -/
def expireRosterWait (s : State) : State :=
  offer { s with member := { s.member with rosterWait := none } }
    (rosterFrame (self s) (ownConfiguration s)) .roster

/-- Begin a roster answer wait; one of zero slots ends at once (R15, R174; log 15). -/
def beginRosterWait (s : State) : State :=
  if inService s && !s.member.checkPending && s.member.rosterWait.isNone && !rosterQueued s then
    let w := slotWait s (markMembers s.member.mark)
    let s1 := { s with member := { s.member with rosterWait := some (s.clock + w) } }
    if w = 0 then expireRosterWait s1 else s1
  else s

/-- A ROSTER with the station's mark ends the station's own answer (R174). -/
def rosterCancels (s : State) (src : Source) : State :=
  if markMatches s src then
    withdraw { s with member := { s.member with rosterWait := none } } (forPurpose .roster) .plain
  else s

/-- A ROSTER from another station with the station's own mark ends a pending configuration check (R170). -/
def rosterChecks (s : State) (src : Source) (conf : Configuration) : State :=
  if s.member.checkPending && inService s && markMatches s src && decide (src.sender ≠ ownNumber s) then
    if conf = ownConfiguration s ∧ copies s ≤ markSize s.member.mark then
      { s with member := { s.member with checkPending := false, queryTimer := none } }
    else becomeSpectator s
  else s

/-- A ROSTER heard outside LISTENING and FORMING (R170, R174). -/
def takeRoster (s : State) (src : Source) (conf : Configuration) : State :=
  rosterChecks (rosterCancels s src) src conf

/-! ### PRESENT (R168, R172, R174) -/

/-- A PRESENT of a store station heard in FORMING (R172). -/
def presentForming (s : State) (src : Source) (candidates : Mark) (conf : Configuration) : State :=
  if conf = ownConfiguration s then
    let grown := s.member.candidates ||| markOf src.sender
    let grew := decide (grown ≠ s.member.candidates)
    let s1 := { s with member := { s.member with
        candidates := grown
        quietTimer := if grew then some (s.clock + Config.quietTimer) else s.member.quietTimer } }
    if !inMark candidates (ownNumber s) && !presentQueued s1 then queuePresent s1 else s1
  else countMismatched s

/-- A PRESENT heard that does not lead to adoption, by the station's state (R168, R172, R174;
log 25). -/
def takePresent (s : State) (src : Source) (candidates : Mark) (conf : Configuration) : State :=
  if src.sender.isStore then
    match s.member.state with
    | .listening => presentForming (enterForming s) src candidates conf
    | .forming => presentForming s src candidates conf
    | .serving | .catchingUp => beginRosterWait s
    | .starting | .spectator | .resetting | .out _ => s
  else s

/-- A ROSTER_QUERY heard (R174). -/
def takeRosterQuery (s : State) (src : Source) : State :=
  if src.sender = ownNumber s then s else beginRosterWait s

/-! ### Peer Table frames (R115 to R119) and REPLAY_DONE (R154) -/

/-- PEER_DOWN heard (R110, R114 to R116; log 36). -/
def takePeerDown (s : State) (src : Source) (named : StationNo) : State :=
  if inService s && markMatches s src && isMember s src.sender then
    if named = ownNumber s then (if src.sender = ownNumber s then s else beginCatchUp s)
    else if isMember s named then
      let s1 :=
        if src.sender = ownNumber s then s else withdraw s (forPurpose (.peerNotice named)) .plain
      markAbsent s1 named
    else s
  else s

/-- REJOIN heard: the peer is CATCHING_UP, its retry times are removed, and an empty list draws REPLAY_DONE (R118,
R134, R137). -/
def takeRejoin (s : State) (src : Source) : State :=
  if peerTakes s src then
    let p := src.sender
    let s1 := updatePeer s p fun e => { e with state := .catchingUp, misses := 0 }
    let s2 := { s1 with replay := { s1.replay with
        pool := s1.replay.pool.map fun m => if m.peer = p then { m with retry := none } else m } }
    if (missedList s2 p).isEmpty then queueReplayDone s2 p else s2
  else s

/-- CAUGHT_UP heard (R119). -/
def takeCaughtUp (s : State) (src : Source) : State :=
  if peerTakes s src then
    if isCatchingUp s src.sender then updatePeer s src.sender fun e => { e with state := .present }
    else renotice s src.sender
  else s

/-- An ACK clears its sender's miss count and may draw a re-notice (R112, R117). -/
def clearMisses (s : State) (src : Source) : State :=
  if peerTakes s src then
    renotice (updatePeer s src.sender fun e => { e with misses := 0 }) src.sender
  else s

/-- REPLAY_DONE addressed to the station (R154). -/
def takeReplayDone (s : State) (src : Source) (sweep : Bool) : State :=
  if decide (s.member.state = .catchingUp) && markMatches s src && isMember s src.sender
      && decide (src.sender ≠ ownNumber s) then
    let s1 := if inMark s.repair.awaited src.sender then unawait s src.sender else s
    if sweep then addGroups s1 (sharedGroups s1 src.sender) else s1
  else s

/-! ### STATION_RESET and STATUS_QUERY (R175, R176, R191, R192) -/

/-- A STATION_RESET addressed to the station, the strap pins at these levels by now (R163, R175). -/
def takeStationReset (straps : Straps) (s : State) : State :=
  let s := { s with pins := straps }
  match s.member.state with
  | .starting | .resetting => s
  | .listening | .forming | .serving | .catchingUp | .spectator =>
    drainCheck (settle (leaveService s .resetting))
  | .out r =>
    if r = .mediaDown ∨ s.port.down = true then stationRestart s true
    else drainCheck (settle (leaveService s .resetting))

/-- A STATUS_QUERY addressed to the station (R192). -/
def takeStatusQuery (s : State) (src : Source) (t : Tag) : State :=
  offer s (statusReportFrame (self s) t src.sender (statusReport s)) .statusReport

end Sys2Proof.Machine
end

