-- ==== Sys2Proof/Machine/Media.lean ====
section
/-! DEFINITION. The Media Port at work: attempts, retries, completions of reads and writes at the cache, the start-up probe and MEDIA_DOWN. -/

namespace Sys2Proof.Machine

/-! ### Completion of a read at the cache (R78, R100, R102) -/

/-- How a read command completes finally (R94, R95): a version and data with the bursts corrected, or failed. -/
inductive ReadOutcome where
  | delivered (version : Version) (data : Data) (bursts : Nat)
  | failed
  deriving DecidableEq, Repr

/-- The held version a completion gives (R78). -/
def ReadOutcome.held : ReadOutcome → HeldVersion
  | .delivered v _ _ => .known v
  | .failed => .unknown

/-- The held version of a block at this moment: its current copy's, otherwise this one (R78). -/
def heldNow (s : State) (b : Block) (a : HeldVersion) : HeldVersion :=
  match heldVersion s b with
  | some v => .known v
  | none => a

/-- Counters and repair entry of a completion (R100, R102); a read ended by MEDIA_DOWN has neither (R106). -/
def countRead (s : State) (b : Block) (o : ReadOutcome) (quiet : Bool) : State :=
  match o with
  | .delivered _ _ n => if n = 0 ∨ quiet = true then s else countCorrected s
  | .failed => if quiet then s else listBlock (countUncorrectable s) b

/-- Pending commits of the block move from its READ_HEADER to the READ_RECORD of its FILLING slot (R78). -/
def movePendings (s : State) (b : Block) : State :=
  { s with cache := { s.cache with pendings := s.cache.pendings.map fun p =>
      if p.block = b ∧ p.on = .header then { p with on := .record } else p } }

/-- The commits pending on this read, in the order they were offered (R78). -/
def pendingOf (s : State) (b : Block) (k : ReadKind) : List PendingCommit :=
  s.cache.pendings.filter fun p => decide (p.block = b) && decide (p.on = k)

/-- Take those commits out of the pending ones. -/
def takePendings (s : State) (b : Block) (k : ReadKind) : State :=
  { s with cache := { s.cache with pendings := s.cache.pendings.filter fun p =>
      !(decide (p.block = b) && decide (p.on = k)) } }

/-- Step 2 of R78: decide the pending commits in order. -/
def decidePendings (s : State) (b : Block) (k : ReadKind) (a : HeldVersion) : State :=
  (pendingOf s b k).foldl
    (fun s p => decideCommit s p.slot p.block p.version p.data p.source (heldNow s b a))
    (takePendings s b k)

/-- Two or three bursts ask for a refresh (R102). -/
def wantsRefresh (n : Nat) : Bool := decide (2 ≤ n) && decide (n ≤ 3)

/-- A refresh is made in every state but OUT(MEDIA_DOWN) (R82). -/
def refreshMade (s : State) : Bool := decide (s.member.state ≠ .out .mediaDown) && !s.port.down

/-- Step 3 of R78 for a READ_RECORD: its slot, if still FILLING, becomes CLEAN, or DIRTY by a refresh (R82), or is
freed. -/
def settleFill (s : State) (b : Block) (i : Nat) (o : ReadOutcome) : State :=
  match slotAt s i with
  | .filling b' =>
    if b' = b then
      match o with
      | .failed => setSlot s i .free
      | .delivered v d n =>
        if wantsRefresh n && refreshMade s then countRefresh (makeDirty s i b v d)
        else makeClean s i b v d
    else s
  | .free | .held .. | .clean .. | .dirty .. | .writing .. | .retiring .. => s

/-- Step 3 of R78 for a READ_HEADER: the refresh of R82. -/
def refreshHeader (s : State) (b : Block) (v : Version) (d : Data) : State :=
  match currentSlot s b with
  | none =>
    match allocate s with
    | none => s
    | some i => countRefresh (makeDirty s i b v d)
  | some i =>
    match slotAt s i with
    | .clean b' v' d' _ => if v' = v then countRefresh (makeDirty s i b' v' d') else s
    | .free | .held .. | .filling .. | .dirty .. | .writing .. | .retiring .. => s

/-- Step 3 of R78: the media read's own slot, with `accepted` telling whether a pending commit was accepted. -/
def settleSlot (s : State) (k : ReadKind) (b : Block) (i : Nat) (o : ReadOutcome) (accepted : Bool) : State :=
  match k, o with
  | .record, _ => settleFill s b i o
  | .header, .delivered v d n =>
    if wantsRefresh n && refreshMade s && !accepted then refreshHeader s b v d else s
  | .header, .failed => s

/-- The waiters of this read, in the order they came (R77). -/
def waitersOf (s : State) (b : Block) (k : ReadKind) : List LookupUser :=
  (s.cache.waiters.filter fun w => decide (w.block = b) && decide (w.on = k)).map (·.user)

def takeWaiters (s : State) (b : Block) (k : ReadKind) : State :=
  { s with cache := { s.cache with waiters := s.cache.waiters.filter fun w =>
      !(decide (w.block = b) && decide (w.on = k)) } }

/-- Answer one waiter that is not a write entry (R6, R44, R53, R129, R131, R144, R150). -/
def answerOther (b : Block) (a : HeldVersion) (s : State) (u : LookupUser) : State :=
  match u with
  | .copy t => copyAnswered s t .mediaError
  | .push id => pushAnswered s id
  | .fetch id => fetchAnswered s id a
  | .stale v => staleTest s b v a
  | .replayAck t p v => replayCompare s t p b v a
  | .write _ | .decision _ => s

/-- Store the answer in a waiting write entry (R23). -/
def storeAnswer (a : HeldVersion) (s : State) (u : LookupUser) : State :=
  match u with
  | .write t => storeOwnVersion s t a
  | .decision _ | .copy _ | .push _ | .fetch _ | .stale _ | .replayAck .. => s

/-- The tag of a waiting write entry. -/
def LookupUser.writeTag : LookupUser → Option Tag
  | .write t => some t
  | .decision t => some t
  | .copy _ | .push _ | .fetch _ | .stale _ | .replayAck .. => none

/-- The place of a write entry's followed ORDER in the order of the bus; none if it follows none (R40). -/
def followPlace (s : State) (t : Tag) : Option Nat :=
  match findEntry s t with
  | none => none
  | some e => if e.followed.isSome then some e.followSeq else none

/-- A tag with its place put behind those of lower place. -/
def insertByPlace (x : Nat × Tag) : List (Nat × Tag) → List (Nat × Tag)
  | [] => [x]
  | y :: l => if x.1 < y.1 then x :: y :: l else y :: insertByPlace x l

/-- The waiting write entries that have followed an ORDER, in the order of the bus (R40). -/
def followersInOrder (s : State) (ts : List Tag) : List Tag :=
  ((ts.filterMap fun t => (followPlace s t).map fun n => (n, t)).foldl
    (fun l x => insertByPlace x l) []).map (·.2)

/-- Step 4 of R78: every waiting lookup is answered; deferred decisions of writes are taken in the order in which
their ORDERs were heard (R40; log 13). Before them, the write entries that follow no ORDER begin their lead waits (R23,
R24) in the order in which they came to wait, in which a wait of no slots then queues its lead ORDER (DESIGN CHOICE,
log 13). -/
def answerWaiters (s : State) (b : Block) (us : List LookupUser) (a : HeldVersion) : State :=
  let s1 := us.foldl (storeAnswer a) s
  let s2 := us.foldl (answerOther b a) s1
  let ts := us.filterMap LookupUser.writeTag
  let s3 := (ts.filter fun t => (followPlace s2 t).isNone).foldl afterLookup s2
  (followersInOrder s3 ts).foldl decideFollow s3

/-- A READ_HEADER or READ_RECORD of the cache completes (R78, R100). -/
def completeRead (s : State) (k : ReadKind) (b : Block) (i : Nat) (o : ReadOutcome) (quiet : Bool) : State :=
  let s1 := countRead s b o quiet
  let us := waitersOf s1 b k
  let s2 := takeWaiters s1 b k
  if k = .header ∧ isFilling s2 b = true then
    answerWaiters (movePendings s2 b) b us o.held
  else
    let a := heldNow s2 b o.held
    let s3 := decidePendings s2 b k a
    let accepted := decide (heldNow s3 b o.held ≠ a)
    let s4 := settleSlot s3 k b i o accepted
    answerWaiters s4 b us (heldNow s4 b o.held)

/-! ### The command in service (R97 to R101) -/

/-- The command in service has completed: it leaves the queue, commands that wait take the room, and the next one
enters service (R83, R97). -/
def nextCommand (s : State) : State :=
  serveHead (refillQueue
    { s with port := { s.port with
        queue := s.port.queue.drop 1, retry := 0, phase := .idle, timer := none } })

/-- A record beyond correction until it is rewritten (R96). -/
def damage (r : Record) : Record := { r with damaged := true }

/-- What a write ended by fault or timeout leaves in the memory: a free value (R96; log 8). -/
def failedWriteRecord (r : Record) (v : Version) (d : Data) (c : BitVec 2) : Record :=
  if c = 0 then r
  else if c = 1 then newRecord v d
  else if c = 2 then damage (newRecord v d)
  else if r.written then damage (newRecord v d) else r

/-- The write presented ends by fault or timeout (R96). -/
def breakWrite (s : State) (b : Block) (v : Version) (d : Data) : State :=
  storeRecord { s with freeCount := s.freeCount + 1 } b
    (failedWriteRecord (readMedia s.media b.toNat) v d (Config.failedWriteLeaves s.freeCount))

/-- The read-back presented ends by fault or timeout, or is broken off: the new record, or damaged, a free value (R96;
log 8). The damaged record keeps the written mark of the write that raised ready, also over a never-written record,
where R96 has the mark set or clear (DESIGN CHOICE, log 8). -/
def breakReadBack (s : State) (b : Block) : State :=
  let r := readMedia s.media b.toNat
  storeRecord { s with freeCount := s.freeCount + 1 } b
    (if Config.failedReadBackDamages s.freeCount then damage r else r)

/-- What the operation in progress, if a write or its read-back, leaves in the memory when it is broken off
(R96, R164). -/
def breakOff (s : State) : State :=
  match s.port.phase, s.port.queue with
  | .writing, .writeRecord b v d _ :: _ => breakWrite s b v d
  | .readingBack, .writeRecord b _ _ _ :: _ => breakReadBack s b
  | _, _ => s

/-! ### MEDIA_DOWN (R106) -/

/-- One command of the queue ended by the declaration: a read completes as failed, a write is discarded (R106). -/
def endCommand (s : State) (c : MediaCmd) : State :=
  match c with
  | .readHeader b => completeRead s .header b 0 .failed true
  | .readRecord b i => completeRead s .record b i .failed true
  | .writeRecord .. => s

/-- Declare MEDIA_DOWN: the port stops, the commands queued behind the failed one are ended, the cache's waiting list
is discarded, and the station goes OUT(MEDIA_DOWN) (R86, R106; log 29). -/
def declareMediaDown (s : State) : State :=
  let rest := s.port.queue.drop 1
  let s1 := { s with
    port := { s.port with
      queue := []
      retry := 0
      phase := .idle
      timer := none
      probeLimit := none
      down := true }
    cache := { s.cache with waiting := [] } }
  enterOut (rest.foldl endCommand s1) .mediaDown

/-! ### Ends of attempts -/

/-- The command in service completes with its read outcome (R99). -/
def finishRead (s : State) (c : MediaCmd) (o : ReadOutcome) : State :=
  match c with
  | .readHeader b => completeRead (nextCommand s) .header b 0 o false
  | .readRecord b i => completeRead (nextCommand s) .record b i o false
  | .writeRecord .. => s

/-- An attempt has failed: another follows at once until four are made; then a read completes as failed, and a
failed write declares MEDIA_DOWN (R99, R101). -/
def attemptEndsFailed (s : State) : State :=
  match s.port.queue with
  | [] => s
  | c :: _ =>
    let n := s.port.retry + 1
    let s1 := { s with port := { s.port with retry := n } }
    if n < Config.mediaAttempts then startAttempt s1 (firstPhase c)
    else if c.isWrite then declareMediaDown s1
    else finishRead s1 c .failed

/-- The read of a record has raised ready (R2, R93 to R95): the lasting changes are the stored
record's, the passing ones this reading's alone (log 5). -/
def readReady (s : State) (c : MediaCmd) (b : Block) (x : BitChanges) : State :=
  let r := readMedia s.media b.toNat
  if r.written then
    let s1 := storeRecord s b (r.flip x.lasting)
    match ((r.flip x.lasting).flip x.passing).check with
    | some n => finishRead s1 c (.delivered r.version r.data n)
    | none => attemptEndsFailed s1
  else finishRead s c (.delivered 0 0 0)

/-- A WRITE_RECORD completes successfully (R86, R102). -/
def finishWrite (s : State) (b : Block) (v : Version) (i : Nat) (bursts : Nat) : State :=
  let s1 := nextCommand s
  recordWritten (if bursts = 0 then s1 else countCorrected s1) b v i

/-- The read-back of a written record has raised ready (R96). One beyond correction leaves the record damaged, with its
written mark set also over a never-written record (DESIGN CHOICE, log 8). -/
def readBackReady (s : State) (b : Block) (v : Version) (i : Nat) (x : BitChanges) : State :=
  let stored := (readMedia s.media b.toNat).flip x.lasting
  match (stored.flip x.passing).check with
  | some n => finishWrite (storeRecord s b stored) b v i n
  | none => attemptEndsFailed (storeRecord s b (damage stored))

/-- A probe has been answered: the limit stops and the station enters LISTENING (R104). -/
def probeAnswered (s : State) : State :=
  enterListening { s with port := { s.port with phase := .idle, timer := none, probeLimit := none } }

/-- The memory raises ready for the operation presented (R92). -/
def takeReady (s : State) (x : BitChanges) : State :=
  match s.port.phase, s.port.queue with
  | .probing, _ => probeAnswered s
  | .reading, .readHeader b :: _ => readReady s (.readHeader b) b x
  | .reading, .readRecord b i :: _ => readReady s (.readRecord b i) b x
  | .writing, .writeRecord b v d _ :: _ =>
    present (storeRecord s b (newRecord v d)) .readingBack
  | .readingBack, .writeRecord b v _ i :: _ => readBackReady s b v i x
  | _, _ => s

/-- The memory raises fault for the operation presented (R92, R96). -/
def takeFault (s : State) : State :=
  match s.port.phase with
  | .idle => s
  | .probing => probeAnswered s
  | .reading | .writing | .readingBack => attemptEndsFailed (breakOff s)

/-- The attempt's 50 ms timer expires (R98, R104). -/
def takeTimeout (s : State) : State :=
  match s.port.phase with
  | .idle => s
  | .probing => startAttempt s .probing
  | .reading | .writing | .readingBack => attemptEndsFailed (breakOff s)

end Sys2Proof.Machine
end

