-- ==== Sys2Proof/Machine/ExecMedia.lean ====
section
/-! DEFINITION. The meanings of the reset pin's and the record memory's happenings. -/

namespace Sys2Proof.Machine

/-- What every happening's meaning answers: a next state. -/
abbrev Result := Host.Outcome State Fault Refusal

/-- A happening that reaches the station at the media port: nothing while the reset pin is held (R164); its
effects, the engines' work, and the drain check of RESETTING (R90). -/
def atPort (s : State) (act : State → State) : Result :=
  if s.resetHeld then .next s else .next (drainCheck (settle (act s)))

/-- The operation presented is the one the memory answers; an answer for another is discarded (R98, R105, R108;
log 7). -/
def answers (s : State) (op : Nat) : Bool :=
  decide (s.port.op = op) && decide (s.port.phase ≠ .idle)

/-- POWER_ON_RESET (R164, R165, R188): all work in progress ends. -/
def execPowerOnReset (s : State) : Result :=
  let s1 := resetBlocks (breakOff s) false
  .next { s1 with
    resetHeld := true
    bus := Bus.reset
    member := Membership.restart s.member.straps false }

/-- RESET_RELEASE (R163 to R167): the station restarts with the straps as the pins stand. -/
def execResetRelease (straps : Straps) (s : State) : Result :=
  if s.resetHeld then
    .next (enterStarting
      { resetBlocks { s with pins := straps } straps.writeBack with
        resetHeld := false, bus := Bus.reset })
  else .next s

/-- MEDIA_READY (R92), the strap pins at these levels (R163; log 4). -/
def execMediaReady (op : Nat) (changes : BitChanges) (straps : Straps) (s : State) : Result :=
  atPort s fun s =>
    let s := { s with pins := straps }
    if answers s op then takeReady s changes else s

/-- MEDIA_FAULT (R92). -/
def execMediaFault (op : Nat) (s : State) : Result :=
  atPort s fun s => if answers s op then takeFault s else s

/-- ATTEMPT_TIMEOUT (R98). -/
def execAttemptTimeout (s : State) : Result :=
  atPort s fun s =>
    match s.port.timer with
    | none => s
    | some due => takeTimeout (reach s due)

/-- PROBE_LIMIT_EXPIRY (R105). -/
def execProbeLimitExpiry (s : State) : Result :=
  atPort s fun s =>
    match s.port.probeLimit with
    | none => s
    | some due => declareMediaDown (reach s due)

end Sys2Proof.Machine
end

