-- ==== Sys2Proof/Machine/ExecBus.lean ====
section
/-! DEFINITION. The meanings of the line's happenings: idle, arbitration, the end of an attempt, and a damaged frame. -/

namespace Sys2Proof.Machine

/-- A happening on the line or of a timer: nothing while the reset pin is held (R164); its effects and then the
engines' work. -/
def happening (s : State) (act : State → State) : Result :=
  if s.resetHeld then .next s else .next (settle (act s))

/-! ### Contention (R180, R181) -/

/-- The place in the queue of the frame contending or in transmission. -/
def activeIndex (q : List TxFrame) : Option Nat := q.findIdx? fun f => decide (f.phase ≠ .queued)

/-- The place of the oldest frame of a class. -/
def oldestOfClass (q : List TxFrame) (c : BitVec 2) : Option Nat :=
  q.findIdx? fun f => decide (kindClass f.frame.kind = c)

/-- The place of the frame to contend with: the one in transmission, otherwise the oldest of the most urgent class
(R181). -/
def chooseFrame (q : List TxFrame) : Option Nat :=
  match activeIndex q with
  | some i => some i
  | none => [0, 1, 2, 3].findSome? fun c => oldestOfClass q c

/-- Change the frame at a place. -/
def atIndex (q : List TxFrame) (i : Nat) (f : TxFrame → TxFrame) : List TxFrame :=
  match q[i]? with
  | none => q
  | some x => q.set i (f x)

/-- The frame starts to contend, unless it is in transmission already (R181). -/
def contend (f : TxFrame) : TxFrame :=
  if f.phase = .queued then { f with phase := .contending } else f

/-- The frame has won: it is in transmission, and a withdrawal held for it has no effect (R181, R187). -/
def win (f : TxFrame) : TxFrame :=
  if f.phase = .contending then { f with phase := .inTransmission, withdrawal := none } else f

/-- The line is idle: the Bus Interface contends with the frame it chooses (R181). -/
def takeIdle (s : State) : State :=
  match s.bus.line, chooseFrame s.bus.queue with
  | .quiet, some i =>
    { s with bus := { s.bus with queue := atIndex s.bus.queue i contend, line := .arbitrating } }
  | _, _ => s

/-- Arbitration is won (R180, R181). -/
def winArbitration (s : State) (i : Nat) : State :=
  { s with bus := { s.bus with queue := atIndex s.bus.queue i win, line := .driving } }

/-- Arbitration is lost: the frame returns to the queue, or a withdrawal held for it takes effect (R180, R187). -/
def loseArbitration (s : State) (i : Nat) : State :=
  let s1 := { s with bus := { s.bus with line := .quiet } }
  match s.bus.queue[i]? with
  | none => s1
  | some f =>
    if f.phase = .contending then
      match f.withdrawal with
      | some w => afterWithdrawal (setQueue s1 (s.bus.queue.eraseIdx i)) f w
      | none =>
        { s1 with bus := { s1.bus with
            queue := atIndex s.bus.queue i fun f => { f with phase := .queued } } }
    else s1

/-! ### The end of an attempt (R182) -/

/-- The awaited set at the sending of REJOIN: live peers that share a group with the station (R153). -/
def awaitedSet (s : State) : Mark :=
  (s.peers.filter fun e => isLive s e.peer && !(sharedGroups s e.peer).isEmpty).foldl
    (fun m e => m ||| markOf e.peer) 0

/-- The REJOIN of the catch-up in progress is sent (R153; log 30). -/
def rejoinSent (s : State) (serial : Nat) : State :=
  if sweeping s && decide (s.repair.serial = serial) then
    let m := awaitedSet s
    { s with repair := { s.repair with
        rejoinSent := true
        awaited := m
        limit := if m = 0 then none else some (s.clock + Config.catchUpLimit) } }
  else s

/-- What the sending of a frame starts, by its purpose (R133, R145, R153, R170, R177). -/
def onSent (s : State) (f : TxFrame) : State :=
  match f.purpose with
  | .rejoin n => rejoinSent s n
  | .rosterQuery =>
    if s.member.checkPending then
      { s with member := { s.member with queryTimer := some (s.clock + Config.queryRepeat) } }
    else s
  | .ownFetch =>
    match fetchOfTag s f.frame.tag with
    | none => s
    | some g =>
      if g.phase = .queued then
        updateFetch s g.id fun h => { h with phase := .window (s.clock + Config.fetchWindow) }
      else s
  | .ownReplay =>
    match pushOfTag s f.frame.tag with
    | none => s
    | some p =>
      if p.phase = .queued then
        updatePush s p.id fun q => { q with phase := .awaiting (s.clock + Config.replayAnswerWait) }
      else s
  | .present | .roster | .peerNotice _ | .overflowNotice | .mediaDownNotice | .caughtUp
  | .replayDone _ _ | .leadOrder | .supersedeOrder | .acknowledgement | .readAnswer | .fetchAnswer
  | .statusReport | .orphan => s

/-- A REPLAY_DONE is dropped: it is offered again 5 ms later, and a set sweep flag sets the overflow flag again
(R137, R138; log 27). -/
def replayDoneDropped (s : State) (p : StationNo) (sweep : Bool) : State :=
  { s with replay := { s.replay with
      overflow := if sweep then s.replay.overflow ||| markOf p else s.replay.overflow
      reoffers :=
        if inService s then
          s.replay.reoffers ++ [{ peer := p, sweep := sweep, due := s.clock + Config.retryDelay }]
        else s.replay.reoffers } }

/-- What the drop of a frame calls for, by its purpose (R132, R137, R144, R153, R161, R170, R171, R177). -/
def onDropped (s : State) (f : TxFrame) : State :=
  match f.purpose with
  | .present => if s.member.state = .forming then presentAgain s else s
  | .rosterQuery =>
    if s.member.checkPending then
      { s with member := { s.member with queryTimer := some (s.clock + Config.queryRepeat) } }
    else s
  | .mediaDownNotice =>
    { s with member := { s.member with ownDownReoffer := some (s.clock + Config.retryDelay) } }
  | .rejoin n =>
    if sweeping s && decide (s.repair.serial = n) then
      { s with repair := { s.repair with rejoinRequeue := some (s.clock + Config.retryDelay) } }
    else s
  | .caughtUp =>
    if s.member.state = .serving then
      { s with repair := { s.repair with caughtUpRequeue := some (s.clock + Config.retryDelay) } }
    else s
  | .replayDone p sweep => replayDoneDropped s p sweep
  | .ownFetch =>
    match fetchOfTag s f.frame.tag with
    | none => s
    | some g => if g.phase = .queued then endNoAttempt s g else s
  | .ownReplay =>
    match pushOfTag s f.frame.tag with
    | none => s
    | some p => postponePush s p
  | .roster | .peerNotice _ | .overflowNotice | .leadOrder | .supersedeOrder | .acknowledgement
  | .readAnswer | .fetchAnswer | .statusReport | .orphan => s

/-- The frame being sent has gone out whole: it leaves the queue as sent, and its own hearing is due (R182,
R184; log 10). -/
def frameGone (s : State) (i : Nat) (f : TxFrame) : State :=
  let s1 := setQueue s (s.bus.queue.eraseIdx i)
  onSent { s1 with bus := { s1.bus with line := .quiet, echo := some f.frame } } f

/-- The attempt with a frame has failed: it stays in transmission, or after the fourth it is dropped and counted
(R182). -/
def attemptLost (s : State) (i : Nat) (f : TxFrame) : State :=
  let s1 := { s with bus := { s.bus with line := .quiet } }
  if f.attempts + 1 < Config.frameAttempts then
    { s1 with bus := { s1.bus with
        queue := atIndex s.bus.queue i fun f => { f with attempts := f.attempts + 1 } } }
  else onDropped (countDropped (setQueue s1 (s.bus.queue.eraseIdx i))) f

/-- Act on the frame being sent, if the station drives the line, having won arbitration. While it still arbitrates no
attempt is under way, and the end of one has no effect (R182; DESIGN CHOICE, log 62). -/
def whileDriving (s : State) (act : State → Nat → TxFrame → State) : State :=
  if s.bus.line = .driving then
    match activeIndex s.bus.queue with
    | none => s
    | some i =>
      match s.bus.queue[i]? with
      | none => s
      | some f => act s i f
  else s

/-! ### The commands -/

/-- LINE_IDLE (R179, R181; log 11). -/
def execLineIdle (s : State) : Result := happening s takeIdle

/-- ARBITRATION_END (R180; log 59): the frame contending, or offered again in transmission, against the others. -/
def execArbitrationEnd (others : List (BitVec 7)) (s : State) : Result :=
  happening s fun s =>
    if s.bus.line = .arbitrating then
      match activeIndex s.bus.queue with
      | none => s
      | some i =>
        match s.bus.queue[i]? with
        | none => s
        | some f => if winsArbitration f.frame others then winArbitration s i else loseArbitration s i
    else s

/-- FRAME_SENT (R182). -/
def execFrameSent (s : State) : Result := happening s fun s => whileDriving s frameGone

/-- ATTEMPT_FAILED (R182; log 12). -/
def execAttemptFailed (s : State) : Result := happening s fun s => whileDriving s attemptLost

/-- RECEIVE_CHECK_FAIL (R183): the frame is discarded and counted. -/
def execReceiveCheckFail (s : State) : Result :=
  happening s fun s => countDiscarded { s with bus := { s.bus with echo := none } }

end Sys2Proof.Machine
end

