-- ==== Sys2Proof/Machine/ExecFrames.lean ====
section
/-! DEFINITION. The meanings of heard frames, one per kind. -/

namespace Sys2Proof.Machine

/-! ### What precedes every frame's effects (R168, R169, R178, R184, R185) -/

/-- The kinds that the Bus Interface filters by their target (R185). -/
def isFiltered (k : Kind) : Bool :=
  match k with
  | .replay | .replayDone | .stationReset | .statusQuery | .statusReport => true
  | .present | .roster | .rosterQuery | .peerDown | .rejoin | .caughtUp | .order | .ack | .nack
  | .data | .unavailable | .current | .read | .write | .flush | .fetch => false

/-- The kinds whose roster mark is not examined, so that they lead to no adoption (R175, R191; log 24). -/
def markUnexamined (k : Kind) : Bool :=
  match k with
  | .stationReset | .statusQuery => true
  | .present | .roster | .rosterQuery | .peerDown | .rejoin | .caughtUp | .replayDone | .order
  | .ack | .nack | .data | .unavailable | .current | .read | .write | .flush | .fetch | .replay
  | .statusReport => false

/-- A foreign frame that leads to adoption: from a store station, with a nonzero mark, heard in LISTENING or
FORMING (R168, R169, R172). -/
def leadsToAdoption (s : State) (own : Bool) (f : Frame) : Bool :=
  (decide (s.member.state = .listening) || decide (s.member.state = .forming)) && !own
    && f.sender.isStore && decide (f.mark ≠ 0) && !markUnexamined f.kind

/-- The configuration a frame carries (R169). -/
def carriedConfiguration (f : Frame) : Option Configuration :=
  match f.kind with
  | .present | .roster => some (auxConfiguration f.aux)
  | .rosterQuery | .peerDown | .rejoin | .caughtUp | .replayDone | .stationReset | .order | .ack
  | .nack | .data | .unavailable | .current | .read | .write | .flush | .fetch | .replay
  | .statusQuery | .statusReport => none

/-- A frame is the echo of the station's own transmission (R184; log 10). -/
def isOwn (s : State) (f : Frame) : Bool := decide (s.bus.echo = some f)

/-- The duplicate-number check stops the frame (R178). -/
def isDuplicate (s : State) (f : Frame) : Bool := !isOwn s f && decide (f.sender = ownNumber s)

/-- The target filter stops the frame (R185). -/
def isElsewhere (s : State) (f : Frame) : Bool := isFiltered f.kind && decide (f.target ≠ ownNumber s)

/-- What the frame does at the station, with `act` the effects of its kind (R178, R184, R185). One that leads to
adoption has no other effect: a PRESENT with a nonzero mark and a configuration that does not match, heard in FORMING,
makes the station SPECTATOR (R169) and does not advance the count of R172 and R196 (DESIGN CHOICE, log 71). -/
def receive (s : State) (f : Frame) (act : State → State) : State :=
  let s1 := { s with bus := { s.bus with echo := none } }
  if s.member.state = .starting then s1
  else if isDuplicate s f then enterOut s1 .duplicateNumber
  else if isElsewhere s f then s1
  else if leadsToAdoption s (isOwn s f) f then adopt s1 f.mark (carriedConfiguration f)
  else act s1

/-- A frame is heard (R184): all its effects form one happening. -/
def hear (s : State) (f : Frame) (act : State → State) : Result :=
  happening s fun s => receive s f act

/-! ### Class 0 -/

/-- PRESENT_HEARD (R168, R172, R174). -/
def execPresentHeard (src : Source) (candidates : Mark) (conf : Configuration) (s : State) : Result :=
  hear s (presentFrame src candidates conf) fun s => takePresent s src candidates conf

/-- ROSTER_HEARD (R170, R174). -/
def execRosterHeard (src : Source) (conf : Configuration) (s : State) : Result :=
  hear s (rosterFrame src conf) fun s => takeRoster s src conf

/-- ROSTER_QUERY_HEARD (R174). -/
def execRosterQueryHeard (src : Source) (s : State) : Result :=
  hear s (rosterQueryFrame src) fun s => takeRosterQuery s src

/-- PEER_DOWN_HEARD (R114 to R116). -/
def execPeerDownHeard (src : Source) (named : StationNo) (s : State) : Result :=
  hear s (peerDownFrame src named) fun s => takePeerDown s src named

/-- REJOIN_HEARD (R118, R134). -/
def execRejoinHeard (src : Source) (s : State) : Result :=
  hear s (rejoinFrame src) fun s => takeRejoin s src

/-- CAUGHT_UP_HEARD (R119). -/
def execCaughtUpHeard (src : Source) (s : State) : Result :=
  hear s (caughtUpFrame src) fun s => takeCaughtUp s src

/-- REPLAY_DONE_HEARD (R154). -/
def execReplayDoneHeard (src : Source) (target : StationNo) (sweep : Bool) (s : State) : Result :=
  hear s (replayDoneFrame src target sweep) fun s => takeReplayDone s src sweep

/-- STATION_RESET_HEARD (R163, R175, R176). -/
def execStationResetHeard (order : ResetOrder) (straps : Straps) (s : State) : Result :=
  hear s (stationResetFrame order.src order.target) (takeStationReset straps)

/-! ### Class 1: the Peer Table acts first, the Request Engine after it (log 13) -/

/-- ORDER_HEARD (R26, R27, R117). -/
def execOrderHeard (src : Source) (tag : Tag) (b : Block) (v : Version) (s : State) : Result :=
  hear s (orderFrame src tag b v) fun s => takeOrder (signOfLife s src) src tag b v

/-- ACK_HEARD (R36, R112, R131). -/
def execAckHeard (src : Source) (tag : Tag) (b : Block) (v : Version) (s : State) : Result :=
  hear s (ackFrame src tag b v) fun s => deliverAck (clearMisses s src) src tag b v

/-- NACK_HEARD (R36, R117, R132); its reason is not acted on (R190). -/
def execNackHeard (src : Source) (tag : Tag) (b : Block) (v : Version) (reason : BitVec 8)
    (s : State) : Result :=
  hear s (nackFrame src tag b v reason) fun s => deliverNack (signOfLife s src) src tag b v

/-- DATA_HEARD (R49 to R53, R117, R145, R150, R151). -/
def execDataHeard (src : Source) (tag : Tag) (b : Block) (v : Version) (d : Data) (s : State) :
    Result :=
  hear s (dataFrame src tag b v d) fun s => deliverData (signOfLife s src) src tag b v d

/-- UNAVAILABLE_HEARD (R49, R50, R117, R145, R150); its reason is not acted on (R190). -/
def execUnavailableHeard (src : Source) (tag : Tag) (b : Block) (reason : BitVec 8) (s : State) :
    Result :=
  hear s (unavailableFrame src tag b reason) fun s => deliverUnavailable (signOfLife s src) src tag b

/-- CURRENT_HEARD (R117, R145, R150). -/
def execCurrentHeard (src : Source) (tag : Tag) (b : Block) (v : Version) (s : State) : Result :=
  hear s (currentFrame src tag b v) fun s => deliverCurrent (signOfLife s src) src tag b v

/-! ### Class 2 -/

/-- READ_HEARD (R41, R55). -/
def execReadHeard (src : Source) (tag : Tag) (b : Block) (s : State) : Result :=
  hear s (readFrameOf src tag b) fun s => takeRead s src tag b

/-- WRITE_HEARD (R19, R20, R65). -/
def execWriteHeard (src : Source) (tag : Tag) (b : Block) (d : Data) (s : State) : Result :=
  hear s (writeFrame src tag b d) fun s => takeWrite s src tag b d

/-- FLUSH_HEARD (R66, R88). -/
def execFlushHeard (src : Source) (tag : Tag) (s : State) : Result :=
  hear s (flushFrame src tag) fun s => takeFlush s src tag

/-- FETCH_HEARD (R66, R149). -/
def execFetchHeard (src : Source) (tag : Tag) (b : Block) (v : Version) (unknownMark : Bool)
    (s : State) : Result :=
  hear s (fetchFrame src tag b v unknownMark) fun s => takeFetch s src tag b v unknownMark

/-- REPLAY_HEARD (R135, R136). -/
def execReplayHeard (src : Source) (tag : Tag) (target : StationNo) (b : Block) (v : Version)
    (d : Data) (s : State) : Result :=
  hear s (replayFrame src tag target b v d) fun s => takeReplay s src tag b v d

/-! ### Class 3 -/

/-- STATUS_QUERY_HEARD (R191, R192). -/
def execStatusQueryHeard (src : Source) (tag : Tag) (target : StationNo) (s : State) : Result :=
  hear s (statusQueryFrame src tag target) fun s => takeStatusQuery s src tag

/-- STATUS_REPORT_HEARD: no block of a store station acts on a report (R185); the duplicate-number check does
(R178), and in LISTENING and FORMING its mark leads to adoption (R168, R172). -/
def execStatusReportHeard (src : Source) (tag : Tag) (target : StationNo) (report : Report)
    (s : State) : Result :=
  hear s (statusReportFrame src tag target report) fun s => s

end Sys2Proof.Machine
end

