-- ==== Sys2Proof/Machine/ExecTimers.lean ====
section
/-! DEFINITION. The meanings of the expiries of the station's timers. The expiry of a timer that does not run has no effect (log 39). -/

namespace Sys2Proof.Machine

/-! ### Timers of request table entries -/

/-- Act on the entry with a tag, if it is of this kind. -/
def onEntry (s : State) (t : Tag) (k : EntryKind) (act : State → Entry → State) : State :=
  match findEntry s t with
  | none => s
  | some e => if e.kind = k then act s e else s

/-- Act at the end of an entry's wait (R16). -/
def atWaitEnd (s : State) (e : Entry) (act : State → State) : State :=
  match e.wait with
  | none => s
  | some due => act (reach s due)

/-- LEAD_WAIT_EXPIRY (R25). -/
def execLeadWaitExpiry (tag : Tag) (s : State) : Result :=
  happening s fun s => onEntry s tag .clientWrite fun s e => atWaitEnd s e fun s => leadExpire s tag

/-- READ_SLOT_WAIT_EXPIRY (R42, R47). -/
def execReadSlotWaitExpiry (tag : Tag) (s : State) : Result :=
  happening s fun s => onEntry s tag .clientRead fun s e => atWaitEnd s e fun s => expireWait s tag

/-- FETCH_SLOT_WAIT_EXPIRY (R149, R151). -/
def execFetchSlotWaitExpiry (tag : Tag) (s : State) : Result :=
  happening s fun s => onEntry s tag .peerFetch fun s e => atWaitEnd s e fun s => expireWait s tag

/-- The retire hold of a finished entry has passed (R69). -/
def holdPassed (s : State) (e : Entry) : Bool :=
  match e.finished with
  | none => false
  | some f => decide (f + Config.retireHold ≤ s.clock)

/-- The ack window of an entry ends: the report is made, and an entry kept for it beyond its retire hold leaves the
table (R36, R37, R69). -/
def endWindow (s : State) (t : Tag) (e : Entry) : State :=
  let s1 := updateEntry (reportWindow s e) t fun x => { x with ackWindow := none }
  if holdPassed s1 e then dropEntry s1 t else s1

/-- ACK_WINDOW_EXPIRY (R37). -/
def execAckWindowExpiry (tag : Tag) (s : State) : Result :=
  happening s fun s => onEntry s tag .clientWrite fun s e =>
    match e.ackWindow with
    | none => s
    | some due => endWindow (reach s due) tag e

/-- A write entry reaches the end of its lifetime (R38). -/
def expireWrite (s : State) (e : Entry) : State :=
  if e.uncommitted then
    let s1 := freeHeld (expireEntry s e.tag) fun o => decide (o = .clientWrite e.tag)
    let current := match e.followed, heldForWrite s e with
      | some f, .known h => decide (f ≤ h)
      | some _, .unknown => false
      | none, _ => false
    if current then s1 else listBlock s1 e.blk
  else expireEntry s e.tag

/-- The station's own fetch reaches the end of its entry's lifetime (R148). -/
def expireOwnFetch (s : State) (e : Entry) : State :=
  match fetchOfTag s e.tag with
  | none => expireEntry s e.tag
  | some f => setAside (dropFetchCommit s f.id) f .expired .ready none

/-- The station's own push reaches the end of its entry's lifetime (R130). -/
def expireOwnReplay (s : State) (e : Entry) : State :=
  match pushOfTag s e.tag with
  | none => expireEntry s e.tag
  | some p => endPush s p none .expired

/-- An entry still unfinished at the end of its lifetime becomes EXPIRED (R38, R57, R67, R68). -/
def endLifetime (s : State) (e : Entry) : State :=
  match e.kind with
  | .clientWrite => expireWrite s e
  | .clientRead | .peerFetch | .clientFlush => expireEntry s e.tag
  | .ownFetch => expireOwnFetch s e
  | .ownReplay => expireOwnReplay s e

/-- REQUEST_LIFETIME_EXPIRY (R67). -/
def execRequestLifetimeExpiry (tag : Tag) (s : State) : Result :=
  happening s fun s =>
    match findEntry s tag with
    | none => s
    | some e => if e.state.finished then s else endLifetime (reach s (e.created + Config.lifetime)) e

/-- RETIRE_HOLD_END (R69): a running ack window extends the hold. -/
def execRetireHoldEnd (tag : Tag) (s : State) : Result :=
  happening s fun s =>
    match findEntry s tag with
    | none => s
    | some e =>
      match e.finished with
      | none => s
      | some f =>
        let s1 := reach s (f + Config.retireHold)
        if e.ackWindow.isSome then s1 else dropEntry s1 tag

/-! ### Timers of the Membership Controller -/

/-- ROSTER_ANSWER_WAIT_EXPIRY (R174). -/
def execRosterAnswerWaitExpiry (s : State) : Result :=
  happening s fun s =>
    match s.member.rosterWait with
    | none => s
    | some due => expireRosterWait (reach s due)

/-- LISTENING_WINDOW_EXPIRY (R168). -/
def execListeningWindowExpiry (s : State) : Result :=
  happening s fun s =>
    match s.member.listeningWindow with
    | none => s
    | some due => enterForming (reach s due)

/-- The quiet timer has expired (R173). -/
def endQuiet (s : State) : State :=
  if markSize s.member.candidates < copies s then
    { s with member := { s.member with quietTimer := some (s.clock + Config.quietTimer) } }
  else closeFormation s

/-- QUIET_TIMER_EXPIRY (R173). -/
def execQuietTimerExpiry (s : State) : Result :=
  happening s fun s =>
    match s.member.quietTimer with
    | none => s
    | some due => endQuiet (reach s due)

/-- PRESENT_REOFFER (R171): the one refused or dropped longest ago, while FORMING. Where a PRESENT of the station is
in the queue by then nothing is offered, since at most one is there at a time (DESIGN CHOICE, log 49). -/
def execPresentReoffer (s : State) : Result :=
  happening s fun s =>
    match s.member.presentReoffers with
    | [] => s
    | due :: rest =>
      let s1 := reach { s with member := { s.member with presentReoffers := rest } } due
      if s1.member.state = .forming ∧ presentQueued s1 = false then queuePresent s1 else s1

/-- ROSTER_QUERY_REPEAT (R170). -/
def execRosterQueryRepeat (s : State) : Result :=
  happening s fun s =>
    match s.member.queryTimer with
    | none => s
    | some due =>
      let s1 := reach { s with member := { s.member with queryTimer := none } } due
      if s1.member.checkPending && inService s1 then queueRosterQuery s1 else s1

/-- OWN_PEER_DOWN_REOFFER (R177). -/
def execOwnPeerDownReoffer (s : State) : Result :=
  happening s fun s =>
    match s.member.ownDownReoffer with
    | none => s
    | some due =>
      let s1 := reach { s with member := { s.member with ownDownReoffer := none } } due
      if s1.member.state = .out .mediaDown ∧ s1.member.member = true then queueOwnDown s1 else s1

/-! ### Timers of the Replay Engine -/

/-- REPLAY_RETRY_TIME_EXPIRY (R128): the entry is eligible again. -/
def execReplayRetryTimeExpiry (peer : StationNo) (b : Block) (s : State) : Result :=
  happening s fun s =>
    match s.replay.pool.find? fun m => decide (m.peer = peer) && decide (m.block = b) with
    | none => s
    | some m =>
      match m.retry with
      | none => s
      | some due =>
        let s1 := reach s due
        { s1 with replay := { s1.replay with pool := s1.replay.pool.map fun x =>
            if x.peer = peer ∧ x.block = b then { x with retry := none } else x } }

/-- The answer wait of a push ends: its silence is a miss, and by the peer's state after that report another
attempt is made or the push ends (R133). -/
def endAnswerWait (s : State) (p : Push) : State :=
  let s1 := reportMiss s p.peer
  match findPush s1 p.id with
  | none => s1
  | some q =>
    if isLive s1 q.peer then
      if attemptsOf s1 q.tag < Config.ownAttempts then lookupPush s1 q else postponePush s1 q
    else endPush s1 q none .done

/-- REPLAY_ANSWER_WAIT_EXPIRY (R133). -/
def execReplayAnswerWaitExpiry (tag : Tag) (s : State) : Result :=
  happening s fun s =>
    match pushOfTag s tag with
    | none => s
    | some p =>
      match p.phase with
      | .awaiting due => endAnswerWait (reach s due) p
      | .lookup | .queued | .comparing => s

/-- A REPLAY_DONE held back is offered again, provided the peer is still CATCHING_UP and its list still empty
(R137). -/
def reofferReplayDone (s : State) (r : Reoffer) : State :=
  if inService s && isCatchingUp s r.peer && (missedList s r.peer).isEmpty then
    offerReplayDone s r.peer r.sweep
  else s

/-- REPLAY_DONE_REOFFER (R137): the one that has waited longest for the peer. -/
def execReplayDoneReoffer (peer : StationNo) (s : State) : Result :=
  happening s fun s =>
    match s.replay.reoffers.find? fun r => decide (r.peer = peer) with
    | none => s
    | some r =>
      let s1 := reach s r.due
      reofferReplayDone
        { s1 with replay := { s1.replay with reoffers := s1.replay.reoffers.erase r } } r

/-! ### Timers of the Repair Engine -/

/-- FETCH_WINDOW_CLOSE (R146). -/
def execFetchWindowClose (tag : Tag) (s : State) : Result :=
  happening s fun s =>
    match fetchOfTag s tag with
    | none => s
    | some f =>
      match f.phase with
      | .window due => closeWindow (reach s due) f
      | .lookup | .queued | .committing => s

/-- PARK_END (R139). -/
def execParkEnd (b : Block) (s : State) : Result :=
  happening s fun s =>
    match s.repair.list.find? fun e => decide (e.block = b) with
    | none => s
    | some e =>
      match e.state with
      | .parked due => setRepairState (reach s due) b .ready
      | .ready | .fetching => s

/-- SWEEP_BLOCK_RETAKE (R144): the block is taken again from now on. -/
def execSweepBlockRetake (b : Block) (s : State) : Result :=
  happening s fun s =>
    match s.repair.retakes.find? fun r => decide (r.block = b) && r.due.isSome with
    | none => s
    | some r =>
      match r.due with
      | none => s
      | some due =>
        let s1 := reach s due
        { s1 with repair := { s1.repair with retakes := s1.repair.retakes.map fun x =>
            if x = r then { x with due := none } else x } }

/-- REJOIN_REQUEUE (R153). -/
def execRejoinRequeue (s : State) : Result :=
  happening s fun s =>
    match s.repair.rejoinRequeue with
    | none => s
    | some due =>
      let s1 := reach { s with repair := { s.repair with rejoinRequeue := none } } due
      if sweeping s1 then queueRejoin s1 else s1

/-- An awaited peer is declared down: it is removed, and its shared groups are added to the sweep (R155). -/
def dropAwaited (s : State) (p : StationNo) : State :=
  let s1 := declareDown s p
  if inMark s1.repair.awaited p then addGroups (unawait s1 p) (sharedGroups s1 p) else s1

/-- CATCH_UP_LIMIT_EXPIRY (R155): the peers still awaited, in ascending station number (DESIGN CHOICE, log 13). -/
def execCatchUpLimitExpiry (s : State) : Result :=
  happening s fun s =>
    match s.repair.limit with
    | none => s
    | some due =>
      let s1 := reach { s with repair := { s.repair with limit := none } } due
      (markMembers s1.repair.awaited).foldl dropAwaited s1

/-- CAUGHT_UP_REQUEUE (R161). -/
def execCaughtUpRequeue (s : State) : Result :=
  happening s fun s =>
    match s.repair.caughtUpRequeue with
    | none => s
    | some due =>
      let s1 := reach { s with repair := { s.repair with caughtUpRequeue := none } } due
      if s1.member.state = .serving then queueCaughtUp s1 else s1

end Sys2Proof.Machine
end

