-- ==== Sys2Proof/Machine/Dispatch.lean ====
section
/-! DEFINITION. The dispatch: one arm per command, each a direct call of its meaning. -/

namespace Sys2Proof.Machine

def exec (i : Instr) (s : State) : Host.Outcome State Fault Refusal :=
  match i with
  | .powerOnReset => Sys2Proof.Machine.execPowerOnReset s
  | .resetRelease straps => Sys2Proof.Machine.execResetRelease straps s
  | .mediaReady op changes straps => Sys2Proof.Machine.execMediaReady op changes straps s
  | .mediaFault op => Sys2Proof.Machine.execMediaFault op s
  | .attemptTimeout => Sys2Proof.Machine.execAttemptTimeout s
  | .probeLimitExpiry => Sys2Proof.Machine.execProbeLimitExpiry s
  | .lineIdle => Sys2Proof.Machine.execLineIdle s
  | .arbitrationEnd others => Sys2Proof.Machine.execArbitrationEnd others s
  | .frameSent => Sys2Proof.Machine.execFrameSent s
  | .attemptFailed => Sys2Proof.Machine.execAttemptFailed s
  | .receiveCheckFail => Sys2Proof.Machine.execReceiveCheckFail s
  | .presentHeard src candidates conf => Sys2Proof.Machine.execPresentHeard src candidates conf s
  | .rosterHeard src conf => Sys2Proof.Machine.execRosterHeard src conf s
  | .rosterQueryHeard src => Sys2Proof.Machine.execRosterQueryHeard src s
  | .peerDownHeard src named => Sys2Proof.Machine.execPeerDownHeard src named s
  | .rejoinHeard src => Sys2Proof.Machine.execRejoinHeard src s
  | .caughtUpHeard src => Sys2Proof.Machine.execCaughtUpHeard src s
  | .replayDoneHeard src target sweep => Sys2Proof.Machine.execReplayDoneHeard src target sweep s
  | .stationResetHeard order straps => Sys2Proof.Machine.execStationResetHeard order straps s
  | .orderHeard src tag block version => Sys2Proof.Machine.execOrderHeard src tag block version s
  | .ackHeard src tag block version => Sys2Proof.Machine.execAckHeard src tag block version s
  | .nackHeard src tag block version reason => Sys2Proof.Machine.execNackHeard src tag block version reason s
  | .dataHeard src tag block version data => Sys2Proof.Machine.execDataHeard src tag block version data s
  | .unavailableHeard src tag block reason => Sys2Proof.Machine.execUnavailableHeard src tag block reason s
  | .currentHeard src tag block version => Sys2Proof.Machine.execCurrentHeard src tag block version s
  | .readHeard src tag block => Sys2Proof.Machine.execReadHeard src tag block s
  | .writeHeard src tag block data => Sys2Proof.Machine.execWriteHeard src tag block data s
  | .flushHeard src tag => Sys2Proof.Machine.execFlushHeard src tag s
  | .fetchHeard src tag block version unknownMark => Sys2Proof.Machine.execFetchHeard src tag block version unknownMark s
  | .replayHeard src tag target block version data => Sys2Proof.Machine.execReplayHeard src tag target block version data s
  | .statusQueryHeard src tag target => Sys2Proof.Machine.execStatusQueryHeard src tag target s
  | .statusReportHeard src tag target report => Sys2Proof.Machine.execStatusReportHeard src tag target report s
  | .leadWaitExpiry tag => Sys2Proof.Machine.execLeadWaitExpiry tag s
  | .readSlotWaitExpiry tag => Sys2Proof.Machine.execReadSlotWaitExpiry tag s
  | .fetchSlotWaitExpiry tag => Sys2Proof.Machine.execFetchSlotWaitExpiry tag s
  | .rosterAnswerWaitExpiry => Sys2Proof.Machine.execRosterAnswerWaitExpiry s
  | .ackWindowExpiry tag => Sys2Proof.Machine.execAckWindowExpiry tag s
  | .requestLifetimeExpiry tag => Sys2Proof.Machine.execRequestLifetimeExpiry tag s
  | .retireHoldEnd tag => Sys2Proof.Machine.execRetireHoldEnd tag s
  | .replayRetryTimeExpiry peer block => Sys2Proof.Machine.execReplayRetryTimeExpiry peer block s
  | .replayAnswerWaitExpiry tag => Sys2Proof.Machine.execReplayAnswerWaitExpiry tag s
  | .replayDoneReoffer peer => Sys2Proof.Machine.execReplayDoneReoffer peer s
  | .fetchWindowClose tag => Sys2Proof.Machine.execFetchWindowClose tag s
  | .parkEnd block => Sys2Proof.Machine.execParkEnd block s
  | .sweepBlockRetake block => Sys2Proof.Machine.execSweepBlockRetake block s
  | .rejoinRequeue => Sys2Proof.Machine.execRejoinRequeue s
  | .catchUpLimitExpiry => Sys2Proof.Machine.execCatchUpLimitExpiry s
  | .caughtUpRequeue => Sys2Proof.Machine.execCaughtUpRequeue s
  | .listeningWindowExpiry => Sys2Proof.Machine.execListeningWindowExpiry s
  | .quietTimerExpiry => Sys2Proof.Machine.execQuietTimerExpiry s
  | .presentReoffer => Sys2Proof.Machine.execPresentReoffer s
  | .rosterQueryRepeat => Sys2Proof.Machine.execRosterQueryRepeat s
  | .ownPeerDownReoffer => Sys2Proof.Machine.execOwnPeerDownReoffer s

end Sys2Proof.Machine
end

