-- ==== Sys2Proof/Safety.lean ====
section
/-! DEFINITION. What claims about the station speak of: when its engines have nothing to do, which frames it takes, the capacities of its collections, and what a station's reset and a command never touch. -/

namespace Sys2Proof.Machine

/-! ### The engines at rest -/

def Slot.isDirty : Slot → Bool
  | .dirty .. => true
  | .free | .held .. | .filling .. | .clean .. | .writing .. | .retiring .. => false

/-- No FLUSH waits, no sweep runs, and each of the three engines that take work of themselves has either nothing to
take or no free place: the flusher (R84), the Repair Engine (R143) and the Replay Engine (R128). -/
def enginesIdle (s : State) : Bool :=
  (s.table.all fun e => decide (e.state ≠ .draining)) && !s.repair.active
    && ((s.cache.slots.all fun x => !x.isDirty) || decide (Config.flushLimit ≤ writesInFlight s))
    && ((s.repair.list.all fun e => decide (e.state ≠ .ready))
        || decide (Config.fetchLimit ≤ s.repair.fetches.length))
    && (s.replay.pool.isEmpty || decide (Config.pushLimit ≤ s.replay.pushes.length))

/-- No FLUSH waits, no sweep runs, and every place of the three engines is taken: two WRITE_RECORDs uncompleted
(R84), four fetches (R143) and two pushes (R128) in progress. -/
def placesTaken (s : State) : Bool :=
  (s.table.all fun e => decide (e.state ≠ .draining)) && !s.repair.active
    && decide (Config.flushLimit ≤ writesInFlight s)
    && decide (Config.fetchLimit ≤ s.repair.fetches.length)
    && decide (Config.pushLimit ≤ s.replay.pushes.length)

/-! ### Hearing -/

/-- The frame passes all that stands before the effects of its kind: the reset pin is released (R164), the station is
past STARTING (R167, R184), the frame is the station's own echo or bears another number (R178), it is addressed to the
station where its kind is filtered (R185), and it does not lead to adoption (R168, R172). -/
def takesFrame (s : State) (f : Frame) : Bool :=
  !s.resetHeld && decide (s.member.state ≠ .starting)
    && (decide (s.bus.echo = some f) || decide (f.sender ≠ ownNumber s))
    && (!isFiltered f.kind || decide (f.target = ownNumber s))
    && !leadsToAdoption s (isOwn s f) f

/-- The station as the effects of a heard frame find it: an echo that was due is no longer (R184). -/
def afterEcho (s : State) : State := { s with bus := { s.bus with echo := none } }

/-! ### Capacities (R58, R72, R97, R124, R128, R139, R143, R186) -/

/-- No collection of the station exceeds its capacity, and there are 48 slots. -/
def withinCapacity (s : State) : Bool :=
  decide (s.cache.slots.length = Config.slotCount)
    && decide (s.table.length ≤ Config.tableSize)
    && decide (s.bus.queue.length ≤ Config.queueSize)
    && decide (lowClassCount s.bus.queue ≤ Config.queueSizeLowClasses)
    && decide (s.port.queue.length ≤ Config.mediaQueueSize)
    && decide (s.replay.pool.length ≤ Config.poolSize)
    && decide (s.replay.pushes.length ≤ Config.pushLimit)
    && decide (s.repair.list.length ≤ Config.repairSize)
    && decide (s.repair.fetches.length ≤ Config.fetchLimit)

/-- No two entries of the request table carry the same tag (R58). -/
def tagsUnique (s : State) : Bool := decide (s.table.map Entry.tag).Nodup

/-- The block whose current slot a slot is, if it is one (R73). -/
def Slot.currentBlock : Slot → Option Block
  | .filling b => some b
  | .clean b _ _ _ => some b
  | .dirty b _ _ _ => some b
  | .writing b _ _ => some b
  | .free | .held .. | .retiring .. => none

/-- No two slots are current for one block: at most one slot per block number in FILLING, CLEAN, DIRTY or WRITING
(R73). -/
def currentOnce (s : State) : Bool := decide (s.cache.slots.filterMap Slot.currentBlock).Nodup

/-- The commands at which the record memory can change: the memory's own happenings and a power-on reset, which may
break a write off (R92, R96, R164). -/
def touchesMedia : Instr → Bool
  | .powerOnReset | .mediaReady _ _ _ | .mediaFault _ | .attemptTimeout => true
  | .resetRelease _ | .probeLimitExpiry | .lineIdle | .arbitrationEnd _ | .frameSent
  | .attemptFailed | .receiveCheckFail | .presentHeard _ _ _ | .rosterHeard _ _
  | .rosterQueryHeard _ | .peerDownHeard _ _ | .rejoinHeard _ | .caughtUpHeard _
  | .replayDoneHeard _ _ _ | .stationResetHeard _ _ | .orderHeard _ _ _ _ | .ackHeard _ _ _ _
  | .nackHeard _ _ _ _ _ | .dataHeard _ _ _ _ _ | .unavailableHeard _ _ _ _ | .currentHeard _ _ _ _
  | .readHeard _ _ _ | .writeHeard _ _ _ _ | .flushHeard _ _ | .fetchHeard _ _ _ _ _
  | .replayHeard _ _ _ _ _ _ | .statusQueryHeard _ _ _ | .statusReportHeard _ _ _ _
  | .leadWaitExpiry _ | .readSlotWaitExpiry _ | .fetchSlotWaitExpiry _ | .rosterAnswerWaitExpiry
  | .ackWindowExpiry _ | .requestLifetimeExpiry _ | .retireHoldEnd _ | .replayRetryTimeExpiry _ _
  | .replayAnswerWaitExpiry _ | .replayDoneReoffer _ | .fetchWindowClose _ | .parkEnd _
  | .sweepBlockRetake _ | .rejoinRequeue | .catchUpLimitExpiry | .caughtUpRequeue
  | .listeningWindowExpiry | .quietTimerExpiry | .presentReoffer | .rosterQueryRepeat
  | .ownPeerDownReoffer => false

end Sys2Proof.Machine
end

