-- ==== Sys2Proof/Certificates/Slice0/Obligations.lean ====
section
/-! DEFINITION. The statements for the provers, each one taken from the numbered rules it cites. -/

open Sys2Proof Sys2Proof.Machine

/-! ### The machine as a whole -/

/-- The station takes the command at the front of its queue; with none waiting it idles for one microsecond of its
clock, which is the model's choice (log 1). -/
def Obligations.StepRunsFrontCommand : Prop :=
  ∀ s : State,
    (∀ (c : Instr) (rest : List Instr), s.pending = c :: rest →
      step s = exec c { s with pending := rest })
    ∧ (s.pending = [] → step s = .next { s with clock := s.clock + 1 })

/-- What a power-on reset leaves, field by field, with the reset pin still asserted (R71, R91, R108, R109, R138, R139,
R162, R165, R188, R195). -/
def Obligations.ResetState : Prop :=
  State.reset.resetHeld = true ∧ State.reset.member.state = .starting
    ∧ State.reset.member.mark = 0 ∧ State.reset.member.placement = []
    ∧ State.reset.member.candidates = 0 ∧ State.reset.member.quietTimer = none
    ∧ State.reset.member.listeningWindow = none ∧ State.reset.member.rosterWait = none
    ∧ State.reset.member.checkPending = false
    ∧ State.reset.table = [] ∧ State.reset.sequence = 0
    ∧ State.reset.cache.slots = List.replicate 48 .free
    ∧ State.reset.cache.waiting = [] ∧ State.reset.cache.pendings = []
    ∧ State.reset.port.queue = [] ∧ State.reset.port.retry = 0 ∧ State.reset.port.timer = none
    ∧ State.reset.port.down = false
    ∧ State.reset.peers = []
    ∧ State.reset.replay.pool = [] ∧ State.reset.replay.overflow = 0
    ∧ State.reset.replay.lastServed = none ∧ State.reset.replay.reoffers = []
    ∧ State.reset.repair.list = [] ∧ State.reset.repair.fetches = []
    ∧ State.reset.repair.awaited = 0 ∧ State.reset.repair.limit = none
    ∧ State.reset.repair.sweepSet = [] ∧ State.reset.repair.group = none
    ∧ State.reset.repair.waitingRoom = [] ∧ State.reset.repair.unverified = 0
    ∧ State.reset.bus.queue = []
    ∧ State.reset.counters.corrected = 0 ∧ State.reset.counters.uncorrectable = 0
    ∧ State.reset.counters.refreshes = 0 ∧ State.reset.counters.discarded = 0
    ∧ State.reset.counters.droppedOnTransmit = 0 ∧ State.reset.counters.answersDropped = 0
    ∧ State.reset.counters.entriesExpired = 0 ∧ State.reset.counters.mismatchedPresent = 0

/-- The state after reset meets both invariants. -/
def Obligations.ResetIsSound : Prop :=
  withinCapacity State.reset = true ∧ tagsUnique State.reset = true ∧ currentOnce State.reset = true
    ∧ mediaWf State.reset.media = true

/-- Every step, from every state, keeps the capacities of R58, R72, R97, R124, R128, R139, R143 and R186, the
uniqueness of tags (R58) and the one current slot of a block (R73). -/
def Obligations.StepKeepsSoundState : Prop :=
  ∀ s t : State,
    withinCapacity s = true ∧ tagsUnique s = true ∧ currentOnce s = true →
    step s = .next t →
    withinCapacity t = true ∧ tagsUnique t = true ∧ currentOnce t = true

/-- Every step keeps the canonical form of the record memory: block numbers rising, only written records listed. -/
def Obligations.StepKeepsMemoryForm : Prop :=
  ∀ s t : State, mediaWf s.media = true → step s = .next t → mediaWf t.media = true

/-- Reading a block after a record was stored: the record itself at its own number, a record with the mark clear
reading as never-written (R2), and what was there before at every other number (R1). -/
def Obligations.RecordReadAfterWrite : Prop :=
  ∀ (m : List (Nat × Record)) (a : Nat) (r : Record) (x : Nat), mediaWf m = true →
    readMedia (writeMedia m a r) x
      = if x = a then (if r.written then r else neverWritten) else readMedia m x

/-- The bits that R189 lays a frame out in, its check computed over them, pass the receive check of R183 and give back
every field its kind uses; hearing them is hearing that frame, at every strap levels. The bits that a kind leaves
unused inside a field it uses read back as zero, whatever they were, which is the model's choice (log 67). That this
layout stands beside the commands, which carry a frame's fields and not its bits, and on no command's path is the
model's (log 34). -/
def Obligations.FrameReadsBack : Prop :=
  ∀ (f : Frame) (pins : Straps), receiveCheck (encodeFrame f) = some (examined f)
    ∧ receptionOf pins (encodeFrame f) = hearingOf pins (examined f)
    ∧ (encodeFrame f).length = frameLength f.kind

/-- Every command answers a next state. It leaves the waiting commands alone; the levels of the strap pins but at the
commands that bring them, the release of reset, a STATION_RESET and the memory's ready, the last of which always does
past reset; the reset pin but at the two reset commands; and every record but at the memory's own happenings and at a
power-on reset, which may break a write off (R92, R163, R164; which commands bring the levels is log 4). While the
reset pin is held the station takes no frame, answers no operation and runs no timer: nothing but the reset pin has an
effect (R164). -/
def Obligations.EveryCommandAnswersNext : Prop :=
  (∀ (c : Instr) (s : State), ∃ t : State, exec c s = .next t
      ∧ t.pending = s.pending
      ∧ ((∀ p, c ≠ .resetRelease p) → (∀ order p, c ≠ .stationResetHeard order p) →
          (∀ op changes p, c ≠ .mediaReady op changes p) → t.pins = s.pins)
      ∧ (∀ op changes p, c = .mediaReady op changes p → s.resetHeld = false → t.pins = p)
      ∧ ((∀ p, c ≠ .resetRelease p) → c ≠ .powerOnReset → t.resetHeld = s.resetHeld)
      ∧ (touchesMedia c = false → ∀ a : Nat, readMedia t.media a = readMedia s.media a))
  ∧ (∀ (c : Instr) (s : State), s.resetHeld = true → c ≠ .powerOnReset →
      (∀ p, c ≠ .resetRelease p) → exec c s = .next s)

/-- The transmit queue takes an offered frame at its end, or refuses it, counting a refused answer (R186). -/
def Obligations.OfferedFrameIsQueuedOrRefused : Prop :=
  ∀ (s : State) (f : Frame) (p : Purpose), s.bus.accepting = true →
    offer s f p =
      if s.bus.queue.length < 16
          ∧ (kindClass f.kind = 0 ∨ (s.bus.queue.countP fun t => decide (kindClass t.frame.kind ≠ 0)) < 14)
      then { s with bus := { s.bus with queue := s.bus.queue ++
              [{ frame := f, purpose := p, phase := .queued, attempts := 0, withdrawal := none }] } }
      else if kindClass f.kind = 1 ∨ f.kind = .roster ∨ f.kind = .statusReport then
        { s with counters := { s.counters with answersDropped :=
            if s.counters.answersDropped = 65535 then 65535 else s.counters.answersDropped + 1 } }
      else s

/-- The slot that the cache gives: a FREE one, otherwise the CLEAN slot least recently used of those not pinned,
otherwise none (R74, R75). -/
def Obligations.AllocationOrder : Prop :=
  ∀ s : State,
    (∀ i, allocate s = some i →
      s.cache.slots[i]? = some .free
      ∨ ((∀ j : Nat, s.cache.slots[j]? ≠ some .free)
        ∧ ∃ b v d r, s.cache.slots[i]? = some (.clean b v d r) ∧ pinned s i b = false
          ∧ ∀ (j : Nat) b' v' d' r', s.cache.slots[j]? = some (.clean b' v' d' r') →
              pinned s j b' = false → r ≤ r'))
    ∧ (allocate s = none →
        (∀ j : Nat, s.cache.slots[j]? ≠ some .free)
        ∧ ∀ (j : Nat) b v d r, s.cache.slots[j]? = some (.clean b v d r) → pinned s j b = true)

/-- The placement table: 64 lists; with enough members each holds `copies` distinct members, the one of rank k for
group g being S[(g + k) mod n], and member i of S holds group g when (i - g) mod n is below copies (R11). -/
def Obligations.PlacementRanks : Prop :=
  ∀ (mark : Mark) (copies g : Nat), copies ≤ (markMembers mark).length → g < 64 →
    let members := markMembers mark
    let n := members.length
    (buildPlacement mark copies).length = 64
    ∧ ∃ l, (buildPlacement mark copies)[g]? = some l ∧ l.length = copies ∧ l.Nodup
      ∧ (∀ k, k < copies → l[k]? = members[(g + k) % n]?)
      ∧ (∀ i p, members[i]? = some p → (p ∈ l ↔ (i + 64 * n - g) % n < copies))

/-- At the end of a happening the engines act one after the other: the first that can of the drain sets, the FLUSH
answers, the flusher, the sweep's next group, the fetches, the pushes and the end of the catch-up. They act until none
can, or 4096 times; the order and the bound are the model's (log 13). A happening ends as its effects leave it where
the three engines have nothing to take up or no place free, no FLUSH waits and no sweep runs. Fewer than four fetches
in progress, the Repair Engine begins that of the oldest READY entry whose group has a live co-replica, which becomes
FETCHING, and with no such entry the sweep's (R143). A sweep without a current group takes the lowest of its set at
its first block, or counts its blocks unverified where no co-replica is live (R156). Not paused by blocks that wait
for room (R159), it takes a block whose 5 ms are over, or goes on at its cursor: passed over where listed, fetched
otherwise, the cursor 64 further and the group left past its last block (R157); that the former go first is the
model's (log 28), and that all equal set-asides of the block are taken as one (log 53). -/
def Obligations.EnginesRest : Prop :=
  (∀ s : State, enginesIdle s = true ∨ placesTaken s = true → settle s = s)
  ∧ (∀ s : State, engineStep s =
      [drainStep s, flushAnswerStep s, flusherStep s, groupStep s, fetchStep s, pushStep s, catchUpStep s].findSome? id)
  ∧ (∀ s : State, engineStep s = none → settle s = s)
  ∧ (∀ s t : State, engineStep s = some t → settle s = settleWithin 4095 t)
  ∧ (∀ s : State, ∃ n ≤ 4096,
      (fun o : Option State => o.bind engineStep)^[n] (some s) = some (settle s)
      ∧ (engineStep (settle s) = none ∨ n = 4096))
  ∧ (∀ (s : State) (pre post : List RepairEntry) (e : RepairEntry),
      inService s = true → s.repair.fetches.length < 4 → s.repair.list = pre ++ e :: post →
      e.state = .ready → groupLive s (groupOf e.block) = true →
      (∀ x ∈ pre, x.state = .ready → groupLive s (groupOf x.block) = false) →
      fetchStep s = some (lookupFetch
        { s with
          nextId := s.nextId + 1,
          repair := { s.repair with
            list := s.repair.list.map fun x => if x.block = e.block then { x with state := .fetching } else x,
            fetches := s.repair.fetches ++ [{
              id := s.nextId, block := e.block, sweep := false, phase := .lookup, tag := none, buffer := none,
              currentTaken := false }] } }
        {
          id := s.nextId, block := e.block, sweep := false, phase := .lookup, tag := none, buffer := none,
          currentTaken := false }))
  ∧ (∀ s : State, (inService s = false ∨ 4 ≤ s.repair.fetches.length) → fetchStep s = none)
  ∧ (∀ s : State, inService s = true → s.repair.fetches.length < 4 →
      (∀ x ∈ s.repair.list, x.state = .ready → groupLive s (groupOf x.block) = false) →
      fetchStep s = sweepStep s)
  ∧ (∀ (s : State) (g : Nat) (rest : List Nat), s.member.state = .catchingUp → s.repair.active = true →
      s.repair.group = none → s.repair.sweepSet = g :: rest →
      groupStep s = some (
        if groupLive s g then { s with repair := { s.repair with group := some g, cursor := g } }
        else { s with repair := { s.repair with
          group := none, cursor := g, sweepSet := s.repair.sweepSet.filter fun h => decide (h ≠ g),
          unverified := min (volume s) (s.repair.unverified + (volume s - g + 63) / 64) } }))
  ∧ (∀ s : State, (s.member.state ≠ .catchingUp ∨ s.repair.active = false ∨ s.repair.waitingRoom ≠ []) →
      sweepStep s = none)
  ∧ (∀ (s : State) (g : Nat), s.member.state = .catchingUp → s.repair.active = true →
      s.repair.waitingRoom = [] → (∀ r ∈ s.repair.retakes, r.due ≠ none) → s.repair.group = some g →
      (groupLive s g = false → sweepStep s = some
        { s with repair := { s.repair with
          group := none, sweepSet := s.repair.sweepSet.filter fun h => decide (h ≠ g),
          unverified := min (volume s) (s.repair.unverified + (volume s - s.repair.cursor + 63) / 64) } })
      ∧ (groupLive s g = true →
        let t : State := { s with repair := { s.repair with
          cursor := s.repair.cursor + 64,
          group := if s.repair.cursor + 64 < volume s then some g else none,
          sweepSet := if s.repair.cursor + 64 < volume s then s.repair.sweepSet
            else s.repair.sweepSet.filter fun h => decide (h ≠ g) } }
        sweepStep s = some (if isListed s (BitVec.ofNat 24 s.repair.cursor) then t
          else beginFetch t (BitVec.ofNat 24 s.repair.cursor) true)))
  ∧ (∀ (s : State) (r : Retake), s.member.state = .catchingUp → s.repair.active = true →
      s.repair.waitingRoom = [] → (s.repair.retakes.find? fun x => x.due.isNone) = some r →
      let t : State := { s with repair := { s.repair with
        retakes := s.repair.retakes.filter fun x => decide (x ≠ r) } }
      sweepStep s = some (
        if isListed s r.block then t
        else if groupLive s (groupOf r.block) then beginFetch t r.block true
        else { t with repair := { t.repair with unverified := min (volume s) (s.repair.unverified + 1) } }))

/-- The flusher issues the WRITE_RECORD of the DIRTY slot of lowest commit order while fewer than two are uncompleted,
and that slot becomes WRITING (R84). -/
def Obligations.FlusherTakesLowestOrder : Prop :=
  ∀ (s : State) (i : Nat) (b : Block) (v : Version) (d : Data) (o : Nat),
    s.member.state ≠ .out .mediaDown → s.port.down = false →
    ((s.port.queue ++ s.cache.waiting).countP MediaCmd.isWrite) < 2 →
    s.cache.slots[i]? = some (.dirty b v d o) →
    (∀ (j : Nat) b' v' d' o', s.cache.slots[j]? = some (.dirty b' v' d' o') → j ≠ i → o < o') →
    flusherStep s
      = some (issue
          { s with cache := { s.cache with slots := s.cache.slots.set i (.writing b v d) } }
          (.writeRecord b v d i))

/-- A FLUSH whose drain set is empty is answered: ACK with block 0 and version 0 offered, the entry ACKED with the ACK
recorded (R89), also where the queue refuses it, and of several such entries the first in the table answered first,
which are the model's choices (logs 61, 13). A member whose slot no longer holds its block at its version in DIRTY or
WRITING leaves its drain set and does not come back (R89). -/
def Obligations.FlushAnsweredWhenDrained : Prop :=
  (∀ s : State,
    ((∃ e ∈ s.table, e.state = .draining ∧ ∃ m ∈ e.drain, stillDrains s m = false) →
      drainStep s = some { s with table := s.table.map fun e =>
        if e.state = .draining then { e with drain := e.drain.filter (stillDrains s) } else e })
    ∧ ((∀ e ∈ s.table, e.state = .draining → ∀ m ∈ e.drain, stillDrains s m = true) → drainStep s = none))
  ∧ (∀ (s : State) (m : DrainMember), stillDrains s m = true ↔
      (∃ d o, s.cache.slots[m.slot]? = some (.dirty m.block m.version d o))
        ∨ ∃ d, s.cache.slots[m.slot]? = some (.writing m.block m.version d))
  ∧ ∀ (s : State) (pre post : List Entry) (e : Entry), s.table = pre ++ e :: post →
    (∀ x ∈ pre, x.tag ≠ e.tag ∧ (x.kind ≠ .clientFlush ∨ x.state ≠ .draining)) →
    (∀ x ∈ post, x.tag ≠ e.tag) →
    e.kind = .clientFlush → e.state = .draining → (∀ m ∈ e.drain, stillDrains s m = false) →
    ∃ t : State, flushAnswerStep s = some t
      ∧ t.bus = (offer s (ackFrame (self s) e.tag 0 0) .acknowledgement).bus
      ∧ t.table = pre ++ { e with
          state := .acked, sent := some { kind := .ack, version := 0 },
          finished := some s.clock, wait := none, slot := none } :: post
      ∧ t.media = s.media ∧ t.port = s.port ∧ t.cache.slots = s.cache.slots
      ∧ t.member = s.member ∧ t.peers = s.peers ∧ t.replay = s.replay ∧ t.repair = s.repair

/-- The push begun next: an eligible entry, the oldest eligible of its peer, and of the first peer after the
last-served one in ascending number that has an eligible entry (R128); with none served last the turn starts at
station 0, which is the model's choice (log 65). It is begun while fewer than two are in progress: the entry is being
pushed, its retry time gone, and its peer the last served (R128). With its block's data in hand, its peer live and its
block not listed, a push has an OUTSTANDING entry under a fresh tag, or its entry under a fresh tag with one more
attempt, and REPLAY of the current slot's version and data is queued to the peer; refused it ends with its retry time
5 ms ahead; and no longer to be made it ends with nothing set (R62, R129, R133). That a retry is tagged only now, its
lookup over, and keeps the answers recorded under its former tag, is the model's choice (logs 51, 57). -/
def Obligations.PushesTakeTurns : Prop :=
  (∀ (s : State) (m : Missed), inService s = true → s.replay.pushes.length < 2 → nextPush s = some m →
    pushStep s = some (lookupPush
      { s with
        nextId := s.nextId + 1,
        replay := { s.replay with
          pool := s.replay.pool.map fun x =>
            if x.peer = m.peer ∧ x.block = m.block then { x with push := true, retry := none } else x,
          pushes := s.replay.pushes ++
            [{ id := s.nextId, peer := m.peer, block := m.block, tag := none, phase := .lookup }],
          lastServed := some m.peer } }
      { id := s.nextId, peer := m.peer, block := m.block, tag := none, phase := .lookup }))
  ∧ (∀ s : State, (inService s = false ∨ 2 ≤ s.replay.pushes.length ∨ nextPush s = none) → pushStep s = none)
  ∧ (∀ (s : State) (p : Push) (i : Nat) (v : Version) (d : Data), findPush s p.id = some p →
    currentCopy s p.block = some (i, v, d) →
    let looked : State := touchSlot
      { s with replay := { s.replay with pushes := s.replay.pushes.map fun q =>
          if q.id = p.id then { q with phase := .lookup } else q } } i
    let tagged (table : List Entry) : State :=
      { looked with
        sequence := (ownTag s).seq + 1,
        table := table,
        replay := { s.replay with pushes := s.replay.pushes.map fun q =>
          if q.id = p.id then { q with tag := some (ownTag s), phase := .lookup } else q } }
    let offered (table : List Entry) : State :=
      if accepts s .replay then touchSlot
        { tagged table with
          bus := { s.bus with queue := s.bus.queue ++
            [queuedFrame (replayFrame (self s) (ownTag s) p.peer p.block v d) .ownReplay] },
          replay := { s.replay with pushes := s.replay.pushes.map fun q =>
            if q.id = p.id then { q with tag := some (ownTag s), phase := .queued } else q } } i
      else endPush (tagged table) { p with tag := some (ownTag s) } (some (s.clock + 5000)) .done
    (inService s = true → isLive s p.peer = true → isListed s p.block = false →
      (p.tag = none → s.table.length < 24 → lookupPush s p =
        offered (s.table ++ [{ newEntry s (ownTag s) .ownReplay (some p.block) .outstanding with
          target := some p.peer }]))
      ∧ (p.tag = none → 24 ≤ s.table.length → (∀ e ∈ s.table, e.state.finished = false) →
        lookupPush s p = endPush looked p (some (s.clock + 5000)) .done)
      ∧ (∀ old, p.tag = some old → lookupPush s p = offered (s.table.map fun e =>
          if e.tag = old then { e with tag := ownTag s, attempts := e.attempts + 1 } else e)))
    ∧ ((inService s = false ∨ isLive s p.peer = false ∨ isListed s p.block = true) →
      lookupPush s p = endPush looked p none .done))
  ∧ ∀ (s : State) (m : Missed),
    (s.replay.pool.all fun x => x.peer.isStore) = true →
    nextPush s = some m →
    m ∈ s.replay.pool ∧ eligible s m = true
    ∧ (∃ pre post, s.replay.pool = pre ++ m :: post
        ∧ ∀ x ∈ pre, x.peer = m.peer → eligible s x = false)
    ∧ (∀ x ∈ s.replay.pool, eligible s x = true →
        let start := match s.replay.lastServed with
          | none => 0
          | some p => p.toNat + 1
        (m.peer.toNat + 32 - start) % 16 ≤ (x.peer.toNat + 32 - start) % 16)

/-- A catch-up ends when its REJOIN is sent and nothing is awaited, left to sweep, in progress or waiting for room:
CAUGHT_UP is queued, or set to be queued 5 ms later where it is refused, the station is SERVING and the sweep-needed
flag is clear (R161, R166); a sweep block still to be taken again is dropped, which is the model's (log 28). It
begins, or begins afresh, with every READ in LOOKUP or SLOT_WAIT become SILENT and no lead ORDER queued where the
station was SERVING, an ANSWERED READ becoming SILENT only where its queued answer is withdrawn, which is the model's
choice (log 44), the catch-up in progress forgotten, its sweep fetches, awaited set, limit and current group with it,
CATCHING_UP, the sweep set all groups the station holds where the sweep-needed flag is set and as it was otherwise,
the count of unverified blocks 0, and REJOIN the last frame queued, or set to be queued 5 ms later where it is
refused; the repair list, the missed-write lists and the Peer Table stay (R26, R56, R152, R153). -/
def Obligations.CatchUpEnds : Prop :=
  (∀ s : State,
    let t := beginCatchUp s
    t.member = { s.member with state := .catchingUp }
    ∧ (s.member.state = .serving → ∀ e ∈ t.table, e.kind = .clientRead → e.state.finished = true)
    ∧ (s.member.state = .serving → tagsUnique s = true → ∀ e ∈ s.table, e.kind = .clientRead →
      ((e.state = .lookup ∨ e.state = .slotWait) → ∃ x ∈ t.table, x.tag = e.tag ∧ x.state = .silent)
      ∧ (e.state = .answered →
        ((∃ f ∈ s.bus.queue, f.purpose = .readAnswer ∧ f.frame.tag = e.tag ∧ f.phase = .queued) →
          ∃ x ∈ t.table, x.tag = e.tag ∧ x.state = .silent)
        ∧ ((∀ f ∈ s.bus.queue, f.purpose = .readAnswer → f.frame.tag = e.tag → f.phase ≠ .queued) → e ∈ t.table)))
    ∧ t.repair.active = true ∧ t.repair.rejoinSent = false ∧ t.repair.awaited = 0 ∧ t.repair.limit = none
    ∧ t.repair.group = none ∧ t.repair.retakes = [] ∧ t.repair.caughtUpRequeue = none ∧ t.repair.unverified = 0
    ∧ t.repair.serial = s.nextId ∧ t.nextId = s.nextId + 1
    ∧ t.repair.sweepSet = (if s.member.sweepNeeded then heldGroups s else s.repair.sweepSet)
    ∧ (∀ f ∈ t.repair.fetches, f ∈ s.repair.fetches ∧ f.sweep = false)
    ∧ t.repair.list = s.repair.list ∧ t.repair.waitingRoom = s.repair.waitingRoom
    ∧ t.peers = s.peers ∧ t.replay.pool = s.replay.pool ∧ t.replay.pushes = s.replay.pushes
    ∧ t.media = s.media ∧ t.port = s.port ∧ t.cache.slots = s.cache.slots ∧ t.clock = s.clock
    ∧ ∃ kept : List TxFrame,
      (∀ f ∈ kept, f.phase = .queued → f ∈ s.bus.queue ∧ isCatchUpFrame f = false
        ∧ (s.member.state = .serving → f.purpose ≠ .leadOrder ∧ f.purpose ≠ .readAnswer))
      ∧ (t.bus.accepting = true → kept.length < 16 →
        t.bus.queue = kept ++ [queuedFrame (rejoinFrame (self s)) (.rejoin s.nextId)]
        ∧ t.repair.rejoinRequeue = none)
      ∧ ((t.bus.accepting = false ∨ 16 ≤ kept.length) →
        t.bus.queue = kept ∧ t.repair.rejoinRequeue = some (s.clock + 5000)))
  ∧ ∀ s : State, s.member.state = .catchingUp → s.repair.active = true →
    s.repair.rejoinSent = true → s.repair.awaited = 0 → s.repair.sweepSet = [] →
    (∀ f ∈ s.repair.fetches, f.sweep = false) → s.repair.waitingRoom = [] →
    catchUpStep s = some
      (if accepts s .caughtUp then
        { s with
          bus := { s.bus with queue := s.bus.queue ++ [queuedFrame (caughtUpFrame (self s)) .caughtUp] }
          member := { s.member with state := .serving, sweepNeeded := false }
          repair := { s.repair with
            active := false, limit := none, retakes := [], caughtUpRequeue := none } }
      else
        { s with
          member := { s.member with state := .serving, sweepNeeded := false }
          repair := { s.repair with
            active := false, limit := none, retakes := [], caughtUpRequeue := some (s.clock + 5000) } })

/-- A station that goes OUT: every entry is finished, those of its own fetches and pushes with them, and no wait is
left that an unfinished entry had; no HELD slot, push, fetch or catch-up is left. No frame is queued but PEER_DOWN
naming the station, by a member whose memory is down, which is set to be offered 5 ms later where it is refused, and
offered after the withdrawals, which is the model's choice (log 66); of the frames queued before, none stays that
leaves with service, and no answer to a READ or a FETCH (R26, R31, R39, R56, R70, R123, R138, R162, R177). That
COMMITTING writes and DRAINING FLUSHes end so from RESETTING too is the model's choice (log 47). -/
def Obligations.OutEndsAllWork : Prop :=
  ∀ (s : State) (r : OutReason), isOut s = false →
    let t := enterOut s r
    t.member.state = .out r
    ∧ (∀ e ∈ t.table, e.state.finished = true)
    ∧ (∀ e ∈ t.table, e.wait = none
        ∨ ∃ x ∈ s.table, x.tag = e.tag ∧ x.state.finished = true ∧ x.wait = e.wait)
    ∧ (∃ kept : List TxFrame,
      (∀ f ∈ kept, ∃ g ∈ s.bus.queue, g.frame = f.frame ∧ g.purpose = f.purpose ∧ g.phase = f.phase)
      ∧ (∀ f ∈ kept, f.phase = .queued → leavesWithService f.purpose = false
          ∧ f.purpose ≠ .readAnswer ∧ f.purpose ≠ .fetchAnswer)
      ∧ ((r ≠ .mediaDown ∨ s.member.member = false) → t.bus.queue = kept)
      ∧ (r = .mediaDown → s.member.member = true →
        (t.bus.accepting = true → kept.length < 16 →
          t.bus.queue = kept ++ [queuedFrame (peerDownFrame (self s) (ownNumber s)) .mediaDownNotice]
          ∧ t.member.ownDownReoffer = none)
        ∧ ((t.bus.accepting = false ∨ 16 ≤ kept.length) →
          t.bus.queue = kept ∧ t.member.ownDownReoffer = some (s.clock + 5000))))
    ∧ (∀ x ∈ t.cache.slots, ∀ b d o v, x ≠ .held b d o v)
    ∧ t.cache.pendings = [] ∧ t.replay.pushes = [] ∧ t.repair.fetches = []
    ∧ t.repair.active = false ∧ t.repair.limit = none
    ∧ t.member.rosterWait = none ∧ t.member.listeningWindow = none ∧ t.member.quietTimer = none
    ∧ t.media = s.media ∧ t.clock = s.clock

/-! ### Resets (R163 to R166) -/

/-- A power-on reset empties every block (R71, R91, R108, R109, R138, R139, R162, R164, R165, R188, R195); the record
memory keeps its records, but for a write or read-back broken off, which leaves its record as R96 states for a write
ended by timeout: the former record, the new one or a damaged one, a record broken off at its read-back the new one or
a damaged one. That the clock, the free values used and the operation and engine numbers go on, and that the straps
read stay until the release, is the model's (logs 3, 7, 8, 31). -/
def Obligations.PowerOnReset : Prop :=
  ∀ s : State,
    let after (media : List (Nat × Record)) (used : Nat) : State :=
      { State.reset with
        pins := s.pins, clock := s.clock, freeCount := used, nextId := s.nextId, media := media,
        member := { State.reset.member with straps := s.member.straps },
        port := { State.reset.port with op := s.port.op }, pending := s.pending }
    ((s.port.phase = .idle ∨ s.port.phase = .reading ∨ s.port.phase = .probing) →
      exec .powerOnReset s = .next (after s.media s.freeCount))
    ∧ (∀ b v d i rest, s.port.queue = .writeRecord b v d i :: rest → s.port.phase = .writing →
        let former := readMedia s.media b.toNat
        ∃ r : Record, exec .powerOnReset s
            = .next (after (writeMedia s.media b.toNat r) (s.freeCount + 1))
          ∧ (r = former ∨ r = newRecord v d ∨ r = { newRecord v d with damaged := true }))
    ∧ (∀ b v d i rest, s.port.queue = .writeRecord b v d i :: rest → s.port.phase = .readingBack →
        let former := readMedia s.media b.toNat
        ∃ r : Record, exec .powerOnReset s
            = .next (after (writeMedia s.media b.toNat r) (s.freeCount + 1))
          ∧ (r = former ∨ r = { former with damaged := true }))

/-- The release of the reset pin restarts the station: the straps are read, the sweep-needed flag follows the
write-back strap, and valid straps start the probe and its 2 s limit while invalid ones lead to OUT(BAD_STRAP) with no
probe (R104, R163, R165, R166). A release with the pin not held changes nothing, which is the model's choice (log
3). -/
def Obligations.ReleaseRestarts : Prop :=
  ∀ (s : State) (p : Straps),
    (s.resetHeld = true → exec (.resetRelease p) s = .next
      { State.reset with
        pins := p, resetHeld := false, clock := s.clock, freeCount := s.freeCount, nextId := s.nextId,
        media := s.media, pending := s.pending,
        member := { State.reset.member with
          straps := p, sweepNeeded := p.writeBack,
          state := if p.copiesCode = 0 ∨ p.volumeCode = 7 then .out .badStrap else .starting },
        port :=
          if p.copiesCode = 0 ∨ p.volumeCode = 7 then { State.reset.port with op := s.port.op }
          else { State.reset.port with
            op := s.port.op + 1, phase := .probing,
            timer := some (s.clock + 50000), probeLimit := some (s.clock + 2000000) } })
    ∧ (s.resetHeld = false → exec (.resetRelease p) s = .next s)

/-! ### The record memory (R92 to R108) -/

/-- An answer to the probe, ready or fault alike, stops the probe limit and takes the station to LISTENING with its 25
ms window (R104, R168); an answer for another operation is discarded (R98, R105, R108). A probe that times out is
followed by another at once; with the 2 s limit over the port is down, presents nothing and the station goes
OUT(MEDIA_DOWN) (R104, R105, R106): in STARTING the cache has issued nothing. That the ready brings the strap levels
is the model's (log 4), so is the number by which an answer to another operation is known (log 7), and the clock at an
expiry (log 1). -/
def Obligations.ProbeOutcomes : Prop :=
  (∀ (s : State) (op : Nat) (x : BitChanges) (p : Straps), s.resetHeld = false →
      (s.port.phase = .probing → op = s.port.op →
        let t : State := { s with
          port := { s.port with phase := .idle, timer := none, probeLimit := none },
          member := { s.member with state := .listening, listeningWindow := some (s.clock + 25000) } }
        exec (.mediaReady op x p) s = .next (drainCheck (settle { t with pins := p }))
        ∧ exec (.mediaFault op) s = .next (drainCheck (settle t)))
      ∧ (op ≠ s.port.op ∨ s.port.phase = .idle →
        exec (.mediaReady op x p) s = .next (drainCheck (settle { s with pins := p }))
        ∧ exec (.mediaFault op) s = .next (drainCheck (settle s))))
  ∧ (∀ (s : State) (due : Nat), s.resetHeld = false → s.port.phase = .probing →
      (s.port.timer = some due →
        exec .attemptTimeout s = .next (drainCheck (settle
          { s with
            clock := max s.clock due,
            port := { s.port with op := s.port.op + 1, timer := some (max s.clock due + 50000) } })))
      ∧ (s.port.probeLimit = some due → s.port.queue = [] →
          exec .probeLimitExpiry s = .next (drainCheck (settle (enterOut
            { s with
              clock := max s.clock due,
              port := { s.port with
                retry := 0, phase := .idle, timer := none, probeLimit := none, down := true },
              cache := { s.cache with waiting := [] } }
            .mediaDown)))))

/-- The memory stores the record presented, without errors and with its written mark set, and the port presents the
read-back (R92, R96). A read-back that the check unit finds right or corrects completes the write: the command leaves
the queue, a WRITING slot becomes CLEAN and most recently used, a RETIRING one is freed, bursts are counted once as a
corrected read, and every write entry that waits for this record is acknowledged, several in the order of the table,
which is the model's choice (log 13) (R35, R74, R86, R93, R96, R102). An attempt of a write that ends by fault or
timeout, in the write or in its read-back, or with a read-back beyond correction, with fewer than four made, is
followed at once by another attempt of the same record (R98, R99, R101): the write broken off leaves the former
record, the new one or a damaged one, the read-back broken off the new record or a damaged one, and a read-back beyond
correction a damaged one (R96). The bits changed since are the memory's, and what is damaged reads beyond correction
until it is rewritten, with its written mark set after a read-back, which is the model's form of it and its choice
(logs 5, 8); the clock at an expiry is too (log 1), and that the ready brings the strap levels (log 4). -/
def Obligations.WriteIsReadBack : Prop :=
  (∀ (s : State) (x : BitChanges) (p : Straps) (b : Block) (v : Version) (d : Data) (i : Nat) (rest : List MediaCmd),
      s.resetHeld = false → s.port.phase = .writing → s.port.queue = .writeRecord b v d i :: rest →
      exec (.mediaReady s.port.op x p) s = .next (drainCheck (settle
        { s with
          pins := p,
          media := writeMedia s.media b.toNat
            { written := true, version := v, data := d, wrong := [], damaged := false },
          port := { s.port with phase := .readingBack, op := s.port.op + 1 } })))
  ∧ (∀ (s : State) (x : BitChanges) (p : Straps) (b : Block) (v : Version) (d : Data) (i : Nat) (rest : List MediaCmd),
      s.resetHeld = false → s.port.phase = .readingBack → s.port.queue = .writeRecord b v d i :: rest →
      let kept := (readMedia s.media b.toNat).flip x.lasting
      (∀ n, (kept.flip x.passing).check = some n →
        let s1 := nextCommand { s with pins := p, media := writeMedia s.media b.toNat kept }
        let s2 := if n = 0 then s1 else countCorrected s1
        (∀ w e, s2.cache.slots[i]? = some (.writing b w e) →
          exec (.mediaReady s.port.op x p) s = .next (drainCheck (settle (
            (s2.table.filter fun y => y.awaitsRecord b v).foldl (fun u y => ackWrite u y.tag b v)
              { s2 with cache := { s2.cache with
                  recency := s2.cache.recency + 1,
                  slots := s2.cache.slots.set i (.clean b w e (s2.cache.recency + 1)) } }))))
        ∧ (∀ w e, s2.cache.slots[i]? = some (.retiring b w e) →
          exec (.mediaReady s.port.op x p) s = .next (drainCheck (settle (
            (s2.table.filter fun y => y.awaitsRecord b v).foldl (fun u y => ackWrite u y.tag b v)
              { s2 with cache := { s2.cache with slots := s2.cache.slots.set i .free } })))))
      ∧ ((kept.flip x.passing).check = none → s.port.retry + 1 < 4 →
        exec (.mediaReady s.port.op x p) s = .next (drainCheck (settle
          { s with
            pins := p,
            media := writeMedia s.media b.toNat { kept with damaged := true },
            port := { s.port with
              retry := s.port.retry + 1, phase := .writing, op := s.port.op + 1,
              timer := some (s.clock + 50000) } }))))
  ∧ (∀ (s : State) (b : Block) (v : Version) (d : Data) (i : Nat) (rest : List MediaCmd), s.resetHeld = false →
      s.port.queue = .writeRecord b v d i :: rest → s.port.retry + 1 < 4 →
      let former := readMedia s.media b.toNat
      let again (r : Record) (now : Nat) : State :=
        { s with
          clock := now, media := writeMedia s.media b.toNat r, freeCount := s.freeCount + 1,
          port := { s.port with
            retry := s.port.retry + 1, phase := .writing, op := s.port.op + 1, timer := some (now + 50000) } }
      (s.port.phase = .writing → ∃ r : Record,
        (r = former ∨ r = newRecord v d ∨ r = { newRecord v d with damaged := true })
        ∧ exec (.mediaFault s.port.op) s = .next (drainCheck (settle (again r s.clock)))
        ∧ ∀ due, s.port.timer = some due →
          exec .attemptTimeout s = .next (drainCheck (settle (again r (max s.clock due)))))
      ∧ (s.port.phase = .readingBack → ∃ r : Record, (r = former ∨ r = { former with damaged := true })
        ∧ exec (.mediaFault s.port.op) s = .next (drainCheck (settle (again r s.clock)))
        ∧ ∀ due, s.port.timer = some due →
          exec .attemptTimeout s = .next (drainCheck (settle (again r (max s.clock due))))))

/-- A READ_RECORD that the check unit finds right or corrects fills its slot with the record, or with the zero data
and version 0 of a block never written: CLEAN, or DIRTY by a refresh with two or three bursts; a READ_HEADER delivers
the version, and its refresh takes a slot where the block has none; every lookup waiting is then answered (R2, R78,
R82, R93, R94, R95, R102). The commits pending on the read are decided before the slot is settled, in the order in
which they were offered, each against the version the one before left and the first against the version read, or a
current copy's: above it a commit is accepted and its version reported, otherwise its slot is freed and the version
held reported; where one is accepted a READ_RECORD fills no slot and no refresh is made, and the lookups are answered
with the version then held (R78, R79, R80, R81, R136). Those pending on a READ_HEADER whose block has a FILLING slot
by then move to its READ_RECORD (R78). The stored record's wrong bits are the memory's (log 5), the ready brings the
strap levels (log 4), and the order in which several lookups are answered is the model's where R78 gives none (log
13). -/
def Obligations.ReadFillsItsSlot : Prop :=
  (∀ (s : State) (x : BitChanges) (p : Straps) (b : Block) (c : MediaCmd) (rest : List MediaCmd) (n : Nat),
    s.resetHeld = false → s.port.phase = .reading → s.port.queue = c :: rest →
    let stored := readMedia s.media b.toNat
    let kept := stored.flip x.lasting
    (if stored.written then (kept.flip x.passing).check else some 0) = some n →
    let version := if stored.written then stored.version else 0
    let data := if stored.written then stored.data else 0
    let s1 := nextCommand { s with
      pins := p, media := if stored.written then writeMedia s.media b.toNat kept else s.media }
    let counted := if n = 0 then s1 else countCorrected s1
    let waits (k : ReadKind) (w : Waiter) := decide (w.block = b) && decide (w.on = k)
    let commits (k : ReadKind) (q : PendingCommit) := decide (q.block = b) && decide (q.on = k)
    let taken (k : ReadKind) : State := { counted with cache := { counted.cache with
      waiters := s.cache.waiters.filter fun w => !waits k w } }
    let answered (k : ReadKind) (u : State) (h : Version) := exec (.mediaReady s.port.op x p) s = .next (drainCheck
      (settle (answerWaiters u b ((s.cache.waiters.filter (waits k)).map (·.user)) (.known h))))
    let mine (k : ReadKind) := s.cache.pendings.filter (commits k)
    let offered (k : ReadKind) := currentOnce s = true ∧ (mine k).Pairwise (fun q r => q.slot ≠ r.slot)
      ∧ ∀ q ∈ mine k, ∃ o w, s.cache.slots[q.slot]? = some (.held b q.data o w)
    let decided (k : ReadKind) (held : Version) : State × Version := (mine k).foldl
      (fun a q =>
        if a.2 < q.version then
          (reportCommit (acceptCommit a.1 q.slot b q.version q.data) b q.source q.version, q.version)
        else
          (reportCommit { a.1 with cache := { a.1.cache with slots := a.1.cache.slots.set q.slot .free } }
            b q.source a.2, a.2))
      ({ taken k with cache := { (taken k).cache with
        pendings := s.cache.pendings.filter fun q => !commits k q } }, held)
    let refreshed (u : State) (i : Nat) (d : Data) : State := countRefresh { u with cache := { u.cache with
      commitOrder := u.cache.commitOrder + 1,
      slots := u.cache.slots.set i (.dirty b version d (u.cache.commitOrder + 1)) } }
    (∀ i, c = .readRecord b i → s.member.state ≠ .out .mediaDown → s.port.down = false →
      s.cache.slots[i]? = some (.filling b) → currentSlot s b = some i →
      let filled (u : State) : State :=
        if 2 ≤ n then refreshed u i data
        else { u with cache := { u.cache with
          recency := u.cache.recency + 1,
          slots := u.cache.slots.set i (.clean b version data (u.cache.recency + 1)) } }
      ((∀ q ∈ s.cache.pendings, q.block ≠ b) → answered .record (filled (taken .record)) version)
      ∧ (∀ q, s.cache.pendings = [q] → q.block = b → q.on = .record →
        let s3 : State := { taken .record with cache := { (taken .record).cache with pendings := [] } }
        let settled (u : State) (accepted : Bool) : Prop :=
          let t := settleSlot u .record b i (.delivered version data n) accepted
          exec (.mediaReady s.port.op x p) s = .next (drainCheck (settle
            (answerWaiters t b ((s.cache.waiters.filter (waits .record)).map (·.user)) (heldNow t b (.known version)))))
        (version < q.version →
          settled (reportCommit (acceptCommit s3 q.slot b q.version q.data) b q.source q.version) true)
        ∧ (q.version ≤ version → settled (reportCommit
            { s3 with cache := { s3.cache with slots := s3.cache.slots.set q.slot .free } } b q.source version) false))
      ∧ (offered .record →
        let out := decided .record version
        (out.2 = version → answered .record (filled out.1) version)
        ∧ (version < out.2 → answered .record out.1 out.2)))
    ∧ (c = .readHeader b → (∀ q ∈ s.cache.pendings, q.block ≠ b) →
      let answered (u : State) := answered .header u ((heldVersion s b).getD version)
      (isFilling s b = false → n < 2 → answered (taken .header))
      ∧ (currentSlot s b = none → 2 ≤ n → s.member.state ≠ .out .mediaDown → s.port.down = false →
        (allocate s = none → answered (taken .header))
        ∧ (∀ i, allocate s = some i → answered (refreshed (taken .header) i data)))
      ∧ (∀ i d' r, currentSlot s b = some i → s.cache.slots[i]? = some (.clean b version d' r) → 2 ≤ n →
        s.member.state ≠ .out .mediaDown → s.port.down = false → answered (refreshed (taken .header) i d'))
      ∧ ((∃ i v' d' o, currentSlot s b = some i ∧ (s.cache.slots[i]? = some (.dirty b v' d' o)
          ∨ s.cache.slots[i]? = some (.writing b v' d'))) → answered (taken .header))
      ∧ (isFilling s b = true → answered (taken .header)))
    ∧ (c = .readHeader b → isFilling s b = false → offered .header →
      let held := (heldVersion s b).getD version
      let out := decided .header held
      (held < out.2 → answered .header out.1 out.2)
      ∧ (out.2 = held → n < 2 → answered .header out.1 held)
      ∧ (out.2 = held → currentSlot s b = none → 2 ≤ n → s.member.state ≠ .out .mediaDown → s.port.down = false →
        (allocate out.1 = none → answered .header out.1 held)
        ∧ (∀ i, allocate out.1 = some i → answered .header (refreshed out.1 i data) held))))
  ∧ (∀ (s : State) (b : Block) (v : Version) (d : Data) (n : Nat), isFilling s b = true →
    let s1 := if n = 0 then s else countCorrected s
    completeRead s .header b 0 (.delivered v d n) false = answerWaiters
      { s1 with cache := { s1.cache with
        waiters := s.cache.waiters.filter fun w => !(decide (w.block = b) && decide (w.on = .header)),
        pendings := s.cache.pendings.map fun q =>
          if q.block = b ∧ q.on = .header then { q with on := .record } else q } }
      b (waitersOf s b .header) (.known v))

/-- An attempt of a read that ends by fault or timeout, or with a record beyond correction, with fewer than four made,
is followed at once by another of the same command at the head of the queue (R93, R98, R99). After the fourth attempt
a read completes as failed at the cache: the uncorrectable count goes up, the block is listed in SERVING and
CATCHING_UP, a commit pending on the read is accepted and those offered after it are decided in their order, each
against the version the one before left, a FILLING slot is freed, and each lookup waiting is answered, a version
lookup with unknown and a copy lookup with MEDIA_ERROR, unless the block has a current copy by then; the command
leaves the queue, commands waiting in the cache fill it to 8, and its new head is served (R44, R78, R83, R97); a write
declares MEDIA_DOWN: the port is down with an empty queue, the commands behind the failed one are ended, reads as
failed, the cache's waiting list is discarded, no command of it completing, which is the model's reading (log 29), and
the station goes OUT; the failed write leaves the former record, the new one or a damaged one (R86, R96, R99, R100,
R101, R106). The clock at an expiry is the model's (log 1), the form of the wrong bits and of the damage, with the
written mark set after a read-back (logs 5, 8), that the ready brings the strap levels (log 4), and that a push whose
media read has failed ends with no retry time and its entry DONE also where its block could not be listed (log 63). -/
def Obligations.FailedMediaAttempts : Prop :=
  (∀ (s : State) (c : MediaCmd) (rest : List MediaCmd), s.resetHeld = false →
      s.port.phase = .reading → s.port.queue = c :: rest → c.isWrite = false → s.port.retry + 1 < 4 →
      exec (.mediaFault s.port.op) s = .next (drainCheck (settle
        { s with port := { s.port with
            retry := s.port.retry + 1, op := s.port.op + 1, timer := some (s.clock + 50000) } }))
      ∧ (∀ due, s.port.timer = some due →
        exec .attemptTimeout s = .next (drainCheck (settle
          { s with
            clock := max s.clock due,
            port := { s.port with
              retry := s.port.retry + 1, op := s.port.op + 1,
              timer := some (max s.clock due + 50000) } })))
      ∧ (∀ (x : BitChanges) (p : Straps) (b : Block), (c = .readHeader b ∨ ∃ i, c = .readRecord b i) →
        let stored := readMedia s.media b.toNat
        stored.written = true → ((stored.flip x.lasting).flip x.passing).check = none →
        exec (.mediaReady s.port.op x p) s = .next (drainCheck (settle
          { s with
            pins := p,
            media := writeMedia s.media b.toNat (stored.flip x.lasting),
            port := { s.port with
              retry := s.port.retry + 1, op := s.port.op + 1, timer := some (s.clock + 50000) } }))))
  ∧ (∀ (s : State) (c : MediaCmd) (rest : List MediaCmd), s.resetHeld = false →
      s.port.queue = c :: rest → s.port.retry = 3 →
      (s.port.phase = .reading → ∀ b k i, (c = .readHeader b ∧ k = .header ∧ i = 0 ∨ c = .readRecord b i ∧ k = .record) →
        exec (.mediaFault s.port.op) s = .next (drainCheck (settle
          (completeRead (nextCommand { s with port := { s.port with retry := 4 } }) k b i .failed false)))
        ∧ (∀ due, s.port.timer = some due →
          exec .attemptTimeout s = .next (drainCheck (settle (completeRead
            (nextCommand { s with clock := max s.clock due, port := { s.port with retry := 4 } })
            k b i .failed false))))
        ∧ (∀ (x : BitChanges) (p : Straps),
          let stored := readMedia s.media b.toNat
          stored.written = true → ((stored.flip x.lasting).flip x.passing).check = none →
          exec (.mediaReady s.port.op x p) s = .next (drainCheck (settle (completeRead
            (nextCommand { s with
              pins := p,
              media := writeMedia s.media b.toNat (stored.flip x.lasting),
              port := { s.port with retry := 4 } }) k b i .failed false)))))
      ∧ (∀ b v d i, c = .writeRecord b v d i →
        let former := readMedia s.media b.toNat
        let down (u : State) : State := enterOut
          (rest.foldl endCommand
            { u with
              port := { s.port with
                queue := [], retry := 0, phase := .idle, timer := none, probeLimit := none, down := true },
              cache := { s.cache with waiting := [] } })
          .mediaDown
        (s.port.phase = .writing → ∃ r : Record,
          (r = former ∨ r = newRecord v d ∨ r = { newRecord v d with damaged := true })
          ∧ exec (.mediaFault s.port.op) s = .next (drainCheck (settle (down
            { s with media := writeMedia s.media b.toNat r, freeCount := s.freeCount + 1 })))
          ∧ ∀ due, s.port.timer = some due →
            exec .attemptTimeout s = .next (drainCheck (settle (down
              { s with
                clock := max s.clock due,
                media := writeMedia s.media b.toNat r, freeCount := s.freeCount + 1 }))))
        ∧ (s.port.phase = .readingBack →
          (∃ r : Record, (r = former ∨ r = { former with damaged := true })
            ∧ exec (.mediaFault s.port.op) s = .next (drainCheck (settle (down
              { s with media := writeMedia s.media b.toNat r, freeCount := s.freeCount + 1 })))
            ∧ ∀ due, s.port.timer = some due →
              exec .attemptTimeout s = .next (drainCheck (settle (down
                { s with
                  clock := max s.clock due,
                  media := writeMedia s.media b.toNat r, freeCount := s.freeCount + 1 }))))
          ∧ ∀ (x : BitChanges) (p : Straps), ((former.flip x.lasting).flip x.passing).check = none →
            exec (.mediaReady s.port.op x p) s = .next (drainCheck (settle (down
              { s with
                pins := p,
                media := writeMedia s.media b.toNat { former.flip x.lasting with damaged := true } }))))))
  ∧ (∀ s : State,
      let room := 8 - (s.port.queue.drop 1).length
      let queue := s.port.queue.drop 1 ++ s.cache.waiting.take room
      let idle : State := { s with
        cache := { s.cache with waiting := s.cache.waiting.drop room },
        port := { s.port with queue := queue, retry := 0, phase := .idle, timer := none } }
      ((queue = [] ∨ s.port.down = true) → nextCommand s = idle)
      ∧ (∀ c rest, queue = c :: rest → s.port.down = false → nextCommand s =
        { idle with port := { idle.port with
            phase := if c.isWrite then .writing else .reading, op := s.port.op + 1,
            timer := some (s.clock + 50000) } }))
  ∧ (∀ (s : State) (k : ReadKind) (b : Block) (i : Nat),
      let listed := listBlock
        { s with counters := { s.counters with uncorrectable :=
            if s.counters.uncorrectable = 65535 then 65535 else s.counters.uncorrectable + 1 } }
        b
      let here (w : Waiter) := decide (w.block = b) && decide (w.on = k)
      let users := (listed.cache.waiters.filter here).map (·.user)
      let left : State := { listed with cache := { listed.cache with
        waiters := listed.cache.waiters.filter fun w => !here w } }
      let free (u : State) : State := { u with cache := { u.cache with slots := u.cache.slots.set i .free } }
      let completes (t : State) : Prop := completeRead s k b i .failed false = t
      ((∀ q ∈ listed.cache.pendings, q.block ≠ b) →
        (k = .record → currentOnce listed = true → listed.cache.slots[i]? = some (.filling b) →
          completes (answerWaiters (free left) b users .unknown))
        ∧ (k = .header → heldVersion listed b = none → completes (answerWaiters left b users .unknown))
        ∧ (∀ v, heldVersion listed b = some v → listed.cache.slots[i]? ≠ some (.filling b) →
          completes (answerWaiters left b users (.known v))))
      ∧ (∀ q, listed.cache.pendings = [q] → q.block = b → q.on = k → heldVersion listed b = none →
        (k = .header → isFilling listed b = false) →
        let decided := reportCommit
          (acceptCommit { left with cache := { left.cache with pendings := [] } } q.slot b q.version q.data)
          b q.source q.version
        let u := if k = .record ∧ decided.cache.slots[i]? = some (.filling b) then free decided else decided
        completes (answerWaiters u b users (heldNow u b .unknown)))
      ∧ (let commits (q : PendingCommit) := decide (q.block = b) && decide (q.on = k)
        ∀ q rest, listed.cache.pendings.filter commits = q :: rest → heldVersion listed b = none →
        (k = .header → isFilling listed b = false) → currentOnce listed = true →
        (q :: rest).Pairwise (fun q r => q.slot ≠ r.slot) →
        (∀ r ∈ q :: rest, ∃ o w, listed.cache.slots[r.slot]? = some (.held b r.data o w)) →
        let out : State × Version := rest.foldl
          (fun a r =>
            if a.2 < r.version then
              (reportCommit (acceptCommit a.1 r.slot b r.version r.data) b r.source r.version, r.version)
            else
              (reportCommit { a.1 with cache := { a.1.cache with slots := a.1.cache.slots.set r.slot .free } }
                b r.source a.2, a.2))
          (reportCommit
            (acceptCommit
              { left with cache := { left.cache with
                pendings := listed.cache.pendings.filter fun q => !commits q } }
              q.slot b q.version q.data)
            b q.source q.version, q.version)
        completes (answerWaiters out.1 b users (.known out.2))))
  ∧ (∀ (s : State) (b : Block), currentCopy s b = none →
      let answered (user : LookupUser) (t : State) : Prop := answerWaiters s b [user] .unknown = t
      answerWaiters s b [] .unknown = s
      ∧ (∀ t e, findEntry s t = some e → e.state = .lookup → e.blk = b →
        (let f (x : Entry) : Entry := { x with slot := none, ownVersion := some .unknown, failure := some .mediaError }
          let u := updateEntry s t f
          answered (.copy t) (if e.kind = .peerFetch then endFetchLookup u (f e) else endReadLookup u (f e)))
        ∧ (let u := updateEntry s t fun x =>
            if x.state = .lookup then { x with state := .waitOrder, ownVersion := some .unknown } else x
          answered (.write t) (if e.followed = none then u else decideFollow u t)))
      ∧ (∀ id p, findPush s id = some p → p.phase = .lookup → answered (.push id) (endPush s p none .done))
      ∧ (∀ id, answered (.fetch id) (fetchAnswered s id .unknown))
      ∧ (∀ v, answered (.stale v) s)
      ∧ (∀ t p v, (pushOfTag s t = none → answered (.replayAck t p v) s)
        ∧ ∀ q, pushOfTag s t = some q → answered (.replayAck t p v) (endPush s q none .done)))

/-! ### The line (R179 to R188) -/

/-- At an idle line the station contends with the oldest frame of the most urgent class it holds, unless a frame is in
transmission, which goes first (R181). -/
def Obligations.IdleLineContends : Prop :=
  ∀ s : State, s.resetHeld = false → s.bus.line = .quiet →
    (∀ (i : Nat) (f : TxFrame), s.bus.queue[i]? = some f →
      (∀ g ∈ s.bus.queue, g.phase = .queued ∧ kindClass f.frame.kind ≤ kindClass g.frame.kind) →
      (∀ (j : Nat) (g : TxFrame), j < i → s.bus.queue[j]? = some g →
        kindClass f.frame.kind ≠ kindClass g.frame.kind) →
      exec .lineIdle s = .next (settle
        { s with bus := { s.bus with
            queue := s.bus.queue.set i { f with phase := .contending }, line := .arbitrating } }))
    ∧ (∀ (i : Nat) (f : TxFrame), s.bus.queue[i]? = some f → f.phase = .inTransmission →
      (∀ (j : Nat) (g : TxFrame), j < i → s.bus.queue[j]? = some g → g.phase = .queued) →
      exec .lineIdle s = .next (settle { s with bus := { s.bus with line := .arbitrating } }))
    ∧ (s.bus.queue = [] → exec .lineIdle s = .next (settle s))

/-- Contention is settled over the first 7 bits of the frame, class and then sender, most significant bit first, and
the lowest value wins: a more urgent class, and within a class the lower sender. The command names the values of the
other stations that contend, which is the model's form of it (log 59); of two equal ones both win. A frame that wins
arbitration is in transmission and a withdrawal held for it lapses; one that loses returns to the queue, or leaves it
by a withdrawal held for it; a frame already in transmission that loses stays so (R180, R181, R187). A frame to be
withdrawn leaves the queue where it is queued, is marked for it where it contends, and goes on where it is in
transmission; of two withdrawals asked of a contending frame the later is held, which is the model's choice (log 54);
nothing but the queue changes where none leaves, or none that is an answer to a READ or a FETCH or a REPLAY_DONE with
its sweep flag (R187). -/
def Obligations.ArbitrationEnds : Prop :=
  (∀ f : Frame, (encodeFrame f).take 7 = bitsOf (arbitrationValue f))
  ∧ (∀ f g : Frame, arbitrationValue f < arbitrationValue g ↔
    kindClass f.kind < kindClass g.kind ∨ (kindClass f.kind = kindClass g.kind ∧ f.sender < g.sender))
  ∧ (∀ (s : State) (sel : TxFrame → Bool) (w : Withdrawal),
    let goes (f : TxFrame) := sel f && decide (f.phase = .queued)
    let left := (s.bus.queue.filter fun f => !goes f).map fun f =>
      if sel f = true ∧ f.phase = .contending then { f with withdrawal := some w } else f
    (withdraw s sel w).bus.queue = left
    ∧ ((∀ f ∈ s.bus.queue, goes f = false) → withdraw s sel w = { s with bus := { s.bus with queue := left } })
    ∧ ((∃ f ∈ s.bus.queue, goes f = true) → w = .plain →
      (∀ f ∈ s.bus.queue, goes f = true →
        f.purpose ≠ .readAnswer ∧ f.purpose ≠ .fetchAnswer ∧ ∀ p, f.purpose ≠ .replayDone p true) →
      withdraw s sel w = { s with bus := { s.bus with
        queue := left, accepting := s.bus.accepting || left.isEmpty } }))
  ∧ ∀ (s : State) (i : Nat) (f : TxFrame) (others : List (BitVec 7)), s.resetHeld = false →
    s.bus.line = .arbitrating → s.bus.queue[i]? = some f → f.phase ≠ .queued →
    (∀ (j : Nat) (g : TxFrame), j < i → s.bus.queue[j]? = some g → g.phase = .queued) →
    let wins := ∀ o ∈ others, arbitrationValue f.frame ≤ o
    let loses := ∃ o ∈ others, o < arbitrationValue f.frame
    (f.phase = .contending →
      (wins → exec (.arbitrationEnd others) s = .next (settle
        { s with bus := { s.bus with
            queue := s.bus.queue.set i { f with phase := .inTransmission, withdrawal := none },
            line := .driving } }))
      ∧ (loses → f.withdrawal = none →
        exec (.arbitrationEnd others) s = .next (settle
          { s with bus := { s.bus with
              queue := s.bus.queue.set i { f with phase := .queued }, line := .quiet } }))
      ∧ (loses → ∀ w, f.withdrawal = some w →
        exec (.arbitrationEnd others) s = .next (settle (afterWithdrawal
          { s with bus := { s.bus with
              queue := s.bus.queue.eraseIdx i, line := .quiet,
              accepting := s.bus.accepting || (s.bus.queue.eraseIdx i).isEmpty } }
          f w))))
    ∧ (f.phase = .inTransmission →
      (wins → exec (.arbitrationEnd others) s = .next (settle { s with bus := { s.bus with line := .driving } }))
      ∧ (loses → exec (.arbitrationEnd others) s = .next (settle { s with bus := { s.bus with line := .quiet } })))

/-- A frame echoed whole leaves the queue and its own hearing is due (R182, R184); a FETCH sent opens its 2 ms window
(R145), a REPLAY sent starts its 3 ms answer wait (R133), a ROSTER_QUERY sent with the check pending sets its repeat
25 ms later (R170), and a frame whose owner waits for nothing, or no longer, starts nothing. The sending of the REJOIN
of the catch-up in progress fixes the awaited set, every live peer that shares a group with the station, and starts
the 500 ms limit, which does not run with nobody awaited (R153, R154). -/
def Obligations.SentFrameLeaves : Prop :=
  (∀ (s : State) (i : Nat) (f : TxFrame), s.resetHeld = false → s.bus.line = .driving →
      s.bus.queue[i]? = some f → f.phase ≠ .queued →
      (∀ (j : Nat) (g : TxFrame), j < i → s.bus.queue[j]? = some g → g.phase = .queued) →
      let t : State := { s with bus := { s.bus with
        queue := s.bus.queue.eraseIdx i, line := .quiet, echo := some f.frame,
        accepting := s.bus.accepting || (s.bus.queue.eraseIdx i).isEmpty } }
      ((f.purpose = .leadOrder ∨ f.purpose = .supersedeOrder ∨ f.purpose = .acknowledgement
          ∨ f.purpose = .readAnswer ∨ f.purpose = .fetchAnswer ∨ f.purpose = .statusReport
          ∨ f.purpose = .present ∨ f.purpose = .roster ∨ f.purpose = .caughtUp ∨ f.purpose = .orphan
          ∨ f.purpose = .overflowNotice ∨ f.purpose = .mediaDownNotice ∨ (∃ p, f.purpose = .peerNotice p)
          ∨ (∃ p sweep, f.purpose = .replayDone p sweep)
          ∨ (f.purpose = .rosterQuery ∧ s.member.checkPending = false)
          ∨ (f.purpose = .ownFetch ∧ fetchOfTag s f.frame.tag = none)
          ∨ (f.purpose = .ownReplay ∧ pushOfTag s f.frame.tag = none)) →
        exec .frameSent s = .next (settle t))
      ∧ (f.purpose = .rosterQuery → s.member.checkPending = true →
        exec .frameSent s = .next (settle
          { t with member := { s.member with queryTimer := some (s.clock + 25000) } }))
      ∧ (f.purpose = .ownFetch → ∀ g, fetchOfTag s f.frame.tag = some g → g.phase = .queued →
        exec .frameSent s = .next (settle
          { t with repair := { t.repair with fetches := t.repair.fetches.map fun h =>
              if h.id = g.id then { h with phase := .window (s.clock + 2000) } else h } }))
      ∧ (f.purpose = .ownReplay → ∀ p, pushOfTag s f.frame.tag = some p → p.phase = .queued →
        exec .frameSent s = .next (settle
          { t with replay := { t.replay with pushes := t.replay.pushes.map fun q =>
              if q.id = p.id then { q with phase := .awaiting (s.clock + 3000) } else q } })))
  ∧ (∀ (s : State) (i : Nat) (f : TxFrame), s.resetHeld = false → s.bus.line = .driving →
      s.bus.queue[i]? = some f → f.phase ≠ .queued →
      (∀ (j : Nat) (g : TxFrame), j < i → s.bus.queue[j]? = some g → g.phase = .queued) →
      f.purpose = .rejoin s.repair.serial → s.member.state = .catchingUp → s.repair.active = true →
      ∃ m : Mark, (∀ p : StationNo, p.isStore = true →
          (inMark m p = true ↔ (∃ e ∈ s.peers, e.peer = p) ∧ isLive s p = true ∧ sharedGroups s p ≠ []))
        ∧ exec .frameSent s = .next (settle
          { s with
            bus := { s.bus with
              queue := s.bus.queue.eraseIdx i, line := .quiet, echo := some f.frame,
              accepting := s.bus.accepting || (s.bus.queue.eraseIdx i).isEmpty },
            repair := { s.repair with
              rejoinSent := true, awaited := m,
              limit := if m = 0 then none else some (s.clock + 500000) } }))

/-- A failed attempt leaves the frame in transmission, or drops it at the fourth: it leaves the queue, the drop is
counted, and what its owner's rule says follows; an answer or a notice about a peer is not offered again; a FORMING
station's PRESENT, the PEER_DOWN naming a station OUT(MEDIA_DOWN), a SERVING station's CAUGHT_UP, the REJOIN of the
catch-up in progress and a REPLAY_DONE are offered again 5 ms later, the last with its sweep flag, which sets the
overflow flag again, and a ROSTER_QUERY with the check pending 25 ms later; a fetch whose FETCH is dropped ends
without an attempt, set aside for 5 ms, and a push whose REPLAY is dropped with its retry time 5 ms ahead (R132, R137,
R144, R153, R161, R170, R171, R177, R182). What the model reads or chooses: the attempt cut short counts as no
discarded frame at the sender (log 12); a dropped ROSTER_QUERY is repeated 25 ms later (log 26); the overflow flag is
set whatever the list holds (log 27); the REJOIN of a forgotten catch-up (log 30), a frame whose owner a restart has
emptied (log 32) and the notice of a repair list overflow (log 35) are not offered again. -/
def Obligations.FailedAttempt : Prop :=
  ∀ (s : State) (i : Nat) (f : TxFrame), s.resetHeld = false → s.bus.line = .driving →
    s.bus.queue[i]? = some f → f.phase ≠ .queued →
    (∀ (j : Nat) (g : TxFrame), j < i → s.bus.queue[j]? = some g → g.phase = .queued) →
    (f.attempts + 1 < 4 →
      exec .attemptFailed s = .next (settle
        { s with bus := { s.bus with
            queue := s.bus.queue.set i { f with attempts := f.attempts + 1 }, line := .quiet } }))
    ∧ (4 ≤ f.attempts + 1 →
      let t : State := { s with
        bus := { s.bus with
          queue := s.bus.queue.eraseIdx i, line := .quiet,
          accepting := s.bus.accepting || (s.bus.queue.eraseIdx i).isEmpty },
        counters := { s.counters with droppedOnTransmit :=
          if s.counters.droppedOnTransmit = 65535 then 65535 else s.counters.droppedOnTransmit + 1 } }
      ((f.purpose = .leadOrder ∨ f.purpose = .supersedeOrder ∨ f.purpose = .acknowledgement
          ∨ f.purpose = .readAnswer ∨ f.purpose = .fetchAnswer ∨ f.purpose = .statusReport
          ∨ f.purpose = .roster ∨ f.purpose = .orphan ∨ f.purpose = .overflowNotice
          ∨ (∃ p, f.purpose = .peerNotice p)
          ∨ (f.purpose = .present ∧ s.member.state ≠ .forming)
          ∨ (f.purpose = .caughtUp ∧ s.member.state ≠ .serving)
          ∨ (f.purpose = .rosterQuery ∧ s.member.checkPending = false)
          ∨ (∃ n, f.purpose = .rejoin n ∧ (s.member.state ≠ .catchingUp ∨ s.repair.active = false
            ∨ s.repair.serial ≠ n))
          ∨ (f.purpose = .ownFetch ∧ fetchOfTag s f.frame.tag = none)
          ∨ (f.purpose = .ownReplay ∧ pushOfTag s f.frame.tag = none)) →
        exec .attemptFailed s = .next (settle t))
      ∧ (f.purpose = .present → s.member.state = .forming →
        exec .attemptFailed s = .next (settle
          { t with member := { t.member with
              presentReoffers := s.member.presentReoffers ++ [s.clock + 5000] } }))
      ∧ (f.purpose = .rosterQuery → s.member.checkPending = true →
        exec .attemptFailed s = .next (settle
          { t with member := { t.member with queryTimer := some (s.clock + 25000) } }))
      ∧ (f.purpose = .rejoin s.repair.serial → s.member.state = .catchingUp → s.repair.active = true →
        exec .attemptFailed s = .next (settle
          { t with repair := { t.repair with rejoinRequeue := some (s.clock + 5000) } }))
      ∧ (∀ p sweep, f.purpose = .replayDone p sweep → inService s = true →
        exec .attemptFailed s = .next (settle
          { t with replay := { t.replay with
              overflow := if sweep then s.replay.overflow ||| markOf p else s.replay.overflow,
              reoffers := s.replay.reoffers ++ [{ peer := p, sweep := sweep, due := s.clock + 5000 }] } }))
      ∧ (f.purpose = .ownFetch → ∀ g, fetchOfTag s f.frame.tag = some g → g.phase = .queued →
        exec .attemptFailed s = .next (settle (
          if g.sweep then
            let u := endFetch t g .done
            { u with repair := { u.repair with
              retakes := u.repair.retakes ++ [{ block := g.block, due := some (s.clock + 5000) }] } }
          else if ownsEntry t g then
            setRepairState (endFetch t g .done) g.block (.parked (s.clock + 5000))
          else endFetch t g .done)))
      ∧ (f.purpose = .ownReplay → ∀ q, pushOfTag s f.frame.tag = some q →
        exec .attemptFailed s = .next (settle (endPush t q (some (s.clock + 5000)) .done)))
      ∧ (f.purpose = .mediaDownNotice →
        exec .attemptFailed s = .next (settle
          { t with member := { t.member with ownDownReoffer := some (s.clock + 5000) } }))
      ∧ (f.purpose = .caughtUp → s.member.state = .serving →
        exec .attemptFailed s = .next (settle
          { t with repair := { t.repair with caughtUpRequeue := some (s.clock + 5000) } })))

/-- A frame that fails the receive check is discarded and counted, in every station state; a counter at 65,535 stays
there (R183, R195). That the own hearing due, if one is, is no longer expected is the model's (log 10). -/
def Obligations.DamagedFrameIsCounted : Prop :=
  ∀ s : State, s.resetHeld = false →
    exec .receiveCheckFail s = .next (settle
      { s with
        bus := { s.bus with echo := none },
        counters := { s.counters with discarded :=
          if s.counters.discarded = 65535 then 65535 else s.counters.discarded + 1 } })

/-! ### Heard frames: what stands before the effects of the kind -/

/-- In STARTING a heard frame goes no further (R167, R184). A frame that bears the station's number and is not its own
echo takes the station OUT(DUPLICATE_NUMBER), whatever its kind and target (R178). A foreign frame of a filtered kind
addressed to another station reaches no block (R185). -/
def Obligations.FrameStopsAtTheChecks : Prop :=
  ∀ (s : State) (f : Frame) (pins : Straps), examined f = f → s.resetHeld = false →
    (s.member.state = .starting → exec (hearingOf pins f) s = .next (settle (afterEcho s)))
    ∧ (s.member.state ≠ .starting → s.bus.echo ≠ some f → f.sender = ownNumber s →
        exec (hearingOf pins f) s = .next (settle (enterOut (afterEcho s) .duplicateNumber)))
    ∧ (s.member.state ≠ .starting → f.sender ≠ ownNumber s → isFiltered f.kind = true →
        f.target ≠ ownNumber s → exec (hearingOf pins f) s = .next (settle (afterEcho s)))

/-- A foreign frame of a store station with a nonzero roster mark, heard in LISTENING or FORMING, leads to adoption:
the window and the quiet timer stop, and where a carried configuration differs, the mark lacks the station or it holds
too few members the station is SPECTATOR under that mark; otherwise it fixes the roster and begins a catch-up, with a
pending check and a ROSTER_QUERY where the kind carries no configuration (R168, R169, R170, R172). That PRESENT leaves
the queue before anything is offered, and ROSTER_QUERY is offered before REJOIN, is the model's choice (log 66), and
so is that a mismatched PRESENT that leads to adoption in FORMING does not advance the count of R172 (log 71).
STATION_RESET and STATUS_QUERY, whose marks are not examined (R175, R191), lead to none, which is the model's reading
(log 24). -/
def Obligations.AdoptionBegins : Prop :=
  ∀ (s : State) (f : Frame) (pins : Straps), examined f = f → s.resetHeld = false →
    (s.member.state = .listening ∨ s.member.state = .forming) →
    s.bus.echo ≠ some f → f.sender ≠ ownNumber s → f.sender.isStore = true → f.mark ≠ 0 →
    f.kind ≠ .stationReset → f.kind ≠ .statusQuery →
    (isFiltered f.kind = true → f.target = ownNumber s) →
    let h := withdraw (afterEcho s) (forPurpose .present) .plain
    let quiet : State := { h with member := { h.member with
      listeningWindow := none, quietTimer := none, presentReoffers := [] } }
    let carries := f.kind = .present ∨ f.kind = .roster
    ((carries ∧ auxConfiguration f.aux ≠ ownConfiguration s ∨ inMark f.mark (ownNumber s) = false
        ∨ (markMembers f.mark).length < copies s) →
      exec (hearingOf pins f) s = .next (settle
        { quiet with member := { quiet.member with state := .spectator, mark := f.mark } }))
    ∧ (¬(carries ∧ auxConfiguration f.aux ≠ ownConfiguration s ∨ inMark f.mark (ownNumber s) = false
        ∨ (markMembers f.mark).length < copies s) →
      let fixed : State := { quiet with
        member := { quiet.member with
          mark := f.mark, placement := buildPlacement f.mark (copies s), member := true },
        peers := makePeers s f.mark }
      (carries → exec (hearingOf pins f) s = .next (settle (beginCatchUp fixed)))
      ∧ (¬carries → exec (hearingOf pins f) s = .next (settle (beginCatchUp (queueRosterQuery
          { fixed with member := { fixed.member with checkPending := true } })))))

/-! ### Class 0 -/

/-- A PRESENT of a store station. In FORMING a matching one adds its sender, restarts the quiet timer where the set
grew, and draws a PRESENT where its set lacks this station and none waits; a mismatched one is counted and nothing
else; one that leads to adoption is not counted, which is the model's choice (log 71), and stands in AdoptionBegins.
In LISTENING the station enters FORMING first. A member begins a roster answer wait, on its own PRESENT too, which is
the model's choice (log 25). In any other state, and from a client, it has no effect (R168, R172, R174, R196). -/
def Obligations.PresentHeard : Prop :=
  ∀ (s : State) (src : Source) (candidates : Mark) (conf : Configuration),
    takesFrame s (presentFrame src candidates conf) = true →
    let h := afterEcho s
    (src.sender.isStore = false →
      exec (.presentHeard src candidates conf) s = .next (settle h))
    ∧ (src.sender.isStore = true → s.member.state = .forming →
      (conf ≠ ownConfiguration s →
        exec (.presentHeard src candidates conf) s = .next (settle
          { h with counters := { h.counters with mismatchedPresent :=
              if s.counters.mismatchedPresent = 65535 then 65535
              else s.counters.mismatchedPresent + 1 } }))
      ∧ (conf = ownConfiguration s →
        let grown := s.member.candidates ||| markOf src.sender
        let t : State := { h with member := { h.member with
          candidates := grown,
          quietTimer := if grown = s.member.candidates then s.member.quietTimer
            else some (s.clock + 15000) } }
        exec (.presentHeard src candidates conf) s = .next (settle (
          if inMark candidates (ownNumber s) = false ∧ presentQueued s = false then queuePresent t
          else t))))
    ∧ (src.sender.isStore = true → s.member.state = .listening →
      exec (.presentHeard src candidates conf) s
        = .next (settle (presentForming (enterForming h) src candidates conf)))
    ∧ (src.sender.isStore = true → inService s = true →
      exec (.presentHeard src candidates conf) s = .next (settle (beginRosterWait h)))
    ∧ ((s.member.state = .spectator ∨ s.member.state = .resetting ∨ isOut s = true) →
      exec (.presentHeard src candidates conf) s = .next (settle h))

/-- A ROSTER with the station's mark ends its own roster answer, wait or queued frame. From another station it ends a
pending configuration check: confirmed where the configuration matches and the mark holds members enough, and
otherwise the station is SPECTATOR, no longer a member. A ROSTER of another mark has no effect (R170, R174). -/
def Obligations.RosterHeard : Prop :=
  ∀ (s : State) (src : Source) (conf : Configuration), takesFrame s (rosterFrame src conf) = true →
    let h := afterEcho s
    (src.mark ≠ s.member.mark → exec (.rosterHeard src conf) s = .next (settle h))
    ∧ (src.mark = s.member.mark →
      let t := withdraw { h with member := { h.member with rosterWait := none } }
        (forPurpose .roster) .plain
      ((s.member.checkPending = false ∨ src.sender = ownNumber s ∨ inService s = false) →
        exec (.rosterHeard src conf) s = .next (settle t))
      ∧ (s.member.checkPending = true → src.sender ≠ ownNumber s → inService s = true →
        (conf = ownConfiguration s → copies s ≤ (markMembers s.member.mark).length →
          exec (.rosterHeard src conf) s = .next (settle
            { t with member := { t.member with checkPending := false, queryTimer := none } }))
        ∧ (conf ≠ ownConfiguration s ∨ (markMembers s.member.mark).length < copies s →
          ∃ u : State, exec (.rosterHeard src conf) s = .next (settle u)
            ∧ u.member.state = .spectator ∧ u.member.member = false ∧ u.member.checkPending = false
            ∧ u.replay.pushes = [] ∧ u.repair.fetches = [] ∧ u.repair.active = false)))

/-- A slot wait is 60 µs for each station before this one in the answering list that its Peer Table marks PRESENT,
wherever the list comes from (R15). A ROSTER_QUERY from another station, whatever its mark, begins a roster answer
wait of 60 µs for each PRESENT member before this one, unless the station is no member in service, a check is pending,
a wait runs or a ROSTER of the station waits; a wait of no slots ends at once with ROSTER offered (R15, R174). The end
of a running wait offers ROSTER with the station's mark and configuration (R174). The clock at an expiry is the
model's (log 1). -/
def Obligations.RosterAnswerWaits : Prop :=
  (∀ (s : State) (before after : List StationNo), ownNumber s ∉ before →
    slotWait s (before ++ ownNumber s :: after)
      = 60 * (before.filter fun n => decide (peerState s n = some .present)).length)
  ∧ (∀ (s : State) (src : Source), takesFrame s (rosterQueryFrame src) = true →
      let h := afterEcho s
      let w := slotWait s (markMembers s.member.mark)
      let free := inService s = true ∧ s.member.checkPending = false ∧ s.member.rosterWait = none ∧ rosterQueued s = false
      (src.sender ≠ ownNumber s → free → 0 < w →
        exec (.rosterQueryHeard src) s = .next (settle
          { h with member := { h.member with rosterWait := some (s.clock + w) } }))
      ∧ (src.sender ≠ ownNumber s → free → w = 0 →
        exec (.rosterQueryHeard src) s = .next (settle
          (offer h (rosterFrame (self s) (ownConfiguration s)) .roster)))
      ∧ ((src.sender = ownNumber s ∨ ¬free) → exec (.rosterQueryHeard src) s = .next (settle h)))
  ∧ (∀ (s : State) (due : Nat), s.resetHeld = false → s.member.rosterWait = some due →
      exec .rosterAnswerWaitExpiry s = .next (settle (offer
        { s with clock := max s.clock due, member := { s.member with rosterWait := none } }
        (rosterFrame { sender := ownNumber s, mark := s.member.mark }
          { copiesCode := s.member.straps.copiesCode, volumeCode := s.member.straps.volumeCode })
        .roster)))

/-- PEER_DOWN with the station's mark from a member. Naming another member: its entry is ABSENT, its count cleared,
and this station's own queued notice about it is withdrawn; an entry already ABSENT stays as it is. Naming the
station, from another member: a catch-up begins. Naming no member, or the station's own frame naming itself: no effect
(R110, R114, R115, R116). That the station's own frame naming a live member marks it ABSENT and withdraws no notice is
the model's (log 36). -/
def Obligations.PeerDownHeard : Prop :=
  ∀ (s : State) (src : Source) (named : StationNo), takesFrame s (peerDownFrame src named) = true →
    let h := afterEcho s
    (¬(inService s = true ∧ src.mark = s.member.mark ∧ isMember s src.sender = true) →
      exec (.peerDownHeard src named) s = .next (settle h))
    ∧ (inService s = true → src.mark = s.member.mark → isMember s src.sender = true →
      (named = ownNumber s → src.sender ≠ ownNumber s →
        exec (.peerDownHeard src named) s = .next (settle (beginCatchUp h)))
      ∧ (named = ownNumber s → src.sender = ownNumber s →
        exec (.peerDownHeard src named) s = .next (settle h))
      ∧ (named ≠ ownNumber s → isMember s named = false →
        exec (.peerDownHeard src named) s = .next (settle h))
      ∧ (named ≠ ownNumber s → isMember s named = true → src.sender ≠ ownNumber s →
        let u := withdraw h (forPurpose (.peerNotice named)) .plain
        (isLive s named = true → exec (.peerDownHeard src named) s = .next (settle (handOnAbsent
          { u with peers := u.peers.map fun e =>
              if e.peer = named then { e with state := .absent, misses := 0 } else e }
          named)))
        ∧ (isAbsent s named = true → exec (.peerDownHeard src named) s = .next (settle u)))
      ∧ (named ≠ ownNumber s → isMember s named = true → src.sender = ownNumber s →
        (isLive s named = true → exec (.peerDownHeard src named) s = .next (settle (handOnAbsent
          { h with peers := h.peers.map fun e =>
              if e.peer = named then { e with state := .absent, misses := 0 } else e }
          named)))
        ∧ (isAbsent s named = true → exec (.peerDownHeard src named) s = .next (settle h))))

/-- A REJOIN with the station's mark from another member, heard in SERVING or CATCHING_UP, marks the member
CATCHING_UP with its miss count cleared and removes the retry times of its list; an empty list draws REPLAY_DONE with
the overflow flag of this moment, which is then cleared, or is offered again 5 ms later where it is refused (R118,
R134, R137). A CAUGHT_UP makes a CATCHING_UP entry PRESENT, its miss count left, leaves a PRESENT one, and from an
ABSENT one draws PEER_DOWN naming it, unless this station's last notice about it lies less than 3 ms back (R117,
R119). Under any other condition neither has an effect (R110). -/
def Obligations.RejoinAndCaughtUpHeard : Prop :=
  (∀ (s : State) (src : Source), takesFrame s (rejoinFrame src) = true → inService s = true →
      src.mark = s.member.mark → isMember s src.sender = true → src.sender ≠ ownNumber s →
      let h := afterEcho s
      let t : State := { h with
        peers := h.peers.map fun e =>
          if e.peer = src.sender then { e with state := .catchingUp, misses := 0 } else e
        replay := { h.replay with pool := h.replay.pool.map fun m =>
          if m.peer = src.sender then { m with retry := none } else m } }
      ((∃ m ∈ s.replay.pool, m.peer = src.sender) → exec (.rejoinHeard src) s = .next (settle t))
      ∧ ((∀ m ∈ s.replay.pool, m.peer ≠ src.sender) → accepts s .replayDone = true →
        exec (.rejoinHeard src) s = .next (settle
          { t with
            bus := { t.bus with queue := t.bus.queue ++
              [queuedFrame (replayDoneFrame (self s) src.sender (inMark s.replay.overflow src.sender))
                (.replayDone src.sender (inMark s.replay.overflow src.sender))] },
            replay := { t.replay with overflow := s.replay.overflow &&& ~~~ markOf src.sender } }))
      ∧ ((∀ m ∈ s.replay.pool, m.peer ≠ src.sender) → accepts s .replayDone = false →
        exec (.rejoinHeard src) s = .next (settle
          { t with replay := { t.replay with
              reoffers := s.replay.reoffers ++ [{
                peer := src.sender, sweep := inMark s.replay.overflow src.sender,
                due := s.clock + 5000 }],
              overflow :=
                if inMark s.replay.overflow src.sender then s.replay.overflow ||| markOf src.sender
                else s.replay.overflow } })))
  ∧ (∀ (s : State) (src : Source) (e : PeerEntry), takesFrame s (caughtUpFrame src) = true →
      inService s = true → src.mark = s.member.mark → isMember s src.sender = true →
      src.sender ≠ ownNumber s → peerEntry s src.sender = some e →
      let h := afterEcho s
      (e.state = .catchingUp → exec (.caughtUpHeard src) s = .next (settle
        { h with peers := h.peers.map fun x =>
            if x.peer = src.sender then { x with state := .present } else x }))
      ∧ (e.state = .present → exec (.caughtUpHeard src) s = .next (settle h))
      ∧ (e.state = .absent → (∀ t, e.lastNotice = some t → t + 3000 ≤ s.clock) →
        exec (.caughtUpHeard src) s = .next (settle (offer
          { h with peers := h.peers.map fun x =>
              if x.peer = src.sender then { x with lastNotice := some s.clock } else x }
          (peerDownFrame (self s) src.sender) (.peerNotice src.sender))))
      ∧ (e.state = .absent → (∃ t, e.lastNotice = some t ∧ s.clock < t + 3000) →
        exec (.caughtUpHeard src) s = .next (settle h)))
  ∧ (∀ (s : State) (src : Source),
      ¬(inService s = true ∧ src.mark = s.member.mark ∧ isMember s src.sender = true
        ∧ src.sender ≠ ownNumber s) →
      (takesFrame s (rejoinFrame src) = true →
        exec (.rejoinHeard src) s = .next (settle (afterEcho s)))
      ∧ (takesFrame s (caughtUpFrame src) = true →
        exec (.caughtUpHeard src) s = .next (settle (afterEcho s))))

/-- A REPLAY_DONE for the station with its mark, heard in CATCHING_UP from another member, takes its sender out of the
awaited set, the limit stopping with the last; with the sweep flag the groups shared with the sender are added to the
sweep, whether or not the sender was awaited. Heard otherwise it has no effect (R154, R155). Groups added to the
sweep: those the station holds and no other, none twice, the current group restarted at its first block, and nothing
else changed (R160). -/
def Obligations.ReplayDoneLeavesAwaited : Prop :=
  (∀ (s : State) (gs : List Nat),
    let t := addGroups s gs
    t = { s with repair := { s.repair with sweepSet := t.repair.sweepSet, cursor := t.repair.cursor } }
    ∧ (∀ g, g ∈ t.repair.sweepSet ↔ g ∈ s.repair.sweepSet ∨ (g ∈ gs ∧ ownNumber s ∈ replicas s g))
    ∧ (s.repair.sweepSet.Pairwise (fun a b => a < b) → t.repair.sweepSet.Pairwise fun a b => a < b)
    ∧ (∀ g, s.repair.group = some g →
      t.repair.cursor = if g ∈ gs ∧ ownNumber s ∈ replicas s g then g else s.repair.cursor)
    ∧ (s.repair.group = none → t.repair.cursor = s.repair.cursor))
  ∧ ∀ (s : State) (src : Source) (target : StationNo) (sweep : Bool),
    takesFrame s (replayDoneFrame src target sweep) = true →
    let h := afterEcho s
    (s.member.state = .catchingUp → src.mark = s.member.mark → isMember s src.sender = true →
      src.sender ≠ ownNumber s →
      let left := s.repair.awaited &&& ~~~ markOf src.sender
      let t : State :=
        if inMark s.repair.awaited src.sender then
          { h with repair := { h.repair with
              awaited := left, limit := if left = 0 then none else s.repair.limit } }
        else h
      exec (.replayDoneHeard src target sweep) s = .next (settle (
        if sweep then addGroups t (sharedGroups s src.sender) else t)))
    ∧ ((s.member.state ≠ .catchingUp ∨ src.mark ≠ s.member.mark ∨ isMember s src.sender = false
        ∨ src.sender = ownNumber s) →
      exec (.replayDoneHeard src target sweep) s = .next (settle h))

/-- A STATION_RESET for the station, from any sender and with any mark: in RESETTING ignored; in OUT(MEDIA_DOWN), and
in OUT(DUPLICATE_NUMBER) with the port down, an immediate restart with the sweep-needed flag set; in every other state
past STARTING the station is RESETTING and restarts, its flag as it was, at once if no slot is DIRTY, WRITING or
RETIRING (R163, R175, R176). In RESETTING the writes in LOOKUP and WAIT_ORDER are REFUSED with RESETTING, a NACK
queued for each where there is room, the answers to READs and FETCHes leaving the queue only after, which is the
model's choice (log 66), those in COMMITTING go on, reads and fetches heard are finished, no HELD slot, pending
commit, push, fetch or catch-up is left, and no block is listed (R39, R56, R70, R138, R148, R162, R176). A restart
gives every block its reset values, but keeps the frames queued, which have no owner any more (log 32), and takes no
frame until the last is gone (R163, R165, R166, R188). The frame brings the levels of the strap pins that a restart
reads, which is the model's form of them (log 4). -/
def Obligations.StationResetHeard : Prop :=
  (∀ (s : State) (sweepNeeded : Bool),
    let invalid := s.pins.copiesCode = 0 ∨ s.pins.volumeCode = 7
    stationRestart s sweepNeeded = { State.reset with
      pins := s.pins, resetHeld := s.resetHeld, clock := s.clock, freeCount := s.freeCount, nextId := s.nextId,
      media := s.media, pending := s.pending,
      bus := { s.bus with
        queue := s.bus.queue.map fun f => { f with purpose := .orphan, withdrawal := none },
        accepting := s.bus.queue.isEmpty },
      member := { State.reset.member with
        straps := s.pins, sweepNeeded := sweepNeeded, state := if invalid then .out .badStrap else .starting },
      port :=
        if invalid then { State.reset.port with op := s.port.op }
        else { State.reset.port with
          op := s.port.op + 1, phase := .probing,
          timer := some (s.clock + 50000), probeLimit := some (s.clock + 2000000) } })
  ∧ (∀ (s : State) (k : Kind), s.bus.accepting = false → accepts s k = false)
  ∧ (∀ s : State, tagsUnique s = true →
    let t := leaveService s .resetting
    let refused (e : Entry) := e.kind = .clientWrite ∧ (e.state = .lookup ∨ e.state = .waitOrder)
    t.member.state = .resetting
    ∧ (∀ e ∈ s.table, refused e → ∃ x ∈ t.table, x.tag = e.tag ∧ x.state = .refused ∧ x.reason = some .resetting)
    ∧ (s.bus.accepting = true →
      s.bus.queue.length + (s.table.countP fun e =>
        decide (e.kind = .clientWrite) && (decide (e.state = .lookup) || decide (e.state = .waitOrder))) ≤ 14 →
      ∀ e ∈ s.table, refused e → ∃ v, queuedFrame (nackFrame (self s) e.tag e.blk v 7) .acknowledgement ∈ t.bus.queue)
    ∧ (∀ e ∈ s.table, e.kind = .clientWrite → e.state = .committing →
      ∃ x ∈ t.table, x.tag = e.tag ∧ x.state = .committing ∧ x.ackWindow = e.ackWindow)
    ∧ (∀ e ∈ t.table, e.kind = .clientRead ∨ e.kind = .peerFetch ∨ e.kind = .ownFetch ∨ e.kind = .ownReplay →
      e.state.finished = true)
    ∧ (∀ x ∈ t.cache.slots, ∀ b d o v, x ≠ .held b d o v)
    ∧ t.cache.pendings = [] ∧ t.replay.pushes = [] ∧ t.repair.fetches = [] ∧ t.repair.active = false
    ∧ t.repair.list.map (·.block) = s.repair.list.map (·.block)
    ∧ t.media = s.media ∧ t.port = s.port ∧ t.peers = s.peers)
  ∧ ∀ (s : State) (order : ResetOrder) (straps : Straps),
    takesFrame s (stationResetFrame order.src order.target) = true →
    let h := { afterEcho s with pins := straps }
    (s.member.state = .resetting → exec (.stationResetHeard order straps) s = .next (settle h))
    ∧ ((s.member.state = .out .mediaDown
        ∨ (s.member.state = .out .duplicateNumber ∧ s.port.down = true)) →
      exec (.stationResetHeard order straps) s = .next (settle (stationRestart h true)))
    ∧ ((s.member.state = .listening ∨ s.member.state = .forming ∨ s.member.state = .serving
        ∨ s.member.state = .catchingUp ∨ s.member.state = .spectator
        ∨ ((s.member.state = .out .duplicateNumber ∨ s.member.state = .out .badStrap)
          ∧ s.port.down = false)) →
      let r := settle (leaveService h .resetting)
      exec (.stationResetHeard order straps) s = .next (settle (
        if r.member.state = .resetting
            ∧ (r.cache.slots.countP Slot.isUnwritten) = 0 then stationRestart r r.member.sweepNeeded
        else r)))

/-! ### Classes 1 to 3: requests and answers -/

/-- An ORDER the station acts on, at the CLIENT_WRITE entry of its tag: followed where it is the first or above the
one followed, so that the followed version and a full 3 ms ack window are set and absent co-replicas listed; ignored
where it is not above; refused with NO_DATA where no entry has the tag, and once where the entry is EXPIRED. Any ORDER
for the tag cancels the lead wait and withdraws a queued lead ORDER, and a queued superseding ORDER not above it; one
with another mark, of a group the station does not hold, or heard out of service does no more, and one out of range
nothing, which is the model's choice (log 68); an entry of another kind is left out here (R26, R27, R31, R33, R36,
R37). That with no entry of the tag nothing is withdrawn is the model's choice (log 64), and so is the order: the Peer
Table acts on the sign of life first (R117; log 13), and what the ORDER cancels leaves the queue before what it leads
to is offered (log 66). That the entry's own block is acted on where the ORDER names another is the model's too (log
17), and that a NACK of an EXPIRED entry names 0 with no current slot (log 42) and is recorded, so that no other
follows, also where the queue refuses it (log 61). -/
def Obligations.OrderHeard : Prop :=
  ∀ (s : State) (src : Source) (tag : Tag) (b : Block) (v : Version),
    takesFrame s (orderFrame src tag b v) = true →
    let h := signOfLife (afterEcho s) src
    let acts (u : State) := src.mark = s.member.mark ∧ isReplica u b = true ∧ inService u = true
    (inRange s b = false → exec (.orderHeard src tag b v) s = .next (settle h))
    ∧ (inRange s b = true → findEntry h tag = none →
      (¬acts h → exec (.orderHeard src tag b v) s = .next (settle h))
      ∧ (acts h → exec (.orderHeard src tag b v) s = .next (settle (nackNew h tag b .noData))))
    ∧ (inRange s b = true → ∀ e, findEntry h tag = some e → e.kind = .clientWrite →
      let cancelled := withdraw
        (withdraw (updateEntry h tag fun x => { x with wait := none }) (forTag .leadOrder tag) .plain)
        (fun f => forTag .supersedeOrder tag f && decide (f.frame.version ≤ v)) .plain
      (¬acts cancelled → exec (.orderHeard src tag b v) s = .next (settle cancelled))
      ∧ (acts cancelled →
        (e.state = .refused → exec (.orderHeard src tag b v) s = .next (settle cancelled))
        ∧ (e.state = .expired → exec (.orderHeard src tag b v) s = .next (settle (
            if e.sentNack then cancelled
            else listBlock (recordSent (offer cancelled
              (nackFrame (self s) tag e.blk ((heldVersion cancelled e.blk).getD 0) 6) .acknowledgement)
              tag .nack ((heldVersion cancelled e.blk).getD 0)) e.blk)))
        ∧ ((e.state = .lookup ∨ e.state = .waitOrder ∨ e.state = .committing ∨ e.state = .acked) →
          ((∃ f, e.followed = some f ∧ v ≤ f) →
            exec (.orderHeard src tag b v) s = .next (settle cancelled))
          ∧ ((e.followed = none ∨ ∃ f, e.followed = some f ∧ f < v) →
            let t := recordAbsent
              (updateEntry { cancelled with followCount := cancelled.followCount + 1 } tag fun x =>
                { x with
                  followed := some v, followSeq := cancelled.followCount,
                  ackWindow := some (cancelled.clock + 3000), wait := none })
              e.blk
            exec (.orderHeard src tag b v) s
              = .next (settle (if e.state = .lookup then t else decideFollow t tag))))))

/-- What following an ORDER leads to. A write entry whose held version is below it commits its held data: the block's
current slot holds that data at the followed version, DIRTY under write-back and WRITING otherwise, the WRITE_RECORD
of that block, version and data then issued at once, into the media queue while it has room and none waits, and
otherwise behind those that wait (R83, R85); a former current slot is RETIRING where it was WRITING and FREE
otherwise; the block is not listed for repair; the committed version is recorded; under write-back the entry is ACKED
with the ACK recorded, otherwise it waits in COMMITTING (R28, R29, R34, R35, R79). One whose held version is not below
it supersedes it with an ORDER one above that version, or is refused at the maximum, and declines where the block is
listed (R31, R32). One that has committed commits the same data again while the current slot holds its committed
version: in place from DIRTY or CLEAN, a DIRTY slot staying DIRTY with no record issued, which under write-through is
the model's choice (log 45); from WRITING in a newly allocated slot, the former one RETIRING, its record issued like
that of a first commit, or NACK with CACHE_FULL; otherwise it is refused with NO_DATA, which is the model's reading
also where that slot is above the ORDER (log 18) (R30, R33). A NACK makes the entry REFUSED with its reason, frees its
HELD slot and lists the block, but for OUT_OF_RANGE and RESETTING (R21); the version it names is log 42, and that it,
or an ACK, is recorded also where the queue refuses it is log 61. -/
def Obligations.CommitOnFollowedOrder : Prop :=
  (∀ (s : State) (e : Entry) (reason : Reason),
    let n := match heldVersion s e.blk, e.ownVersion with
      | some v, _ => v
      | none, some (.known v) => v
      | none, _ => 0
    let u := offer s (nackFrame (self s) e.tag e.blk n (reasonCode reason)) .acknowledgement
    let refused : State := { u with
      table := s.table.map fun x => if x.tag = e.tag then { x with
        state := .refused, finished := if x.state = .refused then x.finished else some s.clock,
        wait := none, slot := none, reason := some reason, sent := some { kind := .nack, version := n } } else x,
      cache := { s.cache with
        waiters := s.cache.waiters.filter fun w => !w.user.isFor e.tag,
        slots := s.cache.slots.map fun x => match x with
          | .held b d o v => if o = .clientWrite e.tag then .free else .held b d o v
          | x => x } }
    nackWrite s e reason =
      if reason = .outOfRange ∨ reason = .resetting then refused else listBlock refused e.blk)
  ∧ (∀ (s : State) (tag : Tag) (e : Entry) (v : Version), findEntry s tag = some e →
    (e.state = .waitOrder ∨ e.state = .committing ∨ e.state = .acked) → e.followed = some v →
    isFilling s e.blk = false → (∀ p ∈ s.cache.pendings, p.block ≠ e.blk) →
    (∀ w, e.committed = none → heldForWrite s e = .known w → v ≤ w →
      (isListed s e.blk = true → decideFollow s tag = s)
      ∧ (isListed s e.blk = false → w = 4294967295 → decideFollow s tag = nackWrite s e .versionLimit)
      ∧ (isListed s e.blk = false → w ≠ 4294967295 → decideFollow s tag =
        { offer s (orderFrame (self s) tag e.blk (w + 1)) .supersedeOrder with
          table := s.table.map fun x => if x.tag = tag then { x with superseded := some (w + 1) } else x }))
    ∧ (∀ c, e.committed = some c → (∀ w, heldVersion s e.blk = some w → w ≠ c) →
      decideFollow s tag = nackWrite s e .noData)
    ∧ (∀ c i d, e.committed = some c → currentCopy s e.blk = some (i, c, d) →
      (v ≤ c → decideFollow s tag = s)
      ∧ (c < v → s.cache.slots[i]? = some (.writing e.blk c d) → allocate s = none →
        decideFollow s tag = nackWrite s e .cacheFull)
      ∧ (c < v → s.cache.slots.length = 48 → currentOnce s = true → tagsUnique s = true → e.kind = .clientWrite →
        let t := decideFollow s tag
        let writeBack := s.member.straps.writeBack = true
        let issued (c : List MediaCmd) : Prop :=
          if s.cache.waiting = [] ∧ s.port.queue.length < 8 then
            t.port.queue = s.port.queue ++ c ∧ t.cache.waiting = []
          else t.port.queue = s.port.queue ∧ t.cache.waiting = s.cache.waiting ++ c
        let again (j : Nat) : Prop := currentCopy t e.blk = some (j, v, d) ∧ isListed t e.blk = false
          ∧ ∃ x, findEntry t tag = some x ∧ x.committed = some v ∧ x.slot = none
            ∧ (writeBack → x.state = .acked ∧ x.sent = some { kind := .ack, version := v })
            ∧ (¬writeBack → x.state = .committing
              ∨ (x.state = .expired ∧ e.state = .acked ∧ e.created + 100000 ≤ s.clock))
        (∀ n, s.cache.slots[i]? = some (.dirty e.blk c d n) →
          again i ∧ t.cache.slots[i]? = some (.dirty e.blk v d (s.cache.commitOrder + 1)) ∧ issued [])
        ∧ (∀ n, s.cache.slots[i]? = some (.clean e.blk c d n) → again i
          ∧ (writeBack → t.cache.slots[i]? = some (.dirty e.blk v d (s.cache.commitOrder + 1)) ∧ issued [])
          ∧ (¬writeBack → t.cache.slots[i]? = some (.writing e.blk v d)
            ∧ (s.port.down = false → issued [.writeRecord e.blk v d i])))
        ∧ (∀ j, s.cache.slots[i]? = some (.writing e.blk c d) → allocate s = some j → again j
          ∧ t.cache.slots[i]? = some (.retiring e.blk c d)
          ∧ (writeBack → t.cache.slots[j]? = some (.dirty e.blk v d (s.cache.commitOrder + 1)) ∧ issued [])
          ∧ (¬writeBack → t.cache.slots[j]? = some (.writing e.blk v d)
            ∧ (s.port.down = false → issued [.writeRecord e.blk v d j]))))))
  ∧ ∀ (s : State) (tag : Tag) (e : Entry) (i : Nat) (v : Version) (d : Data) (o : HeldOwner)
      (x : Option Version),
    s.cache.slots.length = 48 → currentOnce s = true → tagsUnique s = true →
    findEntry s tag = some e → e.kind = .clientWrite → e.state = .waitOrder →
    e.followed = some v → e.committed = none → e.slot = some i →
    s.cache.slots[i]? = some (.held e.blk d o x) →
    isFilling s e.blk = false → (∀ p ∈ s.cache.pendings, p.block ≠ e.blk) →
    (heldForWrite s e = .unknown ∨ ∃ w, heldForWrite s e = .known w ∧ w < v) →
    let t := decideFollow s tag
    (∀ j w c, currentSlot s e.blk = some j →
      (s.cache.slots[j]? = some (.writing e.blk w c) → t.cache.slots[j]? = some (.retiring e.blk w c))
      ∧ (((∃ n, s.cache.slots[j]? = some (.dirty e.blk w c n)) ∨ ∃ n, s.cache.slots[j]? = some (.clean e.blk w c n)) →
        t.cache.slots[j]? = some .free)) ∧
    currentCopy t e.blk = some (i, v, d)
    ∧ (let issued (c : List MediaCmd) : Prop :=
        if s.cache.waiting = [] ∧ s.port.queue.length < 8 then
          t.port.queue = s.port.queue ++ c ∧ t.cache.waiting = []
        else t.port.queue = s.port.queue ∧ t.cache.waiting = s.cache.waiting ++ c
      (s.member.straps.writeBack = true →
        t.cache.slots[i]? = some (.dirty e.blk v d (s.cache.commitOrder + 1)) ∧ issued [])
      ∧ (s.member.straps.writeBack = false → t.cache.slots[i]? = some (.writing e.blk v d)
        ∧ (s.port.down = false → issued [.writeRecord e.blk v d i])))
    ∧ isListed t e.blk = false
    ∧ ∃ e', findEntry t tag = some e' ∧ e'.committed = some v ∧ e'.slot = none
      ∧ (s.member.straps.writeBack = true → e'.state = .acked
          ∧ e'.sent = some { kind := .ack, version := v } ∧ e'.finished = some s.clock)
      ∧ (s.member.straps.writeBack = false → e'.state = .committing)

/-- An ACK or NACK for a client write's tag is recorded in its entry, in range and whatever its version; its sender's
miss count is cleared by an ACK from a live member with the station's mark and left by a NACK. With no entry for the
tag nothing is recorded (R36, R61, R112). For the station's own REPLAY an ACK of its target is compared with the
version then held: the push in progress ends, and the entry of the missed-write list is freed where the ACK is not
below it, also by a late ACK unless the entry is being pushed again; a comparison with no current slot waits on a
version lookup; a NACK ends the push with its retry time 5 ms ahead (R6, R131, R132). Any such frame from an ABSENT
member draws PEER_DOWN naming it, unless its last notice lies less than 3 ms back (R117), and does so before the entry
takes the frame, which is the model's order (log 13), as it is that a push ended by an ACK has its REPLAY withdrawn
before a REPLAY_DONE is offered (log 66). -/
def Obligations.AcksAndNacksRecorded : Prop :=
  (∀ (s : State) (src : Source),
    (inService s = true → src.mark = s.member.mark → isMember s src.sender = true → src.sender ≠ ownNumber s →
      isLive s src.sender = true →
      clearMisses s src = { s with peers := s.peers.map fun e =>
        if e.peer = src.sender then { e with misses := 0 } else e })
    ∧ ((inService s = false ∨ src.mark ≠ s.member.mark ∨ isMember s src.sender = false
        ∨ src.sender = ownNumber s) → clearMisses s src = s ∧ signOfLife s src = s)
    ∧ (∀ e, inService s = true → src.mark = s.member.mark → isMember s src.sender = true →
      src.sender ≠ ownNumber s → peerEntry s src.sender = some e →
      let cleared : State := { s with peers := s.peers.map fun x =>
        if x.peer = src.sender then { x with misses := 0 } else x }
      let noticed (u : State) : State := offer
        { u with peers := u.peers.map fun x =>
          if x.peer = src.sender then { x with lastNotice := some s.clock } else x }
        (peerDownFrame (self s) src.sender) (.peerNotice src.sender)
      (e.state ≠ .absent → signOfLife s src = s)
      ∧ (e.state = .absent → (∃ n, e.lastNotice = some n ∧ s.clock < n + 3000) →
        signOfLife s src = s ∧ clearMisses s src = cleared)
      ∧ (e.state = .absent → (∀ n, e.lastNotice = some n → n + 3000 ≤ s.clock) →
        signOfLife s src = noticed s ∧ clearMisses s src = noticed cleared)))
  ∧ (∀ (s : State) (src : Source) (tag : Tag) (b : Block) (v : Version) (reason : BitVec 8) (e : Entry),
    (takesFrame s (ackFrame src tag b v) = true →
      let h := clearMisses (afterEcho s) src
      findEntry h tag = some e → e.kind = .ownReplay →
      let rec' := updateEntry h tag fun x => { x with heard := addAnswer x.heard src.sender .ack v }
      ((e.target ≠ some src.sender ∨ e.block ≠ some b ∨ src.mark ≠ s.member.mark) →
        exec (.ackHeard src tag b v) s = .next (settle h))
      ∧ (e.target = some src.sender → e.block = some b → src.mark = s.member.mark →
        (∀ q w, pushOfTag h tag = some q → heldVersion h b = some w →
          exec (.ackHeard src tag b v) s = .next (settle (
            if w ≤ v then freeMissed (endPush rec' q none .done) src.sender b
            else endPush rec' q none .done)))
        ∧ (∀ w, pushOfTag h tag = none → heldVersion h b = some w → inService s = true →
          exec (.ackHeard src tag b v) s = .next (settle (
            if w ≤ v ∧ (∀ q ∈ h.replay.pushes, q.peer ≠ src.sender ∨ q.block ≠ b)
            then freeMissed rec' src.sender b else rec')))
        ∧ (∀ q, pushOfTag h tag = some q → heldVersion h b = none → s.port.down = false →
          let waiting : State := { rec' with replay := { rec'.replay with pushes := rec'.replay.pushes.map fun y =>
            if y.id = q.id then { y with phase := .comparing } else y } }
          exec (.ackHeard src tag b v) s = .next (settle (
            if isFilling h b then addWaiter waiting b .record (.replayAck tag src.sender v)
            else if headerInFlight h b then addWaiter waiting b .header (.replayAck tag src.sender v)
            else issue (addWaiter waiting b .header (.replayAck tag src.sender v)) (.readHeader b))))))
    ∧ (takesFrame s (nackFrame src tag b v reason) = true →
      let h := signOfLife (afterEcho s) src
      findEntry h tag = some e → e.kind = .ownReplay →
      let rec' := updateEntry h tag fun x => { x with heard := addAnswer x.heard src.sender .nack v }
      ((e.target ≠ some src.sender ∨ e.block ≠ some b ∨ src.mark ≠ s.member.mark) →
        exec (.nackHeard src tag b v reason) s = .next (settle h))
      ∧ (e.target = some src.sender → e.block = some b → src.mark = s.member.mark →
        (pushOfTag h tag = none → exec (.nackHeard src tag b v reason) s = .next (settle rec'))
        ∧ (∀ q, pushOfTag h tag = some q → exec (.nackHeard src tag b v reason) s
          = .next (settle (endPush rec' q (some (s.clock + 5000)) .done))))))
  ∧ ∀ (s : State) (src : Source) (tag : Tag) (b : Block) (v : Version) (reason : BitVec 8),
    (takesFrame s (ackFrame src tag b v) = true →
      let h := clearMisses (afterEcho s) src
      (findEntry h tag = none → exec (.ackHeard src tag b v) s = .next (settle h))
      ∧ ∀ e, findEntry h tag = some e → e.kind = .clientWrite → inRange h b = true →
        exec (.ackHeard src tag b v) s = .next (settle
          (updateEntry h tag fun x => { x with heard := addAnswer x.heard src.sender .ack v })))
    ∧ (takesFrame s (nackFrame src tag b v reason) = true →
      let h := signOfLife (afterEcho s) src
      (findEntry h tag = none → exec (.nackHeard src tag b v reason) s = .next (settle h))
      ∧ ∀ e, findEntry h tag = some e → e.kind = .clientWrite → inRange h b = true →
        exec (.nackHeard src tag b v reason) s = .next (settle
          (updateEntry h tag fun x => { x with heard := addAnswer x.heard src.sender .nack v })))

/-- What an answer heard does at a READ or a PEER_FETCH entry; a frame of another mark or block is not recorded (R50,
R150). In its slot wait a READ is SUPPRESSED by an UNAVAILABLE, and by a DATA not below the version it has in hand,
and holds no slot; ANSWERED, its answer still queued is withdrawn and it is SUPPRESSED, but not by a DATA below that
answer (R49, R52); an answer queued before the entry was restarted is withdrawn too where it is finished otherwise by
then, which is the model's reading (log 55). A FETCH is suppressed by an UNAVAILABLE; with a version above the
requester's by a DATA not below it and by no CURRENT; otherwise by every answer (R150). A refused READ or FETCH is
suppressed by any DATA or UNAVAILABLE (R42, R49, R149); that a refused READ corrects a lower DATA as any other does is
the model's (log 22). An entry that queued an answer of its own is not suppressed by the station's own frame, which is
the model's reading (log 48). A DATA below the held version, heard by a READ in its slot wait with data in hand or
SUPPRESSED, draws a correction answer at a SERVING station (R51). A station with DATA recorded as sent, its answer no
longer waiting, that hears one above its held version lists the block for repair, compared at once with a current slot
and otherwise by a version lookup (R6, R53, R151); a station whose queued DATA is withdrawn by that frame lists
nothing, which is the model's reading (log 23). With no current slot the queued answer's version is measured (log 56),
and the Peer Table acts first (log 13). -/
def Obligations.AnswersSuppressRead : Prop :=
  ∀ (s : State) (src : Source) (tag : Tag) (b : Block) (v : Version) (d : Data) (reason : BitVec 8)
      (e : Entry),
    let h := signOfLife (afterEcho s) src
    let heard (k : Kind) (w : Version) : State :=
      updateEntry h tag fun x => { x with heard := addAnswer x.heard src.sender k w }
    let unavailable (t : State) : Prop := takesFrame s (unavailableFrame src tag b reason) = true →
      exec (.unavailableHeard src tag b reason) s = .next (settle t)
    let data (t : State) : Prop := takesFrame s (dataFrame src tag b v d) = true →
      exec (.dataHeard src tag b v d) s = .next (settle t)
    let current (t : State) : Prop := takesFrame s (currentFrame src tag b v) = true →
      exec (.currentHeard src tag b v) s = .next (settle t)
    let others := e.sent = none ∨ src.sender ≠ ownNumber s
    findEntry h tag = some e → (e.kind = .clientRead ∨ e.kind = .peerFetch) →
    ((e.block ≠ some b ∨ src.mark ≠ h.member.mark) → unavailable h ∧ data h ∧ current h)
    ∧ (e.block = some b → src.mark = h.member.mark →
      (e.kind = .clientRead → current h) ∧ (¬others → unavailable (heard .unavailable 0)))
    ∧ (e.block = some b → src.mark = h.member.mark → e.kind = .clientRead → others →
      let suppressed (u : State) : State := withdraw (finishEntry u tag .suppressed) (forTag .readAnswer tag) .plain
      let withdrawn (u : State) : State := withdraw u (forTag .readAnswer tag) (.entryBecomes .suppressed)
      (e.state = .slotWait → unavailable (suppressed (heard .unavailable 0)))
      ∧ (e.state.finished = true → unavailable (withdrawn (heard .unavailable 0)))
      ∧ (e.state = .slotWait → e.sentData = false → (∀ w, heldVersion h b = some w → w ≤ v) →
        (∀ f, waitingFrame h .readAnswer tag = some f → f.frame.kind = .unavailable) →
        data (suppressed (heard .data v)))
      ∧ ((e.state = .answered ∨ e.state = .silent ∨ e.state = .expired) → e.sentData = false →
        (∀ f, waitingFrame h .readAnswer tag = some f → f.frame.kind = .unavailable) →
        data (withdrawn (heard .data v)))
      ∧ (∀ f, e.state = .answered → e.reason = none → waitingFrame h .readAnswer tag = some f → f.frame.kind = .data →
        (∀ g ∈ h.bus.queue, g.purpose = .readAnswer → g.frame.tag = tag → g.phase = .queued) →
        ((∃ w, heldVersion h b = some w ∧ w ≤ v) ∨ (heldVersion h b = none ∧ f.frame.version ≤ v)) →
        data (withdrawn (heard .data v))))
    ∧ (∀ f w, e.block = some b → src.mark = h.member.mark → e.kind = .clientRead → e.state = .answered →
      e.reason = none → waitingFrame h .readAnswer tag = some f → f.frame.kind = .data →
      heldVersion h b = some w → v < w → data (heard .data v))
    ∧ (e.block = some b → src.mark = h.member.mark → e.kind = .clientRead → e.sentData = false →
      s.member.state = .serving → isListed h b = false →
      ∀ i w c, currentCopy h b = some (i, w, c) → v < w →
      (∀ x ∈ e.heard, ∀ y, x.data = some y → y < w) → accepts h .data = true →
      ((e.state = .suppressed ∧ waitingFrame h .readAnswer tag = none)
        ∨ (e.state = .slotWait ∧ e.reason = none ∧ e.slot ≠ none)
        ∨ (e.state = .slotWait ∧ e.reason ≠ none ∧ waitingFrame h .readAnswer tag = none ∧ tagsUnique s = true)) →
      data (touchSlot (finishEntry
        { heard .data v with
          bus := { h.bus with queue := h.bus.queue ++ [queuedFrame (dataFrame (self s) tag b w c) .readAnswer] },
          table := (heard .data v).table.map fun x =>
            if x.tag = tag then { x with sent := some { kind := .data, version := w } } else x }
        tag .answered) i))
    ∧ (e.block = some b → src.mark = h.member.mark → e.kind = .peerFetch → e.state = .slotWait → e.reason = none →
      others → e.sentData = false →
      let suppressed (u : State) : State := withdraw (finishEntry u tag .suppressed) (forTag .fetchAnswer tag) .plain
      unavailable (suppressed (heard .unavailable 0))
      ∧ (∀ w, heldVersion h b = some w →
        (e.requested = some .unknown ∨ ∃ r, e.requested = some (.known r) ∧ r < w) →
        (w ≤ v → data (suppressed (heard .data v)))
        ∧ (v < w → data (heard .data v))
        ∧ (inRange h b = true → current (heard .current v)))
      ∧ (((heldVersion h b = none ∧ waitingFrame h .fetchAnswer tag = none)
          ∨ ∃ w r, heldVersion h b = some w ∧ e.requested = some (.known r) ∧ w ≤ r) →
        data (suppressed (heard .data v))
        ∧ (inRange h b = true → current (suppressed (heard .current v)))))
    ∧ (e.block = some b → src.mark = h.member.mark → e.kind = .peerFetch → e.state = .answered → e.reason = none →
      others → (∀ g ∈ h.bus.queue, g.purpose = .fetchAnswer → g.frame.tag = tag → g.phase = .queued) →
      ∀ f, waitingFrame h .fetchAnswer tag = some f → (e.sentData = true → f.frame.kind = .data) →
      let withdrawn (u : State) : State := withdraw u (forTag .fetchAnswer tag) (.entryBecomes .suppressed)
      unavailable (withdrawn (heard .unavailable 0))
      ∧ (∀ w, heldVersion h b = some w →
        ((e.requested = some .unknown ∨ ∃ r, e.requested = some (.known r) ∧ r < w) →
          (w ≤ v → data (withdrawn (heard .data v)))
          ∧ (v < w → data (heard .data v))
          ∧ (inRange h b = true → current (heard .current v)))
        ∧ ((∃ r, e.requested = some (.known r) ∧ w ≤ r) →
          data (withdrawn (heard .data v)) ∧ (inRange h b = true → current (withdrawn (heard .current v))))))
    ∧ (e.block = some b → src.mark = h.member.mark → e.kind = .peerFetch → e.reason ≠ none → others →
      e.sentData = false →
      let suppressed (u : State) : State := withdraw (finishEntry u tag .suppressed) (forTag .fetchAnswer tag) .plain
      let withdrawn (u : State) : State := withdraw u (forTag .fetchAnswer tag) (.entryBecomes .suppressed)
      (inRange h b = true → current (heard .current v))
      ∧ (e.state = .slotWait → unavailable (suppressed (heard .unavailable 0)) ∧ data (suppressed (heard .data v)))
      ∧ (e.state = .answered → unavailable (withdrawn (heard .unavailable 0)) ∧ data (withdrawn (heard .data v))))
    ∧ (e.block = some b → src.mark = h.member.mark → e.state.finished = true → e.sentData = true →
      waitingFrame h (if e.kind = .peerFetch then .fetchAnswer else .readAnswer) tag = none →
      inService s = true → inRange h b = true →
      (∀ w, heldVersion h b = some w →
        data (if w < v then listBlock (heard .data v) b else heard .data v))
      ∧ (heldVersion h b = none → s.port.down = false →
        data (
          if isFilling h b then addWaiter (heard .data v) b .record (.stale v)
          else if headerInFlight h b then addWaiter (heard .data v) b .header (.stale v)
          else issue (addWaiter (heard .data v) b .header (.stale v)) (.readHeader b))))

/-- In the open window of the station's own fetch a DATA is taken into the fetch buffer where it is the first or of
higher version, a CURRENT is noted, and an UNAVAILABLE is recorded and nothing more; all three are recorded in the
entry (R145). The Peer Table acts on the sign of life before (R117), which is the model's order (log 13). -/
def Obligations.FetchTakesAnswers : Prop :=
  ∀ (s : State) (src : Source) (tag : Tag) (b : Block) (v : Version) (d : Data) (reason : BitVec 8)
      (e : Entry) (f : Fetch) (due : Nat),
    let h := signOfLife (afterEcho s) src
    findEntry h tag = some e → e.kind = .ownFetch → e.block = some b → src.mark = h.member.mark →
    fetchOfTag h tag = some f → f.phase = .window due →
    let heard (k : Kind) (w : Version) : State :=
      updateEntry h tag fun x => { x with heard := addAnswer x.heard src.sender k w }
    (takesFrame s (dataFrame src tag b v d) = true →
      let t := heard .data v
      exec (.dataHeard src tag b v d) s = .next (settle
        { t with repair := { t.repair with fetches := t.repair.fetches.map fun g =>
            if g.id = f.id then
              { g with buffer :=
                match g.buffer with
                | none => some (v, d)
                | some (w, c) => if w < v then some (v, d) else some (w, c) }
            else g } }))
    ∧ (takesFrame s (currentFrame src tag b v) = true → inRange h b = true →
      let t := heard .current v
      exec (.currentHeard src tag b v) s = .next (settle
        { t with repair := { t.repair with fetches := t.repair.fetches.map fun g =>
            if g.id = f.id then { g with currentTaken := true } else g } }))
    ∧ (takesFrame s (unavailableFrame src tag b reason) = true →
      exec (.unavailableHeard src tag b reason) s = .next (settle (heard .unavailable 0)))

/-- A new READ at a SERVING replica whose table gives an entry: refused for its mark or its range it waits its slot
with the reason; otherwise it looks its block up. A replica that is not SERVING, a station that is no replica, and a
table that gives no entry leave it alone (R41, R42, R43, R64). A new FETCH from a co-replica, in SERVING or
CATCHING_UP, makes a PEER_FETCH entry that knows its sender and the version asked about, and is refused or looks its
block up as a READ is; a FETCH from any other station, at a station that is no replica, or where the table gives no
entry, draws nothing (R64, R149). A repeated READ or FETCH at an entry of its kind is ignored in LOOKUP and SLOT_WAIT;
at a finished entry without DATA sent it restarts it, heard answers cleared and created now, and is taken up afresh,
for the entry's block, which is the model's reading where the frame names another (log 17); at an ANSWERED entry with
DATA sent it clears the heard answers and renews both times; at an entry of another kind it is ignored (R55, R66). A
copy lookup is answered at once from a current copy, and otherwise by a READ_RECORD into a slot, or cannot serve (R43,
R44, R77). At its end the entry compares what it heard: a READ with data in hand corrects a lower DATA, or is
SUPPRESSED by one where it may not, and by a DATA not below its version or an UNAVAILABLE; any answer suppresses one
that cannot serve (R46); a FETCH likewise, a CURRENT counting only where its version is not above the requester's
(R150). Otherwise the slot wait begins, and one of no slots ends at once (R15; log 15). Own frames do not count for an
entry that has queued an answer (log 48). -/
def Obligations.ReadAndFetchTakenUp : Prop :=
  (∀ (s : State) (src : Source) (tag : Tag) (b : Block) (e : Entry),
      takesFrame s (readFrameOf src tag b) = true → isReplica s b = true → s.member.state = .serving →
      findEntry s tag = some e →
      let h := afterEcho s
      let at_ (f : Entry → Entry) : State := { h with table := s.table.map fun x => if x.tag = tag then f x else x }
      let restarted (r : Option Reason) : State := at_ fun x => { x with
        state := .lookup, reason := r, slot := none, ownVersion := none, heard := [], created := s.clock,
        finished := none, wait := none, failure := none }
      ((e.kind ≠ .clientRead ∨ e.state = .lookup ∨ e.state = .slotWait) →
        exec (.readHeard src tag b) s = .next (settle h))
      ∧ (e.kind = .clientRead →
        (e.state = .answered ∨ e.state = .suppressed ∨ e.state = .silent ∨ e.state = .expired) →
        (e.sentData = false → exec (.readHeard src tag b) s = .next (settle (
          if src.mark ≠ s.member.mark then beginWait (restarted (some .rosterMismatch)) tag
          else if volume s ≤ e.blk.toNat then beginWait (restarted (some .outOfRange)) tag
          else beginCopyLookup (restarted none) tag e.blk)))
        ∧ (e.sentData = true → exec (.readHeard src tag b) s = .next (settle (
          if e.state = .answered then
            at_ fun x => { x with heard := [], created := s.clock, finished := some s.clock }
          else h)))))
  ∧ (∀ (s : State) (src : Source) (tag : Tag) (b : Block) (v : Version) (unknownMark : Bool) (e : Entry),
      takesFrame s (fetchFrame src tag b v unknownMark) = true → inService s = true → isReplica s b = true →
      src.sender ∈ coReplicas s (groupOf b) → findEntry s tag = some e →
      let h := afterEcho s
      let at_ (f : Entry → Entry) : State := { h with table := s.table.map fun x => if x.tag = tag then f x else x }
      let restarted (r : Option Reason) : State := at_ fun x => { x with
        state := .lookup, reason := r, slot := none, ownVersion := none, heard := [], created := s.clock,
        finished := none, wait := none, failure := none, requester := some src.sender,
        requested := some (if unknownMark then .unknown else .known v) }
      ((e.kind ≠ .peerFetch ∨ e.state = .lookup ∨ e.state = .slotWait) →
        exec (.fetchHeard src tag b v unknownMark) s = .next (settle h))
      ∧ (e.kind = .peerFetch →
        (e.state = .answered ∨ e.state = .suppressed ∨ e.state = .silent ∨ e.state = .expired) →
        (e.sentData = false → exec (.fetchHeard src tag b v unknownMark) s = .next (settle (
          if src.mark ≠ s.member.mark then beginWait (restarted (some .rosterMismatch)) tag
          else if volume s ≤ e.blk.toNat then beginWait (restarted (some .outOfRange)) tag
          else beginCopyLookup (restarted none) tag e.blk)))
        ∧ (e.sentData = true → exec (.fetchHeard src tag b v unknownMark) s = .next (settle (
          if e.state = .answered then
            at_ fun x => { x with heard := [], created := s.clock, finished := some s.clock }
          else h)))))
  ∧ (∀ (s : State) (src : Source) (tag : Tag) (b : Block), takesFrame s (readFrameOf src tag b) = true →
      let h := afterEcho s
      ((isReplica s b = false ∨ s.member.state ≠ .serving) →
        exec (.readHeard src tag b) s = .next (settle h))
      ∧ (isReplica s b = true → s.member.state = .serving → findEntry s tag = none →
        ∀ g, giveEntry h = some g →
        let e := newEntry g tag .clientRead (some b) .lookup
        let made : State := { g with table := g.table ++ [e] }
        let refused (r : Reason) := beginWait
          { g with table := g.table ++ [{ e with reason := some r }] } tag
        exec (.readHeard src tag b) s = .next (settle (
          if src.mark ≠ g.member.mark then refused .rosterMismatch
          else if volume g ≤ b.toNat then refused .outOfRange
          else beginCopyLookup made tag b)))
      ∧ (isReplica s b = true → s.member.state = .serving → findEntry s tag = none →
        giveEntry h = none → exec (.readHeard src tag b) s = .next (settle h)))
  ∧ (∀ (s : State) (src : Source) (tag : Tag) (b : Block) (v : Version) (unknownMark : Bool),
      takesFrame s (fetchFrame src tag b v unknownMark) = true →
      let h := afterEcho s
      ((inService s = false ∨ isReplica s b = false ∨ src.sender ∉ coReplicas s (groupOf b)) →
        exec (.fetchHeard src tag b v unknownMark) s = .next (settle h))
      ∧ (inService s = true → isReplica s b = true → src.sender ∈ coReplicas s (groupOf b) →
        findEntry s tag = none → ∀ g, giveEntry h = some g →
        let e : Entry := { newEntry g tag .peerFetch (some b) .lookup with
          requester := some src.sender,
          requested := some (if unknownMark then .unknown else .known v) }
        let made : State := { g with table := g.table ++ [e] }
        let refused (r : Reason) := beginWait
          { g with table := g.table ++ [{ e with reason := some r }] } tag
        exec (.fetchHeard src tag b v unknownMark) s = .next (settle (
          if src.mark ≠ g.member.mark then refused .rosterMismatch
          else if volume g ≤ b.toNat then refused .outOfRange
          else beginCopyLookup made tag b)))
      ∧ (inService s = true → isReplica s b = true → src.sender ∈ coReplicas s (groupOf b) →
        findEntry s tag = none → giveEntry h = none →
        exec (.fetchHeard src tag b v unknownMark) s = .next (settle h)))
  ∧ (∀ (s : State) (t : Tag) (b : Block),
      (∀ i v d, currentCopy s b = some (i, v, d) →
        beginCopyLookup s t b = copyAnswered (touchSlot s i) t .mediaError)
      ∧ (currentCopy s b = none →
        (s.port.down = true → beginCopyLookup s t b = copyAnswered s t .mediaError)
        ∧ (s.port.down = false → isFilling s b = true → beginCopyLookup s t b = addWaiter s b .record (.copy t))
        ∧ (s.port.down = false → isFilling s b = false →
          (allocate s = none → beginCopyLookup s t b = copyAnswered s t .notCurrent)
          ∧ ∀ i, allocate s = some i → beginCopyLookup s t b = issue
            (addWaiter { s with cache := { s.cache with slots := s.cache.slots.set i (.filling b) } }
              b .record (.copy t))
            (.readRecord b i))))
  ∧ (∀ (s : State) (t : Tag) (e : Entry) (r : Reason), findEntry s t = some e → e.state = .lookup →
      let ends (f : Entry → Entry) := copyAnswered s t r =
        if e.kind = .peerFetch then endFetchLookup (updateEntry s t f) (f e)
        else endReadLookup (updateEntry s t f) (f e)
      (∀ i v d, currentCopy s e.blk = some (i, v, d) →
        ends fun x => { x with slot := some i, ownVersion := some (.known v), failure := none })
      ∧ (currentCopy s e.blk = none →
        ends fun x => { x with slot := none, ownVersion := some .unknown, failure := some r }))
  ∧ (∀ (s : State) (e : Entry),
      let others := e.heard.filter fun h => decide (e.sent = none ∨ h.station ≠ ownNumber s)
      let data (p : Version → Prop) := ∃ h ∈ others, ∃ d, h.data = some d ∧ p d
      let unavailable := ∃ h ∈ others, h.unavailable ≠ none
      let current := ∃ h ∈ others, h.current ≠ none
      let any := data fun _ => True
      let serves := s.member.state = .serving ∧ isListed s e.blk = false
      let suppressed := finishEntry s e.tag .suppressed
      let waits := beginWait s e.tag
      (∀ i v d, e.kind = .clientRead → e.slot ≠ none → currentCopy s e.blk = some (i, v, d) →
        (serves → (data fun w => w < v) → ¬(data fun w => v ≤ w) → e.sentData = false → accepts s .data = true →
          endReadLookup s e = touchSlot (finishEntry
            { s with
              bus := { s.bus with queue := s.bus.queue ++
                [queuedFrame (dataFrame (self s) e.tag e.blk v d) .readAnswer] },
              table := s.table.map fun x =>
                if x.tag = e.tag then { x with sent := some { kind := .data, version := v } } else x }
            e.tag .answered) i)
        ∧ (¬serves → (data fun w => w < v) → endReadLookup s e = suppressed)
        ∧ ((data fun w => v ≤ w) → endReadLookup s e = suppressed)
        ∧ (unavailable → (¬serves ∨ ¬data fun w => w < v) → endReadLookup s e = suppressed)
        ∧ (¬any → ¬unavailable → endReadLookup s e = waits))
      ∧ ((e.slot = none ∨ currentCopy s e.blk = none) →
        ((any ∨ unavailable) → endReadLookup s e = suppressed)
        ∧ (¬any → ¬unavailable → endReadLookup s e = waits))
      ∧ (∀ v, heldVersion s e.blk = some v → (e.requested = some .unknown ∨ ∃ r, e.requested = some (.known r) ∧ r < v) →
        (((data fun w => v ≤ w) ∨ unavailable) → endFetchLookup s e = suppressed)
        ∧ (¬(data fun w => v ≤ w) → ¬unavailable → endFetchLookup s e = waits))
      ∧ ((heldVersion s e.blk = none
          ∨ ∃ v r, heldVersion s e.blk = some v ∧ e.requested = some (.known r) ∧ v ≤ r) →
        ((any ∨ current ∨ unavailable) → endFetchLookup s e = suppressed)
        ∧ (¬any → ¬current → ¬unavailable → endFetchLookup s e = waits)))
  ∧ (∀ (s : State) (t : Tag) (e : Entry), findEntry s t = some e →
      let w := slotWait s ((replicas s (groupOf e.blk)).filter fun n =>
        decide (e.kind ≠ .peerFetch ∨ some n ≠ e.requester))
      let u := updateEntry s t fun x => { x with state := .slotWait, wait := some (s.clock + w) }
      (0 < w → beginWait s t = u)
      ∧ (w = 0 → s.resetHeld = false →
        (e.kind = .clientRead → exec (.readSlotWaitExpiry t) u = .next (settle (beginWait s t)))
        ∧ (e.kind = .peerFetch → exec (.fetchSlotWaitExpiry t) u = .next (settle (beginWait s t)))))

/-- A new WRITE at a replica in SERVING or CATCHING_UP passes four checks in their order: the mark, the range, an
entry, a slot; the first that fails names the refusal. Admitted, it has an entry in LOOKUP that owns the HELD slot
with its data, and looks the block's version up. A refusal without an entry offers a NACK with its reason, leaves a
REFUSED entry with that reason where the table gives one, and lists the block, but for OUT_OF_RANGE and RESETTING
(R21, R33). In RESETTING it is refused, and at a station that is no replica nothing happens. A repeated WRITE draws
the ACK again from an ACKED entry, the NACK again with its reason from a REFUSED one, and nothing from an unfinished
or EXPIRED one (R19, R20, R22, R23, R65). The table gives an entry while it holds fewer than 24; otherwise it gives
the finished one of earliest finished time, of two with the same the one created earlier, whose running ack window is
reported at that moment and whose tag leaves the table; with none finished it gives none (R36, R63, R64). That check 4
finds the entry in LOOKUP already, so that a CLEAN slot of its own block is pinned, is the model's reading (log 16),
and so is the version a NACK names as known: the current slot's, otherwise 0 with no lookup made (log 42); that a NACK
is recorded also where the queue refuses it (log 61), and is offered before the window of the entry reused for it is
reported (log 69), are its choices. -/
def Obligations.WriteTakenUp : Prop :=
  (∀ u : State,
    (u.table.length < 24 → giveEntry u = some u)
    ∧ (24 ≤ u.table.length → (∀ e ∈ u.table, e.state.finished = false) → giveEntry u = none)
    ∧ (∀ o, oldestFinished u = some o → o ∈ u.table ∧ o.state.finished = true
      ∧ (∀ x ∈ u.table, x.state.finished = true → o.finished.getD 0 < x.finished.getD 0
        ∨ (o.finished.getD 0 = x.finished.getD 0 ∧ o.created ≤ x.created))
      ∧ (24 ≤ u.table.length →
        let w := if o.ackWindow = none then u else reportWindow u o
        giveEntry u = some { w with table := w.table.filter fun x => decide (x.tag ≠ o.tag) })))
  ∧ (∀ (u : State) (tag : Tag) (b : Block) (r : Reason),
    let v := (heldVersion u b).getD 0
    let nacked := offer u (nackFrame (self u) tag b v (reasonCode r)) .acknowledgement
    let listed (x : State) : State := if r = .outOfRange ∨ r = .resetting then x else listBlock x b
    (giveEntry nacked = none → nackNew u tag b r = listed nacked)
    ∧ (∀ g, giveEntry nacked = some g → nackNew u tag b r = listed { g with table := g.table ++
        [{ newEntry g tag .clientWrite (some b) .refused with
            reason := some r, finished := some g.clock, sent := some { kind := .nack, version := v } }] }))
  ∧ ∀ (s : State) (src : Source) (tag : Tag) (b : Block) (d : Data),
    takesFrame s (writeFrame src tag b d) = true →
    let h := afterEcho s
    (isReplica s b = false → exec (.writeHeard src tag b d) s = .next (settle h))
    ∧ (isReplica s b = true → s.member.state = .resetting → findEntry s tag = none →
      exec (.writeHeard src tag b d) s = .next (settle (nackNew h tag b .resetting)))
    ∧ (isReplica s b = true → inService s = true → findEntry s tag = none →
      (src.mark ≠ s.member.mark →
        exec (.writeHeard src tag b d) s = .next (settle (nackNew h tag b .rosterMismatch)))
      ∧ (src.mark = s.member.mark → volume s ≤ b.toNat →
        exec (.writeHeard src tag b d) s = .next (settle (nackNew h tag b .outOfRange)))
      ∧ (src.mark = s.member.mark → b.toNat < volume s → 24 ≤ s.table.length →
        (∀ e ∈ s.table, e.state.finished = false) →
        exec (.writeHeard src tag b d) s = .next (settle (listBlock (offer h
          (nackFrame (self s) tag b ((heldVersion s b).getD 0) 4) .acknowledgement) b)))
      ∧ (src.mark = s.member.mark → b.toNat < volume s → ∀ g, giveEntry h = some g →
        let e := newEntry g tag .clientWrite (some b) .lookup
        let made : State := { g with table := g.table ++ [e] }
        (allocate made = none →
          exec (.writeHeard src tag b d) s = .next (settle (nackWrite made e .cacheFull)))
        ∧ (∀ i, allocate made = some i →
          let held : State := { g with
            table := g.table ++ [{ e with slot := some i }],
            cache := { g.cache with
              slots := g.cache.slots.set i (.held b d (.clientWrite tag) none) } }
          exec (.writeHeard src tag b d) s = .next (settle (
            match versionLookup held b (.write tag) with
            | (t, some a) => writeAnswered t tag a
            | (t, none) => t)))))
    ∧ (∀ e, isReplica s b = true → (inService s = true ∨ s.member.state = .resetting) →
      findEntry s tag = some e → e.kind = .clientWrite →
      (∀ c, e.state = .acked → e.committed = some c →
        exec (.writeHeard src tag b d) s = .next (settle (offer h
          (ackFrame (self s) tag e.blk c) .acknowledgement)))
      ∧ (∀ r, e.state = .refused → e.reason = some r →
        exec (.writeHeard src tag b d) s = .next (settle (offer h
          (nackFrame (self s) tag e.blk ((heldVersion s e.blk).getD 0) (reasonCode r)) .acknowledgement)))
      ∧ ((e.state = .lookup ∨ e.state = .waitOrder ∨ e.state = .committing ∨ e.state = .expired) →
        exec (.writeHeard src tag b d) s = .next (settle h)))

/-- A FLUSH with the station's mark, in SERVING or CATCHING_UP, under a tag not in the table, which gives an entry, a
free one or a finished one reused early, makes a CLIENT_FLUSH entry in DRAINING with every DIRTY and WRITING slot and
its version as its drain set; any other, and one to which the table gives no entry, makes none and draws no frame
(R63, R64, R66, R88). -/
def Obligations.FlushTakenUp : Prop :=
  ∀ (s : State) (src : Source) (tag : Tag), takesFrame s (flushFrame src tag) = true →
    let h := afterEcho s
    ((inService s = false ∨ src.mark ≠ s.member.mark ∨ findEntry s tag ≠ none) →
      exec (.flushHeard src tag) s = .next (settle h))
    ∧ (inService s = true → src.mark = s.member.mark → findEntry s tag = none → giveEntry h = none →
      exec (.flushHeard src tag) s = .next (settle h))
    ∧ (inService s = true → src.mark = s.member.mark → findEntry s tag = none → ∀ g, giveEntry h = some g →
      ∃ set : List DrainMember,
        exec (.flushHeard src tag) s = .next (settle { g with table := g.table ++
          [{ newEntry g tag .clientFlush none .draining with drain := set }] })
        ∧ ∀ m : DrainMember, m ∈ set ↔
          (∃ d o, g.cache.slots[m.slot]? = some (.dirty m.block m.version d o))
            ∨ ∃ d, g.cache.slots[m.slot]? = some (.writing m.block m.version d))
    ∧ (inService s = true → src.mark = s.member.mark → findEntry s tag = none → s.table.length < 24 →
      ∃ set : List DrainMember,
        exec (.flushHeard src tag) s = .next (settle { h with table := s.table ++
          [{ newEntry s tag .clientFlush none .draining with drain := set }] })
        ∧ ∀ m : DrainMember, m ∈ set ↔
          (∃ d o, s.cache.slots[m.slot]? = some (.dirty m.block m.version d o))
            ∨ ∃ d, s.cache.slots[m.slot]? = some (.writing m.block m.version d))

/-- A REPLAY for the station with its mark, of a group it holds, in SERVING or CATCHING_UP: out of range, NACK; with
no slot to be had, NACK with CACHE_FULL and the block listed (R135), the version a NACK names being the current slot's
and otherwise 0, which is the model's choice (log 42); where the block has a current copy, the commit is decided at
once and ACK names the version then held, the REPLAY's above the held one and otherwise the held one, with nothing
committed; where it has none, the commit is pending on the block's media read, a READ_HEADER being issued if none is
under way, and no frame is queued yet (R80, R136). A REPLAY not taken draws no frame (R79, R81, R135). The report of a
REPLAY's commit, at once or after that read, is an ACK of the version then held (R136). An accepted commit frees the
former current slot, RETIRING where it was WRITING, makes its own slot current, DIRTY with a new commit order, or
WRITING with its WRITE_RECORD issued, hands the slot to READs and FETCHes in their slot wait, which for one whose
lookup failed is log 20, and takes the block off the repair list (R45, R79, R85). A command is issued to the end of
the media queue while it has room and none waits, entering service at an idle port, and otherwise waits in the cache;
a port that is down takes none (R83, R97). -/
def Obligations.ReplayTaken : Prop :=
  (∀ (s : State) (src : Source) (tag : Tag) (target : StationNo) (b : Block) (v : Version) (d : Data),
    takesFrame s (replayFrame src tag target b v d) = true →
    let h := afterEcho s
    ((inService s = false ∨ src.mark ≠ s.member.mark ∨ isReplica s b = false) →
      exec (.replayHeard src tag target b v d) s = .next (settle h))
    ∧ (inService s = true → src.mark = s.member.mark → isReplica s b = true →
      (volume s ≤ b.toNat →
        exec (.replayHeard src tag target b v d) s = .next (settle (offer h
          (nackFrame (self s) tag b ((heldVersion s b).getD 0) 2) .acknowledgement)))
      ∧ (b.toNat < volume s → allocate s = none →
        exec (.replayHeard src tag target b v d) s = .next (settle (listBlock (offer h
          (nackFrame (self s) tag b ((heldVersion s b).getD 0) 3) .acknowledgement) b)))
      ∧ (∀ i w, b.toNat < volume s → allocate s = some i → heldVersion
          { h with cache := { h.cache with
              slots := s.cache.slots.set i (.held b d (.replayTarget tag) (some v)) } } b = some w →
        let held : State := { h with cache := { h.cache with
          slots := s.cache.slots.set i (.held b d (.replayTarget tag) (some v)) } }
        (w < v → exec (.replayHeard src tag target b v d) s = .next (settle (offer
          (acceptCommit held i b v d) (ackFrame (self (acceptCommit held i b v d)) tag b v)
          .acknowledgement)))
        ∧ (v ≤ w → exec (.replayHeard src tag target b v d) s = .next (settle (offer
          { held with cache := { held.cache with slots := held.cache.slots.set i .free } }
          (ackFrame (self s) tag b w) .acknowledgement))))
      ∧ (∀ i, b.toNat < volume s → allocate s = some i → s.port.down = false →
        let held : State := { h with cache := { h.cache with
          slots := s.cache.slots.set i (.held b d (.replayTarget tag) (some v)) } }
        heldVersion held b = none →
        let waits (k : ReadKind) : State := { held with cache := { held.cache with pendings := s.cache.pendings ++
          [{ block := b, on := k, slot := i, version := v, data := d, source := .replay tag }] } }
        exec (.replayHeard src tag target b v d) s = .next (settle (
          if isFilling held b then waits .record
          else if headerInFlight held b then waits .header
          else issue (waits .header) (.readHeader b))))))
  ∧ (∀ (s : State) (b : Block) (t : Tag) (w : Version),
    reportCommit s b (.replay t) w = offer s (ackFrame (self s) t b w) .acknowledgement)
  ∧ (∀ (s : State) (i : Nat) (b : Block) (v : Version) (d : Data),
    let former (l : List Slot) : List Slot := match currentSlot s b with
      | none => l
      | some j => if j = i then l else l.set j (match slotAt s j with
        | .writing b' v' d' => .retiring b' v' d'
        | _ => .free)
    let slotted (x : Slot) : State := { s with cache := { s.cache with slots := (former s.cache.slots).set i x } }
    let made : State :=
      if s.member.straps.writeBack then
        let u := slotted (.dirty b v d (s.cache.commitOrder + 1))
        { u with cache := { u.cache with commitOrder := s.cache.commitOrder + 1 } }
      else issue (slotted (.writing b v d)) (.writeRecord b v d i)
    let settled : State := { made with
      table := s.table.map fun e =>
        if (e.kind = .clientRead ∨ e.kind = .peerFetch) ∧ e.state = .slotWait ∧ e.reason = none ∧ e.block = some b then
          { e with slot := some i, failure := none } else e,
      repair := { s.repair with waitingRoom := s.repair.waitingRoom.filter fun c => decide (c ≠ b) } }
    acceptCommit s i b v d = unlistBlock settled b ∧ isListed (acceptCommit s i b v d) b = false)
  ∧ ∀ (s : State) (c : MediaCmd),
    (s.port.down = true → issue s c = s)
    ∧ (s.port.down = false → (s.cache.waiting ≠ [] ∨ 8 ≤ s.port.queue.length) →
      issue s c = { s with cache := { s.cache with waiting := s.cache.waiting ++ [c] } })
    ∧ (s.port.down = false → s.cache.waiting = [] → s.port.queue.length < 8 →
      (s.port.phase ≠ .idle → issue s c = { s with port := { s.port with queue := s.port.queue ++ [c] } })
      ∧ (s.port.phase = .idle → s.port.queue = [] → issue s c =
        { s with port := { s.port with
            queue := [c], retry := 0, phase := if c.isWrite then .writing else .reading, op := s.port.op + 1,
            timer := some (s.clock + 50000) } }))

/-- A STATUS_QUERY for the station is answered at once in every state but STARTING, whatever its mark and sender: a
STATUS_REPORT to the query's sender, under its tag, with the report of this moment. A STATUS_REPORT has no effect
(R185, R191, R192). -/
def Obligations.StatusReported : Prop :=
  ∀ (s : State) (src : Source) (tag : Tag) (target : StationNo) (r : Report),
    (takesFrame s (statusQueryFrame src tag target) = true →
      exec (.statusQueryHeard src tag target) s = .next (settle (offer (afterEcho s)
        { kind := .statusReport, sender := ownNumber s, mark := s.member.mark, tag := tag,
          target := src.sender, block := 0, version := 0, aux := 0, payload := 0,
          report := statusReport s } .statusReport)))
    ∧ (takesFrame s (statusReportFrame src tag target r) = true →
      exec (.statusReportHeard src tag target r) s = .next (settle (afterEcho s)))

/-! ### Expiries of timers -/

/-- A write's version lookup answered in LOOKUP takes it to WAIT_ORDER with the version: an ORDER followed is decided,
and otherwise a replica that may lead, SERVING, the block not listed and its version known, begins a slot wait over
the replica list; a wait of no slots ends at once (R15, R23, R24; log 15). The lead wait ends: a replica that may
still lead offers ORDER one above its held version, or refuses the write with VERSION_LIMIT at the maximum; one that
may no longer lead queues nothing (R5, R25). The clock at an expiry is the model's (log 1). -/
def Obligations.LeadWaitEnds : Prop :=
  (∀ (s : State) (tag : Tag) (e : Entry) (a : HeldVersion), findEntry s tag = some e →
    let stored (x : Entry) : Entry :=
      if x.state = .lookup then { x with state := .waitOrder, ownVersion := some a } else x
    let u := updateEntry s tag stored
    (e.state ≠ .lookup → writeAnswered s tag a = s)
    ∧ (e.state = .lookup → e.followed ≠ none → writeAnswered s tag a = decideFollow u tag)
    ∧ (e.state = .lookup → e.followed = none → writeAnswered s tag a = beginLead u tag))
  ∧ (∀ (s : State) (tag : Tag) (e : Entry), findEntry s tag = some e →
    let mayLead := s.member.state = .serving ∧ isListed s e.blk = false
      ∧ ∃ v, e.ownVersion = some (.known v)
    let w := slotWait s (replicas s (groupOf e.blk))
    let u := updateEntry s tag fun x => { x with wait := some (s.clock + w) }
    (¬mayLead → beginLead s tag = s)
    ∧ (mayLead → 0 < w → beginLead s tag = u)
    ∧ (mayLead → w = 0 → e.kind = .clientWrite → s.resetHeld = false →
      exec (.leadWaitExpiry tag) u = .next (settle (beginLead s tag))))
  ∧ ∀ (s : State) (tag : Tag) (e : Entry) (due : Nat), s.resetHeld = false →
    findEntry s tag = some e → e.kind = .clientWrite → e.wait = some due →
    let t : State := { s with
      clock := max s.clock due,
      table := s.table.map fun x => if x.tag = tag then { x with wait := none } else x }
    let mayLead := s.member.state = .serving ∧ isListed s e.blk = false
      ∧ ∃ v, e.ownVersion = some (.known v)
    (¬mayLead → exec (.leadWaitExpiry tag) s = .next (settle t))
    ∧ (mayLead → ∀ h : Version, heldForWrite s e = .known h →
      (h ≠ 4294967295 → exec (.leadWaitExpiry tag) s = .next (settle (offer t
        (orderFrame (self s) tag e.blk (h + 1)) .leadOrder)))
      ∧ (h = 4294967295 → exec (.leadWaitExpiry tag) s = .next (settle (nackWrite t
        { e with wait := none } .versionLimit))))

/-- The slot wait of a READ ends. A refused read is answered with its reason; an entry that can serve queues DATA of
its block's current slot and is ANSWERED; one that cannot is SILENT, unless every replica after it is ABSENT: then it
queues UNAVAILABLE with MEDIA_ERROR or NOT_CURRENT (R42, R47). Stated where the transmit queue has room. The clock at
an expiry is the model's (log 1). -/
def Obligations.ReadSlotWaitEnds : Prop :=
  ∀ (s : State) (tag : Tag) (e : Entry) (due : Nat), s.resetHeld = false →
    findEntry s tag = some e → e.kind = .clientRead → e.wait = some due →
    accepts s .data = true → accepts s .unavailable = true →
    let t : State := { s with clock := max s.clock due }
    let answered (f : Frame) : State :=
      finishEntry
        { t with
          bus := { t.bus with queue := t.bus.queue ++ [queuedFrame f .readAnswer] },
          table := t.table.map fun x =>
            if x.tag = tag then { x with sent := some { kind := f.kind, version := f.version } } else x }
        tag .answered
    (∀ r, e.reason = some r → exec (.readSlotWaitExpiry tag) s = .next (settle (answered
      (unavailableFrame (self s) tag e.blk (reasonCode r)))))
    ∧ (e.reason = none → ∀ i v d, currentCopy s e.blk = some (i, v, d) →
      s.member.state = .serving → isListed s e.blk = false → e.slot ≠ none → e.sentData = false →
      exec (.readSlotWaitExpiry tag) s = .next (settle (touchSlot
        (answered (dataFrame (self s) tag e.blk v d)) i)))
    ∧ (e.reason = none →
      (s.member.state ≠ .serving ∨ isListed s e.blk = true ∨ e.slot = none
        ∨ currentCopy s e.blk = none ∨ e.sentData = true) →
      let after := (replicas s (groupOf e.blk)).dropWhile (fun n => decide (n ≠ ownNumber s)) |>.drop 1
      ((∃ n ∈ after, isAbsent s n = false) →
        exec (.readSlotWaitExpiry tag) s = .next (settle (finishEntry t tag .silent)))
      ∧ ((∀ n ∈ after, isAbsent s n = true) →
        exec (.readSlotWaitExpiry tag) s = .next (settle (answered
          (unavailableFrame (self s) tag e.blk
            (if e.failure = some .mediaError then 9 else 8))))))

/-- The slot wait of a FETCH ends: SILENT where the block is listed or DATA was sent; DATA above the requester's
version and CURRENT otherwise where the block has a current copy; without one, UNAVAILABLE from the last able to
answer and silence from any other; a refused FETCH is answered with its reason (R149, R151). Stated where the transmit
queue has room. The clock at an expiry is the model's (log 1). -/
def Obligations.FetchSlotWaitEnds : Prop :=
  ∀ (s : State) (tag : Tag) (e : Entry) (due : Nat), s.resetHeld = false →
    findEntry s tag = some e → e.kind = .peerFetch → e.wait = some due →
    (∀ k, kindClass k = 1 → accepts s k = true) →
    let t : State := { s with clock := max s.clock due }
    let answered (f : Frame) : State :=
      finishEntry
        { t with
          bus := { t.bus with queue := t.bus.queue ++ [queuedFrame f .fetchAnswer] },
          table := t.table.map fun x =>
            if x.tag = tag then { x with sent := some { kind := f.kind, version := f.version } } else x }
        tag .answered
    let silent := exec (.fetchSlotWaitExpiry tag) s = .next (settle (finishEntry t tag .silent))
    (∀ r, e.reason = some r → exec (.fetchSlotWaitExpiry tag) s = .next (settle (answered
      (unavailableFrame (self s) tag e.blk (reasonCode r)))))
    ∧ (e.reason = none → (isListed s e.blk = true ∨ e.sentData = true) → silent)
    ∧ (e.reason = none → isListed s e.blk = false → e.sentData = false →
      (∀ i v d, currentCopy s e.blk = some (i, v, d) →
        ((e.requested = some .unknown ∨ ∃ r, e.requested = some (.known r) ∧ r < v) →
          exec (.fetchSlotWaitExpiry tag) s = .next (settle (touchSlot
            (answered (dataFrame (self s) tag e.blk v d)) i)))
        ∧ ((∃ r, e.requested = some (.known r) ∧ v ≤ r) →
          exec (.fetchSlotWaitExpiry tag) s = .next (settle (answered
            (currentFrame (self s) tag e.blk v)))))
      ∧ (currentCopy s e.blk = none →
        let after := ((replicas s (groupOf e.blk)).filter (fun n => decide (some n ≠ e.requester))).dropWhile
          (fun n => decide (n ≠ ownNumber s)) |>.drop 1
        ((∃ n ∈ after, isAbsent s n = false) → silent)
        ∧ ((∀ n ∈ after, isAbsent s n = true) →
          exec (.fetchSlotWaitExpiry tag) s = .next (settle (answered
            (unavailableFrame (self s) tag e.blk
              (if e.failure = some .mediaError then 9 else 8)))))))

/-- The ack window of a write ends. With every co-replica answered nothing is reported. A silent co-replica marked
ABSENT is listed for the block; one that is live is counted a miss and listed as well, the miss first, which is the
model's choice (log 50); two are reported one after the other in either order (log 14) (R36, R37, R125). A miss raises
a live peer's count below the third and declares it down at the third: ABSENT, its count cleared, PEER_DOWN naming it
offered, its last notice now, and the change handed on; of an ABSENT peer it changes nothing (R111, R113). The entry's
window is over, and an entry kept only for it leaves the table (R69). The clock at an expiry is the model's (log
1). -/
def Obligations.AckWindowEnds : Prop :=
  (∀ (s : State) (p : StationNo),
    (∀ x, inService s = true → isLive s p = true → peerEntry s p = some x →
      (x.misses + 1 < 3 → reportMiss s p = { s with peers := s.peers.map fun y =>
        if y.peer = p then { y with misses := y.misses + 1 } else y })
      ∧ (3 ≤ x.misses + 1 → reportMiss s p = handOnAbsent
        (offer
          { s with peers := s.peers.map fun y =>
            if y.peer = p then { y with state := .absent, misses := 0, lastNotice := some s.clock } else y }
          (peerDownFrame (self s) p) (.peerNotice p)) p))
    ∧ ((inService s = false ∨ isLive s p = false) → reportMiss s p = s))
  ∧ ∀ (s : State) (tag : Tag) (e : Entry) (due : Nat), s.resetHeld = false →
    findEntry s tag = some e → e.kind = .clientWrite → e.ackWindow = some due →
    let t : State := { s with clock := max s.clock due, freeCount := s.freeCount + 1 }
    let held := ∃ f, e.finished = some f ∧ f + 100000 ≤ max s.clock due
    let closed (u : State) : State := { u with table := u.table.map fun x =>
      if x.tag = tag then { x with ackWindow := none } else x }
    let silent := (coReplicas s (groupOf e.blk)).filter fun n => !hasAnswered e n
    let report (u : State) (p : StationNo) : State :=
      if isAbsent u p then recordMissed u p e.blk else recordMissed (reportMiss u p) p e.blk
    (∀ p, silent = [p] → ¬held → exec (.ackWindowExpiry tag) s = .next (settle (closed (report t p))))
    ∧ (∀ p q, silent = [p, q] → ¬held →
      exec (.ackWindowExpiry tag) s = .next (settle (closed (report (report t p) q)))
      ∨ exec (.ackWindowExpiry tag) s = .next (settle (closed (report (report t q) p))))
    ∧ (silent = [] → ¬held → exec (.ackWindowExpiry tag) s = .next (settle (closed t)))
    ∧ (silent = [] → held → exec (.ackWindowExpiry tag) s = .next (settle
      { t with table := s.table.filter fun x => decide (x.tag ≠ tag) }))
    ∧ (∀ p, silent = [p] → isAbsent s p = true → ¬held →
      exec (.ackWindowExpiry tag) s = .next (settle (closed (recordMissed t p e.blk))))
    ∧ (∀ p x, silent = [p] → inService s = true → isLive s p = true → peerEntry s p = some x →
      x.misses + 1 < 3 → ¬held →
      exec (.ackWindowExpiry tag) s = .next (settle (closed (recordMissed
        { t with peers := t.peers.map fun y =>
            if y.peer = p then { y with misses := y.misses + 1 } else y }
        p e.blk))))

/-- A missed write is recorded once, at the end of the peer's list; not in an overflowed peer's, nor out of range, nor
outside SERVING and CATCHING_UP; with the pool full the peer is given up: its list freed and its overflow flag set
(R9, R124, R125, R126). A block in doubt goes to the tail of the repair list as READY, what waits to be sent of it is
held back and its pushes end; not twice, nor out of range, nor outside SERVING and CATCHING_UP (R9, R130, R139, R140).
That a READ's DATA is withdrawn so is the model's reading (log 19), that a refused FETCH's UNAVAILABLE is its choice
(log 46). With 64 listed its group is added to the sweep of a catch-up whose sweep-needed flag is set, and otherwise
that flag is set, PEER_DOWN naming the station offered and a catch-up begun (R142; that it is offered once is log
35). -/
def Obligations.MissedWriteIsListed : Prop :=
  (∀ (s : State) (b : Block),
    ((inService s = false ∨ isListed s b = true ∨ volume s ≤ b.toNat) → listBlock s b = s)
    ∧ (inService s = true → isListed s b = false → b.toNat < volume s →
      (s.repair.list.length < 64 →
        let t := listBlock s b
        t = holdBack { s with repair := { s.repair with
          list := s.repair.list ++ [{ block := b, state := .ready }] } } b
        ∧ t.repair.list = s.repair.list ++ [{ block := b, state := .ready }]
        ∧ (∀ f ∈ t.bus.queue, f.phase = .queued → f ∈ s.bus.queue
          ∧ (f.frame.block = b → f.purpose ≠ .leadOrder ∧ f.purpose ≠ .supersedeOrder ∧ f.purpose ≠ .fetchAnswer
            ∧ (f.purpose = .readAnswer → f.frame.kind ≠ .data)))
        ∧ (∀ p ∈ t.replay.pushes, p ∈ s.replay.pushes ∧ p.block ≠ b)
        ∧ t.repair.waitingRoom = s.repair.waitingRoom ∧ t.repair.fetches = s.repair.fetches
        ∧ t.peers = s.peers ∧ t.member = s.member ∧ t.media = s.media ∧ t.cache.slots = s.cache.slots)
      ∧ (64 ≤ s.repair.list.length →
        (s.member.state = .catchingUp → s.member.sweepNeeded = true →
          listBlock s b = addGroups s [groupOf b])
        ∧ ((s.member.state ≠ .catchingUp ∨ s.member.sweepNeeded = false) →
          listBlock s b = beginCatchUp (offer
            { s with member := { s.member with sweepNeeded := true } }
            (peerDownFrame (self s) (ownNumber s)) .overflowNotice)))))
  ∧ ∀ (s : State) (p : StationNo) (b : Block),
    let t := recordMissed s p b
    ((inService s = false ∨ isMissed s p b = true ∨ inMark s.replay.overflow p = true
        ∨ volume s ≤ b.toNat) → t = s)
    ∧ (inService s = true → isMissed s p b = false → inMark s.replay.overflow p = false → b.toNat < volume s →
      s.replay.pool.length < 1024 →
      t.replay.pool = s.replay.pool
        ++ [{ peer := p, block := b, recorded := s.clock, retry := none, push := false }]
      ∧ t.table = s.table ∧ t.cache = s.cache ∧ t.peers = s.peers ∧ t.member = s.member
      ∧ t.repair = s.repair)
    ∧ (inService s = true → p.isStore = true → isMissed s p b = false → inMark s.replay.overflow p = false →
      b.toNat < volume s → 1024 ≤ s.replay.pool.length →
      (∀ m ∈ t.replay.pool, m.peer ≠ p) ∧ inMark t.replay.overflow p = true
        ∧ isLive t p = false)

/-- An entry still unfinished 100 ms after its creation becomes EXPIRED and is counted. A READ, FETCH or FLUSH entry
releases nothing more; a write that has not committed also gives up its HELD slot and has its block listed, unless it
followed an ORDER and the held version is known and not below that; a COMMITTING write releases nothing (R38, R57,
R67, R68). An own push ends with no retry time; an own fetch ends with its pending commit dropped, its repair entry
READY, its sweep block to be taken again at once (R130, R148). A finished entry does not expire: it leaves the table
at the end of its retire hold, unless its ack window still runs (R69). The clock at an expiry is the model's (log
1). -/
def Obligations.EntryTimesEnd : Prop :=
  (∀ (s : State) (tag : Tag) (e : Entry), s.resetHeld = false → findEntry s tag = some e →
      let t : State := { s with clock := max s.clock (e.created + 100000) }
      let expired := expireEntry t tag
      (e.state.finished = true → exec (.requestLifetimeExpiry tag) s = .next (settle s))
      ∧ (e.state.finished = false →
        ((e.kind = .clientRead ∨ e.kind = .peerFetch ∨ e.kind = .clientFlush
            ∨ (e.kind = .clientWrite ∧ e.state ≠ .lookup ∧ e.state ≠ .waitOrder)
            ∨ (e.kind = .ownFetch ∧ fetchOfTag s tag = none)
            ∨ (e.kind = .ownReplay ∧ pushOfTag s tag = none)) →
          exec (.requestLifetimeExpiry tag) s = .next (settle expired))
        ∧ (e.kind = .clientWrite → (e.state = .lookup ∨ e.state = .waitOrder) →
          let freed : State := { expired with cache := { expired.cache with
            slots := expired.cache.slots.map fun x =>
              match x with
              | .held b d o v => if o = .clientWrite tag then .free else .held b d o v
              | x => x } }
          ((∃ f w, e.followed = some f ∧ heldForWrite s e = .known w ∧ f ≤ w) →
            exec (.requestLifetimeExpiry tag) s = .next (settle freed))
          ∧ ((∀ f w, e.followed = some f → heldForWrite s e = .known w → w < f) →
            exec (.requestLifetimeExpiry tag) s = .next (settle (listBlock freed e.blk))))
        ∧ (e.kind = .ownReplay → ∀ p, pushOfTag s tag = some p →
          exec (.requestLifetimeExpiry tag) s = .next (settle (endPush t p none .expired)))
        ∧ (e.kind = .ownFetch → ∀ f, fetchOfTag s tag = some f → f.sweep = false →
          exec (.requestLifetimeExpiry tag) s = .next (settle (
            if ownsEntry s f then
              setRepairState (endFetch (dropFetchCommit t f.id) f .expired) f.block .ready
            else endFetch (dropFetchCommit t f.id) f .expired)))
        ∧ (e.kind = .ownFetch → ∀ f, fetchOfTag s tag = some f → f.sweep = true →
          exec (.requestLifetimeExpiry tag) s = .next (settle (addRetake
            (endFetch (dropFetchCommit t f.id) f .expired) f.block none)))))
  ∧ (∀ (s : State) (tag : Tag) (e : Entry) (f : Nat), s.resetHeld = false →
      findEntry s tag = some e → e.finished = some f →
      (e.ackWindow = none → exec (.retireHoldEnd tag) s = .next (settle
        { s with
          clock := max s.clock (f + 100000),
          table := s.table.filter fun x => decide (x.tag ≠ tag) }))
      ∧ (e.ackWindow ≠ none → exec (.retireHoldEnd tag) s = .next (settle
        { s with clock := max s.clock (f + 100000) })))

/-- What EXPIRED means in the table: the entry's state and finished time, no wait, no slot, one more expired entry in
the report, and every other entry untouched (R60, R67, R69). -/
def Obligations.ExpiredEntry : Prop :=
  ∀ (s : State) (tag : Tag) (e : Entry), findEntry s tag = some e →
    let t := expireEntry s tag
    findEntry t tag = some
        { e with
          state := .expired, finished := if e.state = .expired then e.finished else some s.clock,
          wait := none, slot := none }
    ∧ (∀ u, u ≠ tag → findEntry t u = findEntry s u)
    ∧ t.counters = { s.counters with entriesExpired :=
        if s.counters.entriesExpired = 65535 then 65535 else s.counters.entriesExpired + 1 }
    ∧ t.bus = s.bus ∧ t.cache.slots = s.cache.slots ∧ t.port = s.port ∧ t.member = s.member
    ∧ t.peers = s.peers ∧ t.replay = s.replay ∧ t.repair = s.repair

/-- The timers of the recovery side that set their object free again: a missed-write entry's retry time (R128), a
parked repair entry's park end (R139), a sweep block's 5 ms (R144), and a REPLAY_DONE held back, which is offered
again with the flag it carried while the peer is CATCHING_UP and its list empty, and given up otherwise (R137). That
the overflow flag is cleared when it is queued, whatever flag it carries, and stays as it is when it is given up is
the model's choice (log 27), and so is the clock at an expiry (log 1). -/
def Obligations.HeldBackWorkIsFreed : Prop :=
  (∀ s : State, s.resetHeld = false →
      (∀ (p : StationNo) (b : Block) (m : Missed) (due : Nat),
        (s.replay.pool.find? fun x => decide (x.peer = p) && decide (x.block = b)) = some m →
        m.retry = some due →
        exec (.replayRetryTimeExpiry p b) s = .next (settle
          { s with
            clock := max s.clock due,
            replay := { s.replay with pool := s.replay.pool.map fun x =>
              if x.peer = p ∧ x.block = b then { x with retry := none } else x } }))
      ∧ (∀ (b : Block) (e : RepairEntry) (due : Nat),
        (s.repair.list.find? fun x => decide (x.block = b)) = some e → e.state = .parked due →
        exec (.parkEnd b) s = .next (settle
          { s with
            clock := max s.clock due,
            repair := { s.repair with list := s.repair.list.map fun x =>
              if x.block = b then { x with state := .ready } else x } }))
      ∧ (∀ (b : Block) (r : Retake) (due : Nat),
        (s.repair.retakes.find? fun x => decide (x.block = b) && x.due.isSome) = some r →
        r.due = some due →
        exec (.sweepBlockRetake b) s = .next (settle
          { s with
            clock := max s.clock due,
            repair := { s.repair with retakes := s.repair.retakes.map fun x =>
              if x = r then { x with due := none } else x } })))
  ∧ (∀ (s : State) (p : StationNo) (r : Reoffer), s.resetHeld = false →
      (s.replay.reoffers.find? fun x => decide (x.peer = p)) = some r →
      let t : State := { s with
        clock := max s.clock r.due,
        replay := { s.replay with reoffers := s.replay.reoffers.erase r } }
      (inService s = true → isCatchingUp s p = true → (∀ m ∈ s.replay.pool, m.peer ≠ p) →
        accepts s .replayDone = true →
        exec (.replayDoneReoffer p) s = .next (settle
          { t with
            bus := { t.bus with queue := t.bus.queue ++
              [queuedFrame (replayDoneFrame (self s) p r.sweep) (.replayDone p r.sweep)] },
            replay := { t.replay with overflow := s.replay.overflow &&& ~~~ markOf p } }))
      ∧ ((inService s = false ∨ isCatchingUp s p = false ∨ ∃ m ∈ s.replay.pool, m.peer = p) →
        exec (.replayDoneReoffer p) s = .next (settle t)))

/-- The answer wait of a push ends: a miss for the peer, and then, by the peer's state, another attempt below the
third, the end of the push with its retry time 5 ms ahead after the third, or the end of the push to a peer become
ABSENT (R111, R130, R133). A push that ends leaves the list entry no longer being pushed, with the retry time given,
and its lookup waits no more; its OWN_REPLAY entry, if OUTSTANDING, enters the state given, and its REPLAY is
withdrawn (R129, R130). The clock at an expiry is the model's (log 1). -/
def Obligations.ReplayAnswerWaitEnds : Prop :=
  (∀ (s : State) (p : Push) (retry : Option Nat) (st : EntryState),
    let ended : State := { s with
      replay := { s.replay with
        pushes := s.replay.pushes.filter fun q => decide (q.id ≠ p.id),
        pool := s.replay.pool.map fun m =>
          if m.peer = p.peer ∧ m.block = p.block then { m with push := false, retry := retry } else m },
      cache := { s.cache with waiters := s.cache.waiters.filter fun w => decide (w.user ≠ .push p.id) } }
    (p.tag = none → endPush s p retry st = ended)
    ∧ ∀ t, p.tag = some t → endPush s p retry st = withdraw
      (match findEntry s t with
        | none => ended
        | some e =>
          if e.state ≠ .outstanding then ended
          else if st = .expired then expireEntry ended t else finishEntry ended t st)
      (forTag .ownReplay t) .plain)
  ∧ ∀ (s : State) (tag : Tag) (p : Push) (due : Nat), s.resetHeld = false →
    pushOfTag s tag = some p → p.phase = .awaiting due →
    let t := reportMiss { s with clock := max s.clock due } p.peer
    (findPush t p.id = none → exec (.replayAnswerWaitExpiry tag) s = .next (settle t))
    ∧ (∀ q, findPush t p.id = some q →
      (isLive t q.peer = true → attemptsOf t q.tag < 3 →
        exec (.replayAnswerWaitExpiry tag) s = .next (settle (lookupPush t q)))
      ∧ (isLive t q.peer = true → 3 ≤ attemptsOf t q.tag →
        exec (.replayAnswerWaitExpiry tag) s
          = .next (settle (endPush t q (some (t.clock + 5000)) .done)))
      ∧ (isLive t q.peer = false →
        exec (.replayAnswerWaitExpiry tag) s = .next (settle (endPush t q none .done))))

/-- The fetch window closes: the highest DATA taken is put in a HELD slot and offered as a commit, a CURRENT alone
settles the fetch, nothing of use leads to another attempt below the third and leaves the fetch unanswered after it
(R146). The commit is decided at once against a current copy, or waits on the block's media read (R80); its decision,
either way, and a window of CURRENT alone end the fetch: its OWN_FETCH entry DONE, its FETCH withdrawn if still
queued, and the block, if the repair entry is still the fetch's own, off the repair list (R141, R147). With no entry
given, FETCH refused or no slot for the data, it ends without an attempt, the repair entry PARKED or the sweep block
to be taken again for 5 ms (R144). A block that leaves the list ends its repair fetch, but for one with its commit
pending (R148). A fetch, and each attempt of it, begins with a version lookup; answered, it has an OUTSTANDING entry
under a fresh tag, or its entry under a fresh tag with one more attempt, and FETCH is queued with the held version, or
the unknown mark (R62, R143, R144). Unanswered, a repair entry is PARKED for 50 ms, and a sweep block goes on the
repair list, waits for room where that is full, neither twice, or is counted unverified with no live co-replica (R146,
R158, R159); the oldest block that waits takes a place that falls free (R159). That a retry is tagged only now, its
lookup over, and keeps the answers recorded under its former tag, is the model's choice (logs 51, 57). The clock at an
expiry is the model's (log 1). -/
def Obligations.FetchWindowCloses : Prop :=
  (∀ (s : State) (b : Block) (sweep : Bool),
    let f : Fetch := {
      id := s.nextId, block := b, sweep := sweep, phase := .lookup, tag := none, buffer := none,
      currentTaken := false }
    beginFetch s b sweep = lookupFetch
      { s with nextId := s.nextId + 1, repair := { s.repair with fetches := s.repair.fetches ++ [f] } } f)
  ∧ (∀ (s : State) (f : Fetch),
    let t : State := { s with repair := { s.repair with fetches := s.repair.fetches.map fun g =>
      if g.id = f.id then { g with phase := .lookup } else g } }
    (∀ i v d, currentCopy s f.block = some (i, v, d) →
      lookupFetch s f = fetchAnswered (touchSlot t i) f.id (.known v))
    ∧ (currentCopy s f.block = none → s.port.down = false →
      lookupFetch s f =
        if isFilling s f.block then addWaiter t f.block .record (.fetch f.id)
        else if headerInFlight s f.block then addWaiter t f.block .header (.fetch f.id)
        else issue (addWaiter t f.block .header (.fetch f.id)) (.readHeader f.block)))
  ∧ (∀ (s : State) (f : Fetch) (a : HeldVersion), findFetch s f.id = some f → f.phase = .lookup →
    let tagged (table : List Entry) : State :=
      { s with
        sequence := (ownTag s).seq + 1,
        table := table,
        repair := { s.repair with fetches := s.repair.fetches.map fun g =>
          if g.id = f.id then { g with tag := some (ownTag s) } else g } }
    let version := match heldVersion s f.block with
      | some v => HeldVersion.known v
      | none => a
    let offered (table : List Entry) : State :=
      if accepts s .fetch then
        { tagged table with
          bus := { s.bus with queue := s.bus.queue ++ [queuedFrame
            (match version with
              | .known v => fetchFrame (self s) (ownTag s) f.block v false
              | .unknown => fetchFrame (self s) (ownTag s) f.block 0 true) .ownFetch] },
          repair := { s.repair with fetches := s.repair.fetches.map fun g =>
            if g.id = f.id then
              { g with tag := some (ownTag s), phase := .queued, buffer := none, currentTaken := false }
            else g } }
      else endNoAttempt (tagged table) { f with tag := some (ownTag s) }
    (f.tag = none → s.table.length < 24 → fetchAnswered s f.id a =
      offered (s.table ++ [newEntry s (ownTag s) .ownFetch (some f.block) .outstanding]))
    ∧ (f.tag = none → 24 ≤ s.table.length → (∀ e ∈ s.table, e.state.finished = false) →
      fetchAnswered s f.id a = endNoAttempt s f)
    ∧ (∀ old, f.tag = some old → fetchAnswered s f.id a = offered (s.table.map fun e =>
      if e.tag = old then { e with tag := ownTag s, attempts := e.attempts + 1 } else e)))
  ∧ (∀ (s : State) (f : Fetch) (st : EntryState),
    let ended : State := { s with
      repair := { s.repair with fetches := s.repair.fetches.filter fun g => decide (g.id ≠ f.id) },
      cache := { s.cache with waiters := s.cache.waiters.filter fun w => decide (w.user ≠ .fetch f.id) } }
    (f.tag = none → endFetch s f st = ended)
    ∧ ∀ t, f.tag = some t → endFetch s f st = withdraw
      (match findEntry s t with
        | none => ended
        | some e =>
          if e.state ≠ .outstanding then ended
          else if st = .expired then expireEntry ended t else finishEntry ended t st)
      (forTag .ownFetch t) .plain)
  ∧ (∀ (s : State) (b : Block),
    (isListed s b = false → unlistBlock s b = s)
    ∧ (isListed s b = true →
      unlistBlock s b = fillRoom ((s.repair.fetches.filter fun f =>
          decide (f.block = b) && !f.sweep && decide (f.phase ≠ .committing)).foldl (fun u f => endFetch u f .done)
        { s with repair := { s.repair with list := s.repair.list.filter fun e => decide (e.block ≠ b) } })
      ∧ (b ∉ s.repair.waitingRoom → isListed (unlistBlock s b) b = false)))
  ∧ (∀ (s : State) (b : Block) (id : Nat) (w : Version),
    (findFetch s id = none → reportCommit s b (.ownFetch id) w = s)
    ∧ ∀ f, findFetch s id = some f → reportCommit s b (.ownFetch id) w = settleFetch s f)
  ∧ (∀ (s : State) (i : Nat) (b : Block) (v : Version) (d : Data) (src : CommitSource),
    let waits (k : ReadKind) : State := { s with cache := { s.cache with pendings := s.cache.pendings ++
      [{ block := b, on := k, slot := i, version := v, data := d, source := src }] } }
    (∀ w, heldVersion s b = some w →
      (w < v → offerCommit s i b v d src = reportCommit (acceptCommit s i b v d) b src v)
      ∧ (v ≤ w → offerCommit s i b v d src = reportCommit
        { s with cache := { s.cache with slots := s.cache.slots.set i .free } } b src w))
    ∧ (heldVersion s b = none →
      (s.port.down = true → offerCommit s i b v d src = reportCommit (acceptCommit s i b v d) b src v)
      ∧ (s.port.down = false → offerCommit s i b v d src =
        if isFilling s b then waits .record
        else if headerInFlight s b then waits .header
        else issue (waits .header) (.readHeader b))))
  ∧ (∀ (s : State) (f : Fetch),
    let own := f.sweep = false ∧ (∃ e ∈ s.repair.list, e.block = f.block ∧ e.state = .fetching)
      ∧ ∀ g ∈ s.repair.fetches, g.block = f.block → g.sweep = false → g.id ≤ f.id
    let u := endFetch s f .done
    let parked (due : Nat) : State := { u with repair := { u.repair with list := u.repair.list.map fun e =>
      if e.block = f.block then { e with state := .parked due } else e } }
    (own → settleFetch s f = unlistBlock u f.block ∧ endNoAttempt s f = parked (s.clock + 5000)
      ∧ endUnanswered s f = parked (s.clock + 50000))
    ∧ (f.sweep = true → settleFetch s f = u ∧ endNoAttempt s f =
      { u with repair := { u.repair with retakes :=
          u.repair.retakes ++ [{ block := f.block, due := some (s.clock + 5000) }] } })
    ∧ (¬own → f.sweep = false → settleFetch s f = u ∧ endNoAttempt s f = u ∧ endUnanswered s f = u))
  ∧ (∀ (s : State) (f : Fetch),
    let u := endFetch s f .done
    (f.sweep = true → groupLive u (groupOf f.block) = false → endUnanswered s f =
      { u with repair := { u.repair with unverified := min (volume u) (u.repair.unverified + 1) } })
    ∧ (f.sweep = true → groupLive u (groupOf f.block) = true →
      ((isListed u f.block = true ∨ f.block ∈ u.repair.waitingRoom) → endUnanswered s f = u)
      ∧ (isListed u f.block = false → f.block ∉ u.repair.waitingRoom →
        (u.repair.list.length < 64 → endUnanswered s f = placeReady u f.block)
        ∧ (64 ≤ u.repair.list.length → endUnanswered s f =
          { u with repair := { u.repair with waitingRoom := u.repair.waitingRoom ++ [f.block] } }))))
  ∧ (∀ (s : State) (b : Block) (rest : List Block), s.repair.waitingRoom = b :: rest →
    (∀ c ∈ b :: rest, isListed s c = false) →
    fillRoom s = if s.repair.list.length < 64 then
        placeReady { s with repair := { s.repair with waitingRoom := rest } } b
      else s)
  ∧ ∀ (s : State) (tag : Tag) (f : Fetch) (due : Nat), s.resetHeld = false →
    fetchOfTag s tag = some f → f.phase = .window due →
    let t : State := { s with clock := max s.clock due }
    (∀ v d, f.buffer = some (v, d) →
      (∀ i, allocate s = some i → exec (.fetchWindowClose tag) s = .next (settle (offerCommit
        { t with
          cache := { t.cache with
            slots := s.cache.slots.set i (.held f.block d (.ownFetch f.id) (some v)) },
          repair := { t.repair with fetches := s.repair.fetches.map fun g =>
            if g.id = f.id then { g with phase := .committing } else g } }
        i f.block v d (.ownFetch f.id))))
      ∧ (allocate s = none → exec (.fetchWindowClose tag) s = .next (settle (endNoAttempt t f))))
    ∧ (f.buffer = none → f.currentTaken = true →
      exec (.fetchWindowClose tag) s = .next (settle (settleFetch t f)))
    ∧ (f.buffer = none → f.currentTaken = false → attemptsOf s f.tag < 3 →
      exec (.fetchWindowClose tag) s = .next (settle (lookupFetch t f)))
    ∧ (f.buffer = none → f.currentTaken = false → 3 ≤ attemptsOf s f.tag →
      exec (.fetchWindowClose tag) s = .next (settle (endUnanswered t f)))

/-- The catch-up limit expires: each peer still awaited is declared down, taken out of the awaited set and its shared
groups added to the sweep, and the awaited set is then empty (R113, R155, R160). To be declared down a live peer's
entry becomes ABSENT with its miss count cleared, PEER_DOWN naming it is offered and its last notice time set; an
entry already ABSENT stays, and no frame is offered for it (R113). What the change to ABSENT hands on follows (R120).
That the peers go in ascending station number is the model's (log 13), and so is the clock (log 1). -/
def Obligations.CatchUpLimitExpires : Prop :=
  (∀ (s : State) (due : Nat), s.resetHeld = false → s.repair.limit = some due →
    let t := (markMembers s.repair.awaited).foldl dropAwaited
      { s with clock := max s.clock due, repair := { s.repair with limit := none } }
    exec .catchUpLimitExpiry s = .next (settle t)
    ∧ t.repair.awaited = 0 ∧ t.repair.limit = none
    ∧ (inService s = true →
      t.peers = s.peers.map (fun e =>
        if inMark s.repair.awaited e.peer = true ∧ isLive s e.peer = true then
          { e with state := .absent, misses := 0, lastNotice := some (max s.clock due) } else e)
      ∧ (∀ p : StationNo, p.isStore = true → inMark s.repair.awaited p = true →
        isLive t p = false ∧ ∀ g ∈ sharedGroups s p, g ∈ t.repair.sweepSet)))
  ∧ (∀ (s : State) (p : StationNo),
    let left (u : State) : State :=
      if inMark u.repair.awaited p then
        addGroups
          { u with repair := { u.repair with
            awaited := u.repair.awaited &&& ~~~ markOf p,
            limit := if u.repair.awaited &&& ~~~ markOf p = 0 then none else u.repair.limit } }
          (sharedGroups u p)
      else u
    (inService s = true → isLive s p = true → dropAwaited s p = left (handOnAbsent
      (offer
        { s with peers := s.peers.map fun e =>
          if e.peer = p then { e with state := .absent, misses := 0, lastNotice := some s.clock } else e }
        (peerDownFrame (self s) p) (.peerNotice p)) p))
    ∧ (isLive s p = false → dropAwaited s p = left s))
  ∧ (∀ (s : State) (p : StationNo),
    (∀ f ∈ (handOnAbsent s p).bus.queue, f.phase = .queued → f ∈ s.bus.queue ∧ isReplayDoneTo p f = false)
    ∧ (∀ q ∈ (handOnAbsent s p).replay.pushes, q ∈ s.replay.pushes ∧ q.peer ≠ p)
    ∧ (s.repair.active = true → inMark s.repair.awaited p = true → p.isStore = true →
      inMark (handOnAbsent s p).repair.awaited p = false
      ∧ ∀ g ∈ sharedGroups s p, g ∈ (handOnAbsent s p).repair.sweepSet))

/-- The timers of formation. The listening window ends in FORMING with the station's own number as its candidates, the
quiet timer running for 15 ms and PRESENT queued (R168, R171). The quiet timer restarts for 15 ms with fewer
candidates than copies; otherwise formation closes on the candidates, into SERVING with the sweep-needed flag clear
and into a catch-up with it set (R173). The clock at an expiry is the model's (log 1). -/
def Obligations.FormationTimersEnd : Prop :=
  ∀ (s : State) (due : Nat), s.resetHeld = false →
    (s.member.listeningWindow = some due → accepts s .present = true →
      exec .listeningWindowExpiry s = .next (settle
        { s with
          clock := max s.clock due,
          member := { s.member with
            state := .forming, listeningWindow := none, candidates := markOf (ownNumber s),
            quietTimer := some (max s.clock due + 15000) },
          bus := { s.bus with queue := s.bus.queue ++ [queuedFrame
            (presentFrame (self s) (markOf (ownNumber s)) (ownConfiguration s)) .present] } }))
    ∧ (s.member.quietTimer = some due →
      ((markMembers s.member.candidates).length < copies s →
        exec .quietTimerExpiry s = .next (settle
          { s with
            clock := max s.clock due,
            member := { s.member with quietTimer := some (max s.clock due + 15000) } }))
      ∧ (copies s ≤ (markMembers s.member.candidates).length →
        let u := withdraw { s with clock := max s.clock due } (forPurpose .present) .plain
        let fixed : State := { u with
          member := { u.member with
            listeningWindow := none, quietTimer := none, presentReoffers := [],
            mark := s.member.candidates,
            placement := buildPlacement s.member.candidates (copies s), member := true },
          peers := makePeers s s.member.candidates }
        (s.member.sweepNeeded = false → exec .quietTimerExpiry s = .next (settle
          { fixed with member := { fixed.member with state := .serving } }))
        ∧ (s.member.sweepNeeded = true →
          exec .quietTimerExpiry s = .next (settle (beginCatchUp fixed)))))

/-- The frames that are offered again by timers, where the transmit queue takes them: PRESENT while FORMING with none
waiting, the one refused or dropped longest ago (R171; that one waiting is enough is log 49), ROSTER_QUERY while the
check is pending (R170), PEER_DOWN naming the station in OUT(MEDIA_DOWN) (R177), REJOIN in a catch-up (R153) and
CAUGHT_UP while SERVING (R161). Outside those states nothing is offered. The clock at an expiry is the model's (log
1). -/
def Obligations.FramesOfferedAgain : Prop :=
  ∀ (s : State) (due : Nat), s.resetHeld = false →
    let at_ : State := { s with clock := max s.clock due }
    let queued (t : State) (f : Frame) (p : Purpose) : State :=
      { t with bus := { t.bus with queue := t.bus.queue ++ [queuedFrame f p] } }
    (∀ rest, s.member.presentReoffers = due :: rest →
      let t := { at_ with member := { at_.member with presentReoffers := rest } }
      (s.member.state = .forming → presentQueued s = false → accepts s .present = true →
        exec .presentReoffer s = .next (settle (queued t
          (presentFrame (self s) s.member.candidates (ownConfiguration s)) .present)))
      ∧ (s.member.state ≠ .forming → exec .presentReoffer s = .next (settle t)))
    ∧ (s.member.queryTimer = some due →
      let t := { at_ with member := { at_.member with queryTimer := none } }
      (s.member.checkPending = true → inService s = true → accepts s .rosterQuery = true →
        exec .rosterQueryRepeat s = .next (settle (queued t (rosterQueryFrame (self s)) .rosterQuery)))
      ∧ (s.member.checkPending = false → exec .rosterQueryRepeat s = .next (settle t)))
    ∧ (s.member.ownDownReoffer = some due →
      let t := { at_ with member := { at_.member with ownDownReoffer := none } }
      (s.member.state = .out .mediaDown → s.member.member = true → accepts s .peerDown = true →
        exec .ownPeerDownReoffer s = .next (settle (queued t
          (peerDownFrame (self s) (ownNumber s)) .mediaDownNotice)))
      ∧ (s.member.state ≠ .out .mediaDown → exec .ownPeerDownReoffer s = .next (settle t)))
    ∧ (s.repair.rejoinRequeue = some due →
      let t := { at_ with repair := { at_.repair with rejoinRequeue := none } }
      (s.member.state = .catchingUp → s.repair.active = true → accepts s .rejoin = true →
        exec .rejoinRequeue s = .next (settle (queued t
          (rejoinFrame (self s)) (.rejoin s.repair.serial))))
      ∧ (s.member.state ≠ .catchingUp → exec .rejoinRequeue s = .next (settle t)))
    ∧ (s.repair.caughtUpRequeue = some due →
      let t := { at_ with repair := { at_.repair with caughtUpRequeue := none } }
      (s.member.state = .serving → accepts s .caughtUp = true →
        exec .caughtUpRequeue s = .next (settle (queued t (caughtUpFrame (self s)) .caughtUp)))
      ∧ (s.member.state ≠ .serving → exec .caughtUpRequeue s = .next (settle t)))
end

