-- ==== Sys2Proof/Laws/Arbitration.lean ====
section
/-! SUPPORT. What the bitwise contest of arbitration decides: the lowest 7-bit value wins. -/

namespace Sys2Proof.Machine

/-- Among stations whose bits above the `n` lower ones agree, the contest over those is won by the lowest value
(R180). -/
theorem contest_iff (own : BitVec 7) (n : Nat) (others : List (BitVec 7))
    (h : ∀ o ∈ others, o.toNat / 2 ^ n = own.toNat / 2 ^ n) :
    contest own n others = true ↔ ∀ o ∈ others, own ≤ o := by
  induction n generalizing others with
  | zero =>
    simp only [contest, true_iff]
    intro o ho
    have := h o ho
    simp only [Nat.pow_zero, Nat.div_one] at this
    exact BitVec.le_def.2 this.ge
  | succ n ih =>
    have bit (x : BitVec 7) : x.getLsbD n = decide (x.toNat / 2 ^ n % 2 = 1) := by
      rw [← BitVec.testBit_toNat, Nat.testBit_eq_decide_div_mod_eq]
    have half (x : BitVec 7) : x.toNat / 2 ^ (n + 1) = x.toNat / 2 ^ n / 2 := by
      rw [Nat.pow_succ, Nat.div_div_eq_div_mul]
    have lt {x y : BitVec 7} (hxy : x.toNat / 2 ^ n < y.toNat / 2 ^ n) : x < y :=
      BitVec.lt_def.2 (Nat.lt_of_div_lt_div hxy)
    simp only [contest]
    split
    next hl =>
      simp only [Bool.and_eq_true, List.any_eq_true, Bool.not_eq_true', bit, decide_eq_true_eq,
        decide_eq_false_iff_not] at hl
      obtain ⟨h1, o, ho, h0⟩ := hl
      have he := h o ho
      rw [half, half] at he
      simp only [Bool.false_eq_true, false_iff, not_forall]
      exact ⟨o, ho, BitVec.not_le.2 (lt (by omega))⟩
    next hl =>
      rw [ih]
      · refine ⟨fun hw o ho => ?_, fun hw o ho => hw o (List.mem_of_mem_filter ho)⟩
        by_cases hb : o.getLsbD n = own.getLsbD n
        · exact hw o (List.mem_filter.2 ⟨ho, by simpa using hb⟩)
        · have he := h o ho
          rw [half, half] at he
          have : ¬(own.getLsbD n = true ∧ o.getLsbD n = false) := fun ⟨a, b⟩ => hl (by
            simp only [Bool.and_eq_true, List.any_eq_true]; exact ⟨a, o, ho, by simp [b]⟩)
          simp only [bit, decide_eq_decide, decide_eq_true_eq, decide_eq_false_iff_not] at hb this
          exact BitVec.le_of_lt (lt (by omega))
      · intro o ho
        obtain ⟨ho, hb⟩ := List.mem_filter.1 ho
        have he := h o ho
        rw [half, half] at he
        simp only [bit, beq_iff_eq, decide_eq_decide] at hb
        omega

/-- The lowest 7-bit value wins (R180). -/
theorem winsArbitration_iff (f : Frame) (others : List (BitVec 7)) :
    winsArbitration f others = true ↔ ∀ o ∈ others, arbitrationValue f ≤ o :=
  contest_iff _ 7 others fun o _ => by
    rw [Nat.div_eq_of_lt o.isLt, Nat.div_eq_of_lt (arbitrationValue f).isLt]

end Sys2Proof.Machine
end

