-- ==== Sys2Proof/Laws/State.lean ====
section
/-! SUPPORT. One lemma per field that an update of the state leaves alone, and per field that it sets, each true by definition. -/

namespace Sys2Proof.Machine

variable (s : State)

/-! `reach` -/
@[simp] theorem reach_pins (due : Nat) : (reach s due).pins = s.pins := rfl
@[simp] theorem reach_resetHeld (due : Nat) : (reach s due).resetHeld = s.resetHeld := rfl
@[simp] theorem reach_freeCount (due : Nat) : (reach s due).freeCount = s.freeCount := rfl
@[simp] theorem reach_nextId (due : Nat) : (reach s due).nextId = s.nextId := rfl
@[simp] theorem reach_media (due : Nat) : (reach s due).media = s.media := rfl
@[simp] theorem reach_bus (due : Nat) : (reach s due).bus = s.bus := rfl
@[simp] theorem reach_member (due : Nat) : (reach s due).member = s.member := rfl
@[simp] theorem reach_table (due : Nat) : (reach s due).table = s.table := rfl
@[simp] theorem reach_sequence (due : Nat) : (reach s due).sequence = s.sequence := rfl
@[simp] theorem reach_followCount (due : Nat) : (reach s due).followCount = s.followCount := rfl
@[simp] theorem reach_cache (due : Nat) : (reach s due).cache = s.cache := rfl
@[simp] theorem reach_port (due : Nat) : (reach s due).port = s.port := rfl
@[simp] theorem reach_peers (due : Nat) : (reach s due).peers = s.peers := rfl
@[simp] theorem reach_replay (due : Nat) : (reach s due).replay = s.replay := rfl
@[simp] theorem reach_repair (due : Nat) : (reach s due).repair = s.repair := rfl
@[simp] theorem reach_counters (due : Nat) : (reach s due).counters = s.counters := rfl
@[simp] theorem reach_pending (due : Nat) : (reach s due).pending = s.pending := rfl

/-! `updateEntry` -/
@[simp] theorem updateEntry_pins (t : Tag) (f : Entry → Entry) : (updateEntry s t f).pins = s.pins := rfl
@[simp] theorem updateEntry_resetHeld (t : Tag) (f : Entry → Entry) : (updateEntry s t f).resetHeld = s.resetHeld := rfl
@[simp] theorem updateEntry_clock (t : Tag) (f : Entry → Entry) : (updateEntry s t f).clock = s.clock := rfl
@[simp] theorem updateEntry_freeCount (t : Tag) (f : Entry → Entry) : (updateEntry s t f).freeCount = s.freeCount := rfl
@[simp] theorem updateEntry_nextId (t : Tag) (f : Entry → Entry) : (updateEntry s t f).nextId = s.nextId := rfl
@[simp] theorem updateEntry_media (t : Tag) (f : Entry → Entry) : (updateEntry s t f).media = s.media := rfl
@[simp] theorem updateEntry_bus (t : Tag) (f : Entry → Entry) : (updateEntry s t f).bus = s.bus := rfl
@[simp] theorem updateEntry_member (t : Tag) (f : Entry → Entry) : (updateEntry s t f).member = s.member := rfl
@[simp] theorem updateEntry_sequence (t : Tag) (f : Entry → Entry) : (updateEntry s t f).sequence = s.sequence := rfl
@[simp] theorem updateEntry_followCount (t : Tag) (f : Entry → Entry) : (updateEntry s t f).followCount = s.followCount := rfl
@[simp] theorem updateEntry_cache (t : Tag) (f : Entry → Entry) : (updateEntry s t f).cache = s.cache := rfl
@[simp] theorem updateEntry_port (t : Tag) (f : Entry → Entry) : (updateEntry s t f).port = s.port := rfl
@[simp] theorem updateEntry_peers (t : Tag) (f : Entry → Entry) : (updateEntry s t f).peers = s.peers := rfl
@[simp] theorem updateEntry_replay (t : Tag) (f : Entry → Entry) : (updateEntry s t f).replay = s.replay := rfl
@[simp] theorem updateEntry_repair (t : Tag) (f : Entry → Entry) : (updateEntry s t f).repair = s.repair := rfl
@[simp] theorem updateEntry_counters (t : Tag) (f : Entry → Entry) : (updateEntry s t f).counters = s.counters := rfl
@[simp] theorem updateEntry_pending (t : Tag) (f : Entry → Entry) : (updateEntry s t f).pending = s.pending := rfl

/-! `dropEntry` -/
@[simp] theorem dropEntry_pins (t : Tag) : (dropEntry s t).pins = s.pins := rfl
@[simp] theorem dropEntry_resetHeld (t : Tag) : (dropEntry s t).resetHeld = s.resetHeld := rfl
@[simp] theorem dropEntry_clock (t : Tag) : (dropEntry s t).clock = s.clock := rfl
@[simp] theorem dropEntry_freeCount (t : Tag) : (dropEntry s t).freeCount = s.freeCount := rfl
@[simp] theorem dropEntry_nextId (t : Tag) : (dropEntry s t).nextId = s.nextId := rfl
@[simp] theorem dropEntry_media (t : Tag) : (dropEntry s t).media = s.media := rfl
@[simp] theorem dropEntry_bus (t : Tag) : (dropEntry s t).bus = s.bus := rfl
@[simp] theorem dropEntry_member (t : Tag) : (dropEntry s t).member = s.member := rfl
@[simp] theorem dropEntry_sequence (t : Tag) : (dropEntry s t).sequence = s.sequence := rfl
@[simp] theorem dropEntry_followCount (t : Tag) : (dropEntry s t).followCount = s.followCount := rfl
@[simp] theorem dropEntry_cache (t : Tag) : (dropEntry s t).cache = s.cache := rfl
@[simp] theorem dropEntry_port (t : Tag) : (dropEntry s t).port = s.port := rfl
@[simp] theorem dropEntry_peers (t : Tag) : (dropEntry s t).peers = s.peers := rfl
@[simp] theorem dropEntry_replay (t : Tag) : (dropEntry s t).replay = s.replay := rfl
@[simp] theorem dropEntry_repair (t : Tag) : (dropEntry s t).repair = s.repair := rfl
@[simp] theorem dropEntry_counters (t : Tag) : (dropEntry s t).counters = s.counters := rfl
@[simp] theorem dropEntry_pending (t : Tag) : (dropEntry s t).pending = s.pending := rfl

/-! `addEntry` -/
@[simp] theorem addEntry_pins (e : Entry) : (addEntry s e).pins = s.pins := rfl
@[simp] theorem addEntry_resetHeld (e : Entry) : (addEntry s e).resetHeld = s.resetHeld := rfl
@[simp] theorem addEntry_clock (e : Entry) : (addEntry s e).clock = s.clock := rfl
@[simp] theorem addEntry_freeCount (e : Entry) : (addEntry s e).freeCount = s.freeCount := rfl
@[simp] theorem addEntry_nextId (e : Entry) : (addEntry s e).nextId = s.nextId := rfl
@[simp] theorem addEntry_media (e : Entry) : (addEntry s e).media = s.media := rfl
@[simp] theorem addEntry_bus (e : Entry) : (addEntry s e).bus = s.bus := rfl
@[simp] theorem addEntry_member (e : Entry) : (addEntry s e).member = s.member := rfl
@[simp] theorem addEntry_sequence (e : Entry) : (addEntry s e).sequence = s.sequence := rfl
@[simp] theorem addEntry_followCount (e : Entry) : (addEntry s e).followCount = s.followCount := rfl
@[simp] theorem addEntry_cache (e : Entry) : (addEntry s e).cache = s.cache := rfl
@[simp] theorem addEntry_port (e : Entry) : (addEntry s e).port = s.port := rfl
@[simp] theorem addEntry_peers (e : Entry) : (addEntry s e).peers = s.peers := rfl
@[simp] theorem addEntry_replay (e : Entry) : (addEntry s e).replay = s.replay := rfl
@[simp] theorem addEntry_repair (e : Entry) : (addEntry s e).repair = s.repair := rfl
@[simp] theorem addEntry_counters (e : Entry) : (addEntry s e).counters = s.counters := rfl
@[simp] theorem addEntry_pending (e : Entry) : (addEntry s e).pending = s.pending := rfl

/-! `dropWaiters` -/
@[simp] theorem dropWaiters_pins (sel : LookupUser → Bool) : (dropWaiters s sel).pins = s.pins := rfl
@[simp] theorem dropWaiters_resetHeld (sel : LookupUser → Bool) : (dropWaiters s sel).resetHeld = s.resetHeld := rfl
@[simp] theorem dropWaiters_clock (sel : LookupUser → Bool) : (dropWaiters s sel).clock = s.clock := rfl
@[simp] theorem dropWaiters_freeCount (sel : LookupUser → Bool) : (dropWaiters s sel).freeCount = s.freeCount := rfl
@[simp] theorem dropWaiters_nextId (sel : LookupUser → Bool) : (dropWaiters s sel).nextId = s.nextId := rfl
@[simp] theorem dropWaiters_media (sel : LookupUser → Bool) : (dropWaiters s sel).media = s.media := rfl
@[simp] theorem dropWaiters_bus (sel : LookupUser → Bool) : (dropWaiters s sel).bus = s.bus := rfl
@[simp] theorem dropWaiters_member (sel : LookupUser → Bool) : (dropWaiters s sel).member = s.member := rfl
@[simp] theorem dropWaiters_table (sel : LookupUser → Bool) : (dropWaiters s sel).table = s.table := rfl
@[simp] theorem dropWaiters_sequence (sel : LookupUser → Bool) : (dropWaiters s sel).sequence = s.sequence := rfl
@[simp] theorem dropWaiters_followCount (sel : LookupUser → Bool) : (dropWaiters s sel).followCount = s.followCount := rfl
@[simp] theorem dropWaiters_port (sel : LookupUser → Bool) : (dropWaiters s sel).port = s.port := rfl
@[simp] theorem dropWaiters_peers (sel : LookupUser → Bool) : (dropWaiters s sel).peers = s.peers := rfl
@[simp] theorem dropWaiters_replay (sel : LookupUser → Bool) : (dropWaiters s sel).replay = s.replay := rfl
@[simp] theorem dropWaiters_repair (sel : LookupUser → Bool) : (dropWaiters s sel).repair = s.repair := rfl
@[simp] theorem dropWaiters_counters (sel : LookupUser → Bool) : (dropWaiters s sel).counters = s.counters := rfl
@[simp] theorem dropWaiters_pending (sel : LookupUser → Bool) : (dropWaiters s sel).pending = s.pending := rfl

/-! `finishEntry` -/
@[simp] theorem finishEntry_pins (t : Tag) (st : EntryState) : (finishEntry s t st).pins = s.pins := rfl
@[simp] theorem finishEntry_resetHeld (t : Tag) (st : EntryState) : (finishEntry s t st).resetHeld = s.resetHeld := rfl
@[simp] theorem finishEntry_clock (t : Tag) (st : EntryState) : (finishEntry s t st).clock = s.clock := rfl
@[simp] theorem finishEntry_freeCount (t : Tag) (st : EntryState) : (finishEntry s t st).freeCount = s.freeCount := rfl
@[simp] theorem finishEntry_nextId (t : Tag) (st : EntryState) : (finishEntry s t st).nextId = s.nextId := rfl
@[simp] theorem finishEntry_media (t : Tag) (st : EntryState) : (finishEntry s t st).media = s.media := rfl
@[simp] theorem finishEntry_bus (t : Tag) (st : EntryState) : (finishEntry s t st).bus = s.bus := rfl
@[simp] theorem finishEntry_member (t : Tag) (st : EntryState) : (finishEntry s t st).member = s.member := rfl
@[simp] theorem finishEntry_sequence (t : Tag) (st : EntryState) : (finishEntry s t st).sequence = s.sequence := rfl
@[simp] theorem finishEntry_followCount (t : Tag) (st : EntryState) : (finishEntry s t st).followCount = s.followCount := rfl
@[simp] theorem finishEntry_port (t : Tag) (st : EntryState) : (finishEntry s t st).port = s.port := rfl
@[simp] theorem finishEntry_peers (t : Tag) (st : EntryState) : (finishEntry s t st).peers = s.peers := rfl
@[simp] theorem finishEntry_replay (t : Tag) (st : EntryState) : (finishEntry s t st).replay = s.replay := rfl
@[simp] theorem finishEntry_repair (t : Tag) (st : EntryState) : (finishEntry s t st).repair = s.repair := rfl
@[simp] theorem finishEntry_counters (t : Tag) (st : EntryState) : (finishEntry s t st).counters = s.counters := rfl
@[simp] theorem finishEntry_pending (t : Tag) (st : EntryState) : (finishEntry s t st).pending = s.pending := rfl

/-! `expireEntry` -/
@[simp] theorem expireEntry_pins (t : Tag) : (expireEntry s t).pins = s.pins := rfl
@[simp] theorem expireEntry_resetHeld (t : Tag) : (expireEntry s t).resetHeld = s.resetHeld := rfl
@[simp] theorem expireEntry_clock (t : Tag) : (expireEntry s t).clock = s.clock := rfl
@[simp] theorem expireEntry_freeCount (t : Tag) : (expireEntry s t).freeCount = s.freeCount := rfl
@[simp] theorem expireEntry_nextId (t : Tag) : (expireEntry s t).nextId = s.nextId := rfl
@[simp] theorem expireEntry_media (t : Tag) : (expireEntry s t).media = s.media := rfl
@[simp] theorem expireEntry_bus (t : Tag) : (expireEntry s t).bus = s.bus := rfl
@[simp] theorem expireEntry_member (t : Tag) : (expireEntry s t).member = s.member := rfl
@[simp] theorem expireEntry_sequence (t : Tag) : (expireEntry s t).sequence = s.sequence := rfl
@[simp] theorem expireEntry_followCount (t : Tag) : (expireEntry s t).followCount = s.followCount := rfl
@[simp] theorem expireEntry_port (t : Tag) : (expireEntry s t).port = s.port := rfl
@[simp] theorem expireEntry_peers (t : Tag) : (expireEntry s t).peers = s.peers := rfl
@[simp] theorem expireEntry_replay (t : Tag) : (expireEntry s t).replay = s.replay := rfl
@[simp] theorem expireEntry_repair (t : Tag) : (expireEntry s t).repair = s.repair := rfl
@[simp] theorem expireEntry_pending (t : Tag) : (expireEntry s t).pending = s.pending := rfl

/-! `recordAnswer` -/
@[simp] theorem recordAnswer_pins (t : Tag) (n : StationNo) (k : Kind) (v : Version) : (recordAnswer s t n k v).pins = s.pins := rfl
@[simp] theorem recordAnswer_resetHeld (t : Tag) (n : StationNo) (k : Kind) (v : Version) : (recordAnswer s t n k v).resetHeld = s.resetHeld := rfl
@[simp] theorem recordAnswer_clock (t : Tag) (n : StationNo) (k : Kind) (v : Version) : (recordAnswer s t n k v).clock = s.clock := rfl
@[simp] theorem recordAnswer_freeCount (t : Tag) (n : StationNo) (k : Kind) (v : Version) : (recordAnswer s t n k v).freeCount = s.freeCount := rfl
@[simp] theorem recordAnswer_nextId (t : Tag) (n : StationNo) (k : Kind) (v : Version) : (recordAnswer s t n k v).nextId = s.nextId := rfl
@[simp] theorem recordAnswer_media (t : Tag) (n : StationNo) (k : Kind) (v : Version) : (recordAnswer s t n k v).media = s.media := rfl
@[simp] theorem recordAnswer_bus (t : Tag) (n : StationNo) (k : Kind) (v : Version) : (recordAnswer s t n k v).bus = s.bus := rfl
@[simp] theorem recordAnswer_member (t : Tag) (n : StationNo) (k : Kind) (v : Version) : (recordAnswer s t n k v).member = s.member := rfl
@[simp] theorem recordAnswer_sequence (t : Tag) (n : StationNo) (k : Kind) (v : Version) : (recordAnswer s t n k v).sequence = s.sequence := rfl
@[simp] theorem recordAnswer_followCount (t : Tag) (n : StationNo) (k : Kind) (v : Version) : (recordAnswer s t n k v).followCount = s.followCount := rfl
@[simp] theorem recordAnswer_cache (t : Tag) (n : StationNo) (k : Kind) (v : Version) : (recordAnswer s t n k v).cache = s.cache := rfl
@[simp] theorem recordAnswer_port (t : Tag) (n : StationNo) (k : Kind) (v : Version) : (recordAnswer s t n k v).port = s.port := rfl
@[simp] theorem recordAnswer_peers (t : Tag) (n : StationNo) (k : Kind) (v : Version) : (recordAnswer s t n k v).peers = s.peers := rfl
@[simp] theorem recordAnswer_replay (t : Tag) (n : StationNo) (k : Kind) (v : Version) : (recordAnswer s t n k v).replay = s.replay := rfl
@[simp] theorem recordAnswer_repair (t : Tag) (n : StationNo) (k : Kind) (v : Version) : (recordAnswer s t n k v).repair = s.repair := rfl
@[simp] theorem recordAnswer_counters (t : Tag) (n : StationNo) (k : Kind) (v : Version) : (recordAnswer s t n k v).counters = s.counters := rfl
@[simp] theorem recordAnswer_pending (t : Tag) (n : StationNo) (k : Kind) (v : Version) : (recordAnswer s t n k v).pending = s.pending := rfl

/-! `recordSent` -/
@[simp] theorem recordSent_pins (t : Tag) (k : Kind) (v : Version) : (recordSent s t k v).pins = s.pins := rfl
@[simp] theorem recordSent_resetHeld (t : Tag) (k : Kind) (v : Version) : (recordSent s t k v).resetHeld = s.resetHeld := rfl
@[simp] theorem recordSent_clock (t : Tag) (k : Kind) (v : Version) : (recordSent s t k v).clock = s.clock := rfl
@[simp] theorem recordSent_freeCount (t : Tag) (k : Kind) (v : Version) : (recordSent s t k v).freeCount = s.freeCount := rfl
@[simp] theorem recordSent_nextId (t : Tag) (k : Kind) (v : Version) : (recordSent s t k v).nextId = s.nextId := rfl
@[simp] theorem recordSent_media (t : Tag) (k : Kind) (v : Version) : (recordSent s t k v).media = s.media := rfl
@[simp] theorem recordSent_bus (t : Tag) (k : Kind) (v : Version) : (recordSent s t k v).bus = s.bus := rfl
@[simp] theorem recordSent_member (t : Tag) (k : Kind) (v : Version) : (recordSent s t k v).member = s.member := rfl
@[simp] theorem recordSent_sequence (t : Tag) (k : Kind) (v : Version) : (recordSent s t k v).sequence = s.sequence := rfl
@[simp] theorem recordSent_followCount (t : Tag) (k : Kind) (v : Version) : (recordSent s t k v).followCount = s.followCount := rfl
@[simp] theorem recordSent_cache (t : Tag) (k : Kind) (v : Version) : (recordSent s t k v).cache = s.cache := rfl
@[simp] theorem recordSent_port (t : Tag) (k : Kind) (v : Version) : (recordSent s t k v).port = s.port := rfl
@[simp] theorem recordSent_peers (t : Tag) (k : Kind) (v : Version) : (recordSent s t k v).peers = s.peers := rfl
@[simp] theorem recordSent_replay (t : Tag) (k : Kind) (v : Version) : (recordSent s t k v).replay = s.replay := rfl
@[simp] theorem recordSent_repair (t : Tag) (k : Kind) (v : Version) : (recordSent s t k v).repair = s.repair := rfl
@[simp] theorem recordSent_counters (t : Tag) (k : Kind) (v : Version) : (recordSent s t k v).counters = s.counters := rfl
@[simp] theorem recordSent_pending (t : Tag) (k : Kind) (v : Version) : (recordSent s t k v).pending = s.pending := rfl

/-! `takeTag` -/
@[simp] theorem takeTag_pins : (takeTag s).pins = s.pins := rfl
@[simp] theorem takeTag_resetHeld : (takeTag s).resetHeld = s.resetHeld := rfl
@[simp] theorem takeTag_clock : (takeTag s).clock = s.clock := rfl
@[simp] theorem takeTag_freeCount : (takeTag s).freeCount = s.freeCount := rfl
@[simp] theorem takeTag_nextId : (takeTag s).nextId = s.nextId := rfl
@[simp] theorem takeTag_media : (takeTag s).media = s.media := rfl
@[simp] theorem takeTag_bus : (takeTag s).bus = s.bus := rfl
@[simp] theorem takeTag_member : (takeTag s).member = s.member := rfl
@[simp] theorem takeTag_table : (takeTag s).table = s.table := rfl
@[simp] theorem takeTag_followCount : (takeTag s).followCount = s.followCount := rfl
@[simp] theorem takeTag_cache : (takeTag s).cache = s.cache := rfl
@[simp] theorem takeTag_port : (takeTag s).port = s.port := rfl
@[simp] theorem takeTag_peers : (takeTag s).peers = s.peers := rfl
@[simp] theorem takeTag_replay : (takeTag s).replay = s.replay := rfl
@[simp] theorem takeTag_repair : (takeTag s).repair = s.repair := rfl
@[simp] theorem takeTag_counters : (takeTag s).counters = s.counters := rfl
@[simp] theorem takeTag_pending : (takeTag s).pending = s.pending := rfl

/-! `setQueue` -/
@[simp] theorem setQueue_pins (q : List TxFrame) : (setQueue s q).pins = s.pins := rfl
@[simp] theorem setQueue_resetHeld (q : List TxFrame) : (setQueue s q).resetHeld = s.resetHeld := rfl
@[simp] theorem setQueue_clock (q : List TxFrame) : (setQueue s q).clock = s.clock := rfl
@[simp] theorem setQueue_freeCount (q : List TxFrame) : (setQueue s q).freeCount = s.freeCount := rfl
@[simp] theorem setQueue_nextId (q : List TxFrame) : (setQueue s q).nextId = s.nextId := rfl
@[simp] theorem setQueue_media (q : List TxFrame) : (setQueue s q).media = s.media := rfl
@[simp] theorem setQueue_member (q : List TxFrame) : (setQueue s q).member = s.member := rfl
@[simp] theorem setQueue_table (q : List TxFrame) : (setQueue s q).table = s.table := rfl
@[simp] theorem setQueue_sequence (q : List TxFrame) : (setQueue s q).sequence = s.sequence := rfl
@[simp] theorem setQueue_followCount (q : List TxFrame) : (setQueue s q).followCount = s.followCount := rfl
@[simp] theorem setQueue_cache (q : List TxFrame) : (setQueue s q).cache = s.cache := rfl
@[simp] theorem setQueue_port (q : List TxFrame) : (setQueue s q).port = s.port := rfl
@[simp] theorem setQueue_peers (q : List TxFrame) : (setQueue s q).peers = s.peers := rfl
@[simp] theorem setQueue_replay (q : List TxFrame) : (setQueue s q).replay = s.replay := rfl
@[simp] theorem setQueue_repair (q : List TxFrame) : (setQueue s q).repair = s.repair := rfl
@[simp] theorem setQueue_counters (q : List TxFrame) : (setQueue s q).counters = s.counters := rfl
@[simp] theorem setQueue_pending (q : List TxFrame) : (setQueue s q).pending = s.pending := rfl

/-! `storeRecord` -/
@[simp] theorem storeRecord_pins (b : Block) (r : Record) : (storeRecord s b r).pins = s.pins := rfl
@[simp] theorem storeRecord_resetHeld (b : Block) (r : Record) : (storeRecord s b r).resetHeld = s.resetHeld := rfl
@[simp] theorem storeRecord_clock (b : Block) (r : Record) : (storeRecord s b r).clock = s.clock := rfl
@[simp] theorem storeRecord_freeCount (b : Block) (r : Record) : (storeRecord s b r).freeCount = s.freeCount := rfl
@[simp] theorem storeRecord_nextId (b : Block) (r : Record) : (storeRecord s b r).nextId = s.nextId := rfl
@[simp] theorem storeRecord_bus (b : Block) (r : Record) : (storeRecord s b r).bus = s.bus := rfl
@[simp] theorem storeRecord_member (b : Block) (r : Record) : (storeRecord s b r).member = s.member := rfl
@[simp] theorem storeRecord_table (b : Block) (r : Record) : (storeRecord s b r).table = s.table := rfl
@[simp] theorem storeRecord_sequence (b : Block) (r : Record) : (storeRecord s b r).sequence = s.sequence := rfl
@[simp] theorem storeRecord_followCount (b : Block) (r : Record) : (storeRecord s b r).followCount = s.followCount := rfl
@[simp] theorem storeRecord_cache (b : Block) (r : Record) : (storeRecord s b r).cache = s.cache := rfl
@[simp] theorem storeRecord_port (b : Block) (r : Record) : (storeRecord s b r).port = s.port := rfl
@[simp] theorem storeRecord_peers (b : Block) (r : Record) : (storeRecord s b r).peers = s.peers := rfl
@[simp] theorem storeRecord_replay (b : Block) (r : Record) : (storeRecord s b r).replay = s.replay := rfl
@[simp] theorem storeRecord_repair (b : Block) (r : Record) : (storeRecord s b r).repair = s.repair := rfl
@[simp] theorem storeRecord_counters (b : Block) (r : Record) : (storeRecord s b r).counters = s.counters := rfl
@[simp] theorem storeRecord_pending (b : Block) (r : Record) : (storeRecord s b r).pending = s.pending := rfl

/-! `setSlot` -/
@[simp] theorem setSlot_pins (i : Nat) (x : Slot) : (setSlot s i x).pins = s.pins := rfl
@[simp] theorem setSlot_resetHeld (i : Nat) (x : Slot) : (setSlot s i x).resetHeld = s.resetHeld := rfl
@[simp] theorem setSlot_clock (i : Nat) (x : Slot) : (setSlot s i x).clock = s.clock := rfl
@[simp] theorem setSlot_freeCount (i : Nat) (x : Slot) : (setSlot s i x).freeCount = s.freeCount := rfl
@[simp] theorem setSlot_nextId (i : Nat) (x : Slot) : (setSlot s i x).nextId = s.nextId := rfl
@[simp] theorem setSlot_media (i : Nat) (x : Slot) : (setSlot s i x).media = s.media := rfl
@[simp] theorem setSlot_bus (i : Nat) (x : Slot) : (setSlot s i x).bus = s.bus := rfl
@[simp] theorem setSlot_member (i : Nat) (x : Slot) : (setSlot s i x).member = s.member := rfl
@[simp] theorem setSlot_table (i : Nat) (x : Slot) : (setSlot s i x).table = s.table := rfl
@[simp] theorem setSlot_sequence (i : Nat) (x : Slot) : (setSlot s i x).sequence = s.sequence := rfl
@[simp] theorem setSlot_followCount (i : Nat) (x : Slot) : (setSlot s i x).followCount = s.followCount := rfl
@[simp] theorem setSlot_port (i : Nat) (x : Slot) : (setSlot s i x).port = s.port := rfl
@[simp] theorem setSlot_peers (i : Nat) (x : Slot) : (setSlot s i x).peers = s.peers := rfl
@[simp] theorem setSlot_replay (i : Nat) (x : Slot) : (setSlot s i x).replay = s.replay := rfl
@[simp] theorem setSlot_repair (i : Nat) (x : Slot) : (setSlot s i x).repair = s.repair := rfl
@[simp] theorem setSlot_counters (i : Nat) (x : Slot) : (setSlot s i x).counters = s.counters := rfl
@[simp] theorem setSlot_pending (i : Nat) (x : Slot) : (setSlot s i x).pending = s.pending := rfl

/-! `nextRecency` -/
@[simp] theorem nextRecency_pins : (nextRecency s).pins = s.pins := rfl
@[simp] theorem nextRecency_resetHeld : (nextRecency s).resetHeld = s.resetHeld := rfl
@[simp] theorem nextRecency_clock : (nextRecency s).clock = s.clock := rfl
@[simp] theorem nextRecency_freeCount : (nextRecency s).freeCount = s.freeCount := rfl
@[simp] theorem nextRecency_nextId : (nextRecency s).nextId = s.nextId := rfl
@[simp] theorem nextRecency_media : (nextRecency s).media = s.media := rfl
@[simp] theorem nextRecency_bus : (nextRecency s).bus = s.bus := rfl
@[simp] theorem nextRecency_member : (nextRecency s).member = s.member := rfl
@[simp] theorem nextRecency_table : (nextRecency s).table = s.table := rfl
@[simp] theorem nextRecency_sequence : (nextRecency s).sequence = s.sequence := rfl
@[simp] theorem nextRecency_followCount : (nextRecency s).followCount = s.followCount := rfl
@[simp] theorem nextRecency_port : (nextRecency s).port = s.port := rfl
@[simp] theorem nextRecency_peers : (nextRecency s).peers = s.peers := rfl
@[simp] theorem nextRecency_replay : (nextRecency s).replay = s.replay := rfl
@[simp] theorem nextRecency_repair : (nextRecency s).repair = s.repair := rfl
@[simp] theorem nextRecency_counters : (nextRecency s).counters = s.counters := rfl
@[simp] theorem nextRecency_pending : (nextRecency s).pending = s.pending := rfl

/-! `makeClean` -/
@[simp] theorem makeClean_pins (i : Nat) (b : Block) (v : Version) (d : Data) : (makeClean s i b v d).pins = s.pins := rfl
@[simp] theorem makeClean_resetHeld (i : Nat) (b : Block) (v : Version) (d : Data) : (makeClean s i b v d).resetHeld = s.resetHeld := rfl
@[simp] theorem makeClean_clock (i : Nat) (b : Block) (v : Version) (d : Data) : (makeClean s i b v d).clock = s.clock := rfl
@[simp] theorem makeClean_freeCount (i : Nat) (b : Block) (v : Version) (d : Data) : (makeClean s i b v d).freeCount = s.freeCount := rfl
@[simp] theorem makeClean_nextId (i : Nat) (b : Block) (v : Version) (d : Data) : (makeClean s i b v d).nextId = s.nextId := rfl
@[simp] theorem makeClean_media (i : Nat) (b : Block) (v : Version) (d : Data) : (makeClean s i b v d).media = s.media := rfl
@[simp] theorem makeClean_bus (i : Nat) (b : Block) (v : Version) (d : Data) : (makeClean s i b v d).bus = s.bus := rfl
@[simp] theorem makeClean_member (i : Nat) (b : Block) (v : Version) (d : Data) : (makeClean s i b v d).member = s.member := rfl
@[simp] theorem makeClean_table (i : Nat) (b : Block) (v : Version) (d : Data) : (makeClean s i b v d).table = s.table := rfl
@[simp] theorem makeClean_sequence (i : Nat) (b : Block) (v : Version) (d : Data) : (makeClean s i b v d).sequence = s.sequence := rfl
@[simp] theorem makeClean_followCount (i : Nat) (b : Block) (v : Version) (d : Data) : (makeClean s i b v d).followCount = s.followCount := rfl
@[simp] theorem makeClean_port (i : Nat) (b : Block) (v : Version) (d : Data) : (makeClean s i b v d).port = s.port := rfl
@[simp] theorem makeClean_peers (i : Nat) (b : Block) (v : Version) (d : Data) : (makeClean s i b v d).peers = s.peers := rfl
@[simp] theorem makeClean_replay (i : Nat) (b : Block) (v : Version) (d : Data) : (makeClean s i b v d).replay = s.replay := rfl
@[simp] theorem makeClean_repair (i : Nat) (b : Block) (v : Version) (d : Data) : (makeClean s i b v d).repair = s.repair := rfl
@[simp] theorem makeClean_counters (i : Nat) (b : Block) (v : Version) (d : Data) : (makeClean s i b v d).counters = s.counters := rfl
@[simp] theorem makeClean_pending (i : Nat) (b : Block) (v : Version) (d : Data) : (makeClean s i b v d).pending = s.pending := rfl

/-! `makeDirty` -/
@[simp] theorem makeDirty_pins (i : Nat) (b : Block) (v : Version) (d : Data) : (makeDirty s i b v d).pins = s.pins := rfl
@[simp] theorem makeDirty_resetHeld (i : Nat) (b : Block) (v : Version) (d : Data) : (makeDirty s i b v d).resetHeld = s.resetHeld := rfl
@[simp] theorem makeDirty_clock (i : Nat) (b : Block) (v : Version) (d : Data) : (makeDirty s i b v d).clock = s.clock := rfl
@[simp] theorem makeDirty_freeCount (i : Nat) (b : Block) (v : Version) (d : Data) : (makeDirty s i b v d).freeCount = s.freeCount := rfl
@[simp] theorem makeDirty_nextId (i : Nat) (b : Block) (v : Version) (d : Data) : (makeDirty s i b v d).nextId = s.nextId := rfl
@[simp] theorem makeDirty_media (i : Nat) (b : Block) (v : Version) (d : Data) : (makeDirty s i b v d).media = s.media := rfl
@[simp] theorem makeDirty_bus (i : Nat) (b : Block) (v : Version) (d : Data) : (makeDirty s i b v d).bus = s.bus := rfl
@[simp] theorem makeDirty_member (i : Nat) (b : Block) (v : Version) (d : Data) : (makeDirty s i b v d).member = s.member := rfl
@[simp] theorem makeDirty_table (i : Nat) (b : Block) (v : Version) (d : Data) : (makeDirty s i b v d).table = s.table := rfl
@[simp] theorem makeDirty_sequence (i : Nat) (b : Block) (v : Version) (d : Data) : (makeDirty s i b v d).sequence = s.sequence := rfl
@[simp] theorem makeDirty_followCount (i : Nat) (b : Block) (v : Version) (d : Data) : (makeDirty s i b v d).followCount = s.followCount := rfl
@[simp] theorem makeDirty_port (i : Nat) (b : Block) (v : Version) (d : Data) : (makeDirty s i b v d).port = s.port := rfl
@[simp] theorem makeDirty_peers (i : Nat) (b : Block) (v : Version) (d : Data) : (makeDirty s i b v d).peers = s.peers := rfl
@[simp] theorem makeDirty_replay (i : Nat) (b : Block) (v : Version) (d : Data) : (makeDirty s i b v d).replay = s.replay := rfl
@[simp] theorem makeDirty_repair (i : Nat) (b : Block) (v : Version) (d : Data) : (makeDirty s i b v d).repair = s.repair := rfl
@[simp] theorem makeDirty_counters (i : Nat) (b : Block) (v : Version) (d : Data) : (makeDirty s i b v d).counters = s.counters := rfl
@[simp] theorem makeDirty_pending (i : Nat) (b : Block) (v : Version) (d : Data) : (makeDirty s i b v d).pending = s.pending := rfl

/-! `freeHeld` -/
@[simp] theorem freeHeld_pins (sel : HeldOwner → Bool) : (freeHeld s sel).pins = s.pins := rfl
@[simp] theorem freeHeld_resetHeld (sel : HeldOwner → Bool) : (freeHeld s sel).resetHeld = s.resetHeld := rfl
@[simp] theorem freeHeld_clock (sel : HeldOwner → Bool) : (freeHeld s sel).clock = s.clock := rfl
@[simp] theorem freeHeld_freeCount (sel : HeldOwner → Bool) : (freeHeld s sel).freeCount = s.freeCount := rfl
@[simp] theorem freeHeld_nextId (sel : HeldOwner → Bool) : (freeHeld s sel).nextId = s.nextId := rfl
@[simp] theorem freeHeld_media (sel : HeldOwner → Bool) : (freeHeld s sel).media = s.media := rfl
@[simp] theorem freeHeld_bus (sel : HeldOwner → Bool) : (freeHeld s sel).bus = s.bus := rfl
@[simp] theorem freeHeld_member (sel : HeldOwner → Bool) : (freeHeld s sel).member = s.member := rfl
@[simp] theorem freeHeld_table (sel : HeldOwner → Bool) : (freeHeld s sel).table = s.table := rfl
@[simp] theorem freeHeld_sequence (sel : HeldOwner → Bool) : (freeHeld s sel).sequence = s.sequence := rfl
@[simp] theorem freeHeld_followCount (sel : HeldOwner → Bool) : (freeHeld s sel).followCount = s.followCount := rfl
@[simp] theorem freeHeld_port (sel : HeldOwner → Bool) : (freeHeld s sel).port = s.port := rfl
@[simp] theorem freeHeld_peers (sel : HeldOwner → Bool) : (freeHeld s sel).peers = s.peers := rfl
@[simp] theorem freeHeld_replay (sel : HeldOwner → Bool) : (freeHeld s sel).replay = s.replay := rfl
@[simp] theorem freeHeld_repair (sel : HeldOwner → Bool) : (freeHeld s sel).repair = s.repair := rfl
@[simp] theorem freeHeld_counters (sel : HeldOwner → Bool) : (freeHeld s sel).counters = s.counters := rfl
@[simp] theorem freeHeld_pending (sel : HeldOwner → Bool) : (freeHeld s sel).pending = s.pending := rfl

/-! `present` -/
@[simp] theorem present_pins (ph : PortPhase) : (present s ph).pins = s.pins := rfl
@[simp] theorem present_resetHeld (ph : PortPhase) : (present s ph).resetHeld = s.resetHeld := rfl
@[simp] theorem present_clock (ph : PortPhase) : (present s ph).clock = s.clock := rfl
@[simp] theorem present_freeCount (ph : PortPhase) : (present s ph).freeCount = s.freeCount := rfl
@[simp] theorem present_nextId (ph : PortPhase) : (present s ph).nextId = s.nextId := rfl
@[simp] theorem present_media (ph : PortPhase) : (present s ph).media = s.media := rfl
@[simp] theorem present_bus (ph : PortPhase) : (present s ph).bus = s.bus := rfl
@[simp] theorem present_member (ph : PortPhase) : (present s ph).member = s.member := rfl
@[simp] theorem present_table (ph : PortPhase) : (present s ph).table = s.table := rfl
@[simp] theorem present_sequence (ph : PortPhase) : (present s ph).sequence = s.sequence := rfl
@[simp] theorem present_followCount (ph : PortPhase) : (present s ph).followCount = s.followCount := rfl
@[simp] theorem present_cache (ph : PortPhase) : (present s ph).cache = s.cache := rfl
@[simp] theorem present_peers (ph : PortPhase) : (present s ph).peers = s.peers := rfl
@[simp] theorem present_replay (ph : PortPhase) : (present s ph).replay = s.replay := rfl
@[simp] theorem present_repair (ph : PortPhase) : (present s ph).repair = s.repair := rfl
@[simp] theorem present_counters (ph : PortPhase) : (present s ph).counters = s.counters := rfl
@[simp] theorem present_pending (ph : PortPhase) : (present s ph).pending = s.pending := rfl

/-! `startAttempt` -/
@[simp] theorem startAttempt_pins (ph : PortPhase) : (startAttempt s ph).pins = s.pins := rfl
@[simp] theorem startAttempt_resetHeld (ph : PortPhase) : (startAttempt s ph).resetHeld = s.resetHeld := rfl
@[simp] theorem startAttempt_clock (ph : PortPhase) : (startAttempt s ph).clock = s.clock := rfl
@[simp] theorem startAttempt_freeCount (ph : PortPhase) : (startAttempt s ph).freeCount = s.freeCount := rfl
@[simp] theorem startAttempt_nextId (ph : PortPhase) : (startAttempt s ph).nextId = s.nextId := rfl
@[simp] theorem startAttempt_media (ph : PortPhase) : (startAttempt s ph).media = s.media := rfl
@[simp] theorem startAttempt_bus (ph : PortPhase) : (startAttempt s ph).bus = s.bus := rfl
@[simp] theorem startAttempt_member (ph : PortPhase) : (startAttempt s ph).member = s.member := rfl
@[simp] theorem startAttempt_table (ph : PortPhase) : (startAttempt s ph).table = s.table := rfl
@[simp] theorem startAttempt_sequence (ph : PortPhase) : (startAttempt s ph).sequence = s.sequence := rfl
@[simp] theorem startAttempt_followCount (ph : PortPhase) : (startAttempt s ph).followCount = s.followCount := rfl
@[simp] theorem startAttempt_cache (ph : PortPhase) : (startAttempt s ph).cache = s.cache := rfl
@[simp] theorem startAttempt_peers (ph : PortPhase) : (startAttempt s ph).peers = s.peers := rfl
@[simp] theorem startAttempt_replay (ph : PortPhase) : (startAttempt s ph).replay = s.replay := rfl
@[simp] theorem startAttempt_repair (ph : PortPhase) : (startAttempt s ph).repair = s.repair := rfl
@[simp] theorem startAttempt_counters (ph : PortPhase) : (startAttempt s ph).counters = s.counters := rfl
@[simp] theorem startAttempt_pending (ph : PortPhase) : (startAttempt s ph).pending = s.pending := rfl

/-! `refillQueue` -/
@[simp] theorem refillQueue_pins : (refillQueue s).pins = s.pins := rfl
@[simp] theorem refillQueue_resetHeld : (refillQueue s).resetHeld = s.resetHeld := rfl
@[simp] theorem refillQueue_clock : (refillQueue s).clock = s.clock := rfl
@[simp] theorem refillQueue_freeCount : (refillQueue s).freeCount = s.freeCount := rfl
@[simp] theorem refillQueue_nextId : (refillQueue s).nextId = s.nextId := rfl
@[simp] theorem refillQueue_media : (refillQueue s).media = s.media := rfl
@[simp] theorem refillQueue_bus : (refillQueue s).bus = s.bus := rfl
@[simp] theorem refillQueue_member : (refillQueue s).member = s.member := rfl
@[simp] theorem refillQueue_table : (refillQueue s).table = s.table := rfl
@[simp] theorem refillQueue_sequence : (refillQueue s).sequence = s.sequence := rfl
@[simp] theorem refillQueue_followCount : (refillQueue s).followCount = s.followCount := rfl
@[simp] theorem refillQueue_peers : (refillQueue s).peers = s.peers := rfl
@[simp] theorem refillQueue_replay : (refillQueue s).replay = s.replay := rfl
@[simp] theorem refillQueue_repair : (refillQueue s).repair = s.repair := rfl
@[simp] theorem refillQueue_counters : (refillQueue s).counters = s.counters := rfl
@[simp] theorem refillQueue_pending : (refillQueue s).pending = s.pending := rfl

/-! `addWaiter` -/
@[simp] theorem addWaiter_pins (b : Block) (k : ReadKind) (u : LookupUser) : (addWaiter s b k u).pins = s.pins := rfl
@[simp] theorem addWaiter_resetHeld (b : Block) (k : ReadKind) (u : LookupUser) : (addWaiter s b k u).resetHeld = s.resetHeld := rfl
@[simp] theorem addWaiter_clock (b : Block) (k : ReadKind) (u : LookupUser) : (addWaiter s b k u).clock = s.clock := rfl
@[simp] theorem addWaiter_freeCount (b : Block) (k : ReadKind) (u : LookupUser) : (addWaiter s b k u).freeCount = s.freeCount := rfl
@[simp] theorem addWaiter_nextId (b : Block) (k : ReadKind) (u : LookupUser) : (addWaiter s b k u).nextId = s.nextId := rfl
@[simp] theorem addWaiter_media (b : Block) (k : ReadKind) (u : LookupUser) : (addWaiter s b k u).media = s.media := rfl
@[simp] theorem addWaiter_bus (b : Block) (k : ReadKind) (u : LookupUser) : (addWaiter s b k u).bus = s.bus := rfl
@[simp] theorem addWaiter_member (b : Block) (k : ReadKind) (u : LookupUser) : (addWaiter s b k u).member = s.member := rfl
@[simp] theorem addWaiter_table (b : Block) (k : ReadKind) (u : LookupUser) : (addWaiter s b k u).table = s.table := rfl
@[simp] theorem addWaiter_sequence (b : Block) (k : ReadKind) (u : LookupUser) : (addWaiter s b k u).sequence = s.sequence := rfl
@[simp] theorem addWaiter_followCount (b : Block) (k : ReadKind) (u : LookupUser) : (addWaiter s b k u).followCount = s.followCount := rfl
@[simp] theorem addWaiter_port (b : Block) (k : ReadKind) (u : LookupUser) : (addWaiter s b k u).port = s.port := rfl
@[simp] theorem addWaiter_peers (b : Block) (k : ReadKind) (u : LookupUser) : (addWaiter s b k u).peers = s.peers := rfl
@[simp] theorem addWaiter_replay (b : Block) (k : ReadKind) (u : LookupUser) : (addWaiter s b k u).replay = s.replay := rfl
@[simp] theorem addWaiter_repair (b : Block) (k : ReadKind) (u : LookupUser) : (addWaiter s b k u).repair = s.repair := rfl
@[simp] theorem addWaiter_counters (b : Block) (k : ReadKind) (u : LookupUser) : (addWaiter s b k u).counters = s.counters := rfl
@[simp] theorem addWaiter_pending (b : Block) (k : ReadKind) (u : LookupUser) : (addWaiter s b k u).pending = s.pending := rfl

/-! `countCorrected` -/
@[simp] theorem countCorrected_pins : (countCorrected s).pins = s.pins := rfl
@[simp] theorem countCorrected_resetHeld : (countCorrected s).resetHeld = s.resetHeld := rfl
@[simp] theorem countCorrected_clock : (countCorrected s).clock = s.clock := rfl
@[simp] theorem countCorrected_freeCount : (countCorrected s).freeCount = s.freeCount := rfl
@[simp] theorem countCorrected_nextId : (countCorrected s).nextId = s.nextId := rfl
@[simp] theorem countCorrected_media : (countCorrected s).media = s.media := rfl
@[simp] theorem countCorrected_bus : (countCorrected s).bus = s.bus := rfl
@[simp] theorem countCorrected_member : (countCorrected s).member = s.member := rfl
@[simp] theorem countCorrected_table : (countCorrected s).table = s.table := rfl
@[simp] theorem countCorrected_sequence : (countCorrected s).sequence = s.sequence := rfl
@[simp] theorem countCorrected_followCount : (countCorrected s).followCount = s.followCount := rfl
@[simp] theorem countCorrected_cache : (countCorrected s).cache = s.cache := rfl
@[simp] theorem countCorrected_port : (countCorrected s).port = s.port := rfl
@[simp] theorem countCorrected_peers : (countCorrected s).peers = s.peers := rfl
@[simp] theorem countCorrected_replay : (countCorrected s).replay = s.replay := rfl
@[simp] theorem countCorrected_repair : (countCorrected s).repair = s.repair := rfl
@[simp] theorem countCorrected_pending : (countCorrected s).pending = s.pending := rfl

/-! `countUncorrectable` -/
@[simp] theorem countUncorrectable_pins : (countUncorrectable s).pins = s.pins := rfl
@[simp] theorem countUncorrectable_resetHeld : (countUncorrectable s).resetHeld = s.resetHeld := rfl
@[simp] theorem countUncorrectable_clock : (countUncorrectable s).clock = s.clock := rfl
@[simp] theorem countUncorrectable_freeCount : (countUncorrectable s).freeCount = s.freeCount := rfl
@[simp] theorem countUncorrectable_nextId : (countUncorrectable s).nextId = s.nextId := rfl
@[simp] theorem countUncorrectable_media : (countUncorrectable s).media = s.media := rfl
@[simp] theorem countUncorrectable_bus : (countUncorrectable s).bus = s.bus := rfl
@[simp] theorem countUncorrectable_member : (countUncorrectable s).member = s.member := rfl
@[simp] theorem countUncorrectable_table : (countUncorrectable s).table = s.table := rfl
@[simp] theorem countUncorrectable_sequence : (countUncorrectable s).sequence = s.sequence := rfl
@[simp] theorem countUncorrectable_followCount : (countUncorrectable s).followCount = s.followCount := rfl
@[simp] theorem countUncorrectable_cache : (countUncorrectable s).cache = s.cache := rfl
@[simp] theorem countUncorrectable_port : (countUncorrectable s).port = s.port := rfl
@[simp] theorem countUncorrectable_peers : (countUncorrectable s).peers = s.peers := rfl
@[simp] theorem countUncorrectable_replay : (countUncorrectable s).replay = s.replay := rfl
@[simp] theorem countUncorrectable_repair : (countUncorrectable s).repair = s.repair := rfl
@[simp] theorem countUncorrectable_pending : (countUncorrectable s).pending = s.pending := rfl

/-! `countRefresh` -/
@[simp] theorem countRefresh_pins : (countRefresh s).pins = s.pins := rfl
@[simp] theorem countRefresh_resetHeld : (countRefresh s).resetHeld = s.resetHeld := rfl
@[simp] theorem countRefresh_clock : (countRefresh s).clock = s.clock := rfl
@[simp] theorem countRefresh_freeCount : (countRefresh s).freeCount = s.freeCount := rfl
@[simp] theorem countRefresh_nextId : (countRefresh s).nextId = s.nextId := rfl
@[simp] theorem countRefresh_media : (countRefresh s).media = s.media := rfl
@[simp] theorem countRefresh_bus : (countRefresh s).bus = s.bus := rfl
@[simp] theorem countRefresh_member : (countRefresh s).member = s.member := rfl
@[simp] theorem countRefresh_table : (countRefresh s).table = s.table := rfl
@[simp] theorem countRefresh_sequence : (countRefresh s).sequence = s.sequence := rfl
@[simp] theorem countRefresh_followCount : (countRefresh s).followCount = s.followCount := rfl
@[simp] theorem countRefresh_cache : (countRefresh s).cache = s.cache := rfl
@[simp] theorem countRefresh_port : (countRefresh s).port = s.port := rfl
@[simp] theorem countRefresh_peers : (countRefresh s).peers = s.peers := rfl
@[simp] theorem countRefresh_replay : (countRefresh s).replay = s.replay := rfl
@[simp] theorem countRefresh_repair : (countRefresh s).repair = s.repair := rfl
@[simp] theorem countRefresh_pending : (countRefresh s).pending = s.pending := rfl

/-! `countDiscarded` -/
@[simp] theorem countDiscarded_pins : (countDiscarded s).pins = s.pins := rfl
@[simp] theorem countDiscarded_resetHeld : (countDiscarded s).resetHeld = s.resetHeld := rfl
@[simp] theorem countDiscarded_clock : (countDiscarded s).clock = s.clock := rfl
@[simp] theorem countDiscarded_freeCount : (countDiscarded s).freeCount = s.freeCount := rfl
@[simp] theorem countDiscarded_nextId : (countDiscarded s).nextId = s.nextId := rfl
@[simp] theorem countDiscarded_media : (countDiscarded s).media = s.media := rfl
@[simp] theorem countDiscarded_bus : (countDiscarded s).bus = s.bus := rfl
@[simp] theorem countDiscarded_member : (countDiscarded s).member = s.member := rfl
@[simp] theorem countDiscarded_table : (countDiscarded s).table = s.table := rfl
@[simp] theorem countDiscarded_sequence : (countDiscarded s).sequence = s.sequence := rfl
@[simp] theorem countDiscarded_followCount : (countDiscarded s).followCount = s.followCount := rfl
@[simp] theorem countDiscarded_cache : (countDiscarded s).cache = s.cache := rfl
@[simp] theorem countDiscarded_port : (countDiscarded s).port = s.port := rfl
@[simp] theorem countDiscarded_peers : (countDiscarded s).peers = s.peers := rfl
@[simp] theorem countDiscarded_replay : (countDiscarded s).replay = s.replay := rfl
@[simp] theorem countDiscarded_repair : (countDiscarded s).repair = s.repair := rfl
@[simp] theorem countDiscarded_pending : (countDiscarded s).pending = s.pending := rfl

/-! `countDropped` -/
@[simp] theorem countDropped_pins : (countDropped s).pins = s.pins := rfl
@[simp] theorem countDropped_resetHeld : (countDropped s).resetHeld = s.resetHeld := rfl
@[simp] theorem countDropped_clock : (countDropped s).clock = s.clock := rfl
@[simp] theorem countDropped_freeCount : (countDropped s).freeCount = s.freeCount := rfl
@[simp] theorem countDropped_nextId : (countDropped s).nextId = s.nextId := rfl
@[simp] theorem countDropped_media : (countDropped s).media = s.media := rfl
@[simp] theorem countDropped_bus : (countDropped s).bus = s.bus := rfl
@[simp] theorem countDropped_member : (countDropped s).member = s.member := rfl
@[simp] theorem countDropped_table : (countDropped s).table = s.table := rfl
@[simp] theorem countDropped_sequence : (countDropped s).sequence = s.sequence := rfl
@[simp] theorem countDropped_followCount : (countDropped s).followCount = s.followCount := rfl
@[simp] theorem countDropped_cache : (countDropped s).cache = s.cache := rfl
@[simp] theorem countDropped_port : (countDropped s).port = s.port := rfl
@[simp] theorem countDropped_peers : (countDropped s).peers = s.peers := rfl
@[simp] theorem countDropped_replay : (countDropped s).replay = s.replay := rfl
@[simp] theorem countDropped_repair : (countDropped s).repair = s.repair := rfl
@[simp] theorem countDropped_pending : (countDropped s).pending = s.pending := rfl

/-! `countAnswerDropped` -/
@[simp] theorem countAnswerDropped_pins : (countAnswerDropped s).pins = s.pins := rfl
@[simp] theorem countAnswerDropped_resetHeld : (countAnswerDropped s).resetHeld = s.resetHeld := rfl
@[simp] theorem countAnswerDropped_clock : (countAnswerDropped s).clock = s.clock := rfl
@[simp] theorem countAnswerDropped_freeCount : (countAnswerDropped s).freeCount = s.freeCount := rfl
@[simp] theorem countAnswerDropped_nextId : (countAnswerDropped s).nextId = s.nextId := rfl
@[simp] theorem countAnswerDropped_media : (countAnswerDropped s).media = s.media := rfl
@[simp] theorem countAnswerDropped_bus : (countAnswerDropped s).bus = s.bus := rfl
@[simp] theorem countAnswerDropped_member : (countAnswerDropped s).member = s.member := rfl
@[simp] theorem countAnswerDropped_table : (countAnswerDropped s).table = s.table := rfl
@[simp] theorem countAnswerDropped_sequence : (countAnswerDropped s).sequence = s.sequence := rfl
@[simp] theorem countAnswerDropped_followCount : (countAnswerDropped s).followCount = s.followCount := rfl
@[simp] theorem countAnswerDropped_cache : (countAnswerDropped s).cache = s.cache := rfl
@[simp] theorem countAnswerDropped_port : (countAnswerDropped s).port = s.port := rfl
@[simp] theorem countAnswerDropped_peers : (countAnswerDropped s).peers = s.peers := rfl
@[simp] theorem countAnswerDropped_replay : (countAnswerDropped s).replay = s.replay := rfl
@[simp] theorem countAnswerDropped_repair : (countAnswerDropped s).repair = s.repair := rfl
@[simp] theorem countAnswerDropped_pending : (countAnswerDropped s).pending = s.pending := rfl

/-! `countExpired` -/
@[simp] theorem countExpired_pins : (countExpired s).pins = s.pins := rfl
@[simp] theorem countExpired_resetHeld : (countExpired s).resetHeld = s.resetHeld := rfl
@[simp] theorem countExpired_clock : (countExpired s).clock = s.clock := rfl
@[simp] theorem countExpired_freeCount : (countExpired s).freeCount = s.freeCount := rfl
@[simp] theorem countExpired_nextId : (countExpired s).nextId = s.nextId := rfl
@[simp] theorem countExpired_media : (countExpired s).media = s.media := rfl
@[simp] theorem countExpired_bus : (countExpired s).bus = s.bus := rfl
@[simp] theorem countExpired_member : (countExpired s).member = s.member := rfl
@[simp] theorem countExpired_table : (countExpired s).table = s.table := rfl
@[simp] theorem countExpired_sequence : (countExpired s).sequence = s.sequence := rfl
@[simp] theorem countExpired_followCount : (countExpired s).followCount = s.followCount := rfl
@[simp] theorem countExpired_cache : (countExpired s).cache = s.cache := rfl
@[simp] theorem countExpired_port : (countExpired s).port = s.port := rfl
@[simp] theorem countExpired_peers : (countExpired s).peers = s.peers := rfl
@[simp] theorem countExpired_replay : (countExpired s).replay = s.replay := rfl
@[simp] theorem countExpired_repair : (countExpired s).repair = s.repair := rfl
@[simp] theorem countExpired_pending : (countExpired s).pending = s.pending := rfl

/-! `countMismatched` -/
@[simp] theorem countMismatched_pins : (countMismatched s).pins = s.pins := rfl
@[simp] theorem countMismatched_resetHeld : (countMismatched s).resetHeld = s.resetHeld := rfl
@[simp] theorem countMismatched_clock : (countMismatched s).clock = s.clock := rfl
@[simp] theorem countMismatched_freeCount : (countMismatched s).freeCount = s.freeCount := rfl
@[simp] theorem countMismatched_nextId : (countMismatched s).nextId = s.nextId := rfl
@[simp] theorem countMismatched_media : (countMismatched s).media = s.media := rfl
@[simp] theorem countMismatched_bus : (countMismatched s).bus = s.bus := rfl
@[simp] theorem countMismatched_member : (countMismatched s).member = s.member := rfl
@[simp] theorem countMismatched_table : (countMismatched s).table = s.table := rfl
@[simp] theorem countMismatched_sequence : (countMismatched s).sequence = s.sequence := rfl
@[simp] theorem countMismatched_followCount : (countMismatched s).followCount = s.followCount := rfl
@[simp] theorem countMismatched_cache : (countMismatched s).cache = s.cache := rfl
@[simp] theorem countMismatched_port : (countMismatched s).port = s.port := rfl
@[simp] theorem countMismatched_peers : (countMismatched s).peers = s.peers := rfl
@[simp] theorem countMismatched_replay : (countMismatched s).replay = s.replay := rfl
@[simp] theorem countMismatched_repair : (countMismatched s).repair = s.repair := rfl
@[simp] theorem countMismatched_pending : (countMismatched s).pending = s.pending := rfl

/-! `dropFetchCommit` -/
@[simp] theorem dropFetchCommit_pins (id : Nat) : (dropFetchCommit s id).pins = s.pins := rfl
@[simp] theorem dropFetchCommit_resetHeld (id : Nat) : (dropFetchCommit s id).resetHeld = s.resetHeld := rfl
@[simp] theorem dropFetchCommit_clock (id : Nat) : (dropFetchCommit s id).clock = s.clock := rfl
@[simp] theorem dropFetchCommit_freeCount (id : Nat) : (dropFetchCommit s id).freeCount = s.freeCount := rfl
@[simp] theorem dropFetchCommit_nextId (id : Nat) : (dropFetchCommit s id).nextId = s.nextId := rfl
@[simp] theorem dropFetchCommit_media (id : Nat) : (dropFetchCommit s id).media = s.media := rfl
@[simp] theorem dropFetchCommit_bus (id : Nat) : (dropFetchCommit s id).bus = s.bus := rfl
@[simp] theorem dropFetchCommit_member (id : Nat) : (dropFetchCommit s id).member = s.member := rfl
@[simp] theorem dropFetchCommit_table (id : Nat) : (dropFetchCommit s id).table = s.table := rfl
@[simp] theorem dropFetchCommit_sequence (id : Nat) : (dropFetchCommit s id).sequence = s.sequence := rfl
@[simp] theorem dropFetchCommit_followCount (id : Nat) : (dropFetchCommit s id).followCount = s.followCount := rfl
@[simp] theorem dropFetchCommit_port (id : Nat) : (dropFetchCommit s id).port = s.port := rfl
@[simp] theorem dropFetchCommit_peers (id : Nat) : (dropFetchCommit s id).peers = s.peers := rfl
@[simp] theorem dropFetchCommit_replay (id : Nat) : (dropFetchCommit s id).replay = s.replay := rfl
@[simp] theorem dropFetchCommit_repair (id : Nat) : (dropFetchCommit s id).repair = s.repair := rfl
@[simp] theorem dropFetchCommit_counters (id : Nat) : (dropFetchCommit s id).counters = s.counters := rfl
@[simp] theorem dropFetchCommit_pending (id : Nat) : (dropFetchCommit s id).pending = s.pending := rfl

/-! `countUnverified` -/
@[simp] theorem countUnverified_pins (n : Nat) : (countUnverified s n).pins = s.pins := rfl
@[simp] theorem countUnverified_resetHeld (n : Nat) : (countUnverified s n).resetHeld = s.resetHeld := rfl
@[simp] theorem countUnverified_clock (n : Nat) : (countUnverified s n).clock = s.clock := rfl
@[simp] theorem countUnverified_freeCount (n : Nat) : (countUnverified s n).freeCount = s.freeCount := rfl
@[simp] theorem countUnverified_nextId (n : Nat) : (countUnverified s n).nextId = s.nextId := rfl
@[simp] theorem countUnverified_media (n : Nat) : (countUnverified s n).media = s.media := rfl
@[simp] theorem countUnverified_bus (n : Nat) : (countUnverified s n).bus = s.bus := rfl
@[simp] theorem countUnverified_member (n : Nat) : (countUnverified s n).member = s.member := rfl
@[simp] theorem countUnverified_table (n : Nat) : (countUnverified s n).table = s.table := rfl
@[simp] theorem countUnverified_sequence (n : Nat) : (countUnverified s n).sequence = s.sequence := rfl
@[simp] theorem countUnverified_followCount (n : Nat) : (countUnverified s n).followCount = s.followCount := rfl
@[simp] theorem countUnverified_cache (n : Nat) : (countUnverified s n).cache = s.cache := rfl
@[simp] theorem countUnverified_port (n : Nat) : (countUnverified s n).port = s.port := rfl
@[simp] theorem countUnverified_peers (n : Nat) : (countUnverified s n).peers = s.peers := rfl
@[simp] theorem countUnverified_replay (n : Nat) : (countUnverified s n).replay = s.replay := rfl
@[simp] theorem countUnverified_counters (n : Nat) : (countUnverified s n).counters = s.counters := rfl
@[simp] theorem countUnverified_pending (n : Nat) : (countUnverified s n).pending = s.pending := rfl

/-! `setRepairState` -/
@[simp] theorem setRepairState_pins (b : Block) (st : RepairState) : (setRepairState s b st).pins = s.pins := rfl
@[simp] theorem setRepairState_resetHeld (b : Block) (st : RepairState) : (setRepairState s b st).resetHeld = s.resetHeld := rfl
@[simp] theorem setRepairState_clock (b : Block) (st : RepairState) : (setRepairState s b st).clock = s.clock := rfl
@[simp] theorem setRepairState_freeCount (b : Block) (st : RepairState) : (setRepairState s b st).freeCount = s.freeCount := rfl
@[simp] theorem setRepairState_nextId (b : Block) (st : RepairState) : (setRepairState s b st).nextId = s.nextId := rfl
@[simp] theorem setRepairState_media (b : Block) (st : RepairState) : (setRepairState s b st).media = s.media := rfl
@[simp] theorem setRepairState_bus (b : Block) (st : RepairState) : (setRepairState s b st).bus = s.bus := rfl
@[simp] theorem setRepairState_member (b : Block) (st : RepairState) : (setRepairState s b st).member = s.member := rfl
@[simp] theorem setRepairState_table (b : Block) (st : RepairState) : (setRepairState s b st).table = s.table := rfl
@[simp] theorem setRepairState_sequence (b : Block) (st : RepairState) : (setRepairState s b st).sequence = s.sequence := rfl
@[simp] theorem setRepairState_followCount (b : Block) (st : RepairState) : (setRepairState s b st).followCount = s.followCount := rfl
@[simp] theorem setRepairState_cache (b : Block) (st : RepairState) : (setRepairState s b st).cache = s.cache := rfl
@[simp] theorem setRepairState_port (b : Block) (st : RepairState) : (setRepairState s b st).port = s.port := rfl
@[simp] theorem setRepairState_peers (b : Block) (st : RepairState) : (setRepairState s b st).peers = s.peers := rfl
@[simp] theorem setRepairState_replay (b : Block) (st : RepairState) : (setRepairState s b st).replay = s.replay := rfl
@[simp] theorem setRepairState_counters (b : Block) (st : RepairState) : (setRepairState s b st).counters = s.counters := rfl
@[simp] theorem setRepairState_pending (b : Block) (st : RepairState) : (setRepairState s b st).pending = s.pending := rfl

/-! `updatePeer` -/
@[simp] theorem updatePeer_pins (p : StationNo) (f : PeerEntry → PeerEntry) : (updatePeer s p f).pins = s.pins := rfl
@[simp] theorem updatePeer_resetHeld (p : StationNo) (f : PeerEntry → PeerEntry) : (updatePeer s p f).resetHeld = s.resetHeld := rfl
@[simp] theorem updatePeer_clock (p : StationNo) (f : PeerEntry → PeerEntry) : (updatePeer s p f).clock = s.clock := rfl
@[simp] theorem updatePeer_freeCount (p : StationNo) (f : PeerEntry → PeerEntry) : (updatePeer s p f).freeCount = s.freeCount := rfl
@[simp] theorem updatePeer_nextId (p : StationNo) (f : PeerEntry → PeerEntry) : (updatePeer s p f).nextId = s.nextId := rfl
@[simp] theorem updatePeer_media (p : StationNo) (f : PeerEntry → PeerEntry) : (updatePeer s p f).media = s.media := rfl
@[simp] theorem updatePeer_bus (p : StationNo) (f : PeerEntry → PeerEntry) : (updatePeer s p f).bus = s.bus := rfl
@[simp] theorem updatePeer_member (p : StationNo) (f : PeerEntry → PeerEntry) : (updatePeer s p f).member = s.member := rfl
@[simp] theorem updatePeer_table (p : StationNo) (f : PeerEntry → PeerEntry) : (updatePeer s p f).table = s.table := rfl
@[simp] theorem updatePeer_sequence (p : StationNo) (f : PeerEntry → PeerEntry) : (updatePeer s p f).sequence = s.sequence := rfl
@[simp] theorem updatePeer_followCount (p : StationNo) (f : PeerEntry → PeerEntry) : (updatePeer s p f).followCount = s.followCount := rfl
@[simp] theorem updatePeer_cache (p : StationNo) (f : PeerEntry → PeerEntry) : (updatePeer s p f).cache = s.cache := rfl
@[simp] theorem updatePeer_port (p : StationNo) (f : PeerEntry → PeerEntry) : (updatePeer s p f).port = s.port := rfl
@[simp] theorem updatePeer_replay (p : StationNo) (f : PeerEntry → PeerEntry) : (updatePeer s p f).replay = s.replay := rfl
@[simp] theorem updatePeer_repair (p : StationNo) (f : PeerEntry → PeerEntry) : (updatePeer s p f).repair = s.repair := rfl
@[simp] theorem updatePeer_counters (p : StationNo) (f : PeerEntry → PeerEntry) : (updatePeer s p f).counters = s.counters := rfl
@[simp] theorem updatePeer_pending (p : StationNo) (f : PeerEntry → PeerEntry) : (updatePeer s p f).pending = s.pending := rfl

/-! `unawait` -/
@[simp] theorem unawait_pins (p : StationNo) : (unawait s p).pins = s.pins := rfl
@[simp] theorem unawait_resetHeld (p : StationNo) : (unawait s p).resetHeld = s.resetHeld := rfl
@[simp] theorem unawait_clock (p : StationNo) : (unawait s p).clock = s.clock := rfl
@[simp] theorem unawait_freeCount (p : StationNo) : (unawait s p).freeCount = s.freeCount := rfl
@[simp] theorem unawait_nextId (p : StationNo) : (unawait s p).nextId = s.nextId := rfl
@[simp] theorem unawait_media (p : StationNo) : (unawait s p).media = s.media := rfl
@[simp] theorem unawait_bus (p : StationNo) : (unawait s p).bus = s.bus := rfl
@[simp] theorem unawait_member (p : StationNo) : (unawait s p).member = s.member := rfl
@[simp] theorem unawait_table (p : StationNo) : (unawait s p).table = s.table := rfl
@[simp] theorem unawait_sequence (p : StationNo) : (unawait s p).sequence = s.sequence := rfl
@[simp] theorem unawait_followCount (p : StationNo) : (unawait s p).followCount = s.followCount := rfl
@[simp] theorem unawait_cache (p : StationNo) : (unawait s p).cache = s.cache := rfl
@[simp] theorem unawait_port (p : StationNo) : (unawait s p).port = s.port := rfl
@[simp] theorem unawait_peers (p : StationNo) : (unawait s p).peers = s.peers := rfl
@[simp] theorem unawait_replay (p : StationNo) : (unawait s p).replay = s.replay := rfl
@[simp] theorem unawait_counters (p : StationNo) : (unawait s p).counters = s.counters := rfl
@[simp] theorem unawait_pending (p : StationNo) : (unawait s p).pending = s.pending := rfl

/-! `holdNewSlot` -/
@[simp] theorem holdNewSlot_pins (b : Block) (i : Nat) : (holdNewSlot s b i).pins = s.pins := rfl
@[simp] theorem holdNewSlot_resetHeld (b : Block) (i : Nat) : (holdNewSlot s b i).resetHeld = s.resetHeld := rfl
@[simp] theorem holdNewSlot_clock (b : Block) (i : Nat) : (holdNewSlot s b i).clock = s.clock := rfl
@[simp] theorem holdNewSlot_freeCount (b : Block) (i : Nat) : (holdNewSlot s b i).freeCount = s.freeCount := rfl
@[simp] theorem holdNewSlot_nextId (b : Block) (i : Nat) : (holdNewSlot s b i).nextId = s.nextId := rfl
@[simp] theorem holdNewSlot_media (b : Block) (i : Nat) : (holdNewSlot s b i).media = s.media := rfl
@[simp] theorem holdNewSlot_bus (b : Block) (i : Nat) : (holdNewSlot s b i).bus = s.bus := rfl
@[simp] theorem holdNewSlot_member (b : Block) (i : Nat) : (holdNewSlot s b i).member = s.member := rfl
@[simp] theorem holdNewSlot_sequence (b : Block) (i : Nat) : (holdNewSlot s b i).sequence = s.sequence := rfl
@[simp] theorem holdNewSlot_followCount (b : Block) (i : Nat) : (holdNewSlot s b i).followCount = s.followCount := rfl
@[simp] theorem holdNewSlot_cache (b : Block) (i : Nat) : (holdNewSlot s b i).cache = s.cache := rfl
@[simp] theorem holdNewSlot_port (b : Block) (i : Nat) : (holdNewSlot s b i).port = s.port := rfl
@[simp] theorem holdNewSlot_peers (b : Block) (i : Nat) : (holdNewSlot s b i).peers = s.peers := rfl
@[simp] theorem holdNewSlot_replay (b : Block) (i : Nat) : (holdNewSlot s b i).replay = s.replay := rfl
@[simp] theorem holdNewSlot_repair (b : Block) (i : Nat) : (holdNewSlot s b i).repair = s.repair := rfl
@[simp] theorem holdNewSlot_counters (b : Block) (i : Nat) : (holdNewSlot s b i).counters = s.counters := rfl
@[simp] theorem holdNewSlot_pending (b : Block) (i : Nat) : (holdNewSlot s b i).pending = s.pending := rfl

/-! `addPending` -/
@[simp] theorem addPending_pins (p : PendingCommit) : (addPending s p).pins = s.pins := rfl
@[simp] theorem addPending_resetHeld (p : PendingCommit) : (addPending s p).resetHeld = s.resetHeld := rfl
@[simp] theorem addPending_clock (p : PendingCommit) : (addPending s p).clock = s.clock := rfl
@[simp] theorem addPending_freeCount (p : PendingCommit) : (addPending s p).freeCount = s.freeCount := rfl
@[simp] theorem addPending_nextId (p : PendingCommit) : (addPending s p).nextId = s.nextId := rfl
@[simp] theorem addPending_media (p : PendingCommit) : (addPending s p).media = s.media := rfl
@[simp] theorem addPending_bus (p : PendingCommit) : (addPending s p).bus = s.bus := rfl
@[simp] theorem addPending_member (p : PendingCommit) : (addPending s p).member = s.member := rfl
@[simp] theorem addPending_table (p : PendingCommit) : (addPending s p).table = s.table := rfl
@[simp] theorem addPending_sequence (p : PendingCommit) : (addPending s p).sequence = s.sequence := rfl
@[simp] theorem addPending_followCount (p : PendingCommit) : (addPending s p).followCount = s.followCount := rfl
@[simp] theorem addPending_port (p : PendingCommit) : (addPending s p).port = s.port := rfl
@[simp] theorem addPending_peers (p : PendingCommit) : (addPending s p).peers = s.peers := rfl
@[simp] theorem addPending_replay (p : PendingCommit) : (addPending s p).replay = s.replay := rfl
@[simp] theorem addPending_repair (p : PendingCommit) : (addPending s p).repair = s.repair := rfl
@[simp] theorem addPending_counters (p : PendingCommit) : (addPending s p).counters = s.counters := rfl
@[simp] theorem addPending_pending (p : PendingCommit) : (addPending s p).pending = s.pending := rfl

/-! `updateFetch` -/
@[simp] theorem updateFetch_pins (id : Nat) (f : Fetch → Fetch) : (updateFetch s id f).pins = s.pins := rfl
@[simp] theorem updateFetch_resetHeld (id : Nat) (f : Fetch → Fetch) : (updateFetch s id f).resetHeld = s.resetHeld := rfl
@[simp] theorem updateFetch_clock (id : Nat) (f : Fetch → Fetch) : (updateFetch s id f).clock = s.clock := rfl
@[simp] theorem updateFetch_freeCount (id : Nat) (f : Fetch → Fetch) : (updateFetch s id f).freeCount = s.freeCount := rfl
@[simp] theorem updateFetch_nextId (id : Nat) (f : Fetch → Fetch) : (updateFetch s id f).nextId = s.nextId := rfl
@[simp] theorem updateFetch_media (id : Nat) (f : Fetch → Fetch) : (updateFetch s id f).media = s.media := rfl
@[simp] theorem updateFetch_bus (id : Nat) (f : Fetch → Fetch) : (updateFetch s id f).bus = s.bus := rfl
@[simp] theorem updateFetch_member (id : Nat) (f : Fetch → Fetch) : (updateFetch s id f).member = s.member := rfl
@[simp] theorem updateFetch_table (id : Nat) (f : Fetch → Fetch) : (updateFetch s id f).table = s.table := rfl
@[simp] theorem updateFetch_sequence (id : Nat) (f : Fetch → Fetch) : (updateFetch s id f).sequence = s.sequence := rfl
@[simp] theorem updateFetch_followCount (id : Nat) (f : Fetch → Fetch) : (updateFetch s id f).followCount = s.followCount := rfl
@[simp] theorem updateFetch_cache (id : Nat) (f : Fetch → Fetch) : (updateFetch s id f).cache = s.cache := rfl
@[simp] theorem updateFetch_port (id : Nat) (f : Fetch → Fetch) : (updateFetch s id f).port = s.port := rfl
@[simp] theorem updateFetch_peers (id : Nat) (f : Fetch → Fetch) : (updateFetch s id f).peers = s.peers := rfl
@[simp] theorem updateFetch_replay (id : Nat) (f : Fetch → Fetch) : (updateFetch s id f).replay = s.replay := rfl
@[simp] theorem updateFetch_counters (id : Nat) (f : Fetch → Fetch) : (updateFetch s id f).counters = s.counters := rfl
@[simp] theorem updateFetch_pending (id : Nat) (f : Fetch → Fetch) : (updateFetch s id f).pending = s.pending := rfl

/-! `updatePush` -/
@[simp] theorem updatePush_pins (id : Nat) (f : Push → Push) : (updatePush s id f).pins = s.pins := rfl
@[simp] theorem updatePush_resetHeld (id : Nat) (f : Push → Push) : (updatePush s id f).resetHeld = s.resetHeld := rfl
@[simp] theorem updatePush_clock (id : Nat) (f : Push → Push) : (updatePush s id f).clock = s.clock := rfl
@[simp] theorem updatePush_freeCount (id : Nat) (f : Push → Push) : (updatePush s id f).freeCount = s.freeCount := rfl
@[simp] theorem updatePush_nextId (id : Nat) (f : Push → Push) : (updatePush s id f).nextId = s.nextId := rfl
@[simp] theorem updatePush_media (id : Nat) (f : Push → Push) : (updatePush s id f).media = s.media := rfl
@[simp] theorem updatePush_bus (id : Nat) (f : Push → Push) : (updatePush s id f).bus = s.bus := rfl
@[simp] theorem updatePush_member (id : Nat) (f : Push → Push) : (updatePush s id f).member = s.member := rfl
@[simp] theorem updatePush_table (id : Nat) (f : Push → Push) : (updatePush s id f).table = s.table := rfl
@[simp] theorem updatePush_sequence (id : Nat) (f : Push → Push) : (updatePush s id f).sequence = s.sequence := rfl
@[simp] theorem updatePush_followCount (id : Nat) (f : Push → Push) : (updatePush s id f).followCount = s.followCount := rfl
@[simp] theorem updatePush_cache (id : Nat) (f : Push → Push) : (updatePush s id f).cache = s.cache := rfl
@[simp] theorem updatePush_port (id : Nat) (f : Push → Push) : (updatePush s id f).port = s.port := rfl
@[simp] theorem updatePush_peers (id : Nat) (f : Push → Push) : (updatePush s id f).peers = s.peers := rfl
@[simp] theorem updatePush_repair (id : Nat) (f : Push → Push) : (updatePush s id f).repair = s.repair := rfl
@[simp] theorem updatePush_counters (id : Nat) (f : Push → Push) : (updatePush s id f).counters = s.counters := rfl
@[simp] theorem updatePush_pending (id : Nat) (f : Push → Push) : (updatePush s id f).pending = s.pending := rfl

/-! `addRetake` -/
@[simp] theorem addRetake_pins (b : Block) (due : Option Nat) : (addRetake s b due).pins = s.pins := rfl
@[simp] theorem addRetake_resetHeld (b : Block) (due : Option Nat) : (addRetake s b due).resetHeld = s.resetHeld := rfl
@[simp] theorem addRetake_clock (b : Block) (due : Option Nat) : (addRetake s b due).clock = s.clock := rfl
@[simp] theorem addRetake_freeCount (b : Block) (due : Option Nat) : (addRetake s b due).freeCount = s.freeCount := rfl
@[simp] theorem addRetake_nextId (b : Block) (due : Option Nat) : (addRetake s b due).nextId = s.nextId := rfl
@[simp] theorem addRetake_media (b : Block) (due : Option Nat) : (addRetake s b due).media = s.media := rfl
@[simp] theorem addRetake_bus (b : Block) (due : Option Nat) : (addRetake s b due).bus = s.bus := rfl
@[simp] theorem addRetake_member (b : Block) (due : Option Nat) : (addRetake s b due).member = s.member := rfl
@[simp] theorem addRetake_table (b : Block) (due : Option Nat) : (addRetake s b due).table = s.table := rfl
@[simp] theorem addRetake_sequence (b : Block) (due : Option Nat) : (addRetake s b due).sequence = s.sequence := rfl
@[simp] theorem addRetake_followCount (b : Block) (due : Option Nat) : (addRetake s b due).followCount = s.followCount := rfl
@[simp] theorem addRetake_cache (b : Block) (due : Option Nat) : (addRetake s b due).cache = s.cache := rfl
@[simp] theorem addRetake_port (b : Block) (due : Option Nat) : (addRetake s b due).port = s.port := rfl
@[simp] theorem addRetake_peers (b : Block) (due : Option Nat) : (addRetake s b due).peers = s.peers := rfl
@[simp] theorem addRetake_replay (b : Block) (due : Option Nat) : (addRetake s b due).replay = s.replay := rfl
@[simp] theorem addRetake_counters (b : Block) (due : Option Nat) : (addRetake s b due).counters = s.counters := rfl
@[simp] theorem addRetake_pending (b : Block) (due : Option Nat) : (addRetake s b due).pending = s.pending := rfl

/-! `leaveGroup` -/
@[simp] theorem leaveGroup_pins (g : Nat) : (leaveGroup s g).pins = s.pins := rfl
@[simp] theorem leaveGroup_resetHeld (g : Nat) : (leaveGroup s g).resetHeld = s.resetHeld := rfl
@[simp] theorem leaveGroup_clock (g : Nat) : (leaveGroup s g).clock = s.clock := rfl
@[simp] theorem leaveGroup_freeCount (g : Nat) : (leaveGroup s g).freeCount = s.freeCount := rfl
@[simp] theorem leaveGroup_nextId (g : Nat) : (leaveGroup s g).nextId = s.nextId := rfl
@[simp] theorem leaveGroup_media (g : Nat) : (leaveGroup s g).media = s.media := rfl
@[simp] theorem leaveGroup_bus (g : Nat) : (leaveGroup s g).bus = s.bus := rfl
@[simp] theorem leaveGroup_member (g : Nat) : (leaveGroup s g).member = s.member := rfl
@[simp] theorem leaveGroup_table (g : Nat) : (leaveGroup s g).table = s.table := rfl
@[simp] theorem leaveGroup_sequence (g : Nat) : (leaveGroup s g).sequence = s.sequence := rfl
@[simp] theorem leaveGroup_followCount (g : Nat) : (leaveGroup s g).followCount = s.followCount := rfl
@[simp] theorem leaveGroup_cache (g : Nat) : (leaveGroup s g).cache = s.cache := rfl
@[simp] theorem leaveGroup_port (g : Nat) : (leaveGroup s g).port = s.port := rfl
@[simp] theorem leaveGroup_peers (g : Nat) : (leaveGroup s g).peers = s.peers := rfl
@[simp] theorem leaveGroup_replay (g : Nat) : (leaveGroup s g).replay = s.replay := rfl
@[simp] theorem leaveGroup_counters (g : Nat) : (leaveGroup s g).counters = s.counters := rfl
@[simp] theorem leaveGroup_pending (g : Nat) : (leaveGroup s g).pending = s.pending := rfl

/-! `skipGroup` -/
@[simp] theorem skipGroup_pins (g : Nat) : (skipGroup s g).pins = s.pins := rfl
@[simp] theorem skipGroup_resetHeld (g : Nat) : (skipGroup s g).resetHeld = s.resetHeld := rfl
@[simp] theorem skipGroup_clock (g : Nat) : (skipGroup s g).clock = s.clock := rfl
@[simp] theorem skipGroup_freeCount (g : Nat) : (skipGroup s g).freeCount = s.freeCount := rfl
@[simp] theorem skipGroup_nextId (g : Nat) : (skipGroup s g).nextId = s.nextId := rfl
@[simp] theorem skipGroup_media (g : Nat) : (skipGroup s g).media = s.media := rfl
@[simp] theorem skipGroup_bus (g : Nat) : (skipGroup s g).bus = s.bus := rfl
@[simp] theorem skipGroup_member (g : Nat) : (skipGroup s g).member = s.member := rfl
@[simp] theorem skipGroup_table (g : Nat) : (skipGroup s g).table = s.table := rfl
@[simp] theorem skipGroup_sequence (g : Nat) : (skipGroup s g).sequence = s.sequence := rfl
@[simp] theorem skipGroup_followCount (g : Nat) : (skipGroup s g).followCount = s.followCount := rfl
@[simp] theorem skipGroup_cache (g : Nat) : (skipGroup s g).cache = s.cache := rfl
@[simp] theorem skipGroup_port (g : Nat) : (skipGroup s g).port = s.port := rfl
@[simp] theorem skipGroup_peers (g : Nat) : (skipGroup s g).peers = s.peers := rfl
@[simp] theorem skipGroup_replay (g : Nat) : (skipGroup s g).replay = s.replay := rfl
@[simp] theorem skipGroup_counters (g : Nat) : (skipGroup s g).counters = s.counters := rfl
@[simp] theorem skipGroup_pending (g : Nat) : (skipGroup s g).pending = s.pending := rfl

/-! `movePendings` -/
@[simp] theorem movePendings_pins (b : Block) : (movePendings s b).pins = s.pins := rfl
@[simp] theorem movePendings_resetHeld (b : Block) : (movePendings s b).resetHeld = s.resetHeld := rfl
@[simp] theorem movePendings_clock (b : Block) : (movePendings s b).clock = s.clock := rfl
@[simp] theorem movePendings_freeCount (b : Block) : (movePendings s b).freeCount = s.freeCount := rfl
@[simp] theorem movePendings_nextId (b : Block) : (movePendings s b).nextId = s.nextId := rfl
@[simp] theorem movePendings_media (b : Block) : (movePendings s b).media = s.media := rfl
@[simp] theorem movePendings_bus (b : Block) : (movePendings s b).bus = s.bus := rfl
@[simp] theorem movePendings_member (b : Block) : (movePendings s b).member = s.member := rfl
@[simp] theorem movePendings_table (b : Block) : (movePendings s b).table = s.table := rfl
@[simp] theorem movePendings_sequence (b : Block) : (movePendings s b).sequence = s.sequence := rfl
@[simp] theorem movePendings_followCount (b : Block) : (movePendings s b).followCount = s.followCount := rfl
@[simp] theorem movePendings_port (b : Block) : (movePendings s b).port = s.port := rfl
@[simp] theorem movePendings_peers (b : Block) : (movePendings s b).peers = s.peers := rfl
@[simp] theorem movePendings_replay (b : Block) : (movePendings s b).replay = s.replay := rfl
@[simp] theorem movePendings_repair (b : Block) : (movePendings s b).repair = s.repair := rfl
@[simp] theorem movePendings_counters (b : Block) : (movePendings s b).counters = s.counters := rfl
@[simp] theorem movePendings_pending (b : Block) : (movePendings s b).pending = s.pending := rfl

/-! `takePendings` -/
@[simp] theorem takePendings_pins (b : Block) (k : ReadKind) : (takePendings s b k).pins = s.pins := rfl
@[simp] theorem takePendings_resetHeld (b : Block) (k : ReadKind) : (takePendings s b k).resetHeld = s.resetHeld := rfl
@[simp] theorem takePendings_clock (b : Block) (k : ReadKind) : (takePendings s b k).clock = s.clock := rfl
@[simp] theorem takePendings_freeCount (b : Block) (k : ReadKind) : (takePendings s b k).freeCount = s.freeCount := rfl
@[simp] theorem takePendings_nextId (b : Block) (k : ReadKind) : (takePendings s b k).nextId = s.nextId := rfl
@[simp] theorem takePendings_media (b : Block) (k : ReadKind) : (takePendings s b k).media = s.media := rfl
@[simp] theorem takePendings_bus (b : Block) (k : ReadKind) : (takePendings s b k).bus = s.bus := rfl
@[simp] theorem takePendings_member (b : Block) (k : ReadKind) : (takePendings s b k).member = s.member := rfl
@[simp] theorem takePendings_table (b : Block) (k : ReadKind) : (takePendings s b k).table = s.table := rfl
@[simp] theorem takePendings_sequence (b : Block) (k : ReadKind) : (takePendings s b k).sequence = s.sequence := rfl
@[simp] theorem takePendings_followCount (b : Block) (k : ReadKind) : (takePendings s b k).followCount = s.followCount := rfl
@[simp] theorem takePendings_port (b : Block) (k : ReadKind) : (takePendings s b k).port = s.port := rfl
@[simp] theorem takePendings_peers (b : Block) (k : ReadKind) : (takePendings s b k).peers = s.peers := rfl
@[simp] theorem takePendings_replay (b : Block) (k : ReadKind) : (takePendings s b k).replay = s.replay := rfl
@[simp] theorem takePendings_repair (b : Block) (k : ReadKind) : (takePendings s b k).repair = s.repair := rfl
@[simp] theorem takePendings_counters (b : Block) (k : ReadKind) : (takePendings s b k).counters = s.counters := rfl
@[simp] theorem takePendings_pending (b : Block) (k : ReadKind) : (takePendings s b k).pending = s.pending := rfl

/-! `takeWaiters` -/
@[simp] theorem takeWaiters_pins (b : Block) (k : ReadKind) : (takeWaiters s b k).pins = s.pins := rfl
@[simp] theorem takeWaiters_resetHeld (b : Block) (k : ReadKind) : (takeWaiters s b k).resetHeld = s.resetHeld := rfl
@[simp] theorem takeWaiters_clock (b : Block) (k : ReadKind) : (takeWaiters s b k).clock = s.clock := rfl
@[simp] theorem takeWaiters_freeCount (b : Block) (k : ReadKind) : (takeWaiters s b k).freeCount = s.freeCount := rfl
@[simp] theorem takeWaiters_nextId (b : Block) (k : ReadKind) : (takeWaiters s b k).nextId = s.nextId := rfl
@[simp] theorem takeWaiters_media (b : Block) (k : ReadKind) : (takeWaiters s b k).media = s.media := rfl
@[simp] theorem takeWaiters_bus (b : Block) (k : ReadKind) : (takeWaiters s b k).bus = s.bus := rfl
@[simp] theorem takeWaiters_member (b : Block) (k : ReadKind) : (takeWaiters s b k).member = s.member := rfl
@[simp] theorem takeWaiters_table (b : Block) (k : ReadKind) : (takeWaiters s b k).table = s.table := rfl
@[simp] theorem takeWaiters_sequence (b : Block) (k : ReadKind) : (takeWaiters s b k).sequence = s.sequence := rfl
@[simp] theorem takeWaiters_followCount (b : Block) (k : ReadKind) : (takeWaiters s b k).followCount = s.followCount := rfl
@[simp] theorem takeWaiters_port (b : Block) (k : ReadKind) : (takeWaiters s b k).port = s.port := rfl
@[simp] theorem takeWaiters_peers (b : Block) (k : ReadKind) : (takeWaiters s b k).peers = s.peers := rfl
@[simp] theorem takeWaiters_replay (b : Block) (k : ReadKind) : (takeWaiters s b k).replay = s.replay := rfl
@[simp] theorem takeWaiters_repair (b : Block) (k : ReadKind) : (takeWaiters s b k).repair = s.repair := rfl
@[simp] theorem takeWaiters_counters (b : Block) (k : ReadKind) : (takeWaiters s b k).counters = s.counters := rfl
@[simp] theorem takeWaiters_pending (b : Block) (k : ReadKind) : (takeWaiters s b k).pending = s.pending := rfl

/-! `abandonCache` -/
@[simp] theorem abandonCache_pins : (abandonCache s).pins = s.pins := rfl
@[simp] theorem abandonCache_resetHeld : (abandonCache s).resetHeld = s.resetHeld := rfl
@[simp] theorem abandonCache_clock : (abandonCache s).clock = s.clock := rfl
@[simp] theorem abandonCache_freeCount : (abandonCache s).freeCount = s.freeCount := rfl
@[simp] theorem abandonCache_nextId : (abandonCache s).nextId = s.nextId := rfl
@[simp] theorem abandonCache_media : (abandonCache s).media = s.media := rfl
@[simp] theorem abandonCache_bus : (abandonCache s).bus = s.bus := rfl
@[simp] theorem abandonCache_member : (abandonCache s).member = s.member := rfl
@[simp] theorem abandonCache_table : (abandonCache s).table = s.table := rfl
@[simp] theorem abandonCache_sequence : (abandonCache s).sequence = s.sequence := rfl
@[simp] theorem abandonCache_followCount : (abandonCache s).followCount = s.followCount := rfl
@[simp] theorem abandonCache_port : (abandonCache s).port = s.port := rfl
@[simp] theorem abandonCache_peers : (abandonCache s).peers = s.peers := rfl
@[simp] theorem abandonCache_replay : (abandonCache s).replay = s.replay := rfl
@[simp] theorem abandonCache_repair : (abandonCache s).repair = s.repair := rfl
@[simp] theorem abandonCache_counters : (abandonCache s).counters = s.counters := rfl
@[simp] theorem abandonCache_pending : (abandonCache s).pending = s.pending := rfl

/-! `stopServiceTimers` -/
@[simp] theorem stopServiceTimers_pins : (stopServiceTimers s).pins = s.pins := rfl
@[simp] theorem stopServiceTimers_resetHeld : (stopServiceTimers s).resetHeld = s.resetHeld := rfl
@[simp] theorem stopServiceTimers_clock : (stopServiceTimers s).clock = s.clock := rfl
@[simp] theorem stopServiceTimers_freeCount : (stopServiceTimers s).freeCount = s.freeCount := rfl
@[simp] theorem stopServiceTimers_nextId : (stopServiceTimers s).nextId = s.nextId := rfl
@[simp] theorem stopServiceTimers_media : (stopServiceTimers s).media = s.media := rfl
@[simp] theorem stopServiceTimers_bus : (stopServiceTimers s).bus = s.bus := rfl
@[simp] theorem stopServiceTimers_table : (stopServiceTimers s).table = s.table := rfl
@[simp] theorem stopServiceTimers_sequence : (stopServiceTimers s).sequence = s.sequence := rfl
@[simp] theorem stopServiceTimers_followCount : (stopServiceTimers s).followCount = s.followCount := rfl
@[simp] theorem stopServiceTimers_cache : (stopServiceTimers s).cache = s.cache := rfl
@[simp] theorem stopServiceTimers_port : (stopServiceTimers s).port = s.port := rfl
@[simp] theorem stopServiceTimers_peers : (stopServiceTimers s).peers = s.peers := rfl
@[simp] theorem stopServiceTimers_counters : (stopServiceTimers s).counters = s.counters := rfl
@[simp] theorem stopServiceTimers_pending : (stopServiceTimers s).pending = s.pending := rfl

/-! `enterListening` -/
@[simp] theorem enterListening_pins : (enterListening s).pins = s.pins := rfl
@[simp] theorem enterListening_resetHeld : (enterListening s).resetHeld = s.resetHeld := rfl
@[simp] theorem enterListening_clock : (enterListening s).clock = s.clock := rfl
@[simp] theorem enterListening_freeCount : (enterListening s).freeCount = s.freeCount := rfl
@[simp] theorem enterListening_nextId : (enterListening s).nextId = s.nextId := rfl
@[simp] theorem enterListening_media : (enterListening s).media = s.media := rfl
@[simp] theorem enterListening_bus : (enterListening s).bus = s.bus := rfl
@[simp] theorem enterListening_table : (enterListening s).table = s.table := rfl
@[simp] theorem enterListening_sequence : (enterListening s).sequence = s.sequence := rfl
@[simp] theorem enterListening_followCount : (enterListening s).followCount = s.followCount := rfl
@[simp] theorem enterListening_cache : (enterListening s).cache = s.cache := rfl
@[simp] theorem enterListening_port : (enterListening s).port = s.port := rfl
@[simp] theorem enterListening_peers : (enterListening s).peers = s.peers := rfl
@[simp] theorem enterListening_replay : (enterListening s).replay = s.replay := rfl
@[simp] theorem enterListening_repair : (enterListening s).repair = s.repair := rfl
@[simp] theorem enterListening_counters : (enterListening s).counters = s.counters := rfl
@[simp] theorem enterListening_pending : (enterListening s).pending = s.pending := rfl

/-! `fixRoster` -/
@[simp] theorem fixRoster_pins (mark : Mark) : (fixRoster s mark).pins = s.pins := rfl
@[simp] theorem fixRoster_resetHeld (mark : Mark) : (fixRoster s mark).resetHeld = s.resetHeld := rfl
@[simp] theorem fixRoster_clock (mark : Mark) : (fixRoster s mark).clock = s.clock := rfl
@[simp] theorem fixRoster_freeCount (mark : Mark) : (fixRoster s mark).freeCount = s.freeCount := rfl
@[simp] theorem fixRoster_nextId (mark : Mark) : (fixRoster s mark).nextId = s.nextId := rfl
@[simp] theorem fixRoster_media (mark : Mark) : (fixRoster s mark).media = s.media := rfl
@[simp] theorem fixRoster_bus (mark : Mark) : (fixRoster s mark).bus = s.bus := rfl
@[simp] theorem fixRoster_table (mark : Mark) : (fixRoster s mark).table = s.table := rfl
@[simp] theorem fixRoster_sequence (mark : Mark) : (fixRoster s mark).sequence = s.sequence := rfl
@[simp] theorem fixRoster_followCount (mark : Mark) : (fixRoster s mark).followCount = s.followCount := rfl
@[simp] theorem fixRoster_cache (mark : Mark) : (fixRoster s mark).cache = s.cache := rfl
@[simp] theorem fixRoster_port (mark : Mark) : (fixRoster s mark).port = s.port := rfl
@[simp] theorem fixRoster_replay (mark : Mark) : (fixRoster s mark).replay = s.replay := rfl
@[simp] theorem fixRoster_repair (mark : Mark) : (fixRoster s mark).repair = s.repair := rfl
@[simp] theorem fixRoster_counters (mark : Mark) : (fixRoster s mark).counters = s.counters := rfl
@[simp] theorem fixRoster_pending (mark : Mark) : (fixRoster s mark).pending = s.pending := rfl

/-! The fields that the updates set -/
theorem reach_clock (due : Nat) : (reach s due).clock = max s.clock due := rfl
@[simp] theorem addEntry_table (e : Entry) : (addEntry s e).table = s.table ++ [e] := rfl
@[simp] theorem setQueue_queue (q : List TxFrame) : (setQueue s q).bus.queue = q := rfl
@[simp] theorem setQueue_line (q : List TxFrame) : (setQueue s q).bus.line = s.bus.line := rfl
@[simp] theorem setQueue_echo (q : List TxFrame) : (setQueue s q).bus.echo = s.bus.echo := rfl
@[simp] theorem setSlot_slots (i : Nat) (x : Slot) :
    (setSlot s i x).cache.slots = s.cache.slots.set i x := rfl
theorem storeRecord_media (b : Block) (r : Record) :
    (storeRecord s b r).media = writeMedia s.media b.toNat r := rfl
@[simp] theorem countDiscarded_discarded :
    (countDiscarded s).counters.discarded = advance s.counters.discarded := rfl
@[simp] theorem countDropped_droppedOnTransmit :
    (countDropped s).counters.droppedOnTransmit = advance s.counters.droppedOnTransmit := rfl
@[simp] theorem countExpired_entriesExpired :
    (countExpired s).counters.entriesExpired = advance s.counters.entriesExpired := rfl

end Sys2Proof.Machine
end

