-- ==== Sys2Proof/Laws/Frame.lean ====
section
/-! SUPPORT. What every operation leaves alone, said once as a relation between the state before and the state after: the pins, the record memory and the waiting commands stay, no capacity is exceeded, tags and current slots stay unique. -/

namespace Sys2Proof.Machine

/-! ### The relations -/

/-- No collection of the station but the request table exceeds its capacity. -/
structure Roomy (s : State) : Prop where
  queue : s.bus.queue.length ≤ Config.queueSize
  low : lowClassCount s.bus.queue ≤ Config.queueSizeLowClasses
  media : s.port.queue.length ≤ Config.mediaQueueSize
  pool : s.replay.pool.length ≤ Config.poolSize
  list : s.repair.list.length ≤ Config.repairSize

/-- No two slots are current for one block, place by place. -/
def SingleCurrent (l : List Slot) : Prop :=
  ∀ (i j : Nat) (b : Block), (l[i]?.bind Slot.currentBlock) = some b → (l[j]?.bind Slot.currentBlock) = some b → i = j

/-- The tags of the request table. -/
def tagsOf (s : State) : List Tag := s.table.map Entry.tag

/-- The table is within its capacity and its tags are unique. -/
def TableOk (s : State) : Prop := s.table.length ≤ Config.tableSize ∧ (tagsOf s).Nodup

/-- `t` comes from `s` by an operation that makes or removes no table entry and begins no push or fetch. -/
structure Keeps (s t : State) : Prop where
  pins : t.pins = s.pins
  held : t.resetHeld = s.resetHeld
  media : t.media = s.media
  pending : t.pending = s.pending
  slots : s.cache.slots.length = Config.slotCount → t.cache.slots.length = Config.slotCount
  tags : tagsOf t = tagsOf s
  pushes : t.replay.pushes.length ≤ s.replay.pushes.length
  fetches : t.repair.fetches.length ≤ s.repair.fetches.length
  roomy : Roomy s → Roomy t
  current : SingleCurrent s.cache.slots → SingleCurrent t.cache.slots

/-- As `Keeps`, but table entries may be made and removed. -/
structure Stays (s t : State) : Prop where
  pins : t.pins = s.pins
  held : t.resetHeld = s.resetHeld
  media : t.media = s.media
  pending : t.pending = s.pending
  slots : s.cache.slots.length = Config.slotCount → t.cache.slots.length = Config.slotCount
  table : TableOk s → TableOk t
  pushes : t.replay.pushes.length ≤ s.replay.pushes.length
  fetches : t.repair.fetches.length ≤ s.repair.fetches.length
  roomy : Roomy s → Roomy t
  current : SingleCurrent s.cache.slots → SingleCurrent t.cache.slots

theorem Keeps.refl (s : State) : Keeps s s :=
  ⟨rfl, rfl, rfl, rfl, id, rfl, le_refl _, le_refl _, id, id⟩

theorem Keeps.trans {s t u : State} (a : Keeps s t) (b : Keeps t u) : Keeps s u :=
  ⟨b.pins.trans a.pins, b.held.trans a.held, b.media.trans a.media, b.pending.trans a.pending,
   b.slots ∘ a.slots, b.tags.trans a.tags, b.pushes.trans a.pushes, b.fetches.trans a.fetches,
   b.roomy ∘ a.roomy, b.current ∘ a.current⟩

theorem Stays.refl (s : State) : Stays s s :=
  ⟨rfl, rfl, rfl, rfl, id, id, le_refl _, le_refl _, id, id⟩

theorem Stays.trans {s t u : State} (a : Stays s t) (b : Stays t u) : Stays s u :=
  ⟨b.pins.trans a.pins, b.held.trans a.held, b.media.trans a.media, b.pending.trans a.pending,
   b.slots ∘ a.slots, b.table ∘ a.table, b.pushes.trans a.pushes, b.fetches.trans a.fetches,
   b.roomy ∘ a.roomy, b.current ∘ a.current⟩

theorem Keeps.stays {s t : State} (a : Keeps s t) : Stays s t := by
  refine ⟨a.pins, a.held, a.media, a.pending, a.slots, fun h => ?_, a.pushes, a.fetches, a.roomy, a.current⟩
  have hl : t.table.length = s.table.length := by
    have := congrArg List.length a.tags
    simpa [tagsOf] using this
  exact ⟨hl ▸ h.1, a.tags ▸ h.2⟩

/-- `Keeps.trans` from the end: the last operation is taken off. -/
theorem Keeps.after {s t u : State} (b : Keeps t u) (a : Keeps s t) : Keeps s u := a.trans b

/-- `Stays.trans` from the end: the last operation is taken off. -/
theorem Stays.after {s t u : State} (b : Stays t u) (a : Stays s t) : Stays s u := a.trans b

theorem keeps_foldl {α : Type} (f : State → α → State) (hf : ∀ u x, Keeps u (f u x)) (l : List α) :
    ∀ u : State, Keeps u (l.foldl f u) := by
  induction l with
  | nil => exact Keeps.refl
  | cons x l ih => exact fun u => (hf u x).trans (ih (f u x))

theorem stays_foldl {α : Type} (f : State → α → State) (hf : ∀ u x, Stays u (f u x)) (l : List α) :
    ∀ u : State, Stays u (l.foldl f u) := by
  induction l with
  | nil => exact Stays.refl
  | cons x l ih => exact fun u => (hf u x).trans (ih (f u x))

/-- An update that changes nothing of what `Keeps` speaks of, or makes its collections shorter. -/
theorem Keeps.congr {s t u : State} (h : Keeps s t) (pins : u.pins = t.pins := by rfl)
    (held : u.resetHeld = t.resetHeld := by rfl) (media : u.media = t.media := by rfl)
    (pending : u.pending = t.pending := by rfl) (bus : u.bus.queue = t.bus.queue := by rfl)
    (table : tagsOf u = tagsOf t := by rfl) (slots : u.cache.slots = t.cache.slots := by rfl)
    (port : u.port.queue = t.port.queue := by rfl)
    (pool : u.replay.pool.length ≤ t.replay.pool.length := by
      first | exact le_refl _ | exact List.length_filter_le _ _ | (simp; done))
    (pushes : u.replay.pushes.length ≤ t.replay.pushes.length := by
      first | exact le_refl _ | exact List.length_filter_le _ _ | (simp; done))
    (list : u.repair.list.length ≤ t.repair.list.length := by
      first | exact le_refl _ | exact List.length_filter_le _ _ | (simp; done))
    (fetches : u.repair.fetches.length ≤ t.repair.fetches.length := by
      first | exact le_refl _ | exact List.length_filter_le _ _ | (simp; done)) :
    Keeps s u :=
  h.trans ⟨pins, held, media, pending, fun l => by rw [slots]; exact l, table, pushes, fetches,
    fun r => ⟨bus ▸ r.queue, bus ▸ r.low, port ▸ r.media, pool.trans r.pool, list.trans r.list⟩,
    fun c => slots ▸ c⟩

/-- The Membership Controller's own values are none of what `Keeps` speaks of. -/
theorem keeps_member (s : State) (m : Membership) : Keeps s { s with member := m } := (Keeps.refl s).congr

/-- Every capacity is kept, tags and current slots are unique. -/
structure Sound (s : State) : Prop where
  roomy : Roomy s
  table : TableOk s
  slots : s.cache.slots.length = Config.slotCount
  current : SingleCurrent s.cache.slots
  pushes : s.replay.pushes.length ≤ Config.pushLimit
  fetches : s.repair.fetches.length ≤ Config.fetchLimit

/-- `t` comes from `s` by an operation that leaves the pins, the record memory and the waiting commands alone and
keeps the state sound. -/
structure Holds (s t : State) : Prop where
  pins : t.pins = s.pins
  held : t.resetHeld = s.resetHeld
  media : t.media = s.media
  pending : t.pending = s.pending
  sound : Sound s → Sound t

theorem Holds.refl (s : State) : Holds s s := ⟨rfl, rfl, rfl, rfl, id⟩

theorem Holds.trans {s t u : State} (a : Holds s t) (b : Holds t u) : Holds s u :=
  ⟨b.pins.trans a.pins, b.held.trans a.held, b.media.trans a.media, b.pending.trans a.pending,
   b.sound ∘ a.sound⟩

/-- `Holds.trans` from the end: the last operation is taken off. -/
theorem Holds.after {s t u : State} (b : Holds t u) (a : Holds s t) : Holds s u := a.trans b

theorem Stays.holds {s t : State} (a : Stays s t) : Holds s t :=
  ⟨a.pins, a.held, a.media, a.pending, fun h =>
    ⟨a.roomy h.roomy, a.table h.table, a.slots h.slots, a.current h.current, a.pushes.trans h.pushes,
     a.fetches.trans h.fetches⟩⟩

theorem Keeps.holds {s t : State} (a : Keeps s t) : Holds s t := a.stays.holds

theorem holds_foldl {α : Type} (f : State → α → State) (hf : ∀ u x, Holds u (f u x)) (l : List α) :
    ∀ u : State, Holds u (l.foldl f u) := by
  induction l with
  | nil => exact Holds.refl
  | cons x l ih => exact fun u => (hf u x).trans (ih (f u x))

/-! ### Lists of slots -/

theorem currentBlock_of_set {l : List Slot} {i j : Nat} {x : Slot} {b : Block}
    (h : ((l.set i x)[j]?.bind Slot.currentBlock) = some b) :
    (i = j ∧ x.currentBlock = some b) ∨ (i ≠ j ∧ (l[j]?.bind Slot.currentBlock) = some b) := by
  rw [List.getElem?_set] at h
  split at h
  · split at h
    · left; exact ⟨‹_›, by simpa using h⟩
    · simp at h
  · right; exact ⟨‹_›, h⟩

/-- A slot that is current for no block, or for the block it was current for, leaves current slots unique. -/
theorem SingleCurrent.set {l : List Slot} (h : SingleCurrent l) (i : Nat) (x : Slot)
    (hx : ∀ b, x.currentBlock = some b →
      (l[i]?.bind Slot.currentBlock) = some b ∨ ∀ j : Nat, (l[j]?.bind Slot.currentBlock) ≠ some b) :
    SingleCurrent (l.set i x) := by
  intro j k b hj hk
  rcases currentBlock_of_set hj with ⟨rfl, hb⟩ | ⟨hij, hb⟩
  · rcases currentBlock_of_set hk with ⟨rfl, _⟩ | ⟨_, hc⟩
    · rfl
    · rcases hx b hb with h1 | h1
      · exact h _ _ _ h1 hc
      · exact absurd hc (h1 k)
  · rcases currentBlock_of_set hk with ⟨rfl, hc⟩ | ⟨_, hc⟩
    · rcases hx b hc with h1 | h1
      · exact h _ _ _ hb h1
      · exact absurd hb (h1 j)
    · exact h _ _ _ hb hc

theorem SingleCurrent.map_free {l : List Slot} (h : SingleCurrent l) (f : Slot → Slot)
    (hf : ∀ x, f x = x ∨ (f x).currentBlock = none) : SingleCurrent (l.map f) := by
  have key : ∀ (i : Nat) (b : Block), ((l.map f)[i]?.bind Slot.currentBlock) = some b →
      (l[i]?.bind Slot.currentBlock) = some b := by
    intro i b hb
    rw [List.getElem?_map] at hb
    cases hx : l[i]? with
    | none => simp [hx] at hb
    | some x =>
      simp only [hx, Option.map_some, Option.bind_some] at hb ⊢
      rcases hf x with h1 | h1
      · rwa [h1] at hb
      · rw [h1] at hb; simp at hb
  intro i j b hi hj
  exact h i j b (key i b hi) (key j b hj)

/-- A slot at this place may become current for the block: it is current for it, or none is. -/
def CurrentAt (l : List Slot) (i : Nat) (b : Block) : Prop :=
  (l[i]?.bind Slot.currentBlock) = some b ∨ ∀ j : Nat, (l[j]?.bind Slot.currentBlock) ≠ some b

theorem Slot.isCurrentOf_iff (x : Slot) (b : Block) : x.isCurrentOf b = true ↔ x.currentBlock = some b := by
  cases x <;> simp [Slot.isCurrentOf, Slot.currentBlock]

/-- A slot found as the current one is current. -/
theorem currentSlot_some {s : State} {b : Block} {i : Nat} (h : currentSlot s b = some i) :
    (s.cache.slots[i]?.bind Slot.currentBlock) = some b := by
  unfold currentSlot at h
  rw [List.findIdx?_eq_some_iff_getElem] at h
  obtain ⟨hi, hb, _⟩ := h
  simp [List.getElem?_eq_getElem hi, (Slot.isCurrentOf_iff _ _).1 hb]

/-- Where none is found, none is current. -/
theorem currentSlot_none {s : State} {b : Block} (h : currentSlot s b = none) (j : Nat) :
    (s.cache.slots[j]?.bind Slot.currentBlock) ≠ some b := by
  unfold currentSlot at h
  rw [List.findIdx?_eq_none_iff] at h
  intro hj
  cases hx : s.cache.slots[j]? with
  | none => simp [hx] at hj
  | some x =>
    have hm := List.mem_of_getElem? hx
    have := h x hm
    simp only [hx, Option.bind_some] at hj
    rw [← Bool.not_eq_true, Slot.isCurrentOf_iff] at this
    exact this hj

/-- The slot of a block's current copy is current for it. -/
theorem currentCopy_some {s : State} {b : Block} {i : Nat} {v : Version} {d : Data}
    (h : currentCopy s b = some (i, v, d)) : (s.cache.slots[i]?.bind Slot.currentBlock) = some b := by
  unfold currentCopy at h
  cases hc : currentSlot s b with
  | none => simp [hc] at h
  | some j =>
    simp only [hc, Option.map_eq_some_iff] at h
    obtain ⟨c, _, hj⟩ := h
    cases hj
    exact currentSlot_some hc

end Sys2Proof.Machine
end

