-- ==== Sys2Proof/Laws/FrameOps.lean ====
section
/-! SUPPORT. What the shared operations of Machine/Ops.lean leave alone. -/

-- One proof after another: side by side, the proofs of this file wait on each other and take a thread each.
set_option Elab.async false

namespace Sys2Proof.Machine

/-! ### Counters, time and the request table -/

theorem countCorrected_keeps (s : State) : Keeps s (countCorrected s) := (Keeps.refl s).congr
theorem countUncorrectable_keeps (s : State) : Keeps s (countUncorrectable s) := (Keeps.refl s).congr
theorem countRefresh_keeps (s : State) : Keeps s (countRefresh s) := (Keeps.refl s).congr
theorem countDiscarded_keeps (s : State) : Keeps s (countDiscarded s) := (Keeps.refl s).congr
theorem countDropped_keeps (s : State) : Keeps s (countDropped s) := (Keeps.refl s).congr
theorem countAnswerDropped_keeps (s : State) : Keeps s (countAnswerDropped s) := (Keeps.refl s).congr
theorem countExpired_keeps (s : State) : Keeps s (countExpired s) := (Keeps.refl s).congr
theorem countMismatched_keeps (s : State) : Keeps s (countMismatched s) := (Keeps.refl s).congr

theorem reach_keeps (s : State) (due : Nat) : Keeps s (reach s due) :=
  (Keeps.refl s).congr

theorem updateEntry_keeps (s : State) (t : Tag) (f : Entry → Entry) (hf : ∀ e, (f e).tag = e.tag) :
    Keeps s (updateEntry s t f) := by
  refine (Keeps.refl s).congr (table := ?_)
  simp only [tagsOf, updateEntry, List.map_map]
  refine List.map_congr_left fun e _ => ?_
  simp only [Function.comp]
  split
  · exact hf e
  · rfl

theorem dropWaiters_keeps (s : State) (sel : LookupUser → Bool) : Keeps s (dropWaiters s sel) :=
  (Keeps.refl s).congr

theorem finishEntry_keeps (s : State) (t : Tag) (st : EntryState) : Keeps s (finishEntry s t st) := by
  unfold finishEntry
  refine Keeps.trans ?_ (dropWaiters_keeps _ _)
  exact updateEntry_keeps _ _ _ fun _ => rfl

theorem expireEntry_keeps (s : State) (t : Tag) : Keeps s (expireEntry s t) :=
  (finishEntry_keeps s t _).trans (countExpired_keeps _)

theorem recordAnswer_keeps (s : State) (t : Tag) (n : StationNo) (k : Kind) (v : Version) :
    Keeps s (recordAnswer s t n k v) := updateEntry_keeps s t _ fun _ => rfl

theorem recordSent_keeps (s : State) (t : Tag) (k : Kind) (v : Version) : Keeps s (recordSent s t k v) :=
  updateEntry_keeps s t _ fun _ => rfl

theorem takeTag_keeps (s : State) : Keeps s (takeTag s) :=
  (Keeps.refl s).congr

/-- Taking an entry out of the table. -/
theorem dropEntry_stays (s : State) (t : Tag) : Stays s (dropEntry s t) := by
  refine ⟨rfl, rfl, rfl, rfl, id, fun h => ⟨?_, ?_⟩, le_refl _, le_refl _,
    fun r => ⟨r.1, r.2, r.3, r.4, r.5⟩, id⟩
  · exact (List.length_filter_le _ _).trans h.1
  · exact h.2.sublist (List.filter_sublist.map _)

/-- Putting an entry under a fresh tag into a table with room. -/
theorem addEntry_after {s0 s : State} (a : Stays s0 s) (e : Entry)
    (room : TableOk s0 → s.table.length < Config.tableSize) (fresh : TableOk s0 → e.tag ∉ tagsOf s) :
    Stays s0 (addEntry s e) := by
  refine ⟨a.pins, a.held, a.media, a.pending, a.slots, fun h => ⟨?_, ?_⟩, a.pushes, a.fetches,
    fun r => let r := a.roomy r; ⟨r.1, r.2, r.3, r.4, r.5⟩, a.current⟩
  · have := room h
    simpa [addEntry] using this
  · have hf := fresh h
    simp only [tagsOf, addEntry, List.map_append, List.map_cons, List.map_nil] at hf ⊢
    rw [List.nodup_append]
    refine ⟨(a.table h).2, by simp, ?_⟩
    intro x hx y hy hxy
    simp only [List.mem_singleton] at hy
    subst hxy hy
    exact hf hx

/-- A tag that no entry is found under is not in the table. -/
theorem findEntry_none {s : State} {t : Tag} (h : findEntry s t = none) : t ∉ tagsOf s := by
  unfold findEntry at h
  rw [List.find?_eq_none] at h
  intro ht
  obtain ⟨e, he, rfl⟩ := List.mem_map.1 ht
  simpa using h e he

theorem findEntry_some {s : State} {t : Tag} {e : Entry} (h : findEntry s t = some e) :
    e ∈ s.table ∧ e.tag = t := by
  unfold findEntry at h
  exact ⟨List.mem_of_find?_eq_some h, by simpa using List.find?_some h⟩

/-! ### The transmit queue -/

theorem lowClassCount_append (q r : List TxFrame) :
    lowClassCount (q ++ r) = lowClassCount q + lowClassCount r := by simp [lowClassCount]

theorem offer_keeps (s : State) (f : Frame) (p : Purpose) : Keeps s (offer s f p) := by
  unfold offer
  split
  · rename_i h
    simp only [accepts, Bool.and_eq_true, Bool.or_eq_true, decide_eq_true_eq] at h
    obtain ⟨⟨_, hq⟩, hl⟩ := h
    refine ⟨rfl, rfl, rfl, rfl, id, rfl, le_refl _, le_refl _, fun r => ⟨?_, ?_, r.3, r.4, r.5⟩, id⟩
    · simpa using hq
    · show lowClassCount (s.bus.queue ++ [queuedFrame f p]) ≤ _
      rw [lowClassCount_append]
      have hr := r.low
      rcases hl with h0 | h1
      · have : lowClassCount [queuedFrame f p] = 0 := by simp [lowClassCount, queuedFrame, h0]
        omega
      · have : lowClassCount [queuedFrame f p] ≤ 1 := by
          simpa [lowClassCount] using (List.countP_le_length (p := fun t : TxFrame => decide (kindClass t.frame.kind ≠ 0)) (l := [queuedFrame f p]))
        omega
  · split
    · exact countAnswerDropped_keeps s
    · exact Keeps.refl s

/-- A transmit queue no longer, with no more frames of classes 1 to 3. -/
theorem setQueue_keeps (s : State) (q : List TxFrame) (hq : q.length ≤ s.bus.queue.length)
    (hl : lowClassCount q ≤ lowClassCount s.bus.queue) : Keeps s (setQueue s q) :=
  ⟨rfl, rfl, rfl, rfl, id, rfl, le_refl _, le_refl _,
    fun r => ⟨hq.trans r.1, hl.trans r.2, r.3, r.4, r.5⟩, id⟩

theorem afterWithdrawal_keeps (s : State) (f : TxFrame) (w : Withdrawal) :
    Keeps s (afterWithdrawal s f w) := by
  have key : ∀ u, Keeps s u → Keeps s
      (match w with
        | .plain => u
        | .entryBecomes st =>
          match findEntry u f.frame.tag with
          | none => u
          | some e =>
            if e.entersOnWithdrawal st then
              if st = .expired then expireEntry u f.frame.tag else finishEntry u f.frame.tag st
            else u) := by
    intro u hu
    repeat' split
    all_goals first
      | exact hu
      | exact hu.trans (expireEntry_keeps _ _)
      | exact hu.trans (finishEntry_keeps _ _ _)
  unfold afterWithdrawal
  apply key
  repeat' split
  all_goals first
    | exact Keeps.refl s
    | exact updateEntry_keeps _ _ _ fun _ => rfl
    | exact (Keeps.refl s).congr

theorem withdraw_keeps (s : State) (sel : TxFrame → Bool) (w : Withdrawal) : Keeps s (withdraw s sel w) := by
  have hlen : ∀ g : TxFrame → TxFrame, ∀ p : TxFrame → Bool,
      ((s.bus.queue.filter p).map g).length ≤ s.bus.queue.length := by
    intro g p
    simpa using List.length_filter_le p s.bus.queue
  have hlow : ∀ g : TxFrame → TxFrame, (∀ f, (g f).frame = f.frame) → ∀ p : TxFrame → Bool,
      lowClassCount ((s.bus.queue.filter p).map g) ≤ lowClassCount s.bus.queue := by
    intro g hg p
    simp only [lowClassCount, List.countP_map]
    refine le_trans (le_of_eq ?_) (List.Sublist.countP_le (List.filter_sublist (p := p)))
    refine List.countP_congr fun f _ => ?_
    simp [hg]
  unfold withdraw
  dsimp only
  split
  · refine ⟨rfl, rfl, rfl, rfl, id, rfl, le_refl _, le_refl _,
      fun r => ⟨(hlen _ _).trans r.1, (hlow _ ?_ _).trans r.2, r.3, r.4, r.5⟩, id⟩
    intro f; split <;> rfl
  · refine Keeps.trans (setQueue_keeps s _ (hlen _ _) (hlow _ ?_ _))
      (keeps_foldl _ (fun u f => afterWithdrawal_keeps u f w) _ _)
    intro f; split <;> rfl

/-! ### Cache slots -/

/-- A slot set after `s0`, current only for a block it may be current for. -/
theorem setSlot_after {s0 s : State} (a : Keeps s0 s) (i : Nat) (x : Slot)
    (h : SingleCurrent s0.cache.slots → ∀ b, x.currentBlock = some b → CurrentAt s.cache.slots i b) :
    Keeps s0 (setSlot s i x) :=
  ⟨a.pins, a.held, a.media, a.pending, fun l => by simpa [setSlot] using a.slots l, a.tags, a.pushes,
    a.fetches, fun r => let r := a.roomy r; ⟨r.1, r.2, r.3, r.4, r.5⟩,
    fun c => (a.current c).set i x (h c)⟩

/-- A slot made current for no block. -/
theorem setSlot_keeps (s : State) (i : Nat) (x : Slot) (h : x.currentBlock = none) :
    Keeps s (setSlot s i x) := setSlot_after (Keeps.refl s) i x fun _ b hb => by simp [h] at hb

theorem nextRecency_keeps (s : State) : Keeps s (nextRecency s) :=
  (Keeps.refl s).congr

/-- A slot of the list is the one at its place. -/
theorem slotAt_current {s : State} {i : Nat} {b : Block} (h : (slotAt s i).currentBlock = some b) :
    (s.cache.slots[i]?.bind Slot.currentBlock) = some b := by
  unfold slotAt at h
  rw [List.getD_eq_getElem?_getD] at h
  cases hx : s.cache.slots[i]? with
  | none => simp [hx, Slot.currentBlock] at h
  | some x => simpa [hx] using h

theorem touchSlot_keeps (s : State) (i : Nat) : Keeps s (touchSlot s i) := by
  unfold touchSlot
  split
  · rename_i b v d r h
    refine setSlot_after (nextRecency_keeps s) i _ fun _ c hc => .inl ?_
    have : c = b := by simpa [Slot.currentBlock] using hc.symm
    subst this
    have hs : slotAt (nextRecency s) i = slotAt s i := rfl
    exact slotAt_current (by rw [hs, h]; rfl)
  all_goals exact Keeps.refl s

theorem makeClean_after {s0 s : State} (a : Keeps s0 s) (i : Nat) (b : Block) (v : Version) (d : Data)
    (h : SingleCurrent s0.cache.slots → CurrentAt s.cache.slots i b) : Keeps s0 (makeClean s i b v d) := by
  refine setSlot_after (a.trans (nextRecency_keeps s)) i _ fun c b' hb => ?_
  have : b' = b := by simpa [Slot.currentBlock] using hb.symm
  subst this
  exact h c

theorem makeDirty_after {s0 s : State} (a : Keeps s0 s) (i : Nat) (b : Block) (v : Version) (d : Data)
    (h : SingleCurrent s0.cache.slots → CurrentAt s.cache.slots i b) : Keeps s0 (makeDirty s i b v d) := by
  unfold makeDirty
  have a' : Keeps s0 { s with cache := { s.cache with commitOrder := s.cache.commitOrder + 1 } } :=
    a.congr
  refine setSlot_after a' i _ fun c b' hb => ?_
  have : b' = b := by simpa [Slot.currentBlock] using hb.symm
  subst this
  exact h c

theorem freeHeld_keeps (s : State) (sel : HeldOwner → Bool) : Keeps s (freeHeld s sel) := by
  refine ⟨rfl, rfl, rfl, rfl, fun l => by simpa [freeHeld] using l, rfl, le_refl _, le_refl _,
    fun r => ⟨r.1, r.2, r.3, r.4, r.5⟩, fun c => c.map_free _ fun x => ?_⟩
  cases x with
  | held b d o v =>
    dsimp only
    split
    · right; rfl
    · left; rfl
  | _ => left; rfl

/-! ### The media command queue -/

theorem present_keeps (s : State) (ph : PortPhase) : Keeps s (present s ph) :=
  (Keeps.refl s).congr

theorem startAttempt_keeps (s : State) (ph : PortPhase) : Keeps s (startAttempt s ph) :=
  (Keeps.refl s).congr

theorem serveHead_keeps (s : State) : Keeps s (serveHead s) := by
  unfold serveHead
  split
  · exact Keeps.refl s
  · split
    · exact (Keeps.refl s).congr
    · exact Keeps.refl s

theorem issue_keeps (s : State) (c : MediaCmd) : Keeps s (issue s c) := by
  unfold issue
  split
  · exact Keeps.refl s
  · split
    · rename_i h
      refine Keeps.trans ?_ (serveHead_keeps _)
      exact ⟨rfl, rfl, rfl, rfl, id, rfl, le_refl _, le_refl _,
        fun r => ⟨r.1, r.2, by simpa using h.2, r.4, r.5⟩, id⟩
    · exact (Keeps.refl s).congr

theorem refillQueue_keeps (s : State) : Keeps s (refillQueue s) :=
  ⟨rfl, rfl, rfl, rfl, id, rfl, le_refl _, le_refl _,
    fun r => ⟨r.1, r.2, by
      have := r.media
      simp only [refillQueue, List.length_append, List.length_take]
      omega, r.4, r.5⟩, id⟩

theorem addWaiter_keeps (s : State) (b : Block) (k : ReadKind) (u : LookupUser) :
    Keeps s (addWaiter s b k u) :=
  (Keeps.refl s).congr

end Sys2Proof.Machine
end

