-- ==== Sys2Proof/Laws/FrameRec.lean ====
section
/-! SUPPORT. What the recovery side leaves alone. -/

-- One proof after another: side by side, the proofs of this file wait on each other and take a thread each.
set_option Elab.async false

namespace Sys2Proof.Machine

theorem closeOwn_keeps (s : State) (t : Tag) (st : EntryState) : Keeps s (closeOwn s t st) := by
  unfold closeOwn
  repeat' first
    | with_reducible exact Keeps.refl _
    | with_reducible apply (expireEntry_keeps _ _).after
    | with_reducible apply (finishEntry_keeps _ _ _).after
    | refine Keeps.congr (t := s) ?_
    | split

theorem endPush_keeps (s : State) (p : Push) (retry : Option Nat) (st : EntryState) : Keeps s (endPush s p retry st) := by
  unfold endPush
  dsimp only
  repeat' first
    | with_reducible exact Keeps.refl _
    | with_reducible apply (closeOwn_keeps _ _ _).after
    | with_reducible apply (withdraw_keeps _ _ _).after
    | with_reducible apply (dropWaiters_keeps _ _).after
    | refine Keeps.congr (t := s) ?_
    | split

theorem endPushes_keeps (s : State) (sel : Push → Bool) (st : EntryState) : Keeps s (endPushes s sel st) := by
  unfold endPushes
  repeat' first
    | with_reducible exact Keeps.refl _
    | with_reducible apply (endPush_keeps _ _ _ _).after
    | with_reducible refine (keeps_foldl _ (fun _ _ => ?_) _ _).after ?_

theorem endFetch_keeps (s : State) (f : Fetch) (st : EntryState) : Keeps s (endFetch s f st) := by
  unfold endFetch
  dsimp only
  repeat' first
    | with_reducible exact Keeps.refl _
    | with_reducible apply (closeOwn_keeps _ _ _).after
    | with_reducible apply (withdraw_keeps _ _ _).after
    | with_reducible apply (dropWaiters_keeps _ _).after
    | refine Keeps.congr (t := s) ?_
    | split

theorem endFetches_keeps (s : State) (sel : Fetch → Bool) (st : EntryState) : Keeps s (endFetches s sel st) := by
  unfold endFetches
  repeat' first
    | with_reducible exact Keeps.refl _
    | with_reducible apply (endFetch_keeps _ _ _).after
    | with_reducible refine (keeps_foldl _ (fun _ _ => ?_) _ _).after ?_

theorem dropFetchCommit_keeps (s : State) (id : Nat) : Keeps s (dropFetchCommit s id) := by
  unfold dropFetchCommit
  repeat' first
    | with_reducible exact Keeps.refl _
    | with_reducible apply (freeHeld_keeps _ _).after
    | refine Keeps.congr (t := s) ?_

theorem addGroups_keeps (s : State) (gs : List Nat) : Keeps s (addGroups s gs) := by
  refine keeps_foldl _ (fun u g => ?_) gs s
  dsimp only
  split
  · exact (Keeps.refl u).congr
  · exact Keeps.refl u

theorem countUnverified_keeps (s : State) (n : Nat) : Keeps s (countUnverified s n) := by
  unfold countUnverified
  repeat' first
    | with_reducible exact Keeps.refl _
    | refine Keeps.congr (t := s) ?_

theorem dropDeadRoom_keeps (s : State) : Keeps s (dropDeadRoom s) := by
  unfold dropDeadRoom
  dsimp only
  repeat' first
    | with_reducible exact Keeps.refl _
    | with_reducible apply (countUnverified_keeps _ _).after
    | refine Keeps.congr (t := s) ?_

theorem closeAnswers_keeps (s : State) (k : EntryKind) (p : Purpose) (st : EntryState) : Keeps s (closeAnswers s k p st) := by
  unfold closeAnswers
  dsimp only
  repeat' first
    | with_reducible exact Keeps.refl _
    | with_reducible apply (withdraw_keeps _ _ _).after
    | with_reducible apply (expireEntry_keeps _ _).after
    | with_reducible apply (finishEntry_keeps _ _ _).after
    | with_reducible refine (keeps_foldl _ (fun _ _ => ?_) _ _).after ?_
    | refine Keeps.congr (t := s) ?_
    | split

theorem queueRejoin_keeps (s : State) : Keeps s (queueRejoin s) := by
  unfold queueRejoin
  repeat' first
    | with_reducible exact Keeps.refl _
    | with_reducible apply (offer_keeps _ _ _).after
    | refine Keeps.congr (t := s) ?_
    | split

theorem stopServing_keeps (s : State) : Keeps s (stopServing s) := by
  unfold stopServing
  repeat' first
    | with_reducible exact Keeps.refl _
    | with_reducible apply (closeAnswers_keeps _ _ _ _).after
    | with_reducible apply (withdraw_keeps _ _ _).after
    | refine Keeps.congr (t := s) ?_
    | split

theorem forgetCatchUp_keeps (s : State) : Keeps s (forgetCatchUp s) := by
  unfold forgetCatchUp
  dsimp only
  repeat' first
    | with_reducible exact Keeps.refl _
    | with_reducible apply (rejoinSent_keeps _ _).after
    | with_reducible apply (endFetches_keeps _ _ _).after
    | with_reducible apply (withdraw_keeps _ _ _).after
    | refine Keeps.congr (t := withdraw (endFetches s (·.sweep) .done) isCatchUpFrame .plain) ?_

theorem beginCatchUp_keeps (s : State) : Keeps s (beginCatchUp s) := by
  have h1 := stopServing_keeps s
  have h2 : ∀ m, Keeps (stopServing s) { stopServing s with member := m } := fun m =>
    (Keeps.refl _).congr
  have h3 := fun m => forgetCatchUp_keeps { stopServing s with member := m }
  have h4 : ∀ (u : State) n a b c d, Keeps u { u with nextId := n, repair := { u.repair with
      active := a, serial := b, sweepSet := c, unverified := d } } := fun u _ _ _ _ _ =>
    (Keeps.refl u).congr
  exact (((h1.trans (h2 _)).trans (h3 _)).trans (h4 _ _ _ _ _ _)).trans (queueRejoin_keeps _)

theorem holdBack_keeps (s : State) (b : Block) : Keeps s (holdBack s b) := by
  unfold holdBack
  dsimp only
  repeat' first
    | with_reducible exact Keeps.refl _
    | with_reducible apply (endPushes_keeps _ _ _).after
    | with_reducible apply (withdraw_keeps _ _ _).after

/-- A block placed on a list with room. -/
theorem placeReady_keeps (s : State) (b : Block) (h : s.repair.list.length < Config.repairSize) :
    Keeps s (placeReady s b) := by
  refine Keeps.trans ?_ (holdBack_keeps _ b)
  exact ⟨rfl, rfl, rfl, rfl, id, rfl, le_refl _, le_refl _,
    fun r => ⟨r.1, r.2, r.3, r.4, by simpa using h⟩, id⟩

theorem overflowRepair_keeps (s : State) (b : Block) : Keeps s (overflowRepair s b) := by
  unfold overflowRepair
  split
  · exact addGroups_keeps _ _
  · have h : ∀ m, Keeps s { s with member := m } := fun m =>
      (Keeps.refl _).congr
    exact ((h _).trans (offer_keeps _ _ _)).trans (beginCatchUp_keeps _)

theorem listBlock_keeps (s : State) (b : Block) : Keeps s (listBlock s b) := by
  unfold listBlock
  split
  · exact Keeps.refl s
  · split
    · exact placeReady_keeps s b ‹_›
    · exact overflowRepair_keeps s b

theorem dropListedRoom_keeps (s : State) : Keeps s (dropListedRoom s) := (Keeps.refl s).congr

theorem fillRoom_keeps (s : State) : Keeps s (fillRoom s) := by
  have h := dropListedRoom_keeps s
  unfold fillRoom
  dsimp only
  split
  · exact h
  · split
    · refine Keeps.trans (t := { dropListedRoom s with
        repair := { (dropListedRoom s).repair with waitingRoom := _ } }) h.congr (placeReady_keeps _ _ ‹_›)
    · exact h

theorem unlistBlock_keeps (s : State) (b : Block) : Keeps s (unlistBlock s b) := by
  unfold unlistBlock
  dsimp only
  repeat' first
    | with_reducible exact Keeps.refl _
    | with_reducible apply (fillRoom_keeps _).after
    | with_reducible apply (endFetches_keeps _ _ _).after
    | refine Keeps.congr (t := s) ?_
    | split

theorem setRepairState_keeps (s : State) (b : Block) (st : RepairState) : Keeps s (setRepairState s b st) := by
  unfold setRepairState
  repeat' first
    | with_reducible exact Keeps.refl _
    | refine Keeps.congr (t := s) ?_

theorem offerReplayDone_keeps (s : State) (p : StationNo) (sweep : Bool) : Keeps s (offerReplayDone s p sweep) := by
  unfold offerReplayDone
  repeat' first
    | with_reducible exact Keeps.refl _
    | with_reducible apply (offer_keeps _ _ _).after
    | refine Keeps.congr (t := s) ?_
    | split

theorem queueReplayDone_keeps (s : State) (p : StationNo) : Keeps s (queueReplayDone s p) := by
  unfold queueReplayDone
  repeat' first
    | with_reducible exact Keeps.refl _
    | with_reducible apply (offerReplayDone_keeps _ _ _).after
    | refine Keeps.congr (t := s) ?_
    | split

theorem freeMissed_keeps (s : State) (p : StationNo) (b : Block) : Keeps s (freeMissed s p b) := by
  have h : Keeps s { s with replay := { s.replay with
      pool := s.replay.pool.filter fun m => !(decide (m.peer = p) && decide (m.block = b)) } } :=
    (Keeps.refl _).congr
  unfold freeMissed
  split
  · dsimp only
    split
    · exact h.trans (queueReplayDone_keeps _ _)
    · exact h
  · exact Keeps.refl s

theorem updatePeer_keeps (s : State) (p : StationNo) (f : PeerEntry → PeerEntry) : Keeps s (updatePeer s p f) := by
  unfold updatePeer
  repeat' first
    | with_reducible exact Keeps.refl _
    | refine Keeps.congr (t := s) ?_

theorem unawait_keeps (s : State) (p : StationNo) : Keeps s (unawait s p) := by
  unfold unawait
  dsimp only
  repeat' first
    | with_reducible exact Keeps.refl _
    | refine Keeps.congr (t := s) ?_

theorem handOnAbsent_keeps (s : State) (p : StationNo) : Keeps s (handOnAbsent s p) := by
  unfold handOnAbsent
  dsimp only
  repeat' first
    | with_reducible exact Keeps.refl _
    | with_reducible apply (unawait_keeps _ _).after
    | with_reducible apply (dropDeadRoom_keeps _).after
    | with_reducible apply (addGroups_keeps _ _).after
    | with_reducible apply (endPushes_keeps _ _ _).after
    | with_reducible apply (withdraw_keeps _ _ _).after
    | refine Keeps.congr (t := s) ?_
    | split

theorem markAbsent_keeps (s : State) (p : StationNo) : Keeps s (markAbsent s p) := by
  unfold markAbsent
  repeat' first
    | with_reducible exact Keeps.refl _
    | with_reducible apply (handOnAbsent_keeps _ _).after
    | with_reducible apply (updatePeer_keeps _ _ _).after
    | refine Keeps.congr (t := s) ?_
    | split

theorem notice_keeps (s : State) (p : StationNo) : Keeps s (notice s p) := by
  unfold notice
  repeat' first
    | with_reducible exact Keeps.refl _
    | with_reducible apply (updatePeer_keeps _ _ _).after
    | with_reducible apply (offer_keeps _ _ _).after

theorem declareDown_keeps (s : State) (p : StationNo) : Keeps s (declareDown s p) := by
  unfold declareDown
  repeat' first
    | with_reducible exact Keeps.refl _
    | with_reducible apply (notice_keeps _ _).after
    | with_reducible apply (handOnAbsent_keeps _ _).after
    | with_reducible apply (updatePeer_keeps _ _ _).after
    | refine Keeps.congr (t := s) ?_
    | split

theorem reportMiss_keeps (s : State) (p : StationNo) : Keeps s (reportMiss s p) := by
  unfold reportMiss
  repeat' first
    | with_reducible exact Keeps.refl _
    | with_reducible apply (declareDown_keeps _ _).after
    | with_reducible apply (updatePeer_keeps _ _ _).after
    | refine Keeps.congr (t := s) ?_
    | split

theorem giveUp_keeps (s : State) (p : StationNo) : Keeps s (giveUp s p) := by
  unfold giveUp
  dsimp only
  repeat' first
    | with_reducible exact Keeps.refl _
    | with_reducible apply (declareDown_keeps _ _).after
    | with_reducible apply (endPushes_keeps _ _ _).after
    | refine Keeps.congr (t := s) ?_

theorem recordMissed_keeps (s : State) (p : StationNo) (b : Block) : Keeps s (recordMissed s p b) := by
  unfold recordMissed
  split
  · exact Keeps.refl s
  · split
    · rename_i h
      refine Keeps.trans ?_ (withdraw_keeps _ _ _)
      exact ⟨rfl, rfl, rfl, rfl, id, rfl, le_refl _, le_refl _,
        fun r => ⟨r.1, r.2, r.3, by simpa using h, r.5⟩, id⟩
    · exact giveUp_keeps s p

theorem renotice_keeps (s : State) (p : StationNo) : Keeps s (renotice s p) := by
  unfold renotice
  repeat' first
    | with_reducible exact Keeps.refl _
    | with_reducible apply (notice_keeps _ _).after
    | refine Keeps.congr (t := s) ?_
    | split

theorem signOfLife_keeps (s : State) (src : Source) : Keeps s (signOfLife s src) := by
  unfold signOfLife
  repeat' first
    | with_reducible exact Keeps.refl _
    | with_reducible apply (renotice_keeps _ _).after
    | refine Keeps.congr (t := s) ?_
    | split

theorem reportSilent_keeps (s : State) (b : Block) (p : StationNo) : Keeps s (reportSilent s b p) := by
  unfold reportSilent
  repeat' first
    | with_reducible exact Keeps.refl _
    | with_reducible apply (recordMissed_keeps _ _ _).after
    | with_reducible apply (reportMiss_keeps _ _).after
    | refine Keeps.congr (t := s) ?_
    | split

theorem reportWindow_keeps (s : State) (e : Entry) : Keeps s (reportWindow s e) := by
  unfold reportWindow
  dsimp only
  repeat' first
    | with_reducible exact Keeps.refl _
    | with_reducible apply (reportSilent_keeps _ _ _).after
    | with_reducible refine (keeps_foldl _ (fun _ _ => ?_) _ _).after ?_
    | refine Keeps.congr (t := s) ?_

theorem recordAbsent_keeps (s : State) (b : Block) : Keeps s (recordAbsent s b) := by
  unfold recordAbsent
  dsimp only
  repeat' first
    | with_reducible exact Keeps.refl _
    | with_reducible apply (recordMissed_keeps _ _ _).after
    | with_reducible refine (keeps_foldl _ (fun _ _ => ?_) _ _).after ?_
    | refine Keeps.congr (t := s) ?_

end Sys2Proof.Machine
end

