-- ==== Sys2Proof/Laws/FrameCom.lean ====
section
/-! SUPPORT. What commits and writes leave alone. -/

-- One proof after another: side by side, the proofs of this file wait on each other and take a thread each.
set_option Elab.async false

namespace Sys2Proof.Machine

/-- The entry reused early is one of the table. -/
theorem oldestFinished_mem {s : State} {e : Entry} (h : oldestFinished s = some e) : e ∈ s.table := by
  have key : ∀ (l : List Entry) (b : Option Entry), (∀ x, b = some x → x ∈ s.table) → (∀ x ∈ l, x ∈ s.table) →
      ∀ x, l.foldl (fun best e =>
        match best with
        | none => some e
        | some b => if reusedBefore e b then some e else some b) b = some x → x ∈ s.table := by
    intro l
    induction l with
    | nil => intro b hb _ x hx; exact hb x hx
    | cons y l ih =>
      intro b hb hl x hx
      refine ih _ ?_ (fun z hz => hl z (List.mem_cons_of_mem _ hz)) x hx
      intro z hz
      have hy := hl y List.mem_cons_self
      cases b with
      | none => simp only [Option.some.injEq] at hz; exact hz ▸ hy
      | some w =>
        dsimp only at hz
        split at hz
        · simp only [Option.some.injEq] at hz; exact hz ▸ hy
        · exact hb z hz
  exact key _ none (by simp) (fun x hx => (List.mem_filter.1 hx).1) e h

/-- What giving an entry does: room is in the table, no tag is new, and nothing else is touched but by the report
of an ack window. -/
theorem giveEntry_spec {s t : State} (h : giveEntry s = some t) :
    Stays s t ∧ (TableOk s → t.table.length < Config.tableSize) ∧ ∀ x ∈ tagsOf t, x ∈ tagsOf s := by
  unfold giveEntry at h
  split at h
  · rename_i hl
    cases h
    exact ⟨Stays.refl s, fun _ => hl, fun _ hx => hx⟩
  · split at h
    · cases h
    · rename_i e he
      have hk : Keeps s (if e.ackWindow.isSome then reportWindow s e else s) := by
        split
        · exact reportWindow_keeps s e
        · exact Keeps.refl s
      cases h
      refine ⟨hk.stays.trans (dropEntry_stays _ _), fun hs => ?_, fun x hx => ?_⟩
      · have hm : e.tag ∈ tagsOf (if e.ackWindow.isSome then reportWindow s e else s) := by
          rw [hk.tags]
          exact List.mem_map_of_mem (oldestFinished_mem he)
        obtain ⟨y, hy, hty⟩ := List.mem_map.1 hm
        have hle := (hk.stays.table hs).1
        refine lt_of_lt_of_le ?_ hle
        simp only [dropEntry]
        exact List.length_filter_lt_length_iff_exists.2 ⟨y, hy, by simp [hty]⟩
      · rw [← hk.tags]
        obtain ⟨y, hy, rfl⟩ := List.mem_map.1 hx
        exact List.mem_map_of_mem (List.mem_filter.1 hy).1

/-- An entry put in the room just given, under a tag that no entry had. -/
theorem addGiven_stays {s s1 : State} {e : Entry} (h : giveEntry s = some s1) (fresh : e.tag ∉ tagsOf s) :
    Stays s (addEntry s1 e) := by
  obtain ⟨h1, h2, h3⟩ := giveEntry_spec h
  exact addEntry_after h1 e h2 fun _ hm => fresh (h3 _ hm)

theorem versionLookup_keeps {s t : State} {b : Block} {u : LookupUser} {a : Option HeldVersion}
    (h : versionLookup s b u = (t, a)) : Keeps s t := by
  unfold versionLookup at h
  split at h
  · cases h; exact touchSlot_keeps _ _
  · split at h
    · cases h; exact Keeps.refl s
    · split at h
      · cases h; exact addWaiter_keeps _ _ _ _
      · split at h
        · cases h; exact addWaiter_keeps _ _ _ _
        · cases h; exact (addWaiter_keeps _ _ _ _).trans (issue_keeps _ _)

/-- A block with no current copy that does not fill has no current slot. -/
theorem currentSlot_of_noCopy {s : State} {b : Block} (hc : currentCopy s b = none)
    (hf : isFilling s b = false) : currentSlot s b = none := by
  cases h : currentSlot s b with
  | none => rfl
  | some i =>
    exfalso
    have hx := currentSlot_some h
    simp only [currentCopy, h] at hc
    simp only [isFilling, h] at hf
    simp only [slotAt, List.getD_eq_getElem?_getD] at hc hf
    cases hi : s.cache.slots[i]? with
    | none => simp [hi] at hx
    | some x =>
      simp only [hi, Option.bind_some, Option.getD_some] at hx hc hf
      cases x <;> simp_all [Slot.currentBlock, Slot.copy, Slot.isFilling]

theorem compareLookup_keeps {s t : State} {b : Block} {u : LookupUser} {a : Option HeldVersion}
    (h : compareLookup s b u = (t, a)) : Keeps s t := by
  unfold compareLookup at h
  split at h
  · cases h; exact Keeps.refl s
  · exact versionLookup_keeps h

theorem copyLookup_keeps {s t : State} {b : Block} {u : LookupUser} {a : CopyAnswer}
    (h : copyLookup s b u = (t, a)) : Keeps s t := by
  unfold copyLookup at h
  split at h
  · cases h; exact touchSlot_keeps _ _
  · rename_i hc
    split at h
    · cases h; exact Keeps.refl s
    · split at h
      · cases h; exact addWaiter_keeps _ _ _ _
      · rename_i hf
        split at h
        · cases h; exact Keeps.refl s
        · cases h
          refine Keeps.trans ?_ (issue_keeps _ _)
          refine Keeps.trans ?_ (addWaiter_keeps _ _ _ _)
          refine setSlot_after (Keeps.refl s) _ _ fun _ c hb => .inr ?_
          have : c = b := by simpa [Slot.currentBlock] using hb.symm
          subst this
          exact currentSlot_none (currentSlot_of_noCopy hc (by simpa using hf))

theorem retireFormer_keeps (s : State) (b : Block) (i : Nat) : Keeps s (retireFormer s b i) := by
  unfold retireFormer
  repeat' first
    | exact Keeps.refl _
    | exact setSlot_keeps _ _ _ rfl
    | split

/-- Once the former current slot has given way, the offered slot may become current. -/
theorem retireFormer_current (s : State) (b : Block) (i : Nat) (h : SingleCurrent s.cache.slots) :
    CurrentAt (retireFormer s b i).cache.slots i b := by
  have key : ∀ j x, currentSlot s b = some j → x.currentBlock = none →
      CurrentAt (setSlot s j x).cache.slots i b := by
    intro j x hj hx
    right
    intro k hk
    rcases currentBlock_of_set hk with ⟨_, hb⟩ | ⟨hne, hb⟩
    · simp [hx] at hb
    · exact hne (h _ _ _ (currentSlot_some hj) hb)
  unfold retireFormer
  cases hj : currentSlot s b with
  | none => exact .inr (currentSlot_none hj)
  | some j =>
    dsimp only
    split
    · rename_i hji
      subst hji
      exact .inl (currentSlot_some hj)
    · split <;> exact key j _ hj rfl

theorem makeCurrent_after {s0 s : State} (a : Keeps s0 s) (i : Nat) (b : Block) (v : Version) (d : Data)
    (h : SingleCurrent s0.cache.slots → CurrentAt s.cache.slots i b) : Keeps s0 (makeCurrent s i b v d) := by
  unfold makeCurrent
  split
  · exact makeDirty_after a i b v d h
  · refine Keeps.trans ?_ (issue_keeps _ _)
    refine setSlot_after a i _ fun c b' hb => ?_
    have : b' = b := by simpa [Slot.currentBlock] using hb.symm
    subst this
    exact h c

theorem holdNewSlot_keeps (s : State) (b : Block) (i : Nat) : Keeps s (holdNewSlot s b i) := by
  refine (Keeps.refl s).congr (table := ?_)
  simp only [tagsOf, holdNewSlot, List.map_map]
  refine List.map_congr_left fun e _ => ?_
  simp only [Function.comp]
  split <;> rfl

theorem commitSettles_keeps (s : State) (b : Block) (i : Nat) : Keeps s (commitSettles s b i) :=
  (holdNewSlot_keeps s b i).congr.trans (unlistBlock_keeps _ _)

theorem acceptCommit_keeps (s : State) (i : Nat) (b : Block) (v : Version) (d : Data) :
    Keeps s (acceptCommit s i b v d) := by
  refine Keeps.trans ?_ (commitSettles_keeps _ _ _)
  exact makeCurrent_after (retireFormer_keeps s b i) i b v d fun c => retireFormer_current s b i c

theorem settleFetch_keeps (s : State) (f : Fetch) : Keeps s (settleFetch s f) := by
  unfold settleFetch
  repeat' first
    | with_reducible exact Keeps.refl _
    | with_reducible apply (unlistBlock_keeps _ _).after
    | with_reducible apply (endFetch_keeps _ _ _).after
    | refine Keeps.congr (t := s) ?_
    | split

theorem reportCommit_keeps (s : State) (b : Block) (src : CommitSource) (holds : Version) : Keeps s (reportCommit s b src holds) := by
  unfold reportCommit
  repeat' first
    | with_reducible exact Keeps.refl _
    | with_reducible apply (settleFetch_keeps _ _).after
    | with_reducible apply (offer_keeps _ _ _).after
    | refine Keeps.congr (t := s) ?_
    | split

theorem decideCommit_keeps (s : State) (i : Nat) (b : Block) (v : Version) (d : Data) (src : CommitSource) (held : HeldVersion) : Keeps s (decideCommit s i b v d src held) := by
  unfold decideCommit
  repeat' first
    | with_reducible exact Keeps.refl _
    | with_reducible apply (reportCommit_keeps _ _ _ _).after
    | with_reducible apply (acceptCommit_keeps _ _ _ _ _).after
    | with_reducible refine (setSlot_keeps _ _ _ ?_).after ?_
    | refine Keeps.congr (t := s) ?_
    | rfl
    | split

theorem addPending_keeps (s : State) (p : PendingCommit) : Keeps s (addPending s p) := by
  unfold addPending
  repeat' first
    | with_reducible exact Keeps.refl _
    | refine Keeps.congr (t := s) ?_

theorem offerCommit_keeps (s : State) (i : Nat) (b : Block) (v : Version) (d : Data) (src : CommitSource) : Keeps s (offerCommit s i b v d src) := by
  unfold offerCommit
  dsimp only
  repeat' first
    | with_reducible exact Keeps.refl _
    | with_reducible apply (addPending_keeps _ _).after
    | with_reducible apply (decideCommit_keeps _ _ _ _ _ _ _).after
    | with_reducible apply (issue_keeps _ _).after
    | refine Keeps.congr (t := s) ?_
    | split

theorem listRefused_keeps (s : State) (b : Block) (r : Reason) : Keeps s (listRefused s b r) := by
  unfold listRefused
  repeat' first
    | with_reducible exact Keeps.refl _
    | with_reducible apply (listBlock_keeps _ _).after
    | refine Keeps.congr (t := s) ?_
    | split

theorem offerNack_keeps (s : State) (t : Tag) (b : Block) (v : Version) (r : Reason) : Keeps s (offerNack s t b v r) := by
  unfold offerNack
  repeat' first
    | with_reducible exact Keeps.refl _
    | with_reducible apply (offer_keeps _ _ _).after

theorem refuseEntry_keeps (s : State) (t : Tag) (v : Version) (r : Reason) : Keeps s (refuseEntry s t v r) := by
  refine Keeps.trans ?_ (freeHeld_keeps _ _)
  refine Keeps.trans (finishEntry_keeps s t .refused) ?_
  exact updateEntry_keeps _ _ _ fun _ => rfl

theorem nackWrite_keeps (s : State) (e : Entry) (r : Reason) : Keeps s (nackWrite s e r) := by
  unfold nackWrite
  dsimp only
  repeat' first
    | with_reducible exact Keeps.refl _
    | with_reducible apply (refuseEntry_keeps _ _ _ _).after
    | with_reducible apply (offerNack_keeps _ _ _ _ _).after
    | with_reducible apply (listRefused_keeps _ _ _).after

/-- Refusing a write whose tag no entry bears. -/
theorem nackNew_stays (s : State) (t : Tag) (b : Block) (r : Reason) (fresh : t ∉ tagsOf s) :
    Stays s (nackNew s t b r) := by
  have h1 := offerNack_keeps s t b (nackVersion s b none) r
  unfold nackNew
  dsimp only
  refine Stays.trans ?_ (listRefused_keeps _ _ _).stays
  split
  · exact h1.stays
  · rename_i h
    exact h1.stays.trans (addGiven_stays h (by rw [h1.tags]; exact fresh))

theorem nackExpired_keeps (s : State) (e : Entry) : Keeps s (nackExpired s e) := by
  unfold nackExpired
  dsimp only
  repeat' first
    | with_reducible exact Keeps.refl _
    | with_reducible apply (offerNack_keeps _ _ _ _ _).after
    | with_reducible apply (listBlock_keeps _ _).after
    | with_reducible apply (recordSent_keeps _ _ _ _).after
    | refine Keeps.congr (t := s) ?_
    | split

theorem ackWrite_keeps (s : State) (t : Tag) (b : Block) (v : Version) : Keeps s (ackWrite s t b v) := by
  unfold ackWrite
  repeat' first
    | with_reducible exact Keeps.refl _
    | with_reducible apply (offer_keeps _ _ _).after
    | with_reducible apply (recordSent_keeps _ _ _ _).after
    | with_reducible apply (finishEntry_keeps _ _ _).after

theorem writeCommitted_keeps (s : State) (e : Entry) (v : Version) : Keeps s (writeCommitted s e v) := by
  unfold writeCommitted
  dsimp only
  repeat' first
    | with_reducible exact Keeps.refl _
    | with_reducible apply (ackWrite_keeps _ _ _ _).after
    | with_reducible apply (expireEntry_keeps _ _).after
    | with_reducible refine (updateEntry_keeps _ _ _ ?_).after ?_
    | refine Keeps.congr (t := s) ?_
    | (intro e; first | rfl | (split <;> rfl))
    | split

theorem commitHeld_keeps (s : State) (e : Entry) (v : Version) : Keeps s (commitHeld s e v) := by
  unfold commitHeld
  repeat' first
    | with_reducible exact Keeps.refl _
    | with_reducible apply (writeCommitted_keeps _ _ _).after
    | with_reducible apply (acceptCommit_keeps _ _ _ _ _).after
    | refine Keeps.congr (t := s) ?_
    | split

theorem recommit_keeps (s : State) (e : Entry) (v : Version) (i : Nat)
    (h : (s.cache.slots[i]?.bind Slot.currentBlock) = some e.blk) : Keeps s (recommit s e v i) := by
  unfold recommit
  split
  · refine Keeps.trans ?_ (writeCommitted_keeps _ _ _)
    refine Keeps.trans ?_ (commitSettles_keeps _ _ _)
    exact makeDirty_after (Keeps.refl s) _ _ _ _ fun _ => .inl h
  · refine Keeps.trans ?_ (writeCommitted_keeps _ _ _)
    refine Keeps.trans ?_ (commitSettles_keeps _ _ _)
    exact makeCurrent_after (Keeps.refl s) _ _ _ _ fun _ => .inl h
  · split
    · exact nackWrite_keeps _ _ _
    · exact (acceptCommit_keeps _ _ _ _ _).trans (writeCommitted_keeps _ _ _)
  all_goals exact Keeps.refl s

theorem supersede_keeps (s : State) (e : Entry) (held : Version) : Keeps s (supersede s e held) := by
  unfold supersede
  repeat' first
    | with_reducible exact Keeps.refl _
    | with_reducible apply (nackWrite_keeps _ _ _).after
    | with_reducible apply (offer_keeps _ _ _).after
    | with_reducible refine (updateEntry_keeps _ _ _ ?_).after ?_
    | refine Keeps.congr (t := s) ?_
    | (intro e; first | rfl | (split <;> rfl))
    | split

theorem deferDecision_keeps (s : State) (t : Tag) (b : Block) (k : ReadKind) : Keeps s (deferDecision s t b k) := by
  unfold deferDecision
  repeat' first
    | with_reducible exact Keeps.refl _
    | with_reducible apply (addWaiter_keeps _ _ _ _).after
    | refine Keeps.congr (t := s) ?_
    | split

theorem decideFirst_keeps (s : State) (e : Entry) (v : Version) : Keeps s (decideFirst s e v) := by
  unfold decideFirst
  repeat' first
    | with_reducible exact Keeps.refl _
    | with_reducible apply (supersede_keeps _ _ _).after
    | with_reducible apply (commitHeld_keeps _ _ _).after
    | refine Keeps.congr (t := s) ?_
    | split

theorem decideAgain_keeps (s : State) (e : Entry) (c v : Version) : Keeps s (decideAgain s e c v) := by
  unfold decideAgain
  split
  · exact nackWrite_keeps _ _ _
  · rename_i h
    split
    · split
      · exact recommit_keeps _ _ _ _ (currentCopy_some h)
      · exact Keeps.refl s
    · exact nackWrite_keeps _ _ _

theorem decideFollow_keeps (s : State) (t : Tag) : Keeps s (decideFollow s t) := by
  unfold decideFollow
  repeat' first
    | with_reducible exact Keeps.refl _
    | with_reducible apply (decideAgain_keeps _ _ _ _).after
    | with_reducible apply (decideFirst_keeps _ _ _).after
    | with_reducible apply (deferDecision_keeps _ _ _ _).after
    | refine Keeps.congr (t := s) ?_
    | split

theorem leadExpire_keeps (s : State) (t : Tag) : Keeps s (leadExpire s t) := by
  unfold leadExpire
  dsimp only
  repeat' first
    | with_reducible exact Keeps.refl _
    | with_reducible apply (nackWrite_keeps _ _ _).after
    | with_reducible apply (offer_keeps _ _ _).after
    | with_reducible refine (updateEntry_keeps _ _ _ ?_).after ?_
    | refine Keeps.congr (t := s) ?_
    | (intro e; first | rfl | (split <;> rfl))
    | split

theorem beginLead_keeps (s : State) (t : Tag) : Keeps s (beginLead s t) := by
  unfold beginLead
  dsimp only
  repeat' first
    | with_reducible exact Keeps.refl _
    | with_reducible apply (leadExpire_keeps _ _).after
    | with_reducible refine (updateEntry_keeps _ _ _ ?_).after ?_
    | refine Keeps.congr (t := s) ?_
    | (intro e; first | rfl | (split <;> rfl))
    | split

theorem storeOwnVersion_keeps (s : State) (t : Tag) (a : HeldVersion) : Keeps s (storeOwnVersion s t a) :=
  updateEntry_keeps s t _ fun e => by split <;> rfl

theorem afterLookup_keeps (s : State) (t : Tag) : Keeps s (afterLookup s t) := by
  unfold afterLookup
  repeat' first
    | with_reducible exact Keeps.refl _
    | with_reducible apply (beginLead_keeps _ _).after
    | with_reducible apply (decideFollow_keeps _ _).after
    | refine Keeps.congr (t := s) ?_
    | split

theorem writeAnswered_keeps (s : State) (t : Tag) (a : HeldVersion) : Keeps s (writeAnswered s t a) := by
  unfold writeAnswered
  repeat' first
    | with_reducible exact Keeps.refl _
    | with_reducible apply (afterLookup_keeps _ _).after
    | with_reducible apply (storeOwnVersion_keeps _ _ _).after
    | refine Keeps.congr (t := s) ?_
    | split

theorem follow_keeps (s : State) (e : Entry) (v : Version) : Keeps s (follow s e v) := by
  unfold follow
  dsimp only
  repeat' first
    | with_reducible exact Keeps.refl _
    | with_reducible apply (decideFollow_keeps _ _).after
    | with_reducible apply (recordAbsent_keeps _ _).after
    | with_reducible refine (updateEntry_keeps _ _ _ ?_).after ?_
    | refine Keeps.congr (t := s) ?_
    | (intro e; first | rfl | (split <;> rfl))
    | split

theorem orderCancels_keeps (s : State) (t : Tag) (v : Version) : Keeps s (orderCancels s t v) := by
  unfold orderCancels
  dsimp only
  repeat' first
    | with_reducible exact Keeps.refl _
    | with_reducible apply (withdraw_keeps _ _ _).after
    | with_reducible refine (updateEntry_keeps _ _ _ ?_).after ?_
    | refine Keeps.congr (t := s) ?_
    | (intro e; first | rfl | (split <;> rfl))
    | split

theorem orderReaches_stays (s : State) (t : Tag) (b : Block) (v : Version) : Stays s (orderReaches s t b v) := by
  unfold orderReaches
  split
  · exact nackNew_stays _ _ _ _ (findEntry_none ‹_›)
  · refine Keeps.stays ?_
    repeat' first
      | exact Keeps.refl _
      | exact nackExpired_keeps _ _
      | exact follow_keeps _ _ _
      | split

theorem takeOrder_stays (s : State) (src : Source) (t : Tag) (b : Block) (v : Version) : Stays s (takeOrder s src t b v) := by
  unfold takeOrder
  dsimp only
  repeat' first
    | with_reducible exact Stays.refl _
    | with_reducible apply (orderReaches_stays _ _ _ _).after
    | with_reducible apply (orderCancels_keeps _ _ _).stays.after
    | refine Stays.trans (t := s) ?_ (Keeps.congr (t := s) (Keeps.refl _)).stays
    | split

theorem recordWritten_keeps (s : State) (b : Block) (v : Version) (i : Nat) : Keeps s (recordWritten s b v i) := by
  unfold recordWritten
  refine Keeps.trans ?_ (keeps_foldl _ (fun _ _ => ackWrite_keeps _ _ _ _) _ _)
  split
  · rename_i h
    exact makeClean_after (Keeps.refl s) _ _ _ _ fun _ => .inl (slotAt_current (by rw [h]; rfl))
  · exact setSlot_keeps _ _ _ rfl
  all_goals exact Keeps.refl s

end Sys2Proof.Machine
end

