-- ==== Sys2Proof/Laws/FrameReq.lean ====
section
/-! SUPPORT. What reads, fetches and answers leave alone. -/

-- One proof after another: side by side, the proofs of this file wait on each other and take a thread each.
set_option Elab.async false

namespace Sys2Proof.Machine

theorem answer_keeps (s : State) (e : Entry) (f : Frame) : Keeps s (answer s e f) := by
  unfold answer
  repeat' first
    | with_reducible exact Keeps.refl _
    | with_reducible apply (offer_keeps _ _ _).after
    | with_reducible apply (recordSent_keeps _ _ _ _).after
    | with_reducible apply (finishEntry_keeps _ _ _).after
    | refine Keeps.congr (t := s) ?_
    | split

theorem answerData_keeps (s : State) (e : Entry) : Keeps s (answerData s e) := by
  unfold answerData
  dsimp only
  repeat' first
    | with_reducible exact Keeps.refl _
    | with_reducible apply (answer_keeps _ _ _).after
    | with_reducible apply (touchSlot_keeps _ _).after
    | with_reducible apply (finishEntry_keeps _ _ _).after
    | refine Keeps.congr (t := s) ?_
    | split

theorem answerUnavailable_keeps (s : State) (e : Entry) (r : Reason) : Keeps s (answerUnavailable s e r) := by
  unfold answerUnavailable
  repeat' first
    | with_reducible exact Keeps.refl _
    | with_reducible apply (answer_keeps _ _ _).after

theorem expireRead_keeps (s : State) (e : Entry) : Keeps s (expireRead s e) := by
  unfold expireRead
  repeat' first
    | with_reducible exact Keeps.refl _
    | with_reducible apply (answerUnavailable_keeps _ _ _).after
    | with_reducible apply (answerData_keeps _ _).after
    | with_reducible apply (finishEntry_keeps _ _ _).after
    | refine Keeps.congr (t := s) ?_
    | split

theorem expireFetch_keeps (s : State) (e : Entry) : Keeps s (expireFetch s e) := by
  unfold expireFetch
  repeat' first
    | with_reducible exact Keeps.refl _
    | with_reducible apply (answerUnavailable_keeps _ _ _).after
    | with_reducible apply (answerData_keeps _ _).after
    | with_reducible apply (answer_keeps _ _ _).after
    | with_reducible apply (finishEntry_keeps _ _ _).after
    | refine Keeps.congr (t := s) ?_
    | split

theorem expireWait_keeps (s : State) (t : Tag) : Keeps s (expireWait s t) := by
  unfold expireWait
  repeat' first
    | with_reducible exact Keeps.refl _
    | with_reducible apply (expireFetch_keeps _ _).after
    | with_reducible apply (expireRead_keeps _ _).after
    | refine Keeps.congr (t := s) ?_
    | split

theorem beginWait_keeps (s : State) (t : Tag) : Keeps s (beginWait s t) := by
  unfold beginWait
  dsimp only
  repeat' first
    | with_reducible exact Keeps.refl _
    | with_reducible apply (expireWait_keeps _ _).after
    | with_reducible refine (updateEntry_keeps _ _ _ ?_).after ?_
    | refine Keeps.congr (t := s) ?_
    | (intro e; first | rfl | (split <;> rfl))
    | split

theorem endReadLookup_keeps (s : State) (e : Entry) : Keeps s (endReadLookup s e) := by
  unfold endReadLookup
  dsimp only
  repeat' first
    | with_reducible exact Keeps.refl _
    | with_reducible apply (beginWait_keeps _ _).after
    | with_reducible apply (answerData_keeps _ _).after
    | with_reducible apply (finishEntry_keeps _ _ _).after
    | refine Keeps.congr (t := s) ?_
    | split

theorem endFetchLookup_keeps (s : State) (e : Entry) : Keeps s (endFetchLookup s e) := by
  unfold endFetchLookup
  dsimp only
  repeat' first
    | with_reducible exact Keeps.refl _
    | with_reducible apply (beginWait_keeps _ _).after
    | with_reducible apply (finishEntry_keeps _ _ _).after
    | refine Keeps.congr (t := s) ?_
    | split

theorem Entry.withCopy_tag (e : Entry) (c : Option (Nat × Version × Data)) (r : Reason) : (e.withCopy c r).tag = e.tag := by
  unfold Entry.withCopy
  split <;> rfl

theorem copyAnswered_keeps (s : State) (t : Tag) (failure : Reason) : Keeps s (copyAnswered s t failure) := by
  unfold copyAnswered
  dsimp only
  repeat' first
    | with_reducible exact Keeps.refl _
    | with_reducible apply (endFetchLookup_keeps _ _).after
    | with_reducible apply (endReadLookup_keeps _ _).after
    | with_reducible refine (updateEntry_keeps _ _ _ ?_).after ?_
    | refine Keeps.congr (t := s) ?_
    | exact fun e => e.withCopy_tag _ _
    | split

theorem beginCopyLookup_keeps (s : State) (t : Tag) (b : Block) : Keeps s (beginCopyLookup s t b) := by
  unfold beginCopyLookup
  repeat' first
    | with_reducible exact Keeps.refl _
    | with_reducible apply (copyAnswered_keeps _ _ _).after
    | refine Keeps.trans ?_ (copyLookup_keeps (by assumption))
    | refine Keeps.congr (t := s) ?_
    | split

theorem takeUp_keeps (s : State) (src : Source) (t : Tag) (b : Block) : Keeps s (takeUp s src t b) := by
  unfold takeUp
  repeat' first
    | with_reducible exact Keeps.refl _
    | with_reducible apply (beginCopyLookup_keeps _ _ _).after
    | with_reducible apply (beginWait_keeps _ _).after
    | with_reducible refine (updateEntry_keeps _ _ _ ?_).after ?_
    | refine Keeps.congr (t := s) ?_
    | (intro e; first | rfl | (split <;> rfl))
    | split

theorem repeated_keeps (s : State) (src : Source) (e : Entry) : Keeps s (repeated s src e) := by
  unfold repeated
  repeat' first
    | with_reducible exact Keeps.refl _
    | with_reducible apply (takeUp_keeps _ _ _ _).after
    | with_reducible refine (updateEntry_keeps _ _ _ ?_).after ?_
    | refine Keeps.congr (t := s) ?_
    | (intro e; first | rfl | (split <;> rfl))
    | split

theorem suppress_keeps (s : State) (e : Entry) : Keeps s (suppress s e) := by
  unfold suppress
  repeat' first
    | with_reducible exact Keeps.refl _
    | with_reducible apply (withdraw_keeps _ _ _).after
    | with_reducible apply (finishEntry_keeps _ _ _).after
    | refine Keeps.congr (t := s) ?_
    | split

theorem staleTest_keeps (s : State) (b : Block) (v : Version) (held : HeldVersion) : Keeps s (staleTest s b v held) := by
  unfold staleTest
  repeat' first
    | with_reducible exact Keeps.refl _
    | with_reducible apply (listBlock_keeps _ _).after
    | refine Keeps.congr (t := s) ?_
    | split

theorem staleDetect_keeps (s : State) (e : Entry) (v : Version) : Keeps s (staleDetect s e v) := by
  unfold staleDetect
  repeat' first
    | with_reducible exact Keeps.refl _
    | with_reducible apply (staleTest_keeps _ _ _ _).after
    | refine Keeps.trans ?_ (compareLookup_keeps (by assumption))
    | refine Keeps.congr (t := s) ?_
    | split

theorem suppressIf_keeps (s : State) (t : Tag) (test : Entry → Bool) : Keeps s (suppressIf s t test) := by
  unfold suppressIf
  repeat' first
    | with_reducible exact Keeps.refl _
    | with_reducible apply (suppress_keeps _ _).after
    | refine Keeps.congr (t := s) ?_
    | split

theorem correct_keeps (s : State) (t : Tag) : Keeps s (correct s t) := by
  unfold correct
  repeat' first
    | with_reducible exact Keeps.refl _
    | with_reducible apply (answerData_keeps _ _).after
    | refine Keeps.congr (t := s) ?_
    | split

theorem staleIf_keeps (s : State) (t : Tag) (v : Version) : Keeps s (staleIf s t v) := by
  unfold staleIf
  repeat' first
    | with_reducible exact Keeps.refl _
    | with_reducible apply (staleDetect_keeps _ _ _).after
    | refine Keeps.congr (t := s) ?_
    | split

theorem updateFetch_keeps (s : State) (id : Nat) (f : Fetch → Fetch) : Keeps s (updateFetch s id f) :=
  (Keeps.refl s).congr (fetches := by simp [updateFetch])

theorem updatePush_keeps (s : State) (id : Nat) (f : Push → Push) : Keeps s (updatePush s id f) :=
  (Keeps.refl s).congr (pushes := by simp [updatePush])

theorem fetchTakesData_keeps (s : State) (t : Tag) (v : Version) (d : Data) : Keeps s (fetchTakesData s t v d) := by
  unfold fetchTakesData
  repeat' first
    | with_reducible exact Keeps.refl _
    | with_reducible apply (updateFetch_keeps _ _ _).after
    | refine Keeps.congr (t := s) ?_
    | split

theorem fetchTakesCurrent_keeps (s : State) (t : Tag) : Keeps s (fetchTakesCurrent s t) := by
  unfold fetchTakesCurrent
  repeat' first
    | with_reducible exact Keeps.refl _
    | with_reducible apply (updateFetch_keeps _ _ _).after
    | refine Keeps.congr (t := s) ?_
    | split

theorem deliverData_keeps (s : State) (src : Source) (t : Tag) (b : Block) (v : Version) (d : Data) : Keeps s (deliverData s src t b v d) := by
  unfold deliverData
  dsimp only
  repeat' first
    | with_reducible exact Keeps.refl _
    | with_reducible apply (fetchTakesData_keeps _ _ _ _).after
    | with_reducible apply (staleIf_keeps _ _ _).after
    | with_reducible apply (correct_keeps _ _).after
    | with_reducible apply (suppressIf_keeps _ _ _).after
    | with_reducible apply (recordAnswer_keeps _ _ _ _ _).after
    | refine Keeps.congr (t := s) ?_
    | split

theorem deliverUnavailable_keeps (s : State) (src : Source) (t : Tag) (b : Block) : Keeps s (deliverUnavailable s src t b) := by
  unfold deliverUnavailable
  dsimp only
  repeat' first
    | with_reducible exact Keeps.refl _
    | with_reducible apply (suppressIf_keeps _ _ _).after
    | with_reducible apply (recordAnswer_keeps _ _ _ _ _).after
    | refine Keeps.congr (t := s) ?_
    | split

theorem deliverCurrent_keeps (s : State) (src : Source) (t : Tag) (b : Block) (v : Version) : Keeps s (deliverCurrent s src t b v) := by
  unfold deliverCurrent
  dsimp only
  repeat' first
    | with_reducible exact Keeps.refl _
    | with_reducible apply (fetchTakesCurrent_keeps _ _).after
    | with_reducible apply (suppressIf_keeps _ _ _).after
    | with_reducible apply (recordAnswer_keeps _ _ _ _ _).after
    | refine Keeps.congr (t := s) ?_
    | split

theorem replayCompare_keeps (s : State) (t : Tag) (p : StationNo) (b : Block) (v : Version) (held : HeldVersion) : Keeps s (replayCompare s t p b v held) := by
  unfold replayCompare
  dsimp only
  repeat' first
    | with_reducible exact Keeps.refl _
    | with_reducible apply (freeMissed_keeps _ _ _).after
    | with_reducible apply (endPush_keeps _ _ _ _).after
    | refine Keeps.congr (t := s) ?_
    | split

theorem beginCompare_keeps (s : State) (t : Tag) (p : StationNo) (b : Block) (v : Version) :
    Keeps s (beginCompare s t p b v) := by
  unfold beginCompare
  split
  · exact (compareLookup_keeps ‹_›).trans (replayCompare_keeps _ _ _ _ _ _)
  · exact compareLookup_keeps ‹_›

theorem replayAcked_keeps (s : State) (t : Tag) (p : StationNo) (b : Block) (v : Version) :
    Keeps s (replayAcked s t p b v) := by
  unfold replayAcked
  split
  · exact (updatePush_keeps _ _ _).trans (beginCompare_keeps _ _ _ _ _)
  · split
    · exact beginCompare_keeps _ _ _ _ _
    · exact Keeps.refl s

theorem deliverAck_keeps (s : State) (src : Source) (t : Tag) (b : Block) (v : Version) : Keeps s (deliverAck s src t b v) := by
  unfold deliverAck
  repeat' first
    | with_reducible exact Keeps.refl _
    | with_reducible apply (replayAcked_keeps _ _ _ _ _).after
    | with_reducible apply (recordAnswer_keeps _ _ _ _ _).after
    | refine Keeps.congr (t := s) ?_
    | split

theorem replayNacked_keeps (s : State) (t : Tag) : Keeps s (replayNacked s t) := by
  unfold replayNacked
  repeat' first
    | with_reducible exact Keeps.refl _
    | with_reducible apply (endPush_keeps _ _ _ _).after
    | refine Keeps.congr (t := s) ?_
    | split

theorem deliverNack_keeps (s : State) (src : Source) (t : Tag) (b : Block) (v : Version) : Keeps s (deliverNack s src t b v) := by
  unfold deliverNack
  repeat' first
    | with_reducible exact Keeps.refl _
    | with_reducible apply (replayNacked_keeps _ _).after
    | with_reducible apply (recordAnswer_keeps _ _ _ _ _).after
    | refine Keeps.congr (t := s) ?_
    | split

theorem repeatedWrite_keeps (s : State) (e : Entry) : Keeps s (repeatedWrite s e) := by
  unfold repeatedWrite
  repeat' first
    | with_reducible exact Keeps.refl _
    | with_reducible apply (offerNack_keeps _ _ _ _ _).after
    | with_reducible apply (offer_keeps _ _ _).after
    | refine Keeps.congr (t := s) ?_
    | split

theorem admitHeld_keeps (s : State) (e : Entry) (b : Block) (d : Data) : Keeps s (admitHeld s e b d) := by
  have h : ∀ i, Keeps s (updateEntry (setSlot s i (.held b d (.clientWrite e.tag) none)) e.tag fun x =>
      { x with slot := some i }) := fun i =>
    (setSlot_keeps s i _ rfl).trans (updateEntry_keeps _ _ _ fun _ => rfl)
  unfold admitHeld
  split
  · exact nackWrite_keeps _ _ _
  · dsimp only
    split
    · exact ((h _).trans (versionLookup_keeps ‹_›)).trans (writeAnswered_keeps _ _ _)
    · exact (h _).trans (versionLookup_keeps ‹_›)

theorem admitWrite_stays (s : State) (src : Source) (t : Tag) (b : Block) (d : Data) (fresh : t ∉ tagsOf s) :
    Stays s (admitWrite s src t b d) := by
  unfold admitWrite
  split
  · exact nackNew_stays _ _ _ _ fresh
  · split
    · exact nackNew_stays _ _ _ _ fresh
    · split
      · exact ((offerNack_keeps _ _ _ _ _).trans (listRefused_keeps _ _ _)).stays
      · exact (addGiven_stays ‹_› fresh).trans (admitHeld_keeps _ _ _ _).stays

theorem takeWrite_stays (s : State) (src : Source) (t : Tag) (b : Block) (d : Data) :
    Stays s (takeWrite s src t b d) := by
  unfold takeWrite
  split
  · split
    · exact (repeatedWrite_keeps _ _).stays
    · have fresh := findEntry_none ‹_›
      split
      · exact admitWrite_stays _ _ _ _ _ fresh
      · exact nackNew_stays _ _ _ _ fresh
  · exact Stays.refl s

theorem takeRead_stays (s : State) (src : Source) (t : Tag) (b : Block) : Stays s (takeRead s src t b) := by
  unfold takeRead
  split
  · split
    · split
      · exact (repeated_keeps _ _ _).stays
      · exact Stays.refl s
    · have fresh := findEntry_none ‹_›
      split
      · exact Stays.refl s
      · exact (addGiven_stays ‹_› fresh).trans (takeUp_keeps _ _ _ _).stays
  · exact Stays.refl s

theorem takeFetch_stays (s : State) (src : Source) (t : Tag) (b : Block) (v : Version) (m : Bool) :
    Stays s (takeFetch s src t b v m) := by
  unfold takeFetch
  split
  · split
    · refine Keeps.stays ?_
      split
      · have h : ∀ u, Keeps s u →
            Keeps s (match findEntry u t with | none => u | some e => repeated u src e) := by
          intro u hu
          split
          · exact hu
          · exact hu.trans (repeated_keeps _ _ _)
        refine h _ ?_
        split
        · exact updateEntry_keeps _ _ _ fun _ => rfl
        · exact Keeps.refl s
      · exact Keeps.refl s
    · have fresh := findEntry_none ‹_›
      split
      · exact Stays.refl s
      · exact (addGiven_stays ‹_› fresh).trans (takeUp_keeps _ _ _ _).stays
  · exact Stays.refl s

theorem takeFlush_stays (s : State) (src : Source) (t : Tag) : Stays s (takeFlush s src t) := by
  unfold takeFlush
  split
  · rename_i h
    have fresh : t ∉ tagsOf s := by
      simp only [Bool.and_eq_true, Option.isNone_iff_eq_none] at h
      exact findEntry_none h.2
    split
    · exact Stays.refl s
    · exact addGiven_stays ‹_› fresh
  · exact Stays.refl s

theorem takeReplay_keeps (s : State) (src : Source) (t : Tag) (b : Block) (v : Version) (d : Data) :
    Keeps s (takeReplay s src t b v d) := by
  unfold takeReplay
  split
  · split
    · exact offerNack_keeps _ _ _ _ _
    · split
      · exact (offerNack_keeps _ _ _ _ _).trans (listBlock_keeps _ _)
      · exact (setSlot_keeps s _ _ rfl).trans (offerCommit_keeps _ _ _ _ _ _)
  · exact Keeps.refl s

end Sys2Proof.Machine
end

