-- ==== Sys2Proof/Laws/FrameEng.lean ====
section
/-! SUPPORT. What the engines leave alone. -/

-- One proof after another: side by side, the proofs of this file wait on each other and take a thread each.
set_option Elab.async false

namespace Sys2Proof.Machine

theorem postponePush_keeps (s : State) (p : Push) : Keeps s (postponePush s p) := by
  unfold postponePush
  repeat' first
    | with_reducible exact Keeps.refl _
    | with_reducible apply (endPush_keeps _ _ _ _).after

/-- The station's own next tag is not in a table within its capacity. -/
theorem ownTag_fresh {s : State} (h : TableOk s) : ownTag s ∉ tagsOf s := by
  unfold ownTag
  dsimp only
  split
  · rename_i k hk
    have := List.find?_some hk
    exact findEntry_none (by simpa using this)
  · rename_i hk
    exfalso
    rw [List.find?_eq_none] at hk
    have hinj : ((List.range 256).map fun k =>
        ({ origin := ownNumber s, seq := s.sequence + BitVec.ofNat 8 k } : Tag)).Nodup := by
      refine List.Nodup.map_on ?_ List.nodup_range
      intro a ha b hb hab
      simp only [Tag.mk.injEq, true_and] at hab
      rw [List.mem_range] at ha hb
      bv_omega
    have hsub : ((List.range 256).map fun k =>
        ({ origin := ownNumber s, seq := s.sequence + BitVec.ofNat 8 k } : Tag)) ⊆ tagsOf s := by
      intro t ht
      obtain ⟨k, hkr, rfl⟩ := List.mem_map.1 ht
      have hs := hk k hkr
      cases hf : findEntry s { origin := ownNumber s, seq := s.sequence + BitVec.ofNat 8 k } with
      | none => simp [hf] at hs
      | some e =>
        obtain ⟨hm, hte⟩ := findEntry_some hf
        rw [← hte]
        exact List.mem_map_of_mem hm
    have hlen := (List.subperm_of_subset hinj hsub).length_le
    have hl := h.1
    simp only [List.length_map, List.length_range, tagsOf, Config.tableSize] at hlen hl
    omega

/-- Replacing one tag by a fresh one keeps the table in order. -/
theorem retag_after {s0 s : State} (a : Stays s0 s) (old t : Tag) (f : Entry → Entry) (hf : ∀ e, (f e).tag = t)
    (fresh : TableOk s0 → t ∉ tagsOf s) : Stays s0 (updateEntry s old f) := by
  refine ⟨a.pins, a.held, a.media, a.pending, a.slots, fun h => ⟨?_, ?_⟩, a.pushes, a.fetches,
    fun r => let r := a.roomy r; ⟨r.1, r.2, r.3, r.4, r.5⟩, a.current⟩
  · simpa [updateEntry] using (a.table h).1
  · have hfr := fresh h
    have hnd := (a.table h).2
    simp only [tagsOf, updateEntry, List.map_map] at hfr hnd ⊢
    clear h fresh a
    generalize s.table = l at hfr hnd
    induction l with
    | nil => simp
    | cons e l ih =>
      simp only [List.map_cons, List.nodup_cons, List.mem_map, List.mem_cons, not_or] at hfr hnd ⊢
      refine ⟨?_, ih (by simpa using hfr.2) hnd.2⟩
      rintro ⟨x, hx, hxe⟩
      simp only [Function.comp] at hxe
      split at hxe
      · rename_i h1
        split at hxe
        · rename_i h2
          exact hnd.1 ⟨x, hx, by rw [h1, h2]⟩
        · rw [hf] at hxe
          exact hfr.1 hxe
      · split at hxe
        · rw [hf] at hxe
          exact hfr.2 ⟨x, hx, hxe⟩
        · exact hnd.1 ⟨x, hx, hxe⟩

theorem tagPush_after {s0 s : State} (a : Stays s0 s) (p : Push)
    (room : p.tag = none → TableOk s0 → s.table.length < Config.tableSize) : Stays s0 (tagPush s p) := by
  have b := a.trans (takeTag_keeps s).stays
  unfold tagPush
  dsimp only
  refine Stays.trans ?_ (updatePush_keeps _ _ _).stays
  split
  · rename_i h
    exact addEntry_after b _ (room h) fun ht => ownTag_fresh (a.table ht)
  · exact retag_after b _ (ownTag s) _ (fun _ => rfl) fun ht => ownTag_fresh (a.table ht)

theorem queueReplay_keeps (s : State) (p : Push) : Keeps s (queueReplay s p) := by
  unfold queueReplay
  repeat' first
    | with_reducible exact Keeps.refl _
    | with_reducible apply (postponePush_keeps _ _).after
    | with_reducible apply (updatePush_keeps _ _ _).after
    | with_reducible apply (endPush_keeps _ _ _ _).after
    | with_reducible apply (touchSlot_keeps _ _).after
    | with_reducible apply (offer_keeps _ _ _).after
    | refine Keeps.congr (t := s) ?_
    | split

theorem pushInHand_stays (s : State) (p : Push)
    (same : ∀ q, findPush s p.id = some q → q.tag = none → p.tag = none) : Stays s (pushInHand s p) := by
  unfold pushInHand
  split
  · have key : ∀ s1, Stays s s1 → (∀ q, findPush s1 p.id = some q → q.tag = none → TableOk s →
        s1.table.length < Config.tableSize) →
        Stays s (match findPush s1 p.id with
          | none => s1
          | some q =>
            if mayPush s1 q then
              match findPush (tagPush s1 q) p.id with
              | none => tagPush s1 q
              | some r => queueReplay (tagPush s1 q) r
            else endPush s1 q none .done) := by
      intro s1 h1 hroom
      split
      · exact h1
      · rename_i q hq
        split
        · have ht : Stays s (tagPush s1 q) := tagPush_after h1 q (hroom q hq)
          split
          · exact ht
          · exact ht.trans (queueReplay_keeps _ _).stays
        · exact h1.trans (endPush_keeps _ _ _ _).stays
    split
    · exact (postponePush_keeps _ _).stays
    · rename_i s1 hs1
      split at hs1
      · obtain ⟨h1, h2, _⟩ := giveEntry_spec hs1
        exact key s1 h1 fun _ _ _ => h2
      · rename_i hp
        cases hs1
        exact key s (Stays.refl s) fun q hq ht => absurd (same q hq ht) (by simpa using hp)
  · exact (endPush_keeps _ _ _ _).stays

/-- The push found under a number after an update of the pushes is the one found before, updated. -/
theorem findPush_update (s : State) (id : Nat) (f : Push → Push) (hf : ∀ q, (f q).id = q.id) :
    findPush (updatePush s id f) id = (findPush s id).map f := by
  unfold findPush updatePush
  dsimp only
  induction s.replay.pushes with
  | nil => rfl
  | cons q l ih =>
    by_cases h : q.id = id
    · simp [h, hf]
    · simpa [h] using ih

theorem lookupPush_stays (s : State) (p : Push)
    (same : ∀ q, findPush s p.id = some q → q.tag = none → p.tag = none) : Stays s (lookupPush s p) := by
  have h0 := updatePush_keeps s p.id fun q => { q with phase := .lookup }
  have hp : ∀ t i, copyLookup (updatePush s p.id fun q => { q with phase := .lookup }) p.block (.push p.id)
      = (t, .hit i) → t.replay = (updatePush s p.id fun q => { q with phase := .lookup }).replay := by
    intro t i h
    unfold copyLookup at h
    split at h
    · cases h
      unfold touchSlot
      split <;> rfl
    · repeat' split at h
      all_goals cases h
  unfold lookupPush
  split
  · rename_i t i h
    refine (h0.trans (copyLookup_keeps h)).stays.trans (pushInHand_stays _ _ fun q hq ht => ?_)
    have hf : findPush t p.id = (findPush s p.id).map fun q => { q with phase := .lookup } := by
      have he : findPush t p.id = findPush (updatePush s p.id fun q => { q with phase := .lookup }) p.id := by
        unfold findPush
        rw [hp _ _ h]
      exact he.trans (findPush_update s p.id _ fun _ => rfl)
    rw [hf] at hq
    cases hs : findPush s p.id with
    | none => simp [hs] at hq
    | some r =>
      simp only [hs, Option.map_some, Option.some.injEq] at hq
      subst hq
      exact same r hs ht
  · exact (h0.trans (copyLookup_keeps ‹_›)).stays
  · exact ((h0.trans (copyLookup_keeps ‹_›)).trans (postponePush_keeps _ _)).stays
  · exact ((h0.trans (copyLookup_keeps ‹_›)).trans (endPush_keeps _ _ _ _)).stays

theorem findPush_id {s : State} {id : Nat} {p : Push} (h : findPush s id = some p) : p.id = id := by
  have := List.find?_some h
  simpa using this

theorem pushAnswered_stays (s : State) (id : Nat) : Stays s (pushAnswered s id) := by
  unfold pushAnswered
  split
  · exact Stays.refl s
  · rename_i p hp
    split
    · split
      · refine pushInHand_stays _ _ fun q hq ht => ?_
        rw [findPush_id hp, hp] at hq
        cases hq
        exact ht
      · exact (endPush_keeps _ _ _ _).stays
    · exact Stays.refl s

/-- A push begun in a free place. -/
theorem beginPush_holds (s : State) (m : Missed) (h : s.replay.pushes.length < Config.pushLimit) :
    Holds s (beginPush s m) := by
  unfold beginPush
  dsimp only
  refine Holds.trans ?_ (lookupPush_stays _ _ fun _ _ _ => rfl).holds
  exact ⟨rfl, rfl, rfl, rfl, fun d => ⟨⟨d.roomy.1, d.roomy.2, d.roomy.3, by simpa using d.roomy.4, d.roomy.5⟩,
    d.table, d.slots, d.current, by simpa using h, d.fetches⟩⟩

theorem pushStep_holds {s t : State} (h : pushStep s = some t) : Holds s t := by
  unfold pushStep at h
  split at h
  · rename_i hc
    simp only [Bool.and_eq_true, decide_eq_true_eq] at hc
    obtain ⟨m, _, rfl⟩ := Option.map_eq_some_iff.1 h
    exact beginPush_holds s m hc.2
  · cases h

theorem addRetake_keeps (s : State) (b : Block) (due : Option Nat) : Keeps s (addRetake s b due) := by
  unfold addRetake
  repeat' first
    | with_reducible exact Keeps.refl _
    | refine Keeps.congr (t := s) ?_

theorem setAside_keeps (s : State) (f : Fetch) (st : EntryState) (repair : RepairState) (due : Option Nat) : Keeps s (setAside s f st repair due) := by
  unfold setAside
  dsimp only
  repeat' first
    | with_reducible exact Keeps.refl _
    | with_reducible apply (addRetake_keeps _ _ _).after
    | with_reducible apply (setRepairState_keeps _ _ _).after
    | with_reducible apply (endFetch_keeps _ _ _).after
    | refine Keeps.congr (t := s) ?_
    | split

theorem endNoAttempt_keeps (s : State) (f : Fetch) : Keeps s (endNoAttempt s f) := by
  unfold endNoAttempt
  repeat' first
    | with_reducible exact Keeps.refl _
    | with_reducible apply (setAside_keeps _ _ _ _ _).after

theorem tagFetch_after {s0 s : State} (a : Stays s0 s) (f : Fetch)
    (room : f.tag = none → TableOk s0 → s.table.length < Config.tableSize) : Stays s0 (tagFetch s f) := by
  have b := a.trans (takeTag_keeps s).stays
  unfold tagFetch
  dsimp only
  refine Stays.trans ?_ (updateFetch_keeps _ _ _).stays
  split
  · rename_i h
    exact addEntry_after b _ (room h) fun ht => ownTag_fresh (a.table ht)
  · exact retag_after b _ (ownTag s) _ (fun _ => rfl) fun ht => ownTag_fresh (a.table ht)

theorem queueFetch_keeps (s : State) (f : Fetch) (a : HeldVersion) : Keeps s (queueFetch s f a) := by
  unfold queueFetch
  repeat' first
    | with_reducible exact Keeps.refl _
    | with_reducible apply (endNoAttempt_keeps _ _).after
    | with_reducible apply (updateFetch_keeps _ _ _).after
    | with_reducible apply (offer_keeps _ _ _).after
    | refine Keeps.congr (t := s) ?_
    | split

theorem fetchAnswered_stays (s : State) (id : Nat) (a : HeldVersion) : Stays s (fetchAnswered s id a) := by
  unfold fetchAnswered
  split
  · exact Stays.refl s
  · rename_i f hf
    split
    · have key : ∀ s1, Stays s s1 → (∀ g, findFetch s1 id = some g → g.tag = none → TableOk s →
          s1.table.length < Config.tableSize) →
          Stays s (match findFetch s1 id with
            | none => s1
            | some g =>
              match findFetch (tagFetch s1 g) id with
              | none => tagFetch s1 g
              | some h => queueFetch (tagFetch s1 g) h a) := by
        intro s1 h1 hroom
        split
        · exact h1
        · rename_i g hg
          have ht : Stays s (tagFetch s1 g) := tagFetch_after h1 g (hroom g hg)
          split
          · exact ht
          · exact ht.trans (queueFetch_keeps _ _ _).stays
      split
      · exact (endNoAttempt_keeps _ _).stays
      · rename_i s1 hs1
        split at hs1
        · obtain ⟨h1, h2, _⟩ := giveEntry_spec hs1
          exact key s1 h1 fun _ _ _ => h2
        · rename_i hp
          cases hs1
          refine key s (Stays.refl s) fun g hg ht => ?_
          rw [hf] at hg
          cases hg
          exact absurd ht (by simpa using hp)
    · exact Stays.refl s

theorem lookupFetch_stays (s : State) (f : Fetch) : Stays s (lookupFetch s f) := by
  unfold lookupFetch
  split
  · exact ((updateFetch_keeps _ _ _).trans (versionLookup_keeps ‹_›)).stays.trans (fetchAnswered_stays _ _ _)
  · exact ((updateFetch_keeps _ _ _).trans (versionLookup_keeps ‹_›)).stays

/-- A fetch begun in a free place. -/
theorem beginFetch_after {s0 s : State} (a : Keeps s0 s) (b : Block) (sweep : Bool)
    (h : s0.repair.fetches.length < Config.fetchLimit) : Holds s0 (beginFetch s b sweep) := by
  have hl : s.repair.fetches.length < Config.fetchLimit := lt_of_le_of_lt a.fetches h
  refine a.holds.trans ?_
  unfold beginFetch
  dsimp only
  refine Holds.trans ?_ (lookupFetch_stays _ _).holds
  exact ⟨rfl, rfl, rfl, rfl, fun d => ⟨⟨d.roomy.1, d.roomy.2, d.roomy.3, d.roomy.4, d.roomy.5⟩,
    d.table, d.slots, d.current, d.pushes, by simpa using hl⟩⟩

theorem leaveGroup_keeps (s : State) (g : Nat) : Keeps s (leaveGroup s g) := by
  unfold leaveGroup
  repeat' first
    | with_reducible exact Keeps.refl _
    | refine Keeps.congr (t := s) ?_

theorem skipGroup_keeps (s : State) (g : Nat) : Keeps s (skipGroup s g) := by
  unfold skipGroup
  repeat' first
    | with_reducible exact Keeps.refl _
    | with_reducible apply (leaveGroup_keeps _ _).after
    | with_reducible apply (countUnverified_keeps _ _).after

theorem groupStep_keeps {s t : State} (h : groupStep s = some t) : Keeps s t := by
  have hg : ∀ g c, Keeps s { s with repair := { s.repair with group := g, cursor := c } } := fun _ _ =>
    (Keeps.refl s).congr
  unfold groupStep at h
  split at h
  · split at h
    · cases h
    · simp only [Option.some.injEq] at h
      subst h
      split
      · exact hg _ _
      · exact (hg _ _).trans (skipGroup_keeps _ _)
  · cases h

theorem advanceCursor_keeps (s : State) (g : Nat) : Keeps s (advanceCursor s g) := by
  have hc : ∀ c, Keeps s { s with repair := { s.repair with cursor := c } } := fun _ => (Keeps.refl s).congr
  unfold advanceCursor
  dsimp only
  split
  · exact hc _
  · exact (hc _).trans (leaveGroup_keeps _ _)

theorem takeCursor_holds (s : State) (g : Nat) (h : s.repair.fetches.length < Config.fetchLimit) :
    Holds s (takeCursor s g) := by
  unfold takeCursor
  split
  · dsimp only
    split
    · exact (advanceCursor_keeps _ _).holds
    · exact beginFetch_after (advanceCursor_keeps _ _) _ _ h
  · exact (skipGroup_keeps _ _).holds

theorem takeAgain_holds (s : State) (r : Retake) (h : s.repair.fetches.length < Config.fetchLimit) :
    Holds s (takeAgain s r) := by
  have hr : ∀ l, Keeps s { s with repair := { s.repair with retakes := l } } := fun _ => (Keeps.refl s).congr
  unfold takeAgain
  dsimp only
  split
  · exact (hr _).holds
  · split
    · exact beginFetch_after (hr _) _ _ h
    · exact ((hr _).trans (countUnverified_keeps _ _)).holds

theorem sweepStep_holds {s t : State} (l : s.repair.fetches.length < Config.fetchLimit)
    (h : sweepStep s = some t) : Holds s t := by
  unfold sweepStep at h
  split at h
  · split at h
    · cases h
      exact takeAgain_holds s _ l
    · obtain ⟨g, _, rfl⟩ := Option.map_eq_some_iff.1 h
      exact takeCursor_holds s g l
  · cases h

theorem fetchStep_holds {s t : State} (h : fetchStep s = some t) : Holds s t := by
  unfold fetchStep at h
  split at h
  · rename_i hc
    simp only [Bool.and_eq_true, decide_eq_true_eq] at hc
    split at h
    · cases h
      exact beginFetch_after (setRepairState_keeps _ _ _) _ _ hc.2
    · exact sweepStep_holds hc.2 h
  · cases h

theorem listSweepBlock_keeps (s : State) (b : Block) : Keeps s (listSweepBlock s b) := by
  unfold listSweepBlock
  split
  · exact Keeps.refl s
  · split
    · exact placeReady_keeps s b ‹_›
    · exact (Keeps.refl s).congr

theorem endUnanswered_keeps (s : State) (f : Fetch) : Keeps s (endUnanswered s f) := by
  unfold endUnanswered
  dsimp only
  repeat' first
    | with_reducible exact Keeps.refl _
    | with_reducible apply (listSweepBlock_keeps _ _).after
    | with_reducible apply (setRepairState_keeps _ _ _).after
    | with_reducible apply (countUnverified_keeps _ _).after
    | with_reducible apply (endFetch_keeps _ _ _).after
    | refine Keeps.congr (t := s) ?_
    | split

theorem closeWindow_stays (s : State) (f : Fetch) : Stays s (closeWindow s f) := by
  unfold closeWindow
  split
  · refine Keeps.stays ?_
    split
    · exact endNoAttempt_keeps _ _
    · exact ((setSlot_keeps s _ _ rfl).trans (updateFetch_keeps _ _ _)).trans (offerCommit_keeps _ _ _ _ _ _)
  · split
    · exact (settleFetch_keeps _ _).stays
    · split
      · exact lookupFetch_stays _ _
      · exact (endUnanswered_keeps _ _).stays

theorem queueCaughtUp_keeps (s : State) : Keeps s (queueCaughtUp s) := by
  unfold queueCaughtUp
  repeat' first
    | with_reducible exact Keeps.refl _
    | with_reducible apply (offer_keeps _ _ _).after
    | refine Keeps.congr (t := s) ?_
    | split

theorem endCatchUp_keeps (s : State) : Keeps s (endCatchUp s) :=
  (queueCaughtUp_keeps s).congr

theorem catchUpStep_keeps {s t : State} (h : catchUpStep s = some t) : Keeps s t := by
  unfold catchUpStep at h
  split at h
  · cases h
    exact endCatchUp_keeps s
  · cases h

theorem flushSlot_keeps (s : State) (i : Nat) : Keeps s (flushSlot s i) := by
  unfold flushSlot
  split
  · rename_i b v d o h
    refine Keeps.trans ?_ (issue_keeps _ _)
    refine setSlot_after (Keeps.refl s) _ _ fun _ c hc => .inl ?_
    have : c = b := by simpa [Slot.currentBlock] using hc.symm
    subst this
    exact slotAt_current (by rw [h]; rfl)
  all_goals exact Keeps.refl s

theorem flusherStep_keeps {s t : State} (h : flusherStep s = some t) : Keeps s t := by
  unfold flusherStep at h
  split at h
  · obtain ⟨x, _, rfl⟩ := Option.map_eq_some_iff.1 h
    exact flushSlot_keeps s _
  · cases h

theorem drainStep_keeps {s t : State} (h : drainStep s = some t) : Keeps s t := by
  unfold drainStep at h
  split at h
  · cases h
    refine (Keeps.refl s).congr (table := ?_)
    simp only [tagsOf, List.map_map]
    refine List.map_congr_left fun e _ => ?_
    simp only [Function.comp, pruneDrain]
    split <;> rfl
  · cases h

theorem flushAnswerStep_keeps {s t : State} (h : flushAnswerStep s = some t) : Keeps s t := by
  unfold flushAnswerStep at h
  obtain ⟨e, _, rfl⟩ := Option.map_eq_some_iff.1 h
  exact ((offer_keeps _ _ _).trans (recordSent_keeps _ _ _ _)).trans (finishEntry_keeps _ _ _)

theorem orElse_some {α : Type} {a : Option α} {b : Unit → Option α} {x : α}
    (h : a.orElse b = some x) : a = some x ∨ b () = some x := by
  cases a with
  | none => exact .inr h
  | some y => exact .inl h

/-- Whichever engine works, the state stays sound. -/
theorem engineStep_holds {s t : State} (h : engineStep s = some t) : Holds s t := by
  unfold engineStep at h
  rcases orElse_some h with h | h
  · exact (drainStep_keeps h).holds
  rcases orElse_some h with h | h
  · exact (flushAnswerStep_keeps h).holds
  rcases orElse_some h with h | h
  · exact (flusherStep_keeps h).holds
  rcases orElse_some h with h | h
  · exact (groupStep_keeps h).holds
  rcases orElse_some h with h | h
  · exact fetchStep_holds h
  rcases orElse_some h with h | h
  · exact pushStep_holds h
  · exact (catchUpStep_keeps h).holds

theorem settleWithin_holds (n : Nat) : ∀ s, Holds s (settleWithin n s) := by
  induction n with
  | zero => exact Holds.refl
  | succ n ih =>
    intro s
    unfold settleWithin
    split
    · exact Holds.refl s
    · exact (engineStep_holds ‹_›).trans (ih _)

theorem settle_holds (s : State) : Holds s (settle s) := settleWithin_holds _ s

end Sys2Proof.Machine
end

