-- ==== Sys2Proof/Laws/FrameMem.lean ====
section
/-! SUPPORT. What membership leaves alone. -/

-- One proof after another: side by side, the proofs of this file wait on each other and take a thread each.
set_option Elab.async false

namespace Sys2Proof.Machine

theorem refuseWrites_keeps (s : State) : Keeps s (refuseWrites s) :=
  keeps_foldl _ (fun _ _ => nackWrite_keeps _ _ _) _ _

theorem expireWrites_keeps (s : State) : Keeps s (expireWrites s) := by
  refine keeps_foldl _ (fun u e => ?_) _ _
  refine Keeps.trans ?_ (expireEntry_keeps _ _)
  exact updateEntry_keeps _ _ _ fun _ => rfl

theorem expireKind_keeps (s : State) (k : EntryKind) : Keeps s (expireKind s k) :=
  keeps_foldl _ (fun _ _ => expireEntry_keeps _ _) _ _

theorem endRequests_keeps (s : State) (resetting : Bool) : Keeps s (endRequests s resetting) := by
  unfold endRequests
  dsimp only
  repeat' first
    | with_reducible exact Keeps.refl _
    | with_reducible apply (expireKind_keeps _ _).after
    | with_reducible apply (expireWrites_keeps _).after
    | with_reducible apply (refuseWrites_keeps _).after
    | with_reducible apply (closeAnswers_keeps _ _ _ _).after
    | refine Keeps.congr (t := s) ?_
    | split

theorem endOwnWork_keeps (s : State) : Keeps s (endOwnWork s) := by
  have h : ∀ (u : State) f, Keeps u { u with repair := { u.repair with list := u.repair.list.map f } } :=
    fun u _ => (Keeps.refl u).congr
  exact ((((endPushes_keeps s (fun _ => true) .expired).trans
    (endFetches_keeps _ (fun _ => true) .expired)).trans (expireKind_keeps _ _)).trans
    (expireKind_keeps _ _)).trans (h _ _)

theorem abandonCache_keeps (s : State) : Keeps s (abandonCache s) := (freeHeld_keeps s fun _ => true).congr

theorem stopServiceTimers_keeps (s : State) : Keeps s (stopServiceTimers s) := by
  unfold stopServiceTimers
  repeat' first
    | with_reducible exact Keeps.refl _
    | refine Keeps.congr (t := s) ?_

theorem leaveService_keeps (s : State) (next : StationState) : Keeps s (leaveService s next) := by
  have h := keeps_member s
  exact (((((h _).trans (withdraw_keeps _ _ _)).trans (endRequests_keeps _ _)).trans (endOwnWork_keeps _)).trans
    (abandonCache_keeps _)).trans (stopServiceTimers_keeps _)

theorem queueOwnDown_keeps (s : State) : Keeps s (queueOwnDown s) := by
  have h := keeps_member s
  unfold queueOwnDown
  split
  · exact (h _).trans (offer_keeps _ _ _)
  · exact h _

theorem enterOut_keeps (s : State) (r : OutReason) : Keeps s (enterOut s r) := by
  have h := fun m => (leaveService_keeps s (.out r)).trans (keeps_member _ m)
  unfold enterOut
  split
  · exact Keeps.refl s
  · dsimp only
    split
    · exact (h _).trans (queueOwnDown_keeps _)
    · exact h _

theorem resetBlocks_stays (s : State) (n : Bool) : Stays s (resetBlocks s n) := by
  refine ⟨rfl, rfl, rfl, rfl, fun _ => ?_, fun _ => ⟨?_, ?_⟩, Nat.zero_le _, Nat.zero_le _,
    fun r => ⟨r.1, r.2, Nat.zero_le _, Nat.zero_le _, Nat.zero_le _⟩, fun _ => ?_⟩
  · exact List.length_replicate
  · exact Nat.zero_le _
  · exact List.nodup_nil
  · intro i j b hi _
    exfalso
    have : ∀ x ∈ (resetBlocks s n).cache.slots, x = .free := fun x hx => List.eq_of_mem_replicate hx
    cases hx : (resetBlocks s n).cache.slots[i]? with
    | none => simp [hx] at hi
    | some x =>
      have := this x (List.mem_of_getElem? hx)
      subst this
      simp [hx, Slot.currentBlock] at hi

theorem enterStarting_keeps (s : State) : Keeps s (enterStarting s) := by
  unfold enterStarting
  split
  · exact Keeps.trans (Keeps.congr (Keeps.refl s)) (startAttempt_keeps _ _)
  · exact (Keeps.refl s).congr

theorem stationRestart_stays (s : State) (n : Bool) : Stays s (stationRestart s n) := by
  have h : ∀ a, Keeps s { s with bus := { s.bus with queue := s.bus.queue.map orphaned, accepting := a } } := by
    intro a
    have hl : lowClassCount (s.bus.queue.map orphaned) = lowClassCount s.bus.queue := by
      simp only [lowClassCount, List.countP_map]
      rfl
    exact ⟨rfl, rfl, rfl, rfl, id, rfl, le_refl _, le_refl _,
      fun r => ⟨by simpa using r.1, hl.le.trans r.2, r.3, r.4, r.5⟩, id⟩
  exact ((h _).stays.trans (resetBlocks_stays _ _)).trans (enterStarting_keeps _).stays

theorem drainCheck_stays (s : State) : Stays s (drainCheck s) := by
  unfold drainCheck
  repeat' first
    | with_reducible exact Stays.refl _
    | with_reducible apply (stationRestart_stays _ _).after
    | refine Stays.trans (t := s) ?_ (Keeps.congr (t := s) (Keeps.refl _)).stays
    | split

theorem presentAgain_keeps (s : State) : Keeps s (presentAgain s) := keeps_member s _

theorem queuePresent_keeps (s : State) : Keeps s (queuePresent s) := by
  unfold queuePresent
  split
  · exact offer_keeps _ _ _
  · exact presentAgain_keeps s

theorem enterListening_keeps (s : State) : Keeps s (enterListening s) := by
  unfold enterListening
  repeat' first
    | with_reducible exact Keeps.refl _
    | refine Keeps.congr (t := s) ?_

theorem enterForming_keeps (s : State) : Keeps s (enterForming s) := by
  have h := keeps_member s
  exact (h _).trans (queuePresent_keeps _)

theorem fixRoster_keeps (s : State) (mark : Mark) : Keeps s (fixRoster s mark) := by
  unfold fixRoster
  repeat' first
    | with_reducible exact Keeps.refl _
    | refine Keeps.congr (t := s) ?_

theorem endFormation_keeps (s : State) : Keeps s (endFormation s) :=
  (withdraw_keeps s (forPurpose .present) .plain).trans (keeps_member _ _)

theorem closeFormation_keeps (s : State) : Keeps s (closeFormation s) := by
  have h := (endFormation_keeps s).trans (fixRoster_keeps (endFormation s) s.member.candidates)
  unfold closeFormation
  dsimp only
  split
  · exact h.trans (beginCatchUp_keeps _)
  · exact h.trans (keeps_member _ _)

theorem queueRosterQuery_keeps (s : State) : Keeps s (queueRosterQuery s) := by
  have h : ∀ m, Keeps s { s with member := m } := fun _ => (Keeps.refl s).congr
  unfold queueRosterQuery
  split
  · exact (h _).trans (offer_keeps _ _ _)
  · exact h _

theorem adopt_keeps (s : State) (mark : Mark) (conf : Option Configuration) : Keeps s (adopt s mark conf) := by
  have h1 := endFormation_keeps s
  have h2 := h1.trans (fixRoster_keeps _ mark)
  have h3 : ∀ m, Keeps s { fixRoster (endFormation s) mark with member := m } := fun _ => h2.trans (keeps_member _ _)
  have key : ∀ (c : Prop) [Decidable c] m, Keeps s (if c then
      { endFormation s with member := m }
      else
        match conf with
        | some _ => beginCatchUp (fixRoster (endFormation s) mark)
        | none => beginCatchUp (queueRosterQuery { fixRoster (endFormation s) mark with
            member := { (fixRoster (endFormation s) mark).member with checkPending := true } })) := by
    intro c _ m
    split
    · exact h1.trans (keeps_member _ _)
    · split
      · exact h2.trans (beginCatchUp_keeps _)
      · exact ((h3 _).trans (queueRosterQuery_keeps _)).trans (beginCatchUp_keeps _)
  exact key _ _

theorem becomeSpectator_keeps (s : State) : Keeps s (becomeSpectator s) :=
  (leaveService_keeps s .spectator).trans (keeps_member _ _)

theorem expireRosterWait_keeps (s : State) : Keeps s (expireRosterWait s) := by
  have h := keeps_member s
  exact (h _).trans (offer_keeps _ _ _)

theorem beginRosterWait_keeps (s : State) : Keeps s (beginRosterWait s) := by
  have h := keeps_member s
  unfold beginRosterWait
  split
  · dsimp only
    split
    · exact (h _).trans (expireRosterWait_keeps _)
    · exact h _
  · exact Keeps.refl s

theorem rosterCancels_keeps (s : State) (src : Source) : Keeps s (rosterCancels s src) := by
  have h := keeps_member s
  unfold rosterCancels
  split
  · exact (h _).trans (withdraw_keeps _ _ _)
  · exact Keeps.refl s

theorem rosterChecks_keeps (s : State) (src : Source) (conf : Configuration) : Keeps s (rosterChecks s src conf) := by
  unfold rosterChecks
  repeat' first
    | with_reducible exact Keeps.refl _
    | with_reducible apply (becomeSpectator_keeps _).after
    | refine Keeps.congr (t := s) ?_
    | split

theorem takeRoster_keeps (s : State) (src : Source) (conf : Configuration) : Keeps s (takeRoster s src conf) := by
  unfold takeRoster
  repeat' first
    | with_reducible exact Keeps.refl _
    | with_reducible apply (rosterChecks_keeps _ _ _).after
    | with_reducible apply (rosterCancels_keeps _ _).after

theorem presentForming_keeps (s : State) (src : Source) (c : Mark) (conf : Configuration) :
    Keeps s (presentForming s src c conf) := by
  have h := keeps_member s
  unfold presentForming
  split
  · have k : ∀ (c : Prop) [Decidable c] m, Keeps s (if c then queuePresent { s with member := m }
        else { s with member := m }) := by
      intro c _ m
      split
      · exact (h m).trans (queuePresent_keeps _)
      · exact h m
    exact k _ _
  · exact countMismatched_keeps s

theorem takePresent_keeps (s : State) (src : Source) (candidates : Mark) (conf : Configuration) : Keeps s (takePresent s src candidates conf) := by
  unfold takePresent
  repeat' first
    | with_reducible exact Keeps.refl _
    | with_reducible apply (presentForming_keeps _ _ _ _).after
    | with_reducible apply (beginRosterWait_keeps _).after
    | with_reducible apply (enterForming_keeps _).after
    | refine Keeps.congr (t := s) ?_
    | split

theorem takeRosterQuery_keeps (s : State) (src : Source) : Keeps s (takeRosterQuery s src) := by
  unfold takeRosterQuery
  repeat' first
    | with_reducible exact Keeps.refl _
    | with_reducible apply (beginRosterWait_keeps _).after
    | refine Keeps.congr (t := s) ?_
    | split

theorem takePeerDown_keeps (s : State) (src : Source) (named : StationNo) : Keeps s (takePeerDown s src named) := by
  unfold takePeerDown
  dsimp only
  repeat' first
    | with_reducible exact Keeps.refl _
    | with_reducible apply (markAbsent_keeps _ _).after
    | with_reducible apply (beginCatchUp_keeps _).after
    | with_reducible apply (withdraw_keeps _ _ _).after
    | refine Keeps.congr (t := s) ?_
    | split

theorem takeRejoin_keeps (s : State) (src : Source) : Keeps s (takeRejoin s src) := by
  have h : ∀ (u : State) f, Keeps u { u with replay := { u.replay with pool := u.replay.pool.map f } } := by
    intro u f
    exact (Keeps.refl u).congr
  unfold takeRejoin
  split
  · dsimp only
    split
    · exact ((updatePeer_keeps _ _ _).trans (h _ _)).trans (queueReplayDone_keeps _ _)
    · exact (updatePeer_keeps _ _ _).trans (h _ _)
  · exact Keeps.refl s

theorem takeCaughtUp_keeps (s : State) (src : Source) : Keeps s (takeCaughtUp s src) := by
  unfold takeCaughtUp
  repeat' first
    | with_reducible exact Keeps.refl _
    | with_reducible apply (renotice_keeps _ _).after
    | with_reducible apply (updatePeer_keeps _ _ _).after
    | refine Keeps.congr (t := s) ?_
    | split

theorem clearMisses_keeps (s : State) (src : Source) : Keeps s (clearMisses s src) := by
  unfold clearMisses
  repeat' first
    | with_reducible exact Keeps.refl _
    | with_reducible apply (renotice_keeps _ _).after
    | with_reducible apply (updatePeer_keeps _ _ _).after
    | refine Keeps.congr (t := s) ?_
    | split

theorem takeReplayDone_keeps (s : State) (src : Source) (sweep : Bool) : Keeps s (takeReplayDone s src sweep) := by
  unfold takeReplayDone
  dsimp only
  repeat' first
    | with_reducible exact Keeps.refl _
    | with_reducible apply (unawait_keeps _ _).after
    | with_reducible apply (addGroups_keeps _ _).after
    | refine Keeps.congr (t := s) ?_
    | split

/-- A STATION_RESET brings the levels at the strap pins; beside them it keeps the state sound. -/
theorem takeStationReset_holds (p : Straps) (s : State) : Holds { s with pins := p } (takeStationReset p s) := by
  have h : Holds { s with pins := p } (drainCheck (settle (leaveService { s with pins := p } .resetting))) :=
    ((leaveService_keeps _ .resetting).holds.trans (settle_holds _)).trans (drainCheck_stays _).holds
  unfold takeStationReset
  dsimp only
  split
  · exact Holds.refl _
  · exact Holds.refl _
  · exact h
  · exact h
  · exact h
  · exact h
  · exact h
  · split
    · exact (stationRestart_stays _ _).holds
    · exact h

theorem takeStatusQuery_keeps (s : State) (src : Source) (t : Tag) : Keeps s (takeStatusQuery s src t) := by
  unfold takeStatusQuery
  repeat' first
    | with_reducible exact Keeps.refl _
    | with_reducible apply (offer_keeps _ _ _).after

theorem countRead_keeps (s : State) (b : Block) (o : ReadOutcome) (quiet : Bool) : Keeps s (countRead s b o quiet) := by
  unfold countRead
  repeat' first
    | with_reducible exact Keeps.refl _
    | with_reducible apply (listBlock_keeps _ _).after
    | with_reducible apply (countUncorrectable_keeps _).after
    | with_reducible apply (countCorrected_keeps _).after
    | refine Keeps.congr (t := s) ?_
    | split

theorem movePendings_keeps (s : State) (b : Block) : Keeps s (movePendings s b) := (Keeps.refl s).congr

theorem takePendings_keeps (s : State) (b : Block) (k : ReadKind) : Keeps s (takePendings s b k) := by
  unfold takePendings
  repeat' first
    | with_reducible exact Keeps.refl _
    | refine Keeps.congr (t := s) ?_

theorem decidePendings_keeps (s : State) (b : Block) (k : ReadKind) (a : HeldVersion) : Keeps s (decidePendings s b k a) := by
  unfold decidePendings
  repeat' first
    | with_reducible exact Keeps.refl _
    | with_reducible apply (takePendings_keeps _ _ _).after
    | with_reducible apply (decideCommit_keeps _ _ _ _ _ _ _).after
    | with_reducible refine (keeps_foldl _ (fun _ _ => ?_) _ _).after ?_

theorem settleFill_keeps (s : State) (b : Block) (i : Nat) (o : ReadOutcome) : Keeps s (settleFill s b i o) := by
  unfold settleFill
  split
  · rename_i b' h
    split
    · rename_i hb
      subst hb
      have hc : CurrentAt s.cache.slots i b' := .inl (slotAt_current (by rw [h]; rfl))
      split
      · exact setSlot_keeps _ _ _ rfl
      · split
        · exact (makeDirty_after (Keeps.refl s) _ _ _ _ fun _ => hc).trans (countRefresh_keeps _)
        · exact makeClean_after (Keeps.refl s) _ _ _ _ fun _ => hc
    · exact Keeps.refl s
  all_goals exact Keeps.refl s

theorem refreshHeader_keeps (s : State) (b : Block) (v : Version) (d : Data) : Keeps s (refreshHeader s b v d) := by
  unfold refreshHeader
  split
  · rename_i h
    split
    · exact Keeps.refl s
    · exact (makeDirty_after (Keeps.refl s) _ _ _ _ fun _ => .inr (currentSlot_none h)).trans (countRefresh_keeps _)
  · rename_i i h
    split
    · rename_i b' v' d' r hs
      split
      · refine (makeDirty_after (Keeps.refl s) _ _ _ _ fun _ => .inl ?_).trans (countRefresh_keeps _)
        exact slotAt_current (by rw [hs]; rfl)
      · exact Keeps.refl s
    all_goals exact Keeps.refl s

theorem settleSlot_keeps (s : State) (k : ReadKind) (b : Block) (i : Nat) (o : ReadOutcome) (accepted : Bool) : Keeps s (settleSlot s k b i o accepted) := by
  unfold settleSlot
  repeat' first
    | with_reducible exact Keeps.refl _
    | with_reducible apply (refreshHeader_keeps _ _ _ _).after
    | with_reducible apply (settleFill_keeps _ _ _ _).after
    | refine Keeps.congr (t := s) ?_
    | split

theorem takeWaiters_keeps (s : State) (b : Block) (k : ReadKind) : Keeps s (takeWaiters s b k) := by
  unfold takeWaiters
  repeat' first
    | with_reducible exact Keeps.refl _
    | refine Keeps.congr (t := s) ?_

theorem answerOther_stays (b : Block) (a : HeldVersion) (s : State) (u : LookupUser) : Stays s (answerOther b a s u) := by
  unfold answerOther
  repeat' first
    | with_reducible exact Stays.refl _
    | with_reducible apply (fetchAnswered_stays _ _ _).after
    | with_reducible apply (pushAnswered_stays _ _).after
    | with_reducible apply (replayCompare_keeps _ _ _ _ _ _).stays.after
    | with_reducible apply (staleTest_keeps _ _ _ _).stays.after
    | with_reducible apply (copyAnswered_keeps _ _ _).stays.after
    | refine Stays.trans (t := s) ?_ (Keeps.congr (t := s) (Keeps.refl _)).stays
    | split

theorem storeAnswer_keeps (a : HeldVersion) (s : State) (u : LookupUser) : Keeps s (storeAnswer a s u) := by
  unfold storeAnswer
  repeat' first
    | with_reducible exact Keeps.refl _
    | with_reducible apply (storeOwnVersion_keeps _ _ _).after
    | refine Keeps.congr (t := s) ?_
    | split

theorem answerWaiters_stays (s : State) (b : Block) (us : List LookupUser) (a : HeldVersion) :
    Stays s (answerWaiters s b us a) := by
  unfold answerWaiters
  dsimp only
  refine Stays.trans ?_ (keeps_foldl decideFollow (fun u x => decideFollow_keeps u x) _ _).stays
  refine Stays.trans ?_ (keeps_foldl afterLookup (fun u x => afterLookup_keeps u x) _ _).stays
  refine Stays.trans ?_ (stays_foldl (answerOther b a) (fun u x => answerOther_stays b a u x) us _)
  exact (keeps_foldl (storeAnswer a) (fun u x => storeAnswer_keeps a u x) us s).stays

theorem completeRead_stays (s : State) (k : ReadKind) (b : Block) (i : Nat) (o : ReadOutcome) (q : Bool) :
    Stays s (completeRead s k b i o q) := by
  have h := (countRead_keeps s b o q).trans (takeWaiters_keeps _ b k)
  unfold completeRead
  dsimp only
  split
  · exact (h.trans (movePendings_keeps _ _)).stays.trans (answerWaiters_stays _ _ _ _)
  · exact ((h.trans (decidePendings_keeps _ _ _ _)).trans (settleSlot_keeps _ _ _ _ _ _)).stays.trans
      (answerWaiters_stays _ _ _ _)

theorem nextCommand_keeps (s : State) : Keeps s (nextCommand s) := by
  have h : Keeps s { s with port := { s.port with
      queue := s.port.queue.drop 1, retry := 0, phase := .idle, timer := none } } :=
    ⟨rfl, rfl, rfl, rfl, id, rfl, le_refl _, le_refl _,
      fun r => ⟨r.1, r.2, (by simp : _ ≤ s.port.queue.length).trans r.3, r.4, r.5⟩, id⟩
  exact (h.trans (refillQueue_keeps _)).trans (serveHead_keeps _)

theorem endCommand_stays (s : State) (c : MediaCmd) : Stays s (endCommand s c) := by
  unfold endCommand
  repeat' first
    | with_reducible exact Stays.refl _
    | with_reducible apply (completeRead_stays _ _ _ _ _ _).after
    | refine Stays.trans (t := s) ?_ (Keeps.congr (t := s) (Keeps.refl _)).stays
    | split

theorem declareMediaDown_stays (s : State) : Stays s (declareMediaDown s) := by
  have h : ∀ (p : Port) w, p.queue = [] → Keeps s { s with port := p, cache := { s.cache with waiting := w } } :=
    fun p w hp => ⟨rfl, rfl, rfl, rfl, id, rfl, le_refl _, le_refl _,
      fun r => ⟨r.1, r.2, by simp [hp], r.4, r.5⟩, id⟩
  unfold declareMediaDown
  dsimp only
  refine Stays.trans ?_ (enterOut_keeps _ _).stays
  exact (h _ _ rfl).stays.trans (stays_foldl endCommand (fun u x => endCommand_stays u x) _ _)

theorem finishRead_stays (s : State) (c : MediaCmd) (o : ReadOutcome) : Stays s (finishRead s c o) := by
  unfold finishRead
  repeat' first
    | with_reducible exact Stays.refl _
    | with_reducible apply (nextCommand_keeps _).stays.after
    | with_reducible apply (completeRead_stays _ _ _ _ _ _).after
    | refine Stays.trans (t := s) ?_ (Keeps.congr (t := s) (Keeps.refl _)).stays
    | split

theorem attemptEndsFailed_stays (s : State) : Stays s (attemptEndsFailed s) := by
  have h : ∀ p : Port, p.queue = s.port.queue → Keeps s { s with port := p } := fun p hp =>
    (Keeps.refl s).congr (port := hp)
  unfold attemptEndsFailed
  split
  · exact Stays.refl s
  · dsimp only
    split
    · exact ((h _ (by rfl)).trans (startAttempt_keeps _ _)).stays
    · split
      · exact (h _ (by rfl)).stays.trans (declareMediaDown_stays _)
      · exact (h _ (by rfl)).stays.trans (finishRead_stays _ _ _)

theorem finishWrite_keeps (s : State) (b : Block) (v : Version) (i n : Nat) : Keeps s (finishWrite s b v i n) := by
  unfold finishWrite
  dsimp only
  refine Keeps.trans ?_ (recordWritten_keeps _ _ _ _)
  split
  · exact nextCommand_keeps s
  · exact (nextCommand_keeps s).trans (countCorrected_keeps _)

theorem probeAnswered_keeps (s : State) : Keeps s (probeAnswered s) := by
  have h : ∀ p : Port, p.queue = s.port.queue → Keeps s { s with port := p } := fun p hp =>
    (Keeps.refl s).congr (port := hp)
  exact (h _ (by rfl)).trans (enterListening_keeps _)

end Sys2Proof.Machine
end

