-- ==== Sys2Proof/Laws/FrameExec.lean ====
section
/-! SUPPORT. What the line's happenings, heard frames and timers leave alone. -/

-- One proof after another: side by side, the proofs of this file wait on each other and take a thread each.
set_option Elab.async false

namespace Sys2Proof.Machine

theorem lowClassCount_atIndex (q : List TxFrame) (i : Nat) (f : TxFrame → TxFrame) (hf : ∀ x, (f x).frame = x.frame) :
    lowClassCount (atIndex q i f) = lowClassCount q := by
  unfold atIndex
  split
  · rfl
  · rename_i x hx
    obtain ⟨hi, rfl⟩ := List.getElem?_eq_some_iff.1 hx
    have key : ∀ l : List TxFrame,
        lowClassCount l = (l.map TxFrame.frame).countP fun g => decide (kindClass g.kind ≠ 0) := by
      intro l
      rw [List.countP_map]
      rfl
    rw [key, key, List.map_set, hf]
    congr 1
    rw [← List.getElem_map TxFrame.frame (h := by simpa using hi)]
    exact List.set_getElem_self _

theorem length_atIndex (q : List TxFrame) (i : Nat) (f : TxFrame → TxFrame) :
    (atIndex q i f).length = q.length := by
  unfold atIndex
  split <;> simp

/-- The bus changed, its queue at most at one frame whose contents stay. -/
theorem keeps_bus_atIndex (s : State) (i : Nat) (f : TxFrame → TxFrame) (hf : ∀ x, (f x).frame = x.frame) (x : Bus)
    (hx : x.queue = atIndex s.bus.queue i f) : Keeps s { s with bus := x } :=
  ⟨rfl, rfl, rfl, rfl, id, rfl, le_refl _, le_refl _, fun r =>
    ⟨by simpa [hx, length_atIndex] using r.1, by simpa [hx, lowClassCount_atIndex _ _ _ hf] using r.2, r.3, r.4, r.5⟩, id⟩

/-- The bus changed, its queue not. -/
theorem keeps_bus (s : State) (x : Bus) (hx : x.queue = s.bus.queue) : Keeps s { s with bus := x } :=
  (Keeps.refl s).congr (bus := hx)

/-- A frame taken out of the queue. -/
theorem setQueue_erase_keeps (s : State) (q : List TxFrame) (hq : q = s.bus.queue) (i : Nat) :
    Keeps s (setQueue s (q.eraseIdx i)) := by
  subst hq
  refine setQueue_keeps _ _ ?_ ?_
  · exact (List.eraseIdx_sublist _ _).length_le
  · exact (List.eraseIdx_sublist _ _).countP_le

theorem takeIdle_keeps (s : State) : Keeps s (takeIdle s) := by
  unfold takeIdle
  split
  · exact keeps_bus_atIndex s _ contend (fun x => by unfold contend; split <;> rfl) _ rfl
  · exact Keeps.refl s

theorem winArbitration_keeps (s : State) (i : Nat) : Keeps s (winArbitration s i) :=
  keeps_bus_atIndex s i win (fun x => by unfold win; split <;> rfl) _ rfl

theorem loseArbitration_keeps (s : State) (i : Nat) : Keeps s (loseArbitration s i) := by
  have h := keeps_bus s { s.bus with line := .quiet } rfl
  unfold loseArbitration
  dsimp only
  split
  · exact h
  · split
    · split
      · exact (h.trans (setQueue_erase_keeps _ _ rfl _)).trans (afterWithdrawal_keeps _ _ _)
      · refine keeps_bus_atIndex s i _ ?_ _ rfl
        intro x; rfl
    · exact h

theorem rejoinSent_keeps (s : State) (serial : Nat) : Keeps s (rejoinSent s serial) := by
  unfold rejoinSent
  dsimp only
  repeat' first
    | with_reducible exact Keeps.refl _
    | refine Keeps.congr (t := s) ?_
    | split

theorem onSent_keeps (s : State) (f : TxFrame) : Keeps s (onSent s f) := by
  unfold onSent
  repeat' first
    | with_reducible exact Keeps.refl _
    | with_reducible apply (rejoinSent_keeps _ _).after
    | with_reducible apply (updatePush_keeps _ _ _).after
    | with_reducible apply (updateFetch_keeps _ _ _).after
    | refine Keeps.congr (t := s) ?_
    | split

theorem replayDoneDropped_keeps (s : State) (p : StationNo) (sweep : Bool) : Keeps s (replayDoneDropped s p sweep) := by
  unfold replayDoneDropped
  repeat' first
    | with_reducible exact Keeps.refl _
    | refine Keeps.congr (t := s) ?_

theorem onDropped_keeps (s : State) (f : TxFrame) : Keeps s (onDropped s f) := by
  unfold onDropped
  repeat' first
    | with_reducible exact Keeps.refl _
    | with_reducible apply (replayDoneDropped_keeps _ _ _).after
    | with_reducible apply (endNoAttempt_keeps _ _).after
    | with_reducible apply (postponePush_keeps _ _).after
    | refine Keeps.congr (t := s) ?_
    | split

theorem frameGone_keeps (s : State) (i : Nat) (f : TxFrame) : Keeps s (frameGone s i f) := by
  unfold frameGone
  dsimp only
  exact ((setQueue_erase_keeps s _ rfl i).trans (keeps_bus _ _ (by rfl))).trans (onSent_keeps _ _)

theorem attemptLost_keeps (s : State) (i : Nat) (f : TxFrame) : Keeps s (attemptLost s i f) := by
  have h := keeps_bus s { s.bus with line := .quiet } rfl
  unfold attemptLost
  dsimp only
  split
  · refine keeps_bus_atIndex s i _ ?_ _ rfl
    intro x; rfl
  · exact ((h.trans (setQueue_erase_keeps _ _ rfl _)).trans (countDropped_keeps _)).trans (onDropped_keeps _ _)

theorem whileDriving_keeps (s : State) (act : State → Nat → TxFrame → State)
    (h : ∀ u i f, Keeps u (act u i f)) : Keeps s (whileDriving s act) := by
  unfold whileDriving
  repeat' split
  all_goals first
    | exact Keeps.refl s
    | exact h _ _ _

/-- What hearing a frame keeps, its kind's own effects keep. -/
theorem receive_holds (s : State) (f : Frame) (act : State → State) (h : ∀ u, Holds u (act u)) :
    Holds s (receive s f act) := by
  have hb := (keeps_bus s { s.bus with echo := none } rfl).holds
  unfold receive
  dsimp only
  split
  · exact hb
  · split
    · exact hb.trans (enterOut_keeps _ _).holds
    · split
      · exact hb
      · split
        · exact hb.trans (adopt_keeps _ _ _).holds
        · exact hb.trans (h _)

theorem onEntry_holds (s : State) (t : Tag) (k : EntryKind) (act : State → Entry → State)
    (h : ∀ u e, Holds u (act u e)) : Holds s (onEntry s t k act) := by
  unfold onEntry
  repeat' split
  all_goals first
    | exact Holds.refl s
    | exact h _ _

theorem atWaitEnd_holds (s : State) (e : Entry) (act : State → State) (h : ∀ u, Holds u (act u)) :
    Holds s (atWaitEnd s e act) := by
  unfold atWaitEnd
  split
  · exact Holds.refl s
  · exact (reach_keeps s _).holds.trans (h _)

theorem endWindow_stays (s : State) (t : Tag) (e : Entry) : Stays s (endWindow s t e) := by
  have h : Keeps s (updateEntry (reportWindow s e) t fun x => { x with ackWindow := none }) :=
    (reportWindow_keeps s e).trans (updateEntry_keeps _ _ _ fun _ => rfl)
  unfold endWindow
  dsimp only
  split
  · exact h.stays.trans (dropEntry_stays _ _)
  · exact h.stays

theorem expireWrite_keeps (s : State) (e : Entry) : Keeps s (expireWrite s e) := by
  unfold expireWrite
  dsimp only
  repeat' first
    | with_reducible exact Keeps.refl _
    | with_reducible apply (listBlock_keeps _ _).after
    | with_reducible apply (freeHeld_keeps _ _).after
    | with_reducible apply (expireEntry_keeps _ _).after
    | refine Keeps.congr (t := s) ?_
    | split

theorem expireOwnFetch_keeps (s : State) (e : Entry) : Keeps s (expireOwnFetch s e) := by
  unfold expireOwnFetch
  repeat' first
    | with_reducible exact Keeps.refl _
    | with_reducible apply (setAside_keeps _ _ _ _ _).after
    | with_reducible apply (dropFetchCommit_keeps _ _).after
    | with_reducible apply (expireEntry_keeps _ _).after
    | refine Keeps.congr (t := s) ?_
    | split

theorem expireOwnReplay_keeps (s : State) (e : Entry) : Keeps s (expireOwnReplay s e) := by
  unfold expireOwnReplay
  repeat' first
    | with_reducible exact Keeps.refl _
    | with_reducible apply (endPush_keeps _ _ _ _).after
    | with_reducible apply (expireEntry_keeps _ _).after
    | refine Keeps.congr (t := s) ?_
    | split

theorem endLifetime_keeps (s : State) (e : Entry) : Keeps s (endLifetime s e) := by
  unfold endLifetime
  repeat' first
    | with_reducible exact Keeps.refl _
    | with_reducible apply (expireOwnReplay_keeps _ _).after
    | with_reducible apply (expireOwnFetch_keeps _ _).after
    | with_reducible apply (expireWrite_keeps _ _).after
    | with_reducible apply (expireEntry_keeps _ _).after
    | refine Keeps.congr (t := s) ?_
    | split

theorem endQuiet_keeps (s : State) : Keeps s (endQuiet s) := by
  unfold endQuiet
  split
  · exact keeps_member _ _
  · exact closeFormation_keeps s

theorem endAnswerWait_stays (s : State) (p : Push) : Stays s (endAnswerWait s p) := by
  have h := (reportMiss_keeps s p.peer).stays
  unfold endAnswerWait
  dsimp only
  split
  · exact h
  · rename_i q hq
    split
    · split
      · refine h.trans (lookupPush_stays _ _ fun r hr ht => ?_)
        rw [findPush_id hq, hq] at hr
        cases hr
        exact ht
      · exact h.trans (postponePush_keeps _ _).stays
    · exact h.trans (endPush_keeps _ _ _ _).stays

theorem reofferReplayDone_keeps (s : State) (r : Reoffer) : Keeps s (reofferReplayDone s r) := by
  unfold reofferReplayDone
  repeat' first
    | with_reducible exact Keeps.refl _
    | with_reducible apply (offerReplayDone_keeps _ _ _).after
    | refine Keeps.congr (t := s) ?_
    | split

theorem dropAwaited_keeps (s : State) (p : StationNo) : Keeps s (dropAwaited s p) := by
  unfold dropAwaited
  dsimp only
  repeat' first
    | with_reducible exact Keeps.refl _
    | with_reducible apply (declareDown_keeps _ _).after
    | with_reducible apply (unawait_keeps _ _).after
    | with_reducible apply (addGroups_keeps _ _).after
    | refine Keeps.congr (t := s) ?_
    | split

end Sys2Proof.Machine
end

