-- ==== Sys2Proof/Laws/Memory.lean ====
section
/-! SUPPORT. The record memory: its canonical form is kept by every operation and holds at reset, and what the media port's operations keep besides. -/

namespace Sys2Proof.Machine

/-! ### The canonical form -/

theorem insertRecord_mem {a : Nat} {r : Record} {m : List (Nat × Record)} {c : Nat × Record}
    (h : c ∈ insertRecord a r m) : c = (a, r) ∨ c ∈ m := by
  induction m with
  | nil => left; simpa [insertRecord] using h
  | cons d m ih =>
    unfold insertRecord at h
    split at h
    · rcases List.mem_cons.1 h with h | h
      · exact .inl h
      · exact .inr h
    · split at h
      · rcases List.mem_cons.1 h with h | h
        · exact .inl h
        · exact .inr (List.mem_cons_of_mem _ h)
      · rcases List.mem_cons.1 h with h | h
        · exact .inr (h ▸ List.mem_cons_self)
        · rcases ih h with h | h
          · exact .inl h
          · exact .inr (List.mem_cons_of_mem _ h)

theorem insertRecord_sorted {a : Nat} {r : Record} {m : List (Nat × Record)}
    (h : m.Pairwise fun a b => a.1 < b.1) : (insertRecord a r m).Pairwise fun a b => a.1 < b.1 := by
  induction m with
  | nil => simp [insertRecord]
  | cons d m ih =>
    rw [List.pairwise_cons] at h
    unfold insertRecord
    split
    · rename_i hd
      refine List.pairwise_cons.2 ⟨fun x hx => ?_, List.pairwise_cons.2 h⟩
      rcases List.mem_cons.1 hx with rfl | hx
      · exact hd
      · exact lt_trans hd (h.1 x hx)
    · split
      · rename_i hd
        refine List.pairwise_cons.2 ⟨fun x hx => ?_, h.2⟩
        show a < x.1
        rw [hd]
        exact h.1 x hx
      · rename_i h1 h2
        refine List.pairwise_cons.2 ⟨fun x hx => ?_, ih h.2⟩
        rcases insertRecord_mem hx with rfl | hx
        · show d.1 < a
          omega
        · exact h.1 x hx

theorem mediaWf_iff (m : List (Nat × Record)) :
    mediaWf m = true
      ↔ (m.Pairwise fun a b => a.1 < b.1) ∧ ∀ c ∈ m, c.2.written = true ∧ c.2.wf = true := by
  simp [mediaWf]

theorem Record.wf_iff (r : Record) : r.wf = true ↔ r.wrong.Pairwise fun a b => a < b := by simp [Record.wf]

/-- Storing a record keeps the canonical form. -/
theorem writeMedia_wf {m : List (Nat × Record)} (h : mediaWf m = true) (a : Nat) {r : Record} (hr : r.wf = true) :
    mediaWf (writeMedia m a r) = true := by
  rw [mediaWf_iff] at h ⊢
  unfold writeMedia
  split
  · refine ⟨insertRecord_sorted h.1, fun c hc => ?_⟩
    rcases insertRecord_mem hc with rfl | hc
    · exact ⟨‹_›, hr⟩
    · exact h.2 c hc
  · exact ⟨h.1.sublist List.filter_sublist, fun c hc => h.2 c (List.mem_filter.1 hc).1⟩

/-- A record read from a memory in canonical form. -/
theorem readMedia_wf {m : List (Nat × Record)} (h : mediaWf m = true) (a : Nat) : (readMedia m a).wf = true := by
  unfold readMedia
  split
  · exact (((mediaWf_iff m).1 h).2 _ (List.mem_of_find?_eq_some ‹_›)).2
  · rfl

theorem newRecord_wf (v : Version) (d : Data) : (newRecord v d).wf = true := by
  rw [Record.wf_iff]
  exact List.Pairwise.nil

theorem damage_wf {r : Record} (h : r.wf = true) : (damage r).wf = true := by
  rw [Record.wf_iff] at h ⊢
  exact h

theorem flipBit_mem {p x : Nat} {l : List Nat} (h : x ∈ flipBit p l) : x = p ∨ x ∈ l := by
  induction l with
  | nil => simpa [flipBit] using h
  | cons q l ih =>
    unfold flipBit at h
    split at h
    · simpa using h
    · split at h
      · exact .inr (List.mem_cons_of_mem _ h)
      · rcases List.mem_cons.1 h with rfl | h
        · exact .inr List.mem_cons_self
        · exact (ih h).imp id (List.mem_cons_of_mem _)

/-- Changing a bit keeps the wrong positions ascending. -/
theorem flipBit_sorted (p : Nat) {l : List Nat} (h : l.Pairwise fun a b => a < b) :
    (flipBit p l).Pairwise fun a b => a < b := by
  induction l with
  | nil => simp [flipBit]
  | cons q l ih =>
    rw [List.pairwise_cons] at h
    unfold flipBit
    split
    · refine List.pairwise_cons.2 ⟨fun x hx => ?_, List.pairwise_cons.2 h⟩
      rcases List.mem_cons.1 hx with rfl | hx
      · assumption
      · exact lt_trans ‹_› (h.1 x hx)
    · split
      · exact h.2
      · refine List.pairwise_cons.2 ⟨fun x hx => ?_, ih h.2⟩
        rcases flipBit_mem hx with rfl | hx
        · omega
        · exact h.1 x hx

theorem flip_wf {r : Record} (h : r.wf = true) (ps : List Nat) : (r.flip ps).wf = true := by
  rw [Record.wf_iff] at h ⊢
  show (ps.foldl (fun l p => flipBit p l) r.wrong).Pairwise fun a b => a < b
  generalize r.wrong = l at h
  induction ps generalizing l with
  | nil => exact h
  | cons p ps ih => exact ih _ (flipBit_sorted p h)

theorem failedWriteRecord_wf {r : Record} (h : r.wf = true) (v : Version) (d : Data) (c : BitVec 2) :
    (failedWriteRecord r v d c).wf = true := by
  unfold failedWriteRecord
  repeat' split
  all_goals first
    | exact h
    | exact newRecord_wf v d

/-- The record memory at reset is in canonical form. -/
theorem reset_mediaWf : mediaWf State.reset.media = true := rfl

/-! ### What the media port's operations keep -/

/-- `t` comes from `s` by an operation that leaves the pins and the waiting commands alone, keeps the state sound and
the record memory in canonical form. -/
structure Tends (s t : State) : Prop where
  pins : t.pins = s.pins
  held : t.resetHeld = s.resetHeld
  pending : t.pending = s.pending
  sound : Sound s → Sound t
  media : mediaWf s.media = true → mediaWf t.media = true

theorem Tends.refl (s : State) : Tends s s := ⟨rfl, rfl, rfl, id, id⟩

theorem Tends.trans {s t u : State} (a : Tends s t) (b : Tends t u) : Tends s u :=
  ⟨b.pins.trans a.pins, b.held.trans a.held, b.pending.trans a.pending, b.sound ∘ a.sound, b.media ∘ a.media⟩

theorem Holds.tends {s t : State} (a : Holds s t) : Tends s t :=
  ⟨a.pins, a.held, a.pending, a.sound, fun h => a.media ▸ h⟩

theorem storeRecord_tends (s : State) (b : Block) (r : Record) (hr : mediaWf s.media = true → r.wf = true) :
    Tends s (storeRecord s b r) :=
  ⟨rfl, rfl, rfl, fun d => ⟨⟨d.roomy.1, d.roomy.2, d.roomy.3, d.roomy.4, d.roomy.5⟩, d.table, d.slots, d.current,
    d.pushes, d.fetches⟩, fun h => writeMedia_wf h _ (hr h)⟩

theorem freeCount_tends (s : State) (n : Nat) : Tends s { s with freeCount := n } :=
  (Keeps.congr (Keeps.refl s)).holds.tends

theorem breakOff_tends (s : State) : Tends s (breakOff s) := by
  unfold breakOff
  split
  · exact (freeCount_tends s _).trans (storeRecord_tends _ _ _ fun h => failedWriteRecord_wf (readMedia_wf h _) _ _ _)
  · refine (freeCount_tends s _).trans (storeRecord_tends _ _ _ fun h => ?_)
    split
    · exact damage_wf (readMedia_wf h _)
    · exact readMedia_wf h _
  · exact Tends.refl s

theorem readReady_tends (s : State) (c : MediaCmd) (b : Block) (x : BitChanges) : Tends s (readReady s c b x) := by
  unfold readReady
  dsimp only
  split
  · split
    · exact (storeRecord_tends _ _ _ fun h => flip_wf (readMedia_wf h _) _).trans (finishRead_stays _ _ _).holds.tends
    · exact (storeRecord_tends _ _ _ fun h => flip_wf (readMedia_wf h _) _).trans
        (attemptEndsFailed_stays _).holds.tends
  · exact (finishRead_stays _ _ _).holds.tends

theorem readBackReady_tends (s : State) (b : Block) (v : Version) (i : Nat) (x : BitChanges) :
    Tends s (readBackReady s b v i x) := by
  unfold readBackReady
  dsimp only
  split
  · exact (storeRecord_tends _ _ _ fun h => flip_wf (readMedia_wf h _) _).trans (finishWrite_keeps _ _ _ _ _).holds.tends
  · exact (storeRecord_tends _ _ _ fun h => damage_wf (flip_wf (readMedia_wf h _) _)).trans
      (attemptEndsFailed_stays _).holds.tends

theorem takeReady_tends (s : State) (x : BitChanges) : Tends s (takeReady s x) := by
  unfold takeReady
  split
  · exact (probeAnswered_keeps s).holds.tends
  · exact readReady_tends _ _ _ _
  · exact readReady_tends _ _ _ _
  · exact (storeRecord_tends _ _ _ fun _ => newRecord_wf _ _).trans (present_keeps _ _).holds.tends
  · exact readBackReady_tends _ _ _ _ _
  · exact Tends.refl s

theorem takeFault_tends (s : State) : Tends s (takeFault s) := by
  unfold takeFault
  split
  · exact Tends.refl s
  · exact (probeAnswered_keeps s).holds.tends
  all_goals exact (breakOff_tends s).trans (attemptEndsFailed_stays _).holds.tends

theorem takeTimeout_tends (s : State) : Tends s (takeTimeout s) := by
  unfold takeTimeout
  split
  · exact Tends.refl s
  · exact (startAttempt_keeps s _).holds.tends
  all_goals exact (breakOff_tends s).trans (attemptEndsFailed_stays _).holds.tends

end Sys2Proof.Machine
end

