-- ==== Sys2Proof/Laws/Sound.lean ====
section
/-! SUPPORT. A sound state in the words of Safety.lean, and what each way a command acts keeps. -/

namespace Sys2Proof.Machine

/-- The blocks of the current slots are without repeats where no two places are current for one block. -/
theorem singleCurrent_iff (l : List Slot) : SingleCurrent l ↔ (l.filterMap Slot.currentBlock).Nodup := by
  induction l with
  | nil => simp [SingleCurrent]
  | cons x l ih =>
    have tail : SingleCurrent (x :: l) → SingleCurrent l := by
      intro h i j b hi hj
      have := h (i + 1) (j + 1) b (by simpa using hi) (by simpa using hj)
      omega
    have head : ∀ b, b ∈ l.filterMap Slot.currentBlock ↔ ∃ j : Nat, (l[j]?.bind Slot.currentBlock) = some b := by
      intro b
      rw [List.mem_filterMap]
      constructor
      · rintro ⟨y, hy, hb⟩
        obtain ⟨j, hj⟩ := List.mem_iff_getElem?.1 hy
        exact ⟨j, by simp [hj, hb]⟩
      · rintro ⟨j, hj⟩
        cases hy : l[j]? with
        | none => simp [hy] at hj
        | some y => exact ⟨y, List.mem_of_getElem? hy, by simpa [hy] using hj⟩
    cases hx : x.currentBlock with
    | none =>
      rw [List.filterMap_cons_none hx, ← ih]
      refine ⟨tail, fun h i j b hi hj => ?_⟩
      cases i with
      | zero => simp [hx] at hi
      | succ i =>
        cases j with
        | zero => simp [hx] at hj
        | succ j => simpa using h i j b (by simpa using hi) (by simpa using hj)
    | some c =>
      rw [List.filterMap_cons_some hx, List.nodup_cons, ← ih]
      constructor
      · intro h
        refine ⟨fun hc => ?_, tail h⟩
        obtain ⟨j, hj⟩ := (head c).1 hc
        have := h 0 (j + 1) c (by simpa using hx) (by simpa using hj)
        omega
      · rintro ⟨hn, h⟩ i j b hi hj
        cases i with
        | zero =>
          cases j with
          | zero => rfl
          | succ j =>
            have hb : c = b := by simpa [hx] using hi
            subst hb
            exact absurd ((head c).2 ⟨j, by simpa using hj⟩) hn
        | succ i =>
          cases j with
          | zero =>
            have hb : c = b := by simpa [hx] using hj
            subst hb
            exact absurd ((head c).2 ⟨i, by simpa using hi⟩) hn
          | succ j => simpa using h i j b (by simpa using hi) (by simpa using hj)

/-- A sound state: within its capacities, its tags unique, at most one current slot per block. -/
theorem sound_iff (s : State) :
    Sound s ↔ withinCapacity s = true ∧ tagsUnique s = true ∧ currentOnce s = true := by
  simp only [withinCapacity, tagsUnique, currentOnce, Bool.and_eq_true, decide_eq_true_eq]
  constructor
  · intro h
    exact ⟨⟨⟨⟨⟨⟨⟨⟨⟨h.slots, h.table.1⟩, h.roomy.queue⟩, h.roomy.low⟩, h.roomy.media⟩, h.roomy.pool⟩, h.pushes⟩,
      h.roomy.list⟩, h.fetches⟩, h.table.2, (singleCurrent_iff _).1 h.current⟩
  · rintro ⟨⟨⟨⟨⟨⟨⟨⟨⟨h1, h2⟩, h3⟩, h4⟩, h5⟩, h6⟩, h7⟩, h8⟩, h9⟩, h10, h11⟩
    exact ⟨⟨h3, h4, h5, h6, h8⟩, ⟨h2, h10⟩, h1, (singleCurrent_iff _).2 h11, h7, h9⟩

/-! ### The ways a command acts -/

theorem happening_holds {s t : State} {act : State → State} (h : ∀ u, Holds u (act u))
    (e : happening s act = .next t) : Holds s t := by
  unfold happening at e
  split at e
  · cases e; exact Holds.refl s
  · cases e; exact (h s).trans (settle_holds _)

theorem hear_holds {s t : State} {f : Frame} {act : State → State} (h : ∀ u, Holds u (act u))
    (e : hear s f act = .next t) : Holds s t :=
  happening_holds (fun u => receive_holds u f act h) e

theorem atPort_tends {s t : State} {act : State → State} (h : ∀ u, Tends u (act u))
    (e : atPort s act = .next t) : Tends s t := by
  unfold atPort at e
  split at e
  · cases e; exact Tends.refl s
  · cases e; exact ((h s).trans (settle_holds _).tends).trans (drainCheck_stays _).holds.tends

theorem atPort_holds {s t : State} {act : State → State} (h : ∀ u, Holds u (act u))
    (e : atPort s act = .next t) : Holds s t := by
  unfold atPort at e
  split at e
  · cases e; exact Holds.refl s
  · cases e; exact ((h s).trans (settle_holds _)).trans (drainCheck_stays _).holds

end Sys2Proof.Machine
end

