-- ==== Sys2Proof/Laws/Commands.lean ====
section
/-! SUPPORT. What each command's meaning leaves alone, one lemma per meaning. -/

-- One proof after another: side by side, the proofs of this file wait on each other and take a thread each.
set_option Elab.async false

namespace Sys2Proof.Machine

variable {s t : State}

theorem keeps_repair (s : State) (r : Repair) (h1 : r.list = s.repair.list) (h2 : r.fetches = s.repair.fetches) :
    Keeps s { s with repair := r } :=
  (Keeps.refl s).congr (list := by simp [h1]) (fetches := by simp [h2])

/-- MEDIA_READY brings the levels at the strap pins, unless the reset pin is held; beside them it keeps what the other
answers of the memory do. -/
theorem execMediaReady_tends (op : Nat) (x : BitChanges) (straps : Straps)
    (h : execMediaReady op x straps s = .next t) :
    Tends { s with pins := if s.resetHeld then s.pins else straps } t := by
  unfold execMediaReady atPort at h
  split at h
  · next held =>
    cases h
    rw [if_pos held]
    exact Tends.refl s
  · next held =>
    cases h
    rw [if_neg held]
    refine Tends.trans (Tends.trans ?_ (settle_holds _).tends) (drainCheck_stays _).holds.tends
    dsimp only
    split
    · exact takeReady_tends _ _
    · exact Tends.refl _

theorem execMediaFault_tends (op : Nat) (h : execMediaFault op s = .next t) : Tends s t := by
  unfold execMediaFault at h
  refine atPort_tends (fun u => ?_) h
  split
  · exact takeFault_tends _
  · exact Tends.refl u

theorem execAttemptTimeout_tends (h : execAttemptTimeout s = .next t) : Tends s t := by
  unfold execAttemptTimeout at h
  refine atPort_tends (fun u => ?_) h
  split
  · exact Tends.refl u
  · exact (reach_keeps _ _).holds.tends.trans (takeTimeout_tends _)

theorem execProbeLimitExpiry_holds (h : execProbeLimitExpiry s = .next t) : Holds s t := by
  refine atPort_holds (fun u => ?_) h
  split
  · exact Holds.refl u
  · exact ((reach_keeps u _).stays.trans (declareMediaDown_stays _)).holds

theorem execLineIdle_holds (h : execLineIdle s = .next t) : Holds s t := by
  exact happening_holds (fun u => (takeIdle_keeps u).holds) h

theorem execArbitrationEnd_holds (others : List (BitVec 7)) (h : execArbitrationEnd others s = .next t) :
    Holds s t := by
  refine happening_holds (fun u => ?_) h
  repeat' split
  · exact Holds.refl _
  · exact Holds.refl _
  · exact (winArbitration_keeps _ _).holds
  · exact (loseArbitration_keeps _ _).holds
  · exact Holds.refl _

theorem execFrameSent_holds (h : execFrameSent s = .next t) : Holds s t := by
  exact happening_holds (fun u => (whileDriving_keeps u _ frameGone_keeps).holds) h

theorem execAttemptFailed_holds (h : execAttemptFailed s = .next t) : Holds s t := by
  exact happening_holds (fun u => (whileDriving_keeps u _ attemptLost_keeps).holds) h

theorem execReceiveCheckFail_holds (h : execReceiveCheckFail s = .next t) : Holds s t := by
  exact happening_holds (fun u => ((keeps_bus u { u.bus with echo := none } rfl).trans (countDiscarded_keeps _)).holds) h

theorem execPresentHeard_holds (src : Source) (m : Mark) (conf : Configuration) (h : execPresentHeard src m conf s = .next t) : Holds s t := by
  exact hear_holds (fun u => (takePresent_keeps _ _ _ _).holds) h

theorem execRosterHeard_holds (src : Source) (conf : Configuration) (h : execRosterHeard src conf s = .next t) : Holds s t := by
  exact hear_holds (fun u => (takeRoster_keeps _ _ _).holds) h

theorem execRosterQueryHeard_holds (src : Source) (h : execRosterQueryHeard src s = .next t) : Holds s t := by
  exact hear_holds (fun u => (takeRosterQuery_keeps _ _).holds) h

theorem execPeerDownHeard_holds (src : Source) (n : StationNo) (h : execPeerDownHeard src n s = .next t) : Holds s t := by
  exact hear_holds (fun u => (takePeerDown_keeps _ _ _).holds) h

theorem execRejoinHeard_holds (src : Source) (h : execRejoinHeard src s = .next t) : Holds s t := by
  exact hear_holds (fun u => (takeRejoin_keeps _ _).holds) h

theorem execCaughtUpHeard_holds (src : Source) (h : execCaughtUpHeard src s = .next t) : Holds s t := by
  exact hear_holds (fun u => (takeCaughtUp_keeps _ _).holds) h

theorem execReplayDoneHeard_holds (src : Source) (n : StationNo) (sweep : Bool) (h : execReplayDoneHeard src n sweep s = .next t) : Holds s t := by
  exact hear_holds (fun u => (takeReplayDone_keeps _ _ _).holds) h

/-- STATION_RESET_HEARD brings the levels at the strap pins; beside them it keeps what every heard frame does. -/
theorem execStationResetHeard_holds (order : ResetOrder) (straps : Straps)
    (h : execStationResetHeard order straps s = .next t) : ∃ p, Holds { s with pins := p } t := by
  unfold execStationResetHeard hear happening at h
  split at h
  · cases h
    exact ⟨s.pins, Holds.refl s⟩
  · cases h
    have hb : ∀ p, Holds { s with pins := p } { s with pins := p, bus := { s.bus with echo := none } } :=
      fun p => (keeps_bus { s with pins := p } { s.bus with echo := none } rfl).holds
    unfold receive
    dsimp only
    split
    · exact ⟨s.pins, (hb _).trans (settle_holds _)⟩
    · split
      · exact ⟨s.pins, ((hb _).trans (enterOut_keeps _ _).holds).trans (settle_holds _)⟩
      · split
        · exact ⟨s.pins, (hb _).trans (settle_holds _)⟩
        · split
          · exact ⟨s.pins, ((hb _).trans (adopt_keeps _ _ _).holds).trans (settle_holds _)⟩
          · exact ⟨straps, ((hb straps).trans (takeStationReset_holds straps { s with bus := { s.bus with echo := none } })).trans
              (settle_holds _)⟩

theorem execOrderHeard_holds (src : Source) (tag : Tag) (b : Block) (v : Version) (h : execOrderHeard src tag b v s = .next t) : Holds s t := by
  exact hear_holds (fun u => ((signOfLife_keeps _ _).stays.trans (takeOrder_stays _ _ _ _ _)).holds) h

theorem execAckHeard_holds (src : Source) (tag : Tag) (b : Block) (v : Version) (h : execAckHeard src tag b v s = .next t) : Holds s t := by
  exact hear_holds (fun u => ((clearMisses_keeps _ _).trans (deliverAck_keeps _ _ _ _ _)).holds) h

theorem execNackHeard_holds (src : Source) (tag : Tag) (b : Block) (v : Version) (r : BitVec 8) (h : execNackHeard src tag b v r s = .next t) : Holds s t := by
  exact hear_holds (fun u => ((signOfLife_keeps _ _).trans (deliverNack_keeps _ _ _ _ _)).holds) h

theorem execDataHeard_holds (src : Source) (tag : Tag) (b : Block) (v : Version) (d : Data) (h : execDataHeard src tag b v d s = .next t) : Holds s t := by
  exact hear_holds (fun u => ((signOfLife_keeps _ _).trans (deliverData_keeps _ _ _ _ _ _)).holds) h

theorem execUnavailableHeard_holds (src : Source) (tag : Tag) (b : Block) (r : BitVec 8) (h : execUnavailableHeard src tag b r s = .next t) : Holds s t := by
  exact hear_holds (fun u => ((signOfLife_keeps _ _).trans (deliverUnavailable_keeps _ _ _ _)).holds) h

theorem execCurrentHeard_holds (src : Source) (tag : Tag) (b : Block) (v : Version) (h : execCurrentHeard src tag b v s = .next t) : Holds s t := by
  exact hear_holds (fun u => ((signOfLife_keeps _ _).trans (deliverCurrent_keeps _ _ _ _ _)).holds) h

theorem execReadHeard_holds (src : Source) (tag : Tag) (b : Block) (h : execReadHeard src tag b s = .next t) : Holds s t := by
  exact hear_holds (fun u => (takeRead_stays _ _ _ _).holds) h

theorem execWriteHeard_holds (src : Source) (tag : Tag) (b : Block) (d : Data) (h : execWriteHeard src tag b d s = .next t) : Holds s t := by
  exact hear_holds (fun u => (takeWrite_stays _ _ _ _ _).holds) h

theorem execFlushHeard_holds (src : Source) (tag : Tag) (h : execFlushHeard src tag s = .next t) : Holds s t := by
  exact hear_holds (fun u => (takeFlush_stays _ _ _).holds) h

theorem execFetchHeard_holds (src : Source) (tag : Tag) (b : Block) (v : Version) (m : Bool) (h : execFetchHeard src tag b v m s = .next t) : Holds s t := by
  exact hear_holds (fun u => (takeFetch_stays _ _ _ _ _ _).holds) h

theorem execReplayHeard_holds (src : Source) (tag : Tag) (n : StationNo) (b : Block) (v : Version) (d : Data) (h : execReplayHeard src tag n b v d s = .next t) : Holds s t := by
  exact hear_holds (fun u => (takeReplay_keeps _ _ _ _ _ _).holds) h

theorem execStatusQueryHeard_holds (src : Source) (tag : Tag) (n : StationNo) (h : execStatusQueryHeard src tag n s = .next t) : Holds s t := by
  exact hear_holds (fun u => (takeStatusQuery_keeps _ _ _).holds) h

theorem execStatusReportHeard_holds (src : Source) (tag : Tag) (n : StationNo) (r : Report) (h : execStatusReportHeard src tag n r s = .next t) : Holds s t := by
  exact hear_holds (fun u => Holds.refl _) h

theorem execLeadWaitExpiry_holds (tag : Tag) (h : execLeadWaitExpiry tag s = .next t) : Holds s t := by
  exact happening_holds (fun u => onEntry_holds _ _ _ _ fun u e => atWaitEnd_holds _ _ _ fun u => (leadExpire_keeps _ _).holds) h

theorem execReadSlotWaitExpiry_holds (tag : Tag) (h : execReadSlotWaitExpiry tag s = .next t) : Holds s t := by
  exact happening_holds (fun u => onEntry_holds _ _ _ _ fun u e => atWaitEnd_holds _ _ _ fun u => (expireWait_keeps _ _).holds) h

theorem execFetchSlotWaitExpiry_holds (tag : Tag) (h : execFetchSlotWaitExpiry tag s = .next t) : Holds s t := by
  exact happening_holds (fun u => onEntry_holds _ _ _ _ fun u e => atWaitEnd_holds _ _ _ fun u => (expireWait_keeps _ _).holds) h

theorem execRosterAnswerWaitExpiry_holds (h : execRosterAnswerWaitExpiry s = .next t) : Holds s t := by
  refine happening_holds (fun u => ?_) h
  split
  · exact Holds.refl u
  · exact ((reach_keeps _ _).trans (expireRosterWait_keeps _)).holds

theorem execAckWindowExpiry_holds (tag : Tag) (h : execAckWindowExpiry tag s = .next t) : Holds s t := by
  refine happening_holds (fun u => onEntry_holds _ _ _ _ fun u e => ?_) h
  split
  · exact Holds.refl u
  · exact ((reach_keeps _ _).stays.trans (endWindow_stays _ _ _)).holds

theorem execRequestLifetimeExpiry_holds (tag : Tag) (h : execRequestLifetimeExpiry tag s = .next t) : Holds s t := by
  refine happening_holds (fun u => ?_) h
  split
  · exact Holds.refl u
  · split
    · exact Holds.refl u
    · exact ((reach_keeps _ _).trans (endLifetime_keeps _ _)).holds

theorem execRetireHoldEnd_holds (tag : Tag) (h : execRetireHoldEnd tag s = .next t) : Holds s t := by
  refine happening_holds (fun u => ?_) h
  split
  · exact Holds.refl u
  · split
    · exact Holds.refl u
    · dsimp only
      split
      · exact (reach_keeps _ _).holds
      · exact ((reach_keeps _ _).stays.trans (dropEntry_stays _ _)).holds

theorem execReplayRetryTimeExpiry_holds (p : StationNo) (b : Block) (h : execReplayRetryTimeExpiry p b s = .next t) : Holds s t := by
  refine happening_holds (fun u => ?_) h
  split
  · exact Holds.refl u
  · split
    · exact Holds.refl u
    · exact (Keeps.congr (reach_keeps u _)).holds

theorem execReplayAnswerWaitExpiry_holds (tag : Tag) (h : execReplayAnswerWaitExpiry tag s = .next t) : Holds s t := by
  refine happening_holds (fun u => ?_) h
  split
  · exact Holds.refl u
  · split
    · exact ((reach_keeps _ _).stays.trans (endAnswerWait_stays _ _)).holds
    all_goals exact Holds.refl u

theorem execReplayDoneReoffer_holds (p : StationNo) (h : execReplayDoneReoffer p s = .next t) : Holds s t := by
  refine happening_holds (fun u => ?_) h
  split
  · exact Holds.refl u
  · rename_i r _
    have : ∀ (v : State) l, Keeps v { v with replay := { v.replay with reoffers := l } } := fun v l => (Keeps.refl v).congr
    exact (((reach_keeps u r.due).trans (this _ _)).trans (reofferReplayDone_keeps _ _)).holds

theorem execFetchWindowClose_holds (tag : Tag) (h : execFetchWindowClose tag s = .next t) : Holds s t := by
  refine happening_holds (fun u => ?_) h
  split
  · exact Holds.refl u
  · split
    · exact ((reach_keeps _ _).stays.trans (closeWindow_stays _ _)).holds
    all_goals exact Holds.refl u

theorem execParkEnd_holds (b : Block) (h : execParkEnd b s = .next t) : Holds s t := by
  refine happening_holds (fun u => ?_) h
  split
  · exact Holds.refl u
  · split
    · exact ((reach_keeps _ _).trans (setRepairState_keeps _ _ _)).holds
    all_goals exact Holds.refl u

theorem execSweepBlockRetake_holds (b : Block) (h : execSweepBlockRetake b s = .next t) : Holds s t := by
  refine happening_holds (fun u => ?_) h
  split
  · exact Holds.refl u
  · split
    · exact Holds.refl u
    · exact (Keeps.congr (reach_keeps u _)).holds

theorem execRejoinRequeue_holds (h : execRejoinRequeue s = .next t) : Holds s t := by
  refine happening_holds (fun u => ?_) h
  split
  · exact Holds.refl u
  · dsimp only
    split
    · exact (((keeps_repair u { u.repair with rejoinRequeue := none } rfl rfl).trans (reach_keeps _ _)).trans
        (queueRejoin_keeps _)).holds
    · exact ((keeps_repair u { u.repair with rejoinRequeue := none } rfl rfl).trans (reach_keeps _ _)).holds

theorem execCatchUpLimitExpiry_holds (h : execCatchUpLimitExpiry s = .next t) : Holds s t := by
  refine happening_holds (fun u => ?_) h
  split
  · exact Holds.refl u
  · rename_i due _
    exact (((keeps_repair u { u.repair with limit := none } rfl rfl).trans (reach_keeps _ due)).trans
      (keeps_foldl _ (fun v p => dropAwaited_keeps v p) _ _)).holds

theorem execCaughtUpRequeue_holds (h : execCaughtUpRequeue s = .next t) : Holds s t := by
  refine happening_holds (fun u => ?_) h
  split
  · exact Holds.refl u
  · dsimp only
    split
    · exact (((keeps_repair u { u.repair with caughtUpRequeue := none } rfl rfl).trans (reach_keeps _ _)).trans
        (queueCaughtUp_keeps _)).holds
    · exact ((keeps_repair u { u.repair with caughtUpRequeue := none } rfl rfl).trans (reach_keeps _ _)).holds

theorem execListeningWindowExpiry_holds (h : execListeningWindowExpiry s = .next t) : Holds s t := by
  refine happening_holds (fun u => ?_) h
  split
  · exact Holds.refl u
  · exact ((reach_keeps _ _).trans (enterForming_keeps _)).holds

theorem execQuietTimerExpiry_holds (h : execQuietTimerExpiry s = .next t) : Holds s t := by
  refine happening_holds (fun u => ?_) h
  split
  · exact Holds.refl u
  · exact ((reach_keeps _ _).trans (endQuiet_keeps _)).holds

theorem execPresentReoffer_holds (h : execPresentReoffer s = .next t) : Holds s t := by
  refine happening_holds (fun u => ?_) h
  split
  · exact Holds.refl u
  · dsimp only
    split
    · exact (((keeps_member u { u.member with presentReoffers := _ }).trans (reach_keeps _ _)).trans (queuePresent_keeps _)).holds
    · exact ((keeps_member u { u.member with presentReoffers := _ }).trans (reach_keeps _ _)).holds

theorem execRosterQueryRepeat_holds (h : execRosterQueryRepeat s = .next t) : Holds s t := by
  refine happening_holds (fun u => ?_) h
  split
  · exact Holds.refl u
  · dsimp only
    split
    · exact (((keeps_member u { u.member with queryTimer := none }).trans (reach_keeps _ _)).trans (queueRosterQuery_keeps _)).holds
    · exact ((keeps_member u { u.member with queryTimer := none }).trans (reach_keeps _ _)).holds

theorem execOwnPeerDownReoffer_holds (h : execOwnPeerDownReoffer s = .next t) : Holds s t := by
  refine happening_holds (fun u => ?_) h
  split
  · exact Holds.refl u
  · dsimp only
    split
    · exact (((keeps_member u { u.member with ownDownReoffer := none }).trans (reach_keeps _ _)).trans (queueOwnDown_keeps _)).holds
    · exact ((keeps_member u { u.member with ownDownReoffer := none }).trans (reach_keeps _ _)).holds

end Sys2Proof.Machine
end

