-- ==== Sys2Proof/Laws/Idle.lean ====
section
/-! SUPPORT. When the engines have nothing to do, the end of a happening changes nothing. -/

namespace Sys2Proof.Machine

theorem leastRecent_none {l : List (Nat × Nat)} (h : leastRecent l = none) : l = [] := by
  cases l with
  | nil => rfl
  | cons x l =>
    unfold leastRecent at h
    split at h
    · cases h
    · split at h <;> cases h

/-- Where no slot is DIRTY there are no dirty orders. -/
theorem dirtyOrders_nil {s : State} (h : (s.cache.slots.all fun x => !x.isDirty) = true) :
    dirtyOrders s = [] := by
  unfold dirtyOrders
  rw [List.filterMap_eq_nil_iff]
  intro x hx
  have hm : x.1 ∈ s.cache.slots := by
    rw [List.mem_zipIdx_iff_getElem?] at hx
    exact List.mem_of_getElem? hx
  have := List.all_eq_true.1 h x.1 hm
  obtain ⟨y, i⟩ := x
  cases y <;> simp_all [Slot.isDirty]

theorem flusherStep_none {s : State}
    (h : (s.cache.slots.all fun x => !x.isDirty) = true ∨ Config.flushLimit ≤ writesInFlight s) :
    flusherStep s = none := by
  unfold flusherStep
  split
  · rename_i hc
    simp only [Bool.and_eq_true, decide_eq_true_eq] at hc
    rcases h with h | h
    · rw [dirtyOrders_nil h]
      rfl
    · omega
  · rfl

theorem flushAnswerStep_none {s : State} (h : (s.table.all fun e => decide (e.state ≠ .draining)) = true) :
    flushAnswerStep s = none := by
  have : s.table.find? (drained s) = none := by
    rw [List.find?_eq_none]
    intro e he hd
    have := List.all_eq_true.1 h e he
    simp only [drained, Bool.and_eq_true, decide_eq_true_eq] at hd
    exact absurd hd.1.2 (of_decide_eq_true this)
  simp [flushAnswerStep, this]

theorem drainStep_none {s : State} (h : (s.table.all fun e => decide (e.state ≠ .draining)) = true) :
    drainStep s = none := by
  unfold drainStep
  split
  · rename_i hc
    obtain ⟨e, he, hd⟩ := List.any_eq_true.1 hc
    have := List.all_eq_true.1 h e he
    simp only [Bool.and_eq_true, decide_eq_true_eq] at hd
    exact absurd hd.1 (of_decide_eq_true this)
  · rfl

theorem not_sweeping {s : State} (h : s.repair.active = false) : sweeping s = false := by
  simp [sweeping, h]

theorem groupStep_none {s : State} (h : s.repair.active = false) : groupStep s = none := by
  simp [groupStep, not_sweeping h]

theorem catchUpStep_none {s : State} (h : s.repair.active = false) : catchUpStep s = none := by
  simp [catchUpStep, catchUpDone, not_sweeping h]

theorem fetchStep_none {s : State} (ha : s.repair.active = false)
    (h : (s.repair.list.all fun e => decide (e.state ≠ .ready)) = true ∨
      Config.fetchLimit ≤ s.repair.fetches.length) : fetchStep s = none := by
  unfold fetchStep
  split
  · rename_i hc
    simp only [Bool.and_eq_true, decide_eq_true_eq] at hc
    rcases h with h | h
    · have hn : nextRepair s = none := by
        unfold nextRepair
        rw [List.find?_eq_none]
        intro e he hr
        have := List.all_eq_true.1 h e he
        simp only [Bool.and_eq_true, decide_eq_true_eq] at hr
        exact absurd hr.1 (of_decide_eq_true this)
      rw [hn]
      simp [sweepStep, not_sweeping ha]
    · omega
  · rfl

theorem pushStep_none {s : State} (h : s.replay.pool = [] ∨ Config.pushLimit ≤ s.replay.pushes.length) :
    pushStep s = none := by
  unfold pushStep
  split
  · rename_i hc
    simp only [Bool.and_eq_true, decide_eq_true_eq] at hc
    rcases h with h | h
    · have : nextPush s = none := by
        unfold nextPush
        rw [List.findSome?_eq_none_iff]
        intro p _
        simp [h]
      simp [this]
    · omega
  · rfl

theorem engineStep_of_idle {s : State} (h : enginesIdle s = true) : engineStep s = none := by
  simp only [enginesIdle, Bool.and_eq_true, Bool.or_eq_true, Bool.not_eq_true', decide_eq_true_eq,
    List.isEmpty_iff] at h
  obtain ⟨⟨⟨⟨ht, ha⟩, hf⟩, hr⟩, hp⟩ := h
  simp [engineStep, drainStep_none ht, flushAnswerStep_none ht, flusherStep_none hf, groupStep_none ha, fetchStep_none ha hr,
    pushStep_none hp, catchUpStep_none ha]

theorem engineStep_of_taken {s : State} (h : placesTaken s = true) : engineStep s = none := by
  simp only [placesTaken, Bool.and_eq_true, Bool.not_eq_true', decide_eq_true_eq] at h
  obtain ⟨⟨⟨⟨ht, ha⟩, hf⟩, hr⟩, hp⟩ := h
  simp [engineStep, drainStep_none ht, flushAnswerStep_none ht, flusherStep_none (.inr hf), groupStep_none ha,
    fetchStep_none ha (.inr hr), pushStep_none (.inr hp), catchUpStep_none ha]

theorem settle_of_none {s : State} (h : engineStep s = none) : settle s = s := by
  unfold settle settleBound settleWithin
  simp [h]

end Sys2Proof.Machine
end

