-- ==== Sys2Proof/Laws/Happening.lean ====
section
/-! SUPPORT. What each way of acting answers once the reset pin is released: the command's own effect, then the engines' work. -/

namespace Sys2Proof.Machine

theorem happening_of_released {s : State} (act : State → State) (h : s.resetHeld = false) :
    happening s act = .next (settle (act s)) := by
  simp [happening, h]

theorem atPort_of_released {s : State} (act : State → State) (h : s.resetHeld = false) :
    atPort s act = .next (drainCheck (settle (act s))) := by
  simp [atPort, h]

/-- A frame that the station takes has the effects of its kind, on the state after the echo. -/
theorem hear_of_takes {s : State} {f : Frame} (act : State → State) (h : takesFrame s f = true) :
    hear s f act = .next (settle (act (afterEcho s))) := by
  simp only [takesFrame, Bool.and_eq_true, Bool.not_eq_true', Bool.or_eq_true, decide_eq_true_eq] at h
  obtain ⟨⟨⟨⟨hr, hs⟩, hd⟩, ht⟩, ha⟩ := h
  have dup : isDuplicate s f = false := by
    rcases hd with hd | hd
    · simp [isDuplicate, isOwn, hd]
    · simp [isDuplicate, hd]
  have els : isElsewhere s f = false := by
    rcases ht with ht | ht <;> simp [isElsewhere, ht]
  simp [hear, happening, receive, hr, hs, dup, els, ha, afterEcho]

end Sys2Proof.Machine
end

