-- ==== Sys2Proof/Laws/Withdraw.lean ====
section
/-! SUPPORT. What a plain withdrawal (R187) can change: the transmit queue, an overflow flag (R137) and the record of a sent DATA (R48), and nothing else. -/

namespace Sys2Proof.Machine

/-- A withdrawal with nothing more to do at the entry changes the Bus Interface, the overflow flags and what entries
record as sent. -/
theorem withdraw_plain_spec (s : State) (sel : TxFrame → Bool) :
    ∃ (bus : Bus) (table : List Entry) (overflow : Mark),
      withdraw s sel .plain
        = { s with bus := bus, table := table, replay := { s.replay with overflow := overflow } } := by
  have fold : ∀ (l : List TxFrame) (u : State),
      (∃ (bus : Bus) (table : List Entry) (overflow : Mark),
        u = { s with bus := bus, table := table, replay := { s.replay with overflow := overflow } }) →
      ∃ (bus : Bus) (table : List Entry) (overflow : Mark),
        l.foldl (fun s f => afterWithdrawal s f .plain) u
          = { s with bus := bus, table := table, replay := { s.replay with overflow := overflow } } := by
    intro l
    induction l with
    | nil => exact fun _ h => h
    | cons f l ih =>
      rintro _ ⟨bus, table, overflow, rfl⟩
      refine ih _ ?_
      unfold afterWithdrawal
      dsimp only
      split
      · exact ⟨_, _, _, rfl⟩
      · split <;> exact ⟨_, _, _, rfl⟩
      · split <;> exact ⟨_, _, _, rfl⟩
      · exact ⟨_, _, _, rfl⟩
  unfold withdraw
  dsimp only
  split
  · exact ⟨_, _, _, rfl⟩
  · exact fold _ _ ⟨_, _, _, rfl⟩

/-- It leaves the table alone where it selects no answer of a READ or a FETCH. -/
theorem withdraw_plain_table {s : State} {sel : TxFrame → Bool}
    (h : ∀ f, sel f = true → f.purpose ≠ .readAnswer ∧ f.purpose ≠ .fetchAnswer) :
    (withdraw s sel .plain).table = s.table := by
  have fold : ∀ (l : List TxFrame) (u : State),
      (∀ f ∈ l, f.purpose ≠ .readAnswer ∧ f.purpose ≠ .fetchAnswer) →
      (l.foldl (fun s f => afterWithdrawal s f .plain) u).table = u.table := by
    intro l
    induction l with
    | nil => exact fun _ _ => rfl
    | cons f l ih =>
      intro u hl
      rw [List.foldl_cons, ih _ fun g hg => hl g (List.mem_cons_of_mem _ hg)]
      obtain ⟨h1, h2⟩ := hl f List.mem_cons_self
      unfold afterWithdrawal
      dsimp only
      split
      · rfl
      · exact absurd ‹_› h1
      · exact absurd ‹_› h2
      · rfl
  unfold withdraw
  dsimp only
  split
  · rfl
  · refine fold _ _ fun f hf => h f ?_
    simp only [List.mem_filter, Bool.and_eq_true] at hf
    exact hf.2.1

@[simp] theorem withdraw_plain_member (s : State) (sel : TxFrame → Bool) :
    (withdraw s sel .plain).member = s.member := by
  obtain ⟨_, _, _, h⟩ := withdraw_plain_spec s sel
  rw [h]

@[simp] theorem withdraw_plain_peers (s : State) (sel : TxFrame → Bool) :
    (withdraw s sel .plain).peers = s.peers := by
  obtain ⟨_, _, _, h⟩ := withdraw_plain_spec s sel
  rw [h]

@[simp] theorem withdraw_plain_clock (s : State) (sel : TxFrame → Bool) :
    (withdraw s sel .plain).clock = s.clock := by
  obtain ⟨_, _, _, h⟩ := withdraw_plain_spec s sel
  rw [h]

@[simp] theorem withdraw_plain_media (s : State) (sel : TxFrame → Bool) :
    (withdraw s sel .plain).media = s.media := by
  obtain ⟨_, _, _, h⟩ := withdraw_plain_spec s sel
  rw [h]

@[simp] theorem withdraw_plain_cache (s : State) (sel : TxFrame → Bool) :
    (withdraw s sel .plain).cache = s.cache := by
  obtain ⟨_, _, _, h⟩ := withdraw_plain_spec s sel
  rw [h]

@[simp] theorem withdraw_plain_port (s : State) (sel : TxFrame → Bool) :
    (withdraw s sel .plain).port = s.port := by
  obtain ⟨_, _, _, h⟩ := withdraw_plain_spec s sel
  rw [h]

@[simp] theorem withdraw_plain_repair (s : State) (sel : TxFrame → Bool) :
    (withdraw s sel .plain).repair = s.repair := by
  obtain ⟨_, _, _, h⟩ := withdraw_plain_spec s sel
  rw [h]

@[simp] theorem withdraw_plain_pool (s : State) (sel : TxFrame → Bool) :
    (withdraw s sel .plain).replay.pool = s.replay.pool := by
  obtain ⟨_, _, _, h⟩ := withdraw_plain_spec s sel
  rw [h]

@[simp] theorem withdraw_plain_pushes (s : State) (sel : TxFrame → Bool) :
    (withdraw s sel .plain).replay.pushes = s.replay.pushes := by
  obtain ⟨_, _, _, h⟩ := withdraw_plain_spec s sel
  rw [h]

end Sys2Proof.Machine
end

