-- ==== Sys2Proof/Laws/Ends.lean ====
section
/-! SUPPORT. What ends work, said once as a relation between the state before and the state after: entries only finish, frames, pushes and fetches only go, and every other block stays. -/

namespace Sys2Proof.Machine

/-- `t` comes from `s` by ending work: table entries finish, frames leave the transmit queue or are marked for it, pushes
and fetches go, and nothing is begun. -/
structure Ends (s t : State) : Prop where
  member : t.member = s.member
  clock : t.clock = s.clock
  nextId : t.nextId = s.nextId
  media : t.media = s.media
  port : t.port = s.port
  peers : t.peers = s.peers
  slots : t.cache.slots = s.cache.slots
  repair : t.repair = { s.repair with fetches := t.repair.fetches }
  entries : ∀ e ∈ t.table, ∃ x ∈ s.table, x.tag = e.tag ∧ x.kind = e.kind
    ∧ (x.state.finished = true → e.state.finished = true)
    ∧ (e.wait = none ∨ (e.wait = x.wait ∧ e.state = x.state))
  frames : ∀ f ∈ t.bus.queue, (f.phase = .queued → f ∈ s.bus.queue)
    ∧ ∃ g ∈ s.bus.queue, g.frame = f.frame ∧ g.purpose = f.purpose ∧ g.phase = f.phase
  pushes : ∀ p ∈ t.replay.pushes, p ∈ s.replay.pushes
  fetches : ∀ f ∈ t.repair.fetches, f ∈ s.repair.fetches

theorem Ends.refl (s : State) : Ends s s :=
  ⟨rfl, rfl, rfl, rfl, rfl, rfl, rfl, rfl, fun e h => ⟨e, h, rfl, rfl, id, .inr ⟨rfl, rfl⟩⟩,
   fun f h => ⟨fun _ => h, f, h, rfl, rfl, rfl⟩, fun _ => id, fun _ => id⟩

theorem Ends.trans {s t u : State} (a : Ends s t) (b : Ends t u) : Ends s u := by
  refine ⟨b.member.trans a.member, b.clock.trans a.clock, b.nextId.trans a.nextId, b.media.trans a.media,
    b.port.trans a.port, b.peers.trans a.peers, b.slots.trans a.slots, ?_, ?_, ?_,
    fun p h => a.pushes p (b.pushes p h), fun f h => a.fetches f (b.fetches f h)⟩
  · rw [b.repair, a.repair]
  · intro e h
    obtain ⟨y, hy, t1, k1, f1, w1⟩ := b.entries e h
    obtain ⟨x, hx, t2, k2, f2, w2⟩ := a.entries y hy
    refine ⟨x, hx, t2.trans t1, k2.trans k1, f1 ∘ f2, ?_⟩
    rcases w1 with w1 | ⟨w1, s1⟩
    · exact .inl w1
    · rcases w2 with w2 | ⟨w2, s2⟩
      · exact .inl (w1.trans w2)
      · exact .inr ⟨w1.trans w2, s1.trans s2⟩
  · intro f h
    obtain ⟨q1, g, hg, g1, g2, g3⟩ := b.frames f h
    obtain ⟨q2, i, hi, i1, i2, i3⟩ := a.frames g hg
    refine ⟨fun ph => ?_, i, hi, i1.trans g1, i2.trans g2, i3.trans g3⟩
    obtain ⟨q3, -⟩ := a.frames f (q1 ph)
    exact q3 ph

theorem ends_foldl {α : Type} (f : State → α → State) (hf : ∀ u x, Ends u (f u x)) (l : List α) :
    ∀ u : State, Ends u (l.foldl f u) := by
  induction l with
  | nil => exact Ends.refl
  | cons x l ih => exact fun u => (hf u x).trans (ih (f u x))

/-- Every entry of the kind is finished. -/
def DoneKind (k : EntryKind) (s : State) : Prop := ∀ e ∈ s.table, e.kind = k → e.state.finished = true

theorem Ends.done {s t : State} (a : Ends s t) {k : EntryKind} (h : DoneKind k s) : DoneKind k t := by
  intro e he hk
  obtain ⟨x, hx, -, xk, xf, -⟩ := a.entries e he
  exact xf (h x hx (xk.trans hk))

/-! ### Table entries -/

theorem updateEntry_ends (s : State) (t : Tag) (f : Entry → Entry) (tag : ∀ e, (f e).tag = e.tag)
    (kind : ∀ e, (f e).kind = e.kind) (fin : ∀ e, e.state.finished = true → (f e).state.finished = true)
    (wait : ∀ e, (f e).wait = none ∨ ((f e).wait = e.wait ∧ (f e).state = e.state)) :
    Ends s (updateEntry s t f) := by
  refine ⟨rfl, rfl, rfl, rfl, rfl, rfl, rfl, rfl, ?_, (Ends.refl s).frames, fun _ => id, fun _ => id⟩
  intro e he
  simp only [updateEntry, List.mem_map] at he
  obtain ⟨x, hx, rfl⟩ := he
  refine ⟨x, hx, ?_⟩
  split
  · exact ⟨(tag x).symm, (kind x).symm, fin x, wait x⟩
  · exact ⟨rfl, rfl, id, .inr ⟨rfl, rfl⟩⟩

theorem finishEntry_ends (s : State) (t : Tag) {st : EntryState} (h : st.finished = true) :
    Ends s (finishEntry s t st) := by
  have a := updateEntry_ends s t
    (fun e => { e with state := st, finished := e.finishTime st s.clock, wait := none, slot := none })
    (fun _ => rfl) (fun _ => rfl) (fun _ _ => h) (fun _ => .inl rfl)
  exact ⟨a.member, a.clock, a.nextId, a.media, a.port, a.peers, a.slots, a.repair, a.entries, a.frames, a.pushes,
    a.fetches⟩

theorem expireEntry_ends (s : State) (t : Tag) : Ends s (expireEntry s t) := by
  have a := finishEntry_ends s t (st := .expired) rfl
  exact ⟨a.member, a.clock, a.nextId, a.media, a.port, a.peers, a.slots, a.repair, a.entries, a.frames, a.pushes,
    a.fetches⟩

/-- An entry after the finishing of a tag: finished where it bears the tag, in its old state otherwise. -/
theorem finishEntry_entry {s : State} {t : Tag} {st : EntryState} {e : Entry} (h : e ∈ (finishEntry s t st).table) :
    ∃ x ∈ s.table, x.tag = e.tag ∧ x.kind = e.kind ∧ (x.tag = t → e.state = st) ∧ (x.tag ≠ t → e.state = x.state) := by
  simp only [finishEntry, dropWaiters, updateEntry, List.mem_map] at h
  obtain ⟨x, hx, rfl⟩ := h
  refine ⟨x, hx, ?_⟩
  by_cases ht : x.tag = t <;> simp [ht]

/-- Finishing, one after the other, the unfinished entries of a kind finishes every entry of the kind. -/
theorem doneKind_foldl {k : EntryKind} {act : State → Entry → State}
    (each : ∀ u (e x : Entry), x ∈ (act u e).table → ∃ y ∈ u.table, y.tag = x.tag ∧ y.kind = x.kind
      ∧ (y.tag = e.tag → x.state.finished = true) ∧ (y.tag ≠ e.tag → x.state = y.state)) (u : State) :
    DoneKind k ((u.table.filter fun e => decide (e.kind = k) && !e.state.finished).foldl act u) := by
  have fold : ∀ (l : List Entry) (u : State), ∀ x ∈ (l.foldl act u).table, ∃ y ∈ u.table, y.tag = x.tag
      ∧ y.kind = x.kind ∧ ((∃ e ∈ l, e.tag = y.tag) → x.state.finished = true)
      ∧ ((∀ e ∈ l, e.tag ≠ y.tag) → x.state = y.state) := by
    intro l
    induction l with
    | nil => exact fun _ x hx => ⟨x, hx, rfl, rfl, by simp, fun _ => rfl⟩
    | cons a l ih =>
      intro u x hx
      obtain ⟨y, hy, h1, h2, h3, h4⟩ := ih (act u a) x hx
      obtain ⟨z, hz, k1, k2, k3, k4⟩ := each u a y hy
      refine ⟨z, hz, k1.trans h1, k2.trans h2, ?_, ?_⟩
      · rintro ⟨e, he, het⟩
        by_cases hl : ∃ e ∈ l, e.tag = y.tag
        · exact h3 hl
        · push Not at hl
          rw [h4 hl]
          rcases List.mem_cons.1 he with rfl | he
          · exact k3 het.symm
          · exact absurd (het.trans k1) (hl e he)
      · intro hall
        rw [h4 fun e he => k1 ▸ hall e (List.mem_cons_of_mem _ he)]
        exact k4 fun e => hall a List.mem_cons_self e.symm
  intro x hx hk
  obtain ⟨y, hy, h1, h2, h3, h4⟩ := fold _ u x hx
  by_cases hf : y.state.finished = true
  · by_cases hl : ∃ e : Entry, e ∈ u.table.filter (fun e => decide (e.kind = k) && !e.state.finished) ∧ e.tag = y.tag
    · exact h3 hl
    · rw [h4 fun e he ht => hl ⟨e, he, ht⟩]
      exact hf
  · exact h3 ⟨y, List.mem_filter.2 ⟨hy, by simp [h2, hk, hf]⟩, rfl⟩

theorem expireKind_ends (s : State) (k : EntryKind) : Ends s (expireKind s k) := by
  unfold expireKind
  exact ends_foldl (fun u (e : Entry) => expireEntry u e.tag) (fun u e => expireEntry_ends u e.tag) _ s

theorem expireKind_done (s : State) (k : EntryKind) : DoneKind k (expireKind s k) := by
  refine doneKind_foldl (fun u e x hx => ?_) s
  obtain ⟨y, a, b, c, d, f⟩ := finishEntry_entry hx
  exact ⟨y, a, b, c, fun h => by rw [d h]; rfl, f⟩

theorem expireWrites_ends (s : State) : Ends s (expireWrites s) := by
  have each : ∀ (u : State) (e : Entry),
      Ends u (expireEntry (updateEntry u e.tag fun x => { x with ackWindow := none }) e.tag) := fun u e =>
    (updateEntry_ends u e.tag (fun x => { x with ackWindow := none }) (fun _ => rfl)
      (fun _ => rfl) (fun _ h => h) fun _ => .inr ⟨rfl, rfl⟩).trans (expireEntry_ends _ e.tag)
  unfold expireWrites
  exact ends_foldl _ each _ s

theorem expireWrites_done (s : State) : DoneKind .clientWrite (expireWrites s) := by
  refine doneKind_foldl (fun u e x hx => ?_) s
  obtain ⟨y, hy, b, c, d, f⟩ := finishEntry_entry hx
  simp only [updateEntry, List.mem_map] at hy
  obtain ⟨z, hz, rfl⟩ := hy
  have same : ∀ w, w = (if z.tag = e.tag then { z with ackWindow := none } else z) →
      w.tag = z.tag ∧ w.kind = z.kind ∧ w.state = z.state := by
    rintro _ rfl
    split <;> exact ⟨rfl, rfl, rfl⟩
  obtain ⟨h1, h2, h3⟩ := same _ rfl
  rw [h1] at b d f
  rw [h2] at c
  rw [h3] at f
  exact ⟨z, hz, b, c, fun h => by rw [d h]; rfl, f⟩

/-! ### Frames -/

theorem afterWithdrawal_ends (s : State) (f : TxFrame) (w : Withdrawal)
    (h : ∀ st, w = .entryBecomes st → st.finished = true) : Ends s (afterWithdrawal s f w) := by
  unfold afterWithdrawal
  dsimp only
  have first : ∀ u : State, u = (match f.purpose with
      | .replayDone p true => { s with replay := { s.replay with overflow := s.replay.overflow ||| markOf p } }
      | .readAnswer | .fetchAnswer =>
        if f.frame.kind = Kind.data then updateEntry s f.frame.tag fun e => { e with sent := none } else s
      | _ => s) → Ends s u := by
    have sent := updateEntry_ends s f.frame.tag (fun e => { e with sent := none }) (fun _ => rfl) (fun _ => rfl)
      (fun _ h => h) (fun _ => .inr ⟨rfl, rfl⟩)
    rintro _ rfl
    split
    · exact ⟨rfl, rfl, rfl, rfl, rfl, rfl, rfl, rfl, (Ends.refl s).entries, (Ends.refl s).frames, fun _ => id,
        fun _ => id⟩
    · split
      · exact sent
      · exact Ends.refl s
    · split
      · exact sent
      · exact Ends.refl s
    · exact Ends.refl s
  cases w with
  | plain => exact first _ rfl
  | entryBecomes st =>
    dsimp only
    split
    · exact first _ rfl
    · split
      · split
        · exact (first _ rfl).trans (expireEntry_ends _ _)
        · exact (first _ rfl).trans (finishEntry_ends _ _ (h st rfl))
      · exact first _ rfl

theorem afterWithdrawal_queue (s : State) (f : TxFrame) (w : Withdrawal) :
    (afterWithdrawal s f w).bus = s.bus := by
  have ends : ∀ (u : State) (t : Tag), (expireEntry u t).bus = u.bus := fun _ _ => rfl
  have finish : ∀ (u : State) (t : Tag) (st : EntryState), (finishEntry u t st).bus = u.bus := fun _ _ _ => rfl
  unfold afterWithdrawal
  dsimp only
  have first : ∀ u : State, u = (match f.purpose with
      | .replayDone p true => { s with replay := { s.replay with overflow := s.replay.overflow ||| markOf p } }
      | .readAnswer | .fetchAnswer =>
        if f.frame.kind = Kind.data then updateEntry s f.frame.tag fun e => { e with sent := none } else s
      | _ => s) → u.bus = s.bus := by
    rintro _ rfl
    split
    · rfl
    · split <;> rfl
    · split <;> rfl
    · rfl
  cases w with
  | plain => exact first _ rfl
  | entryBecomes st =>
    dsimp only
    split
    · exact first _ rfl
    · split
      · split
        · exact (ends _ _).trans (first _ rfl)
        · exact (finish _ _ _).trans (first _ rfl)
      · exact first _ rfl

/-- What is left of the transmit queue by a withdrawal (R187). -/
theorem withdraw_queue (s : State) (sel : TxFrame → Bool) (w : Withdrawal) :
    (withdraw s sel w).bus.queue
      = (s.bus.queue.filter fun f => !(sel f && decide (f.phase = .queued))).map fun f =>
          if sel f && decide (f.phase = .contending) then { f with withdrawal := some w } else f := by
  have fold : ∀ (l : List TxFrame) (u : State),
      (l.foldl (fun s f => afterWithdrawal s f w) u).bus = u.bus := by
    intro l
    induction l with
    | nil => exact fun _ => rfl
    | cons f l ih => exact fun u => (ih _).trans (afterWithdrawal_queue u f w)
  unfold withdraw
  dsimp only
  split
  · rfl
  · rw [fold]
    rfl

/-- After a withdrawal no frame it selects is queued, and what is queued was so before (R187). -/
theorem withdraw_gone {s : State} {sel : TxFrame → Bool} {w : Withdrawal} {f : TxFrame}
    (h : f ∈ (withdraw s sel w).bus.queue) (q : f.phase = .queued) : f ∈ s.bus.queue ∧ sel f = false := by
  rw [withdraw_queue, List.mem_map] at h
  obtain ⟨g, hg, rfl⟩ := h
  obtain ⟨hg, hs⟩ := List.mem_filter.1 hg
  by_cases hc : (sel g && decide (g.phase = .contending)) = true
  · rw [if_pos hc] at q
    rw [Bool.and_eq_true, decide_eq_true_eq] at hc
    rw [show g.phase = .queued from q] at hc
    exact absurd hc.2 (by decide)
  · rw [if_neg hc] at q ⊢
    refine ⟨hg, ?_⟩
    simpa [q] using hs

theorem withdraw_ends (s : State) (sel : TxFrame → Bool) (w : Withdrawal)
    (h : ∀ st, w = .entryBecomes st → st.finished = true) : Ends s (withdraw s sel w) := by
  have frames : ∀ q : List TxFrame, q = (s.bus.queue.filter fun f => !(sel f && decide (f.phase = .queued))).map (fun f =>
          if sel f && decide (f.phase = .contending) then { f with withdrawal := some w } else f) →
      ∀ f ∈ q, (f.phase = .queued → f ∈ s.bus.queue)
        ∧ ∃ g ∈ s.bus.queue, g.frame = f.frame ∧ g.purpose = f.purpose ∧ g.phase = f.phase := by
    rintro _ rfl f hf
    obtain ⟨g, hg, rfl⟩ := List.mem_map.1 hf
    have hg' := (List.mem_filter.1 hg).1
    by_cases hc : (sel g && decide (g.phase = .contending)) = true
    · rw [if_pos hc]
      refine ⟨fun q => ?_, g, hg', rfl, rfl, rfl⟩
      rw [Bool.and_eq_true, decide_eq_true_eq] at hc
      rw [show g.phase = .queued from q] at hc
      exact absurd hc.2 (by decide)
    · rw [if_neg hc]
      exact ⟨fun _ => hg', g, hg', rfl, rfl, rfl⟩
  unfold withdraw
  dsimp only
  split
  · exact ⟨rfl, rfl, rfl, rfl, rfl, rfl, rfl, rfl, (Ends.refl s).entries, frames _ rfl, fun _ => id, fun _ => id⟩
  · refine Ends.trans ?_ (ends_foldl _ (fun u f => afterWithdrawal_ends u f w h) _ _)
    exact ⟨rfl, rfl, rfl, rfl, rfl, rfl, rfl, rfl, (Ends.refl s).entries, frames _ rfl, fun _ => id, fun _ => id⟩

theorem withdraw_plain_ends (s : State) (sel : TxFrame → Bool) : Ends s (withdraw s sel .plain) :=
  withdraw_ends s sel .plain (fun _ h => nomatch h)

/-- A withdrawal touches no push and no missed-write list. -/
theorem withdraw_lists (s : State) (sel : TxFrame → Bool) (w : Withdrawal) :
    (withdraw s sel w).replay.pool = s.replay.pool ∧ (withdraw s sel w).replay.pushes = s.replay.pushes := by
  have after : ∀ (u : State) (f : TxFrame), (afterWithdrawal u f w).replay.pool = u.replay.pool
      ∧ (afterWithdrawal u f w).replay.pushes = u.replay.pushes := by
    intro u f
    unfold afterWithdrawal
    dsimp only
    have first : ∀ v : State, v = (match f.purpose with
        | .replayDone p true => { u with replay := { u.replay with overflow := u.replay.overflow ||| markOf p } }
        | .readAnswer | .fetchAnswer =>
          if f.frame.kind = Kind.data then updateEntry u f.frame.tag fun e => { e with sent := none } else u
        | _ => u) → v.replay.pool = u.replay.pool ∧ v.replay.pushes = u.replay.pushes := by
      rintro _ rfl
      split
      · exact ⟨rfl, rfl⟩
      · split <;> exact ⟨rfl, rfl⟩
      · split <;> exact ⟨rfl, rfl⟩
      · exact ⟨rfl, rfl⟩
    have ends : ∀ (v : State) (t : Tag), (expireEntry v t).replay = v.replay := fun _ _ => rfl
    have finish : ∀ (v : State) (t : Tag) (st : EntryState), (finishEntry v t st).replay = v.replay := fun _ _ _ => rfl
    cases w with
    | plain => exact first _ rfl
    | entryBecomes st =>
      dsimp only
      split
      · exact first _ rfl
      · split
        · split
          · rw [ends]
            exact first _ rfl
          · rw [finish]
            exact first _ rfl
        · exact first _ rfl
  have fold : ∀ (l : List TxFrame) (u : State), (l.foldl (fun s f => afterWithdrawal s f w) u).replay.pool = u.replay.pool
      ∧ (l.foldl (fun s f => afterWithdrawal s f w) u).replay.pushes = u.replay.pushes := by
    intro l
    induction l with
    | nil => exact fun _ => ⟨rfl, rfl⟩
    | cons f l ih =>
      intro u
      rw [List.foldl_cons, (ih _).1, (ih _).2]
      exact after u f
  unfold withdraw
  dsimp only
  split
  · exact ⟨rfl, rfl⟩
  · exact fold _ _

/-! ### Answers of a kind (R56, R70) -/

theorem closeAnswers_ends (s : State) (k : EntryKind) (p : Purpose) {st : EntryState} (h : st.finished = true) :
    Ends s (closeAnswers s k p st) := by
  refine Ends.trans (ends_foldl _ (fun u e => ?_) _ _) (withdraw_ends _ _ _ ?_)
  · split
    · exact expireEntry_ends _ _
    · exact finishEntry_ends _ _ h
  · rintro _ ⟨⟩
    exact h

theorem closeAnswers_done (s : State) (k : EntryKind) (p : Purpose) {st : EntryState} (h : st.finished = true) :
    DoneKind k (closeAnswers s k p st) := by
  refine (withdraw_ends _ _ _ ?_).done (doneKind_foldl (fun u e x hx => ?_) s)
  · rintro _ ⟨⟩
    exact h
  · split at hx
    · obtain ⟨y, a, b, c, d, f⟩ := finishEntry_entry hx
      exact ⟨y, a, b, c, fun h => by rw [d h]; rfl, f⟩
    · obtain ⟨y, a, b, c, d, f⟩ := finishEntry_entry hx
      exact ⟨y, a, b, c, fun h' => by rw [d h']; exact h, f⟩

/-- No answer of the purpose is queued any more. -/
theorem closeAnswers_gone {s : State} {k : EntryKind} {p : Purpose} {st : EntryState} {f : TxFrame}
    (h : f ∈ (closeAnswers s k p st).bus.queue) (q : f.phase = .queued) : f.purpose ≠ p := by
  have := (withdraw_gone h q).2
  simpa [forPurpose] using this

/-- The end of answers touches no push and no missed-write list. -/
theorem closeAnswers_lists (s : State) (k : EntryKind) (p : Purpose) (st : EntryState) :
    (closeAnswers s k p st).replay.pool = s.replay.pool ∧ (closeAnswers s k p st).replay.pushes = s.replay.pushes := by
  have fold : ∀ (l : List Entry) (u : State),
      (l.foldl (fun s e => if st = .expired then expireEntry s e.tag else finishEntry s e.tag st) u).replay
        = u.replay := by
    intro l
    induction l with
    | nil => exact fun _ => rfl
    | cons e l ih =>
      intro u
      rw [List.foldl_cons, ih]
      split <;> rfl
  unfold closeAnswers
  dsimp only
  rw [(withdraw_lists _ _ _).1, (withdraw_lists _ _ _).2, fold]
  exact ⟨rfl, rfl⟩

/-! ### Pushes and fetches (R130, R148) -/

theorem closeOwn_ends (s : State) (t : Tag) {st : EntryState} (h : st.finished = true) : Ends s (closeOwn s t st) := by
  unfold closeOwn
  split
  · exact Ends.refl s
  · split
    · split
      · exact expireEntry_ends _ _
      · exact finishEntry_ends _ _ h
    · exact Ends.refl s

theorem closeOwn_recovery (s : State) (t : Tag) (st : EntryState) :
    (closeOwn s t st).replay = s.replay ∧ (closeOwn s t st).repair = s.repair := by
  unfold closeOwn
  split
  · exact ⟨rfl, rfl⟩
  · split
    · split <;> exact ⟨rfl, rfl⟩
    · exact ⟨rfl, rfl⟩

theorem endPush_ends (s : State) (p : Push) (retry : Option Nat) {st : EntryState} (h : st.finished = true) :
    Ends s (endPush s p retry st) := by
  unfold endPush
  dsimp only
  have first : Ends s (dropWaiters { s with replay := { s.replay with
      pushes := s.replay.pushes.filter fun q => decide (q.id ≠ p.id)
      pool := s.replay.pool.map fun m =>
        if m.peer = p.peer ∧ m.block = p.block then { m with push := false, retry := retry } else m } }
      fun u => decide (u = .push p.id)) :=
    ⟨rfl, rfl, rfl, rfl, rfl, rfl, rfl, rfl, (Ends.refl s).entries, (Ends.refl s).frames,
      fun q hq => (List.mem_filter.1 hq).1, fun _ => id⟩
  split
  · exact first
  · exact (first.trans (closeOwn_ends _ _ h)).trans (withdraw_plain_ends _ _)

theorem endPush_pushes (s : State) (p : Push) (retry : Option Nat) (st : EntryState) :
    (endPush s p retry st).replay.pushes = s.replay.pushes.filter fun q => decide (q.id ≠ p.id) := by
  unfold endPush
  dsimp only
  split
  · rfl
  · rw [withdraw_plain_pushes, (closeOwn_recovery _ _ _).1]
    rfl

theorem endFetch_ends (s : State) (f : Fetch) {st : EntryState} (h : st.finished = true) :
    Ends s (endFetch s f st) := by
  unfold endFetch
  dsimp only
  have first : Ends s (dropWaiters { s with repair := { s.repair with
      fetches := s.repair.fetches.filter fun g => decide (g.id ≠ f.id) } } fun u => decide (u = .fetch f.id)) :=
    ⟨rfl, rfl, rfl, rfl, rfl, rfl, rfl, rfl, (Ends.refl s).entries, (Ends.refl s).frames, fun _ => id,
      fun q hq => (List.mem_filter.1 hq).1⟩
  split
  · exact first
  · exact (first.trans (closeOwn_ends _ _ h)).trans (withdraw_plain_ends _ _)

theorem endFetch_fetches (s : State) (f : Fetch) (st : EntryState) :
    (endFetch s f st).repair.fetches = s.repair.fetches.filter fun g => decide (g.id ≠ f.id) := by
  unfold endFetch
  dsimp only
  split
  · rfl
  · rw [withdraw_plain_repair, (closeOwn_recovery _ _ _).2]
    rfl

/-- The end of a fetch touches no push and no missed-write list. -/
theorem endFetch_replay (s : State) (f : Fetch) (st : EntryState) :
    (endFetch s f st).replay.pool = s.replay.pool ∧ (endFetch s f st).replay.pushes = s.replay.pushes := by
  unfold endFetch
  dsimp only
  split
  · exact ⟨rfl, rfl⟩
  · rw [withdraw_plain_pool, withdraw_plain_pushes, (closeOwn_recovery _ _ _).1]
    exact ⟨rfl, rfl⟩

theorem endPushes_ends (s : State) (sel : Push → Bool) {st : EntryState} (h : st.finished = true) :
    Ends s (endPushes s sel st) := ends_foldl _ (fun u p => endPush_ends u p none h) _ _

theorem endFetches_ends (s : State) (sel : Fetch → Bool) {st : EntryState} (h : st.finished = true) :
    Ends s (endFetches s sel st) := ends_foldl _ (fun u f => endFetch_ends u f h) _ _

theorem endFetches_replay (s : State) (sel : Fetch → Bool) (st : EntryState) :
    (endFetches s sel st).replay.pool = s.replay.pool ∧ (endFetches s sel st).replay.pushes = s.replay.pushes := by
  have fold : ∀ (l : List Fetch) (u : State), (l.foldl (fun s f => endFetch s f st) u).replay.pool = u.replay.pool
      ∧ (l.foldl (fun s f => endFetch s f st) u).replay.pushes = u.replay.pushes := by
    intro l
    induction l with
    | nil => exact fun _ => ⟨rfl, rfl⟩
    | cons f l ih =>
      intro u
      rw [List.foldl_cons, (ih _).1, (ih _).2]
      exact endFetch_replay u f st
  exact fold _ s

/-- No push that meets the test is left. -/
theorem endPushes_gone {s : State} {sel : Push → Bool} {st : EntryState} {p : Push}
    (h : p ∈ (endPushes s sel st).replay.pushes) : p ∈ s.replay.pushes ∧ sel p = false := by
  have fold : ∀ (l : List Push) (u : State), p ∈ (l.foldl (fun s q => endPush s q none st) u).replay.pushes →
      p ∈ u.replay.pushes ∧ ∀ q ∈ l, p.id ≠ q.id := by
    intro l
    induction l with
    | nil => exact fun _ h => ⟨h, by simp⟩
    | cons a l ih =>
      intro u h
      obtain ⟨h1, h2⟩ := ih _ h
      rw [endPush_pushes, List.mem_filter] at h1
      refine ⟨h1.1, fun q hq => ?_⟩
      rcases List.mem_cons.1 hq with rfl | hq
      · simpa using h1.2
      · exact h2 q hq
  obtain ⟨h1, h2⟩ := fold _ s h
  refine ⟨h1, ?_⟩
  by_contra hs
  exact h2 p (List.mem_filter.2 ⟨h1, by simpa using hs⟩) rfl

/-- No fetch that meets the test is left. -/
theorem endFetches_gone {s : State} {sel : Fetch → Bool} {st : EntryState} {f : Fetch}
    (h : f ∈ (endFetches s sel st).repair.fetches) : f ∈ s.repair.fetches ∧ sel f = false := by
  have fold : ∀ (l : List Fetch) (u : State), f ∈ (l.foldl (fun s g => endFetch s g st) u).repair.fetches →
      f ∈ u.repair.fetches ∧ ∀ g ∈ l, f.id ≠ g.id := by
    intro l
    induction l with
    | nil => exact fun _ h => ⟨h, by simp⟩
    | cons a l ih =>
      intro u h
      obtain ⟨h1, h2⟩ := ih _ h
      rw [endFetch_fetches, List.mem_filter] at h1
      refine ⟨h1.1, fun q hq => ?_⟩
      rcases List.mem_cons.1 hq with rfl | hq
      · simpa using h1.2
      · exact h2 q hq
  obtain ⟨h1, h2⟩ := fold _ s h
  refine ⟨h1, ?_⟩
  by_contra hs
  exact h2 f (List.mem_filter.2 ⟨h1, by simpa using hs⟩) rfl

/-! ### The repair list holds back what waits to be sent (R139) -/

theorem holdBack_ends (s : State) (b : Block) : Ends s (holdBack s b) := by
  unfold holdBack
  dsimp only
  refine ((withdraw_plain_ends _ _).trans (withdraw_ends _ _ _ ?_)).trans (endPushes_ends _ _ rfl)
  rintro _ ⟨⟩
  rfl

end Sys2Proof.Machine
end

