-- ==== Sys2Proof/Laws/Commits.lean ====
section
/-! SUPPORT. What a commit and its report leave, said once: the ends of work beside a commit touch neither the slots nor the Media Port, and an accepted commit sets its slot, frees or retires the former one and issues its record. -/

-- One proof after another: side by side, the proofs of this file wait on each other and take a thread each.
set_option Elab.async false

namespace Sys2Proof.Machine

/-! ### What works aside of the cache -/

/-- `t` comes from `s` by an operation that leaves the Block Cache, but for lookups that wait no more, the Media Port,
the Membership Controller and the clock as they are. -/
structure Aside (s t : State) : Prop where
  cache : t.cache = { s.cache with waiters := t.cache.waiters }
  port : t.port = s.port
  member : t.member = s.member
  clock : t.clock = s.clock

theorem Aside.refl (s : State) : Aside s s := ⟨rfl, rfl, rfl, rfl⟩

theorem Aside.trans {s t u : State} (a : Aside s t) (b : Aside t u) : Aside s u :=
  ⟨by rw [b.cache, a.cache], b.port.trans a.port, b.member.trans a.member, b.clock.trans a.clock⟩

/-- `Aside.trans` from the end: the last operation is taken off. -/
theorem Aside.after {s t u : State} (b : Aside t u) (a : Aside s t) : Aside s u := a.trans b

theorem aside_foldl {α : Type} (f : State → α → State) (hf : ∀ u x, Aside u (f u x)) (l : List α) :
    ∀ u : State, Aside u (l.foldl f u) := by
  induction l with
  | nil => exact Aside.refl
  | cons x l ih => exact fun u => (hf u x).trans (ih (f u x))

theorem Aside.slots {s t : State} (a : Aside s t) : t.cache.slots = s.cache.slots := by rw [a.cache]

theorem Aside.slotAt {s t : State} (a : Aside s t) (i : Nat) : slotAt t i = slotAt s i := by
  simp only [Machine.slotAt, a.slots]

theorem Aside.currentSlot {s t : State} (a : Aside s t) (b : Block) : currentSlot t b = currentSlot s b := by
  simp only [Machine.currentSlot, a.slots]

theorem Aside.currentCopy {s t : State} (a : Aside s t) (b : Block) : currentCopy t b = currentCopy s b := by
  simp only [Machine.currentCopy, a.currentSlot, a.slotAt]

theorem Aside.heldVersion {s t : State} (a : Aside s t) (b : Block) : heldVersion t b = heldVersion s b := by
  simp only [Machine.heldVersion, a.currentCopy]

theorem Aside.waiting {s t : State} (a : Aside s t) : t.cache.waiting = s.cache.waiting := by rw [a.cache]

theorem Aside.pendings {s t : State} (a : Aside s t) : t.cache.pendings = s.cache.pendings := by rw [a.cache]

theorem offer_aside (s : State) (f : Frame) (p : Purpose) : Aside s (offer s f p) := by
  unfold offer
  split
  · exact ⟨rfl, rfl, rfl, rfl⟩
  · split <;> exact ⟨rfl, rfl, rfl, rfl⟩

theorem finishEntry_aside (s : State) (t : Tag) (st : EntryState) : Aside s (finishEntry s t st) :=
  ⟨rfl, rfl, rfl, rfl⟩

theorem expireEntry_aside (s : State) (t : Tag) : Aside s (expireEntry s t) := ⟨rfl, rfl, rfl, rfl⟩

theorem afterWithdrawal_aside (s : State) (f : TxFrame) (w : Withdrawal) : Aside s (afterWithdrawal s f w) := by
  unfold afterWithdrawal
  dsimp only
  have first : ∀ u : State, u = (match f.purpose with
      | .replayDone p true => { s with replay := { s.replay with overflow := s.replay.overflow ||| markOf p } }
      | .readAnswer | .fetchAnswer =>
        if f.frame.kind = Kind.data then updateEntry s f.frame.tag fun e => { e with sent := none } else s
      | _ => s) → Aside s u := by
    rintro _ rfl
    split
    · exact ⟨rfl, rfl, rfl, rfl⟩
    · split <;> exact ⟨rfl, rfl, rfl, rfl⟩
    · split <;> exact ⟨rfl, rfl, rfl, rfl⟩
    · exact Aside.refl s
  cases w with
  | plain => exact first _ rfl
  | entryBecomes st =>
    dsimp only
    split
    · exact first _ rfl
    · split
      · split
        · exact (first _ rfl).trans (expireEntry_aside _ _)
        · exact (first _ rfl).trans (finishEntry_aside _ _ _)
      · exact first _ rfl

theorem withdraw_aside (s : State) (sel : TxFrame → Bool) (w : Withdrawal) : Aside s (withdraw s sel w) := by
  unfold withdraw
  dsimp only
  split
  · exact ⟨rfl, rfl, rfl, rfl⟩
  · exact (aside_foldl (fun u f => afterWithdrawal u f w) (fun u f => afterWithdrawal_aside u f w) _ _).after
      ⟨rfl, rfl, rfl, rfl⟩

theorem closeOwn_aside (s : State) (t : Tag) (st : EntryState) : Aside s (closeOwn s t st) := by
  unfold closeOwn
  split
  · exact Aside.refl s
  · split
    · split
      · exact expireEntry_aside _ _
      · exact finishEntry_aside _ _ _
    · exact Aside.refl s

theorem endPush_aside (s : State) (p : Push) (retry : Option Nat) (st : EntryState) :
    Aside s (endPush s p retry st) := by
  unfold endPush
  dsimp only
  split
  · exact ⟨rfl, rfl, rfl, rfl⟩
  · exact (withdraw_aside _ _ _).after ((closeOwn_aside _ _ _).after ⟨rfl, rfl, rfl, rfl⟩)

theorem endFetch_aside (s : State) (f : Fetch) (st : EntryState) : Aside s (endFetch s f st) := by
  unfold endFetch
  dsimp only
  split
  · exact ⟨rfl, rfl, rfl, rfl⟩
  · exact (withdraw_aside _ _ _).after ((closeOwn_aside _ _ _).after ⟨rfl, rfl, rfl, rfl⟩)

theorem endFetches_aside (s : State) (sel : Fetch → Bool) (st : EntryState) : Aside s (endFetches s sel st) :=
  aside_foldl _ (fun u f => endFetch_aside u f st) _ _

theorem holdBack_aside (s : State) (b : Block) : Aside s (holdBack s b) := by
  unfold holdBack
  dsimp only
  exact ((withdraw_aside _ _ _).trans (withdraw_aside _ _ _)).trans
    (aside_foldl _ (fun u p => endPush_aside u p none .done) _ _)

theorem placeReady_aside (s : State) (b : Block) : Aside s (placeReady s b) :=
  (holdBack_aside _ _).after ⟨rfl, rfl, rfl, rfl⟩

theorem fillRoom_aside (s : State) : Aside s (fillRoom s) := by
  unfold fillRoom
  dsimp only
  split
  · exact ⟨rfl, rfl, rfl, rfl⟩
  · split
    · exact (placeReady_aside _ _).after ⟨rfl, rfl, rfl, rfl⟩
    · exact ⟨rfl, rfl, rfl, rfl⟩

theorem unlistBlock_aside (s : State) (b : Block) : Aside s (unlistBlock s b) := by
  unfold unlistBlock
  split
  · exact (fillRoom_aside _).after ((endFetches_aside _ _ _).after ⟨rfl, rfl, rfl, rfl⟩)
  · exact Aside.refl s

theorem settleFetch_aside (s : State) (f : Fetch) : Aside s (settleFetch s f) := by
  unfold settleFetch
  split
  · exact (endFetch_aside _ _ _).trans (unlistBlock_aside _ _)
  · exact endFetch_aside _ _ _

/-- The report of a commit leaves the cache alone. -/
theorem reportCommit_aside (s : State) (b : Block) (src : CommitSource) (holds : Version) :
    Aside s (reportCommit s b src holds) := by
  unfold reportCommit
  split
  · exact offer_aside _ _ _
  · split
    · exact Aside.refl s
    · exact settleFetch_aside _ _

theorem commitSettles_aside (s : State) (b : Block) (i : Nat) : Aside s (commitSettles s b i) :=
  (unlistBlock_aside _ _).after ⟨rfl, rfl, rfl, rfl⟩

/-! ### A block leaves the repair list (R141) -/

/-- A place that falls free is taken by no block but one that waits for room. -/
theorem fillRoom_unlisted {s : State} {b : Block} (hw : b ∉ s.repair.waitingRoom) (hl : isListed s b = false) :
    isListed (fillRoom s) b = false := by
  unfold fillRoom
  dsimp only
  split
  · exact hl
  · rename_i c rest hr
    have hc : c ≠ b := by
      rintro rfl
      have : c ∈ (dropListedRoom s).repair.waitingRoom := by rw [hr]; exact List.mem_cons_self
      exact hw (List.mem_filter.1 this).1
    split
    · unfold placeReady isListed
      rw [(holdBack_ends _ c).repair]
      show List.any (s.repair.list ++ [_]) _ = false
      rw [List.any_append, show s.repair.list.any (fun e => decide (e.block = b)) = false from hl]
      simp [hc]
    · exact hl

theorem unlistBlock_unlisted {s : State} {b : Block} (hw : b ∉ s.repair.waitingRoom) :
    isListed (unlistBlock s b) b = false := by
  unfold unlistBlock
  split
  · have E := endFetches_ends { s with repair := { s.repair with
        list := s.repair.list.filter fun e => decide (e.block ≠ b) } }
        (fun f => decide (f.block = b) && !f.sweep && decide (f.phase ≠ .committing)) (st := .done) rfl
    exact fillRoom_unlisted (by rw [E.repair]; exact hw) (by unfold isListed; rw [E.repair]; simp)
  · simpa using ‹¬isListed s b = true›

/-! ### Issued commands (R83) -/

theorem serveHead_aside (s : State) :
    (serveHead s).cache = s.cache ∧ (serveHead s).member = s.member ∧ (serveHead s).clock = s.clock
      ∧ (serveHead s).table = s.table ∧ (serveHead s).repair = s.repair ∧ (serveHead s).port.queue = s.port.queue
      ∧ (serveHead s).port.down = s.port.down := by
  unfold serveHead
  split
  · exact ⟨rfl, rfl, rfl, rfl, rfl, rfl, rfl⟩
  · split <;> exact ⟨rfl, rfl, rfl, rfl, rfl, rfl, rfl⟩

/-- An issued command goes to the end of the queue, or behind the commands that wait; nothing else is touched but the
service of the port. -/
theorem issue_spec (s : State) (c : MediaCmd) :
    (issue s c).cache = { s.cache with waiting := (issue s c).cache.waiting } ∧ (issue s c).member = s.member
      ∧ (issue s c).clock = s.clock ∧ (issue s c).table = s.table ∧ (issue s c).repair = s.repair
      ∧ (issue s c).port.down = s.port.down
      ∧ (s.port.down = true → issue s c = s)
      ∧ (s.port.down = false → s.cache.waiting = [] → s.port.queue.length < 8 →
        (issue s c).port.queue = s.port.queue ++ [c] ∧ (issue s c).cache.waiting = [])
      ∧ (s.port.down = false → (s.cache.waiting ≠ [] ∨ 8 ≤ s.port.queue.length) →
        (issue s c).port = s.port ∧ (issue s c).cache.waiting = s.cache.waiting ++ [c]) := by
  unfold issue
  by_cases hd : s.port.down = true
  · rw [if_pos hd]
    simp [hd]
  · rw [if_neg hd]
    have hd' : s.port.down = false := by simpa using hd
    by_cases hq : s.cache.waiting = [] ∧ s.port.queue.length < Config.mediaQueueSize
    · rw [if_pos hq]
      obtain ⟨h1, h2, h3, h4, h5, h6, h7⟩ := serveHead_aside { s with port := { s.port with queue := s.port.queue ++ [c] } }
      refine ⟨by rw [h1], h2, h3, h4, h5, h7, fun h => absurd h hd, fun _ _ _ => ⟨h6, by rw [h1]; exact hq.1⟩, ?_⟩
      rintro - (h | h)
      · exact absurd hq.1 h
      · exact absurd hq.2 (Nat.not_lt.2 h)
    · rw [if_neg hq]
      exact ⟨rfl, rfl, rfl, rfl, rfl, rfl, fun h => absurd h hd, fun _ h1 h2 => absurd ⟨h1, h2⟩ hq,
        fun _ _ => ⟨rfl, rfl⟩⟩

/-! ### An accepted commit (R79) -/

/-- A block with a copy at this place, no other slot being current for it. -/
theorem currentCopy_at {s : State} {i : Nat} {x : Slot} {b : Block} {v : Version} {d : Data}
    (h : SingleCurrent s.cache.slots) (hx : s.cache.slots[i]? = some x) (hb : x.currentBlock = some b)
    (hc : x.copy = some (v, d)) : currentCopy s b = some (i, v, d) := by
  have hi : currentSlot s b = some i := by
    cases hj : currentSlot s b with
    | none => exact absurd (by rw [hx]; exact hb) (currentSlot_none hj i)
    | some j => rw [h j i b (currentSlot_some hj) (by rw [hx]; exact hb)]
  unfold currentCopy
  rw [hi]
  simp [slotAt, List.getD_eq_getElem?_getD, hx, hc]

/-- The slots once the former current slot of the block has given way to slot `i`. -/
def givenWay (s : State) (b : Block) (i : Nat) : List Slot :=
  match currentSlot s b with
  | none => s.cache.slots
  | some j => if j = i then s.cache.slots else s.cache.slots.set j
    (match slotAt s j with
      | .writing b' v' d' => .retiring b' v' d'
      | .free | .held .. | .filling .. | .clean .. | .dirty .. | .retiring .. => .free)

theorem retireFormer_eq (s : State) (b : Block) (i : Nat) :
    retireFormer s b i = { s with cache := { s.cache with slots := givenWay s b i } } := by
  unfold retireFormer givenWay
  cases currentSlot s b with
  | none => rfl
  | some j =>
    dsimp only
    by_cases h : j = i
    · rw [if_pos h, if_pos h]
    · rw [if_neg h, if_neg h]
      cases slotAt s j <;> rfl

theorem givenWay_length (s : State) (b : Block) (i : Nat) : (givenWay s b i).length = s.cache.slots.length := by
  unfold givenWay
  split
  · rfl
  · split
    · rfl
    · exact List.length_set

theorem givenWay_other (s : State) (b : Block) (i j : Nat) (h : currentSlot s b ≠ some j ∨ i = j) :
    (givenWay s b i)[j]? = s.cache.slots[j]? := by
  unfold givenWay
  split
  · rfl
  · rename_i k hk
    split
    · rfl
    · rw [List.getElem?_set_ne]
      rintro rfl
      rcases h with h | h
      · exact h hk
      · exact absurd h.symm ‹_›

/-- What an accepted commit leaves in the cache and at the port: its slot current, the former one given way, every
other as before, and with write-back off its WRITE_RECORD issued at once (R79, R85). -/
theorem acceptCommit_spec (s : State) (i : Nat) (b : Block) (v : Version) (d : Data)
    (hl : i < s.cache.slots.length) (h1 : SingleCurrent s.cache.slots) :
    let t := acceptCommit s i b v d
    t.member = s.member ∧ t.clock = s.clock ∧ isListed t b = false ∧ currentCopy t b = some (i, v, d)
      ∧ tagsOf t = tagsOf s ∧ SingleCurrent t.cache.slots ∧ t.port.down = s.port.down
      ∧ t.cache.pendings = s.cache.pendings
      ∧ t.cache.slots = (givenWay s b i).set i
          (if s.member.straps.writeBack then .dirty b v d (s.cache.commitOrder + 1) else .writing b v d)
      ∧ (s.member.straps.writeBack = true → t.port = s.port ∧ t.cache.waiting = s.cache.waiting)
      ∧ (s.member.straps.writeBack = false → s.port.down = false →
        if s.cache.waiting = [] ∧ s.port.queue.length < 8 then
          t.port.queue = s.port.queue ++ [.writeRecord b v d i] ∧ t.cache.waiting = []
        else t.port = s.port ∧ t.cache.waiting = s.cache.waiting ++ [.writeRecord b v d i]) := by
  intro t
  have A := commitSettles_aside (makeCurrent (retireFormer s b i) i b v d) b i
  have K := acceptCommit_keeps s i b v d
  have hlist : isListed t b = false := unlistBlock_unlisted (by simp)
  have slots : t.cache.slots = (givenWay s b i).set i
      (if s.member.straps.writeBack then .dirty b v d (s.cache.commitOrder + 1) else .writing b v d) := by
    refine A.slots.trans ?_
    rw [retireFormer_eq]
    unfold makeCurrent
    dsimp only
    split
    · rfl
    · rw [(issue_spec _ _).1]
      rfl
  have atI : t.cache.slots[i]? = some
      (if s.member.straps.writeBack then .dirty b v d (s.cache.commitOrder + 1) else .writing b v d) := by
    rw [slots, List.getElem?_set_self (by rw [givenWay_length]; exact hl)]
  have made : (makeCurrent (retireFormer s b i) i b v d).member = s.member
      ∧ (makeCurrent (retireFormer s b i) i b v d).clock = s.clock
      ∧ (makeCurrent (retireFormer s b i) i b v d).port.down = s.port.down
      ∧ (makeCurrent (retireFormer s b i) i b v d).cache.pendings = s.cache.pendings := by
    rw [retireFormer_eq]
    unfold makeCurrent
    dsimp only
    split
    · exact ⟨rfl, rfl, rfl, rfl⟩
    · obtain ⟨h1, h2, h3, -, -, h4, -⟩ :=
        issue_spec (setSlot { s with cache := { s.cache with slots := givenWay s b i } } i (.writing b v d))
          (.writeRecord b v d i)
      exact ⟨h2, h3, h4, by rw [h1]; rfl⟩
  refine ⟨A.member.trans made.1, A.clock.trans made.2.1, hlist, ?_, K.tags, K.current h1,
    (congrArg _ A.port).trans made.2.2.1, A.pendings.trans made.2.2.2, slots, fun hw => ?_, fun hw hd => ?_⟩
  · refine currentCopy_at (K.current h1) atI ?_ ?_ <;> split <;> rfl
  · have hm : makeCurrent (retireFormer s b i) i b v d
        = makeDirty (retireFormer s b i) i b v d := by
      unfold makeCurrent
      rw [retireFormer_eq]
      exact if_pos hw
    refine ⟨A.port.trans ?_, A.waiting.trans ?_⟩ <;> rw [hm, retireFormer_eq] <;> rfl
  · have hm : makeCurrent (retireFormer s b i) i b v d
        = issue (setSlot { s with cache := { s.cache with slots := givenWay s b i } } i (.writing b v d))
            (.writeRecord b v d i) := by
      unfold makeCurrent
      rw [retireFormer_eq]
      exact if_neg (by simp [hw])
    obtain ⟨-, -, -, -, -, -, -, h2, h3⟩ :=
      issue_spec (setSlot { s with cache := { s.cache with slots := givenWay s b i } } i (.writing b v d))
        (.writeRecord b v d i)
    split
    · rename_i hq
      obtain ⟨a, c⟩ := h2 hd hq.1 hq.2
      exact ⟨(congrArg (·.queue) A.port).trans ((congrArg (·.port.queue) hm).trans a),
        A.waiting.trans ((congrArg (·.cache.waiting) hm).trans c)⟩
    · rename_i hq
      obtain ⟨a, c⟩ := h3 hd (by
        by_cases hx : s.cache.waiting = []
        · exact .inr (Nat.not_lt.1 fun h => hq ⟨hx, h⟩)
        · exact .inl hx)
      exact ⟨A.port.trans ((congrArg (·.port) hm).trans a), A.waiting.trans ((congrArg (·.cache.waiting) hm).trans c)⟩

end Sys2Proof.Machine
end

