-- ==== Sys2Proof/Laws/Offers.lean ====
section
/-! SUPPORT. What offering a frame does where the transmit queue takes it and where it does not (R186), and the same for each rule that offers a frame again. -/

namespace Sys2Proof.Machine

theorem offer_of_accepts {s : State} {f : Frame} (p : Purpose) (h : accepts s f.kind = true) :
    offer s f p = { s with bus := { s.bus with queue := s.bus.queue ++ [queuedFrame f p] } } := by
  unfold offer
  rw [if_pos h]

theorem offer_of_refused {s : State} {f : Frame} (p : Purpose) (h : accepts s f.kind = false) :
    offer s f p = if isAnswer f.kind then countAnswerDropped s else s := by
  unfold offer
  rw [h]
  rfl

/-- A frame offered touches the transmit queue and the count of answers dropped, and nothing else. -/
theorem offer_spec (s : State) (f : Frame) (p : Purpose) :
    ∃ (bus : Bus) (counters : Counters), offer s f p = { s with bus := bus, counters := counters } := by
  unfold offer
  split
  · exact ⟨_, _, rfl⟩
  · split <;> exact ⟨_, _, rfl⟩

theorem queuePresent_of_accepts {s : State} (h : accepts s .present = true) :
    queuePresent s =
      { s with
        bus := { s.bus with queue := s.bus.queue ++
          [queuedFrame (presentFrame (self s) s.member.candidates (ownConfiguration s)) .present] } } := by
  unfold queuePresent
  rw [if_pos h]
  exact offer_of_accepts _ h

theorem queueRosterQuery_of_accepts {s : State} (h : accepts s .rosterQuery = true) :
    queueRosterQuery s =
      { s with
        member := { s.member with queryTimer := none }
        bus := { s.bus with queue := s.bus.queue ++
          [queuedFrame (rosterQueryFrame (self s)) .rosterQuery] } } := by
  unfold queueRosterQuery
  rw [if_pos h]
  exact offer_of_accepts _ h

theorem queueOwnDown_of_accepts {s : State} (h : accepts s .peerDown = true) :
    queueOwnDown s =
      { s with
        member := { s.member with ownDownReoffer := none }
        bus := { s.bus with queue := s.bus.queue ++
          [queuedFrame (peerDownFrame (self s) (ownNumber s)) .mediaDownNotice] } } := by
  unfold queueOwnDown
  rw [if_pos h]
  exact offer_of_accepts _ h

theorem queueRejoin_of_accepts {s : State} (h : accepts s .rejoin = true) :
    queueRejoin s =
      { s with
        repair := { s.repair with rejoinRequeue := none }
        bus := { s.bus with queue := s.bus.queue ++
          [queuedFrame (rejoinFrame (self s)) (.rejoin s.repair.serial)] } } := by
  unfold queueRejoin
  rw [if_pos h]
  exact offer_of_accepts _ h

theorem queueCaughtUp_of_accepts {s : State} (h : accepts s .caughtUp = true) :
    queueCaughtUp s =
      { s with
        repair := { s.repair with caughtUpRequeue := none }
        bus := { s.bus with queue := s.bus.queue ++ [queuedFrame (caughtUpFrame (self s)) .caughtUp] } } := by
  unfold queueCaughtUp
  rw [if_pos h]
  exact offer_of_accepts _ h

theorem offerReplayDone_of_accepts {s : State} {p : StationNo} (sweep : Bool)
    (h : accepts s .replayDone = true) :
    offerReplayDone s p sweep =
      { s with
        replay := { s.replay with overflow := s.replay.overflow &&& ~~~ markOf p }
        bus := { s.bus with queue := s.bus.queue ++
          [queuedFrame (replayDoneFrame (self s) p sweep) (.replayDone p sweep)] } } := by
  unfold offerReplayDone
  rw [if_pos h]
  exact offer_of_accepts _ h

end Sys2Proof.Machine
end

