-- ==== Sys2Proof/Laws/PerInstr.lean ====
section
/-! SUPPORT. What is true of each command as syntax: the bounds a well-formed one keeps, and the frame that a heard one is the hearing of. -/

-- One proof after another: side by side, the proofs of this file wait on each other and take a thread each.
set_option Elab.async false

namespace Sys2Proof.Laws

open Sys2Proof.Machine

/-! ### Bounds -/

/-- A well-formed command keeps the bounds of its operands that their types do not: a peer and the origin of the station's own
tag are store stations, and a listed block lies below the greatest volume (R8, R62, R109, R124, R139). -/
def Bounds.Statement (i : Instr) : Prop :=
  i.wellFormed = true →
    match i with
    | .replayRetryTimeExpiry peer block => peer.toNat < 16 ∧ block.toNat < 4194304
    | .replayAnswerWaitExpiry tag => tag.origin.toNat < 16
    | .replayDoneReoffer peer => peer.toNat < 16
    | .fetchWindowClose tag => tag.origin.toNat < 16
    | .parkEnd block => block.toNat < 4194304
    | .sweepBlockRetake block => block.toNat < 4194304
    | .powerOnReset | .resetRelease .. | .mediaReady .. | .mediaFault .. | .attemptTimeout
    | .probeLimitExpiry | .lineIdle | .arbitrationEnd .. | .frameSent | .attemptFailed | .receiveCheckFail
    | .presentHeard .. | .rosterHeard .. | .rosterQueryHeard .. | .peerDownHeard .. | .rejoinHeard ..
    | .caughtUpHeard .. | .replayDoneHeard .. | .stationResetHeard .. | .orderHeard .. | .ackHeard ..
    | .nackHeard .. | .dataHeard .. | .unavailableHeard .. | .currentHeard .. | .readHeard ..
    | .writeHeard .. | .flushHeard .. | .fetchHeard .. | .replayHeard .. | .statusQueryHeard ..
    | .statusReportHeard .. | .leadWaitExpiry .. | .readSlotWaitExpiry .. | .fetchSlotWaitExpiry ..
    | .rosterAnswerWaitExpiry | .ackWindowExpiry .. | .requestLifetimeExpiry .. | .retireHoldEnd ..
    | .rejoinRequeue | .catchUpLimitExpiry | .caughtUpRequeue | .listeningWindowExpiry | .quietTimerExpiry
    | .presentReoffer | .rosterQueryRepeat | .ownPeerDownReoffer => True

theorem Bounds.powerOnReset : Bounds.Statement .powerOnReset :=fun _ => trivial

theorem Bounds.resetRelease (straps) : Bounds.Statement (.resetRelease straps) :=fun _ => trivial

theorem Bounds.mediaReady (op changes straps) : Bounds.Statement (.mediaReady op changes straps) :=fun _ => trivial

theorem Bounds.mediaFault (op) : Bounds.Statement (.mediaFault op) :=fun _ => trivial

theorem Bounds.attemptTimeout : Bounds.Statement .attemptTimeout :=fun _ => trivial

theorem Bounds.probeLimitExpiry : Bounds.Statement .probeLimitExpiry :=fun _ => trivial

theorem Bounds.lineIdle : Bounds.Statement .lineIdle :=fun _ => trivial

theorem Bounds.arbitrationEnd (others) : Bounds.Statement (.arbitrationEnd others) :=fun _ => trivial

theorem Bounds.frameSent : Bounds.Statement .frameSent :=fun _ => trivial

theorem Bounds.attemptFailed : Bounds.Statement .attemptFailed :=fun _ => trivial

theorem Bounds.receiveCheckFail : Bounds.Statement .receiveCheckFail :=fun _ => trivial

theorem Bounds.presentHeard (src candidates conf) : Bounds.Statement (.presentHeard src candidates conf) :=fun _ => trivial

theorem Bounds.rosterHeard (src conf) : Bounds.Statement (.rosterHeard src conf) :=fun _ => trivial

theorem Bounds.rosterQueryHeard (src) : Bounds.Statement (.rosterQueryHeard src) :=fun _ => trivial

theorem Bounds.peerDownHeard (src named) : Bounds.Statement (.peerDownHeard src named) :=fun _ => trivial

theorem Bounds.rejoinHeard (src) : Bounds.Statement (.rejoinHeard src) :=fun _ => trivial

theorem Bounds.caughtUpHeard (src) : Bounds.Statement (.caughtUpHeard src) :=fun _ => trivial

theorem Bounds.replayDoneHeard (src target sweep) : Bounds.Statement (.replayDoneHeard src target sweep) :=fun _ => trivial

theorem Bounds.stationResetHeard (order straps) : Bounds.Statement (.stationResetHeard order straps) :=fun _ => trivial

theorem Bounds.orderHeard (src tag block version) : Bounds.Statement (.orderHeard src tag block version) :=fun _ => trivial

theorem Bounds.ackHeard (src tag block version) : Bounds.Statement (.ackHeard src tag block version) :=fun _ => trivial

theorem Bounds.nackHeard (src tag block version reason) : Bounds.Statement (.nackHeard src tag block version reason) :=fun _ => trivial

theorem Bounds.dataHeard (src tag block version data) : Bounds.Statement (.dataHeard src tag block version data) :=fun _ => trivial

theorem Bounds.unavailableHeard (src tag block reason) : Bounds.Statement (.unavailableHeard src tag block reason) :=fun _ => trivial

theorem Bounds.currentHeard (src tag block version) : Bounds.Statement (.currentHeard src tag block version) :=fun _ => trivial

theorem Bounds.readHeard (src tag block) : Bounds.Statement (.readHeard src tag block) :=fun _ => trivial

theorem Bounds.writeHeard (src tag block data) : Bounds.Statement (.writeHeard src tag block data) :=fun _ => trivial

theorem Bounds.flushHeard (src tag) : Bounds.Statement (.flushHeard src tag) :=fun _ => trivial

theorem Bounds.fetchHeard (src tag block version unknownMark) : Bounds.Statement (.fetchHeard src tag block version unknownMark) :=fun _ => trivial

theorem Bounds.replayHeard (src tag target block version data) : Bounds.Statement (.replayHeard src tag target block version data) :=fun _ => trivial

theorem Bounds.statusQueryHeard (src tag target) : Bounds.Statement (.statusQueryHeard src tag target) :=fun _ => trivial

theorem Bounds.statusReportHeard (src tag target report) : Bounds.Statement (.statusReportHeard src tag target report) :=fun _ => trivial

theorem Bounds.leadWaitExpiry (tag) : Bounds.Statement (.leadWaitExpiry tag) :=fun _ => trivial

theorem Bounds.readSlotWaitExpiry (tag) : Bounds.Statement (.readSlotWaitExpiry tag) :=fun _ => trivial

theorem Bounds.fetchSlotWaitExpiry (tag) : Bounds.Statement (.fetchSlotWaitExpiry tag) :=fun _ => trivial

theorem Bounds.rosterAnswerWaitExpiry : Bounds.Statement .rosterAnswerWaitExpiry :=fun _ => trivial

theorem Bounds.ackWindowExpiry (tag) : Bounds.Statement (.ackWindowExpiry tag) :=fun _ => trivial

theorem Bounds.requestLifetimeExpiry (tag) : Bounds.Statement (.requestLifetimeExpiry tag) :=fun _ => trivial

theorem Bounds.retireHoldEnd (tag) : Bounds.Statement (.retireHoldEnd tag) :=fun _ => trivial

theorem Bounds.replayRetryTimeExpiry (peer block) : Bounds.Statement (.replayRetryTimeExpiry peer block) := by
  intro h
  obtain ⟨hp, hb⟩ := (Bool.and_eq_true _ _).mp h
  exact ⟨of_decide_eq_true hp, of_decide_eq_true hb⟩

theorem Bounds.replayAnswerWaitExpiry (tag) : Bounds.Statement (.replayAnswerWaitExpiry tag) :=fun h => of_decide_eq_true h

theorem Bounds.replayDoneReoffer (peer) : Bounds.Statement (.replayDoneReoffer peer) :=fun h => of_decide_eq_true h

theorem Bounds.fetchWindowClose (tag) : Bounds.Statement (.fetchWindowClose tag) :=fun h => of_decide_eq_true h

theorem Bounds.parkEnd (block) : Bounds.Statement (.parkEnd block) :=fun h => of_decide_eq_true h

theorem Bounds.sweepBlockRetake (block) : Bounds.Statement (.sweepBlockRetake block) :=fun h => of_decide_eq_true h

theorem Bounds.rejoinRequeue : Bounds.Statement .rejoinRequeue :=fun _ => trivial

theorem Bounds.catchUpLimitExpiry : Bounds.Statement .catchUpLimitExpiry :=fun _ => trivial

theorem Bounds.caughtUpRequeue : Bounds.Statement .caughtUpRequeue :=fun _ => trivial

theorem Bounds.listeningWindowExpiry : Bounds.Statement .listeningWindowExpiry :=fun _ => trivial

theorem Bounds.quietTimerExpiry : Bounds.Statement .quietTimerExpiry :=fun _ => trivial

theorem Bounds.presentReoffer : Bounds.Statement .presentReoffer :=fun _ => trivial

theorem Bounds.rosterQueryRepeat : Bounds.Statement .rosterQueryRepeat :=fun _ => trivial

theorem Bounds.ownPeerDownReoffer : Bounds.Statement .ownPeerDownReoffer :=fun _ => trivial

/-! ### Hearing -/

/-- The frame whose hearing a command is, for the commands that are heard frames (R190). -/
def frameHeard : Instr → Option Frame
  | .presentHeard src candidates conf => some (presentFrame src candidates conf)
  | .rosterHeard src conf => some (rosterFrame src conf)
  | .rosterQueryHeard src => some (rosterQueryFrame src)
  | .peerDownHeard src named => some (peerDownFrame src named)
  | .rejoinHeard src => some (rejoinFrame src)
  | .caughtUpHeard src => some (caughtUpFrame src)
  | .replayDoneHeard src target sweep => some (replayDoneFrame src target sweep)
  | .stationResetHeard order _ => some (stationResetFrame order.src order.target)
  | .orderHeard src tag block version => some (orderFrame src tag block version)
  | .ackHeard src tag block version => some (ackFrame src tag block version)
  | .nackHeard src tag block version reason => some (nackFrame src tag block version reason)
  | .dataHeard src tag block version data => some (dataFrame src tag block version data)
  | .unavailableHeard src tag block reason => some (unavailableFrame src tag block reason)
  | .currentHeard src tag block version => some (currentFrame src tag block version)
  | .readHeard src tag block => some (readFrameOf src tag block)
  | .writeHeard src tag block data => some (writeFrame src tag block data)
  | .flushHeard src tag => some (flushFrame src tag)
  | .fetchHeard src tag block version unknownMark => some (fetchFrame src tag block version unknownMark)
  | .replayHeard src tag target block version data => some (replayFrame src tag target block version data)
  | .statusQueryHeard src tag target => some (statusQueryFrame src tag target)
  | .statusReportHeard src tag target report => some (statusReportFrame src tag target report)
  | .powerOnReset | .resetRelease .. | .mediaReady .. | .mediaFault .. | .attemptTimeout | .probeLimitExpiry
  | .lineIdle | .arbitrationEnd .. | .frameSent | .attemptFailed | .receiveCheckFail | .leadWaitExpiry ..
  | .readSlotWaitExpiry .. | .fetchSlotWaitExpiry .. | .rosterAnswerWaitExpiry | .ackWindowExpiry ..
  | .requestLifetimeExpiry .. | .retireHoldEnd .. | .replayRetryTimeExpiry .. | .replayAnswerWaitExpiry ..
  | .replayDoneReoffer .. | .fetchWindowClose .. | .parkEnd .. | .sweepBlockRetake .. | .rejoinRequeue
  | .catchUpLimitExpiry | .caughtUpRequeue | .listeningWindowExpiry | .quietTimerExpiry | .presentReoffer
  | .rosterQueryRepeat | .ownPeerDownReoffer => none

/-- The strap levels in force as a command is heard: those a STATION_RESET brings, else the ones given (R163). -/
def strapsHeard (pins : Straps) : Instr → Straps
  | .stationResetHeard _ straps => straps
  | _ => pins

/-- The frame of a heard command leaves every field its kind does not use at zero, and hearing it is that command at
every strap levels, a STATION_RESET's own being those it brings (R163, R189, R190). -/
def Hearing.Statement (i : Instr) : Prop :=
  ∀ f, frameHeard i = some f → examined f = f ∧ ∀ pins, hearingOf (strapsHeard pins i) f = i

theorem candidates_kept (c : Mark) : (c.zeroExtend 32 &&& 0x0000FFFF) = c.zeroExtend 32 := by
  apply BitVec.eq_of_toNat_eq
  have := c.isLt
  simp only [BitVec.truncate_eq_setWidth, BitVec.toNat_and, BitVec.toNat_setWidth]
  show c.toNat % 2 ^ 32 &&& (2 ^ 16 - 1) = _
  rw [Nat.and_two_pow_sub_one_eq_mod]
  omega

theorem candidates_read (c : Mark) : (c.zeroExtend 32).extractLsb' 0 16 = c := by
  apply BitVec.eq_of_toNat_eq
  have := c.isLt
  simp only [BitVec.truncate_eq_setWidth, BitVec.extractLsb'_toNat, BitVec.toNat_setWidth, Nat.shiftRight_zero]
  omega

theorem configuration_kept : ∀ c : BitVec 2, ∀ v : BitVec 3,
    configurationAux ⟨c, v⟩ &&& 0x1F = configurationAux ⟨c, v⟩ := by decide

theorem configuration_read : ∀ c : BitVec 2, ∀ v : BitVec 3,
    auxConfiguration (configurationAux ⟨c, v⟩) = ⟨c, v⟩ := by decide

theorem version_kept (v : Version) : v &&& 0xFFFFFFFF = v := BitVec.and_allOnes

theorem reason_kept (r : BitVec 8) : r &&& 0xFF = r := BitVec.and_allOnes

theorem Hearing.powerOnReset : Hearing.Statement .powerOnReset := by
  rintro _ ⟨⟩

theorem Hearing.resetRelease (straps) : Hearing.Statement (.resetRelease straps) := by
  rintro _ ⟨⟩

theorem Hearing.mediaReady (op changes straps) : Hearing.Statement (.mediaReady op changes straps) := by
  rintro _ ⟨⟩

theorem Hearing.mediaFault (op) : Hearing.Statement (.mediaFault op) := by
  rintro _ ⟨⟩

theorem Hearing.attemptTimeout : Hearing.Statement .attemptTimeout := by
  rintro _ ⟨⟩

theorem Hearing.probeLimitExpiry : Hearing.Statement .probeLimitExpiry := by
  rintro _ ⟨⟩

theorem Hearing.lineIdle : Hearing.Statement .lineIdle := by
  rintro _ ⟨⟩

theorem Hearing.arbitrationEnd (others) : Hearing.Statement (.arbitrationEnd others) := by
  rintro _ ⟨⟩

theorem Hearing.frameSent : Hearing.Statement .frameSent := by
  rintro _ ⟨⟩

theorem Hearing.attemptFailed : Hearing.Statement .attemptFailed := by
  rintro _ ⟨⟩

theorem Hearing.receiveCheckFail : Hearing.Statement .receiveCheckFail := by
  rintro _ ⟨⟩

theorem Hearing.presentHeard (src candidates conf) : Hearing.Statement (.presentHeard src candidates conf) := by
  rintro _ ⟨⟩
  obtain ⟨c, v⟩ := conf
  constructor
  · simp only [examined, presentFrame, bareFrame, usesTag, usesTarget, usesBlock, hasPayload, hasReport, versionBits, auxBits,
      candidates_kept, configuration_kept]
    rfl
  · intro _
    simp only [hearingOf, presentFrame, bareFrame, candidates_read, configuration_read]

theorem Hearing.rosterHeard (src conf) : Hearing.Statement (.rosterHeard src conf) := by
  rintro _ ⟨⟩
  obtain ⟨c, v⟩ := conf
  constructor
  · simp only [examined, rosterFrame, bareFrame, usesTag, usesTarget, usesBlock, hasPayload, hasReport, versionBits, auxBits,
      configuration_kept]
    rfl
  · intro _
    simp only [hearingOf, rosterFrame, bareFrame, configuration_read]

theorem Hearing.rosterQueryHeard (src) : Hearing.Statement (.rosterQueryHeard src) := by
  rintro _ ⟨⟩
  refine ⟨?_, fun _ => rfl⟩
  simp only [examined, rosterQueryFrame, bareFrame, usesTag, usesTarget, usesBlock, hasPayload, hasReport, versionBits, auxBits]
  rfl

theorem Hearing.peerDownHeard (src named) : Hearing.Statement (.peerDownHeard src named) := by
  rintro _ ⟨⟩
  refine ⟨?_, fun _ => rfl⟩
  simp only [examined, peerDownFrame, bareFrame, usesTag, usesTarget, usesBlock, hasPayload, hasReport, versionBits, auxBits]
  rfl

theorem Hearing.rejoinHeard (src) : Hearing.Statement (.rejoinHeard src) := by
  rintro _ ⟨⟩
  refine ⟨?_, fun _ => rfl⟩
  simp only [examined, rejoinFrame, bareFrame, usesTag, usesTarget, usesBlock, hasPayload, hasReport, versionBits, auxBits]
  rfl

theorem Hearing.caughtUpHeard (src) : Hearing.Statement (.caughtUpHeard src) := by
  rintro _ ⟨⟩
  refine ⟨?_, fun _ => rfl⟩
  simp only [examined, caughtUpFrame, bareFrame, usesTag, usesTarget, usesBlock, hasPayload, hasReport, versionBits, auxBits]
  rfl

theorem Hearing.replayDoneHeard (src target sweep) : Hearing.Statement (.replayDoneHeard src target sweep) := by
  rintro _ ⟨⟩
  have read : (if sweep then (1 : BitVec 8) else 0).getLsbD 0 = sweep := by cases sweep <;> decide
  refine ⟨?_, fun _ => by simp only [hearingOf, replayDoneFrame, bareFrame, read]⟩
  have bit : (if sweep then (1 : BitVec 8) else 0) &&& 0x01 = if sweep then 1 else 0 := by cases sweep <;> rfl
  simp only [examined, replayDoneFrame, bareFrame, usesTag, usesTarget, usesBlock, hasPayload, hasReport, versionBits, auxBits,
    bit]
  rfl

theorem Hearing.stationResetHeard (order straps) : Hearing.Statement (.stationResetHeard order straps) := by
  rintro _ ⟨⟩
  refine ⟨?_, fun _ => rfl⟩
  simp only [examined, stationResetFrame, bareFrame, usesTag, usesTarget, usesBlock, hasPayload, hasReport, versionBits, auxBits]
  rfl

theorem Hearing.orderHeard (src tag block version) : Hearing.Statement (.orderHeard src tag block version) := by
  rintro _ ⟨⟩
  refine ⟨?_, fun _ => rfl⟩
  simp only [examined, orderFrame, bareFrame, usesTag, usesTarget, usesBlock, hasPayload, hasReport, versionBits, auxBits, version_kept]
  rfl

theorem Hearing.ackHeard (src tag block version) : Hearing.Statement (.ackHeard src tag block version) := by
  rintro _ ⟨⟩
  refine ⟨?_, fun _ => rfl⟩
  simp only [examined, ackFrame, bareFrame, usesTag, usesTarget, usesBlock, hasPayload, hasReport, versionBits, auxBits, version_kept]
  rfl

theorem Hearing.nackHeard (src tag block version reason) : Hearing.Statement (.nackHeard src tag block version reason) := by
  rintro _ ⟨⟩
  refine ⟨?_, fun _ => rfl⟩
  simp only [examined, nackFrame, bareFrame, usesTag, usesTarget, usesBlock, hasPayload, hasReport, versionBits, auxBits, version_kept, reason_kept]
  rfl

theorem Hearing.dataHeard (src tag block version data) : Hearing.Statement (.dataHeard src tag block version data) := by
  rintro _ ⟨⟩
  refine ⟨?_, fun _ => rfl⟩
  simp only [examined, dataFrame, bareFrame, usesTag, usesTarget, usesBlock, hasPayload, hasReport, versionBits, auxBits, version_kept]
  rfl

theorem Hearing.unavailableHeard (src tag block reason) : Hearing.Statement (.unavailableHeard src tag block reason) := by
  rintro _ ⟨⟩
  refine ⟨?_, fun _ => rfl⟩
  simp only [examined, unavailableFrame, bareFrame, usesTag, usesTarget, usesBlock, hasPayload, hasReport, versionBits, auxBits, reason_kept]
  rfl

theorem Hearing.currentHeard (src tag block version) : Hearing.Statement (.currentHeard src tag block version) := by
  rintro _ ⟨⟩
  refine ⟨?_, fun _ => rfl⟩
  simp only [examined, currentFrame, bareFrame, usesTag, usesTarget, usesBlock, hasPayload, hasReport, versionBits, auxBits, version_kept]
  rfl

theorem Hearing.readHeard (src tag block) : Hearing.Statement (.readHeard src tag block) := by
  rintro _ ⟨⟩
  refine ⟨?_, fun _ => rfl⟩
  simp only [examined, readFrameOf, bareFrame, usesTag, usesTarget, usesBlock, hasPayload, hasReport, versionBits, auxBits]
  rfl

theorem Hearing.writeHeard (src tag block data) : Hearing.Statement (.writeHeard src tag block data) := by
  rintro _ ⟨⟩
  refine ⟨?_, fun _ => rfl⟩
  simp only [examined, writeFrame, bareFrame, usesTag, usesTarget, usesBlock, hasPayload, hasReport, versionBits, auxBits]
  rfl

theorem Hearing.flushHeard (src tag) : Hearing.Statement (.flushHeard src tag) := by
  rintro _ ⟨⟩
  refine ⟨?_, fun _ => rfl⟩
  simp only [examined, flushFrame, bareFrame, usesTag, usesTarget, usesBlock, hasPayload, hasReport, versionBits, auxBits]
  rfl

theorem Hearing.fetchHeard (src tag block version unknownMark) : Hearing.Statement (.fetchHeard src tag block version unknownMark) := by
  rintro _ ⟨⟩
  have read : (if unknownMark then (1 : BitVec 8) else 0).getLsbD 0 = unknownMark := by cases unknownMark <;> decide
  refine ⟨?_, fun _ => by simp only [hearingOf, fetchFrame, bareFrame, read]⟩
  have bit : (if unknownMark then (1 : BitVec 8) else 0) &&& 0x01 = if unknownMark then 1 else 0 := by cases unknownMark <;> rfl
  simp only [examined, fetchFrame, bareFrame, usesTag, usesTarget, usesBlock, hasPayload, hasReport, versionBits, auxBits,
    bit, version_kept]
  rfl

theorem Hearing.replayHeard (src tag target block version data) : Hearing.Statement (.replayHeard src tag target block version data) := by
  rintro _ ⟨⟩
  refine ⟨?_, fun _ => rfl⟩
  simp only [examined, replayFrame, bareFrame, usesTag, usesTarget, usesBlock, hasPayload, hasReport, versionBits, auxBits, version_kept]
  rfl

theorem Hearing.statusQueryHeard (src tag target) : Hearing.Statement (.statusQueryHeard src tag target) := by
  rintro _ ⟨⟩
  refine ⟨?_, fun _ => rfl⟩
  simp only [examined, statusQueryFrame, bareFrame, usesTag, usesTarget, usesBlock, hasPayload, hasReport, versionBits, auxBits]
  rfl

theorem Hearing.statusReportHeard (src tag target report) : Hearing.Statement (.statusReportHeard src tag target report) := by
  rintro _ ⟨⟩
  refine ⟨?_, fun _ => rfl⟩
  simp only [examined, statusReportFrame, bareFrame, usesTag, usesTarget, usesBlock, hasPayload, hasReport, versionBits, auxBits]
  rfl

theorem Hearing.leadWaitExpiry (tag) : Hearing.Statement (.leadWaitExpiry tag) := by
  rintro _ ⟨⟩

theorem Hearing.readSlotWaitExpiry (tag) : Hearing.Statement (.readSlotWaitExpiry tag) := by
  rintro _ ⟨⟩

theorem Hearing.fetchSlotWaitExpiry (tag) : Hearing.Statement (.fetchSlotWaitExpiry tag) := by
  rintro _ ⟨⟩

theorem Hearing.rosterAnswerWaitExpiry : Hearing.Statement .rosterAnswerWaitExpiry := by
  rintro _ ⟨⟩

theorem Hearing.ackWindowExpiry (tag) : Hearing.Statement (.ackWindowExpiry tag) := by
  rintro _ ⟨⟩

theorem Hearing.requestLifetimeExpiry (tag) : Hearing.Statement (.requestLifetimeExpiry tag) := by
  rintro _ ⟨⟩

theorem Hearing.retireHoldEnd (tag) : Hearing.Statement (.retireHoldEnd tag) := by
  rintro _ ⟨⟩

theorem Hearing.replayRetryTimeExpiry (peer block) : Hearing.Statement (.replayRetryTimeExpiry peer block) := by
  rintro _ ⟨⟩

theorem Hearing.replayAnswerWaitExpiry (tag) : Hearing.Statement (.replayAnswerWaitExpiry tag) := by
  rintro _ ⟨⟩

theorem Hearing.replayDoneReoffer (peer) : Hearing.Statement (.replayDoneReoffer peer) := by
  rintro _ ⟨⟩

theorem Hearing.fetchWindowClose (tag) : Hearing.Statement (.fetchWindowClose tag) := by
  rintro _ ⟨⟩

theorem Hearing.parkEnd (block) : Hearing.Statement (.parkEnd block) := by
  rintro _ ⟨⟩

theorem Hearing.sweepBlockRetake (block) : Hearing.Statement (.sweepBlockRetake block) := by
  rintro _ ⟨⟩

theorem Hearing.rejoinRequeue : Hearing.Statement .rejoinRequeue := by
  rintro _ ⟨⟩

theorem Hearing.catchUpLimitExpiry : Hearing.Statement .catchUpLimitExpiry := by
  rintro _ ⟨⟩

theorem Hearing.caughtUpRequeue : Hearing.Statement .caughtUpRequeue := by
  rintro _ ⟨⟩

theorem Hearing.listeningWindowExpiry : Hearing.Statement .listeningWindowExpiry := by
  rintro _ ⟨⟩

theorem Hearing.quietTimerExpiry : Hearing.Statement .quietTimerExpiry := by
  rintro _ ⟨⟩

theorem Hearing.presentReoffer : Hearing.Statement .presentReoffer := by
  rintro _ ⟨⟩

theorem Hearing.rosterQueryRepeat : Hearing.Statement .rosterQueryRepeat := by
  rintro _ ⟨⟩

theorem Hearing.ownPeerDownReoffer : Hearing.Statement .ownPeerDownReoffer := by
  rintro _ ⟨⟩

end Sys2Proof.Laws
end

