-- ==== Sys2Proof/Tests/Slice0.lean ====
section
/-! SUPPORT. Small tests, each about one step or one operation, and for every obligation with hypotheses a state and operands that meet them. -/

-- One proof after another: side by side, the proofs of this file wait on each other and take a thread each.
set_option Elab.async false

namespace Sys2Proof.Tests

open Sys2Proof.Machine

/-! ### States and operands -/

/-- Number 1, copies 2, volume code 0, write-back on. -/
def straps : Straps := { number := 1, copiesCode := 2, volumeCode := 0, writeBack := true }

/-- A station that has been released from reset, at the start of its restart. -/
def released : State :=
  { State.reset with
    pins := straps
    resetHeld := false
    member := Membership.restart straps true }

/-- Member 1 of the roster {0, 1, 2}, in a station state. Group 0 is held by 0 and 1, group 1 by 1 and 2, group 2 by 2 and 0. -/
def member (st : StationState) : State :=
  { released with
    member := { released.member with
      state := st, mark := 7, placement := buildPlacement 7 2, member := true, sweepNeeded := false }
    peers := makePeers released 7 }

def serving : State := member .serving
def catching : State :=
  { member .catchingUp with repair := { Repair.reset with active := true, serial := 5 } }

/-- Frames of the other two members, of a client and of the station itself, with the roster's mark. -/
def from0 : Source := { sender := 0, mark := 7 }
def from2 : Source := { sender := 2, mark := 7 }
def from16 : Source := { sender := 16, mark := 7 }
def fromSelf : Source := { sender := 1, mark := 7 }

def tag : Tag := { origin := 16, seq := 9 }
def ownTag9 : Tag := { origin := 1, seq := 9 }

def entry (k : EntryKind) (st : EntryState) (b : Block) : Entry :=
  newEntry serving (if k = .ownFetch ∨ k = .ownReplay then ownTag9 else tag) k (some b) st

def withEntry (s : State) (e : Entry) : State := { s with table := [e] }
def withSlots (s : State) (l : List Slot) : State := { s with cache := { s.cache with slots := l } }
def withQueue (s : State) (l : List TxFrame) : State := { s with bus := { s.bus with queue := l } }
def withPort (s : State) (l : List MediaCmd) (ph : PortPhase) (retry : Nat) : State :=
  { s with port := { s.port with queue := l, phase := ph, retry := retry, timer := some 50000 } }
def heardPeer (s : State) (e : PeerEntry) : State := { s with peers := [e] }

def peer (st : PeerState) (last : Option Nat) : PeerEntry :=
  { peer := 2, state := st, misses := 2, lastNotice := last }

def queued (p : Purpose) (f : Frame) (ph : FramePhase) (n : Nat) : TxFrame :=
  { frame := f, purpose := p, phase := ph, attempts := n, withdrawal := none }

def push (ph : PushPhase) : Push :=
  { id := 3, peer := 2, block := 1, tag := some ownTag9, phase := ph }
def withPush (ph : PushPhase) (attempts : Nat) : State :=
  { serving with
    table := [{ entry .ownReplay .outstanding 1 with target := some 2, attempts := attempts }]
    replay := { Replay.reset with
      pool := [{ peer := 2, block := 1, recorded := 0, retry := none, push := true }]
      pushes := [push ph] } }

def fetch (ph : FetchPhase) (sweep : Bool) : Fetch :=
  { id := 4, block := 1, sweep := sweep, phase := ph, tag := some ownTag9, buffer := none, currentTaken := false }
def withFetch (f : Fetch) (attempts : Nat) : State :=
  { serving with
    table := [{ entry .ownFetch .outstanding 1 with attempts := attempts }]
    repair := { Repair.reset with list := [{ block := 1, state := .fetching }], fetches := [f] } }

/-! ### WellFormed: an ill-formed operand for each check -/

theorem test_retry_names_a_store : (Instr.replayRetryTimeExpiry 16 0).wellFormed = false := by decide
theorem test_retry_names_a_block_of_a_volume :
    (Instr.replayRetryTimeExpiry 15 4194304).wellFormed = false
      ∧ (Instr.replayRetryTimeExpiry 15 4194303).wellFormed = true := by decide
theorem test_reoffer_names_a_store : (Instr.replayDoneReoffer 31).wellFormed = false := by decide
theorem test_answer_wait_is_the_stations_own :
    (Instr.replayAnswerWaitExpiry { origin := 16, seq := 0 }).wellFormed = false := by decide
theorem test_window_is_the_stations_own :
    (Instr.fetchWindowClose { origin := 16, seq := 0 }).wellFormed = false := by decide
theorem test_park_names_a_block_of_a_volume : (Instr.parkEnd 4194304).wellFormed = false := by decide
theorem test_retake_names_a_block_of_a_volume :
    (Instr.sweepBlockRetake 16777215).wellFormed = false := by decide

/-! ### Words, frames and placement -/

/-- The bits of the ASCII string "123456789", whose check by the generator, start value and complement of R189 is a
published one. -/
theorem test_frame_check :
    frameCheck (bitsOf (0x313233343536373839 : BitVec 72)) = 0xFC891918 := by decide +kernel

/-- R189, R190: REJOIN of station 5 with the mark {2, 5, 7}, its header written out: class 0, sender 5, kind 4, mark
A4H, and nothing but zeros in the fields it does not use. -/
theorem test_rejoin_header :
    (encodeFrame (rejoinFrame { sender := 5, mark := 0xA4 })).take 28
      = bitsOf (0b0000101001000000000010100100#28) := by decide +kernel

theorem test_rejoin_is_heard :
    receptionOf straps (encodeFrame (rejoinFrame { sender := 5, mark := 0xA4 }))
      = .rejoinHeard { sender := 5, mark := 0xA4 } := by decide +kernel

/-- One bit of it changed, it fails the receive check (R183). -/
theorem test_damaged_rejoin_is_discarded :
    receptionOf straps ((encodeFrame (rejoinFrame { sender := 5, mark := 0xA4 })).set 3 true)
      = .receiveCheckFail := by decide +kernel

/-- No row of the opcode table gives bits, so no word spells a command and none is put in the queue (log 33). -/
theorem test_no_word_spells_a_command :
    decodeTableWord 32 4294967295 = none ∧ (serving.withFetchWord 8 255).pending = [] := by
  decide +kernel

/-- The worked sequence of 12.4: roster {2, 5, 7}, copies 3. -/
theorem test_placement_of_the_worked_sequence :
    (buildPlacement 0xA4 3)[1]? = some [5, 7, 2] ∧ (buildPlacement 0xA4 3)[2]? = some [7, 2, 5]
      ∧ (buildPlacement 0xA4 3)[3]? = some [2, 5, 7] := by decide +kernel

/-- The note of R11: three members and copies 2 give 43, 43 and 42 groups. -/
theorem test_groups_held :
    [2, 5, 7].map (fun n => (buildPlacement 0xA4 2).countP fun l => l.contains (n : StationNo))
      = [43, 43, 42] := by decide +kernel

/-- The state codes and the report's first byte (R193, R194): CATCHING_UP is 4, the reason 0. -/
theorem test_report_state : (statusReport catching).extractLsb' 248 8 = 0x40#8 := by decide +kernel

/-! ### One step each -/

/-- The field of a next state, none for any other outcome. -/
def after {α : Type} (o : Result) (f : State → α) : Option α :=
  match o with
  | .next s => some (f s)
  | .fault _ => none
  | .refused _ => none

/-- R104, R163: valid straps lead to STARTING and a probe, copies code 00 to OUT(BAD_STRAP). -/
theorem test_release_probes :
    after (exec (.resetRelease straps) State.reset) (fun s => (s.member.state, s.port.phase))
      = some (.starting, .probing)
    ∧ after (exec (.resetRelease { straps with copiesCode := 0 }) State.reset)
        (fun s => (s.member.state, s.port.phase)) = some (.out .badStrap, .idle) := by decide +kernel

/-- R104, R168: a fault answers the probe as ready does. -/
theorem test_fault_answers_the_probe :
    after (exec (.mediaFault 0) { released with port := { released.port with phase := .probing } })
      (fun s => (s.member.state, s.member.listeningWindow)) = some (.listening, some 25000) := by decide +kernel

/-- R20: a WRITE whose mark is wrong and whose block is out of range is refused for the mark. -/
theorem test_write_checks_in_order :
    after (exec (.writeHeard { sender := 16, mark := 3 } tag 65536 0) serving)
      (fun s => s.bus.queue.map fun t => (t.frame.kind, t.frame.aux)) = some [(.nack, 1)] := by decide +kernel

/-- The worked sequence of 12.4 at 0.9 ms: the WRITE is admitted, its data HELD and READ_HEADER queued. -/
theorem test_write_admitted :
    after (exec (.writeHeard from16 tag 64 0) serving)
      (fun s => (s.table.map fun e => (e.state, e.slot), s.port.queue)) =
      some ([(.lookup, some 0)], [.readHeader 64]) := by decide +kernel

/-- At 2.7 ms: with no slot to be had the WRITE is refused with CACHE_FULL and its block listed. -/
theorem test_write_cache_full :
    after (exec (.writeHeard from16 tag 192 0)
        (withSlots serving (List.replicate 48 (.held 64 0 (.clientWrite ownTag9) none))))
      (fun s => (s.bus.queue.map fun t => (t.frame.kind, t.frame.aux), s.table.map (·.state),
        s.repair.list.map (·.block))) =
      some ([(.nack, 3)], [.refused], [192]) := by decide +kernel

/-- R37, R111: at the end of an ack window the silent co-replica's second miss is counted and the block listed. -/
theorem test_window_reports_silence :
    after (exec (.ackWindowExpiry tag)
        (withEntry (heardPeer serving { peer (.present) none with misses := 1 })
          { entry .clientWrite .acked 1 with ackWindow := some 3000, finished := some 0 }))
      (fun s => (s.peers.map (·.misses), s.replay.pool.map fun m => (m.peer, m.block))) =
      some ([2], [(2, 1)]) := by decide +kernel

/-- R113: the third miss in a row declares the peer down. -/
theorem test_third_miss_declares_down :
    (reportMiss (heardPeer serving (peer .present none)) 2).peers.map (fun e => (e.state, e.misses))
      = [(.absent, 0)] := by decide +kernel

def noChange : BitChanges := { lasting := [], passing := [] }

/-- R93: four wrong bits within 8 positions are one burst, four further apart are too many. -/
theorem test_check_groups_bursts :
    ((newRecord 1 0).flip [7, 3, 0, 5]).check = some 1 ∧ ((newRecord 1 0).flip [0, 8, 16]).check = some 3
      ∧ ((newRecord 1 0).flip [0, 8, 16, 24]).check = none ∧ (damage (newRecord 1 0)).check = none := by
  decide +kernel

/-- R86: a WRITE_RECORD read back makes its slot CLEAN. -/
theorem test_read_back_cleans :
    after (exec (.mediaReady 0 noChange straps)
        (withPort (withSlots serving (.writing 1 5 0 :: List.replicate 47 .free))
          [.writeRecord 1 5 0 0] .readingBack 0))
      (fun s => (slotAt s 0, s.port.queue)) = some (.clean 1 5 0 1, []) := by decide +kernel

/-- R182: the fourth failed attempt drops the frame and counts it. -/
theorem test_fourth_failure_drops :
    after (exec .attemptFailed
        { withQueue serving [queued .acknowledgement (ackFrame fromSelf tag 1 1) .inTransmission 3] with
          bus := { queue := [queued .acknowledgement (ackFrame fromSelf tag 1 1) .inTransmission 3],
                   line := .driving, accepting := true, echo := none } })
      (fun s => (s.bus.queue, s.counters.droppedOnTransmit)) = some ([], 1) := by decide +kernel

/-! ### Witnesses: states and operands that meet the hypotheses of each obligation, clause by clause -/

theorem no_earlier {q : List TxFrame} (j : Nat) (g : TxFrame) (h : j < 0) (_ : q[j]? = some g) :
    g.phase = .queued := absurd h (Nat.not_lt_zero j)

theorem witness_StepRunsFrontCommand :
    { serving with pending := [.lineIdle] }.pending = Instr.lineIdle :: [] ∧ serving.pending = [] := by
  decide +kernel

theorem witness_StepKeepsSoundState :
    withinCapacity serving = true ∧ tagsUnique serving = true ∧ currentOnce serving = true
      ∧ ∃ t, step { serving with pending := [.lineIdle] } = .next t := by
  refine ⟨by decide +kernel, by decide +kernel, by decide +kernel, ?_⟩
  exact ⟨_, rfl⟩

def someRecord : Record := newRecord 1 0

theorem witness_StepKeepsMemoryForm :
    mediaWf [(0, someRecord), (65535, someRecord)] = true
      ∧ ∃ t, step { serving with media := [(0, someRecord)] } = .next t := by
  refine ⟨by decide +kernel, ?_⟩
  exact ⟨_, rfl⟩

theorem witness_RecordReadAfterWrite : mediaWf [(0, someRecord), (65535, someRecord)] = true := by
  decide +kernel

theorem witness_EveryCommandAnswersNext :
    State.reset.resetHeld = true ∧ Instr.lineIdle ≠ .powerOnReset ∧ (∀ p, Instr.lineIdle ≠ .resetRelease p)
      ∧ (∀ order p, Instr.lineIdle ≠ .stationResetHeard order p)
      ∧ (∀ op changes p, Instr.lineIdle ≠ .mediaReady op changes p)
      ∧ touchesMedia .lineIdle = false ∧ serving.resetHeld = false := by
  refine ⟨rfl, by decide, fun p h => ?_, fun o p h => ?_, fun o c p h => ?_, rfl, rfl⟩ <;> cases h

theorem witness_OfferedFrameIsQueuedOrRefused : serving.bus.accepting = true := rfl

/-- A FREE slot; no FREE slot and two CLEAN ones; and a cache with nothing to give. -/
theorem witness_AllocationOrder :
    allocate serving = some 0
      ∧ allocate (withSlots serving [.filling 1, .clean 2 1 0 7, .clean 3 1 0 6]) = some 2
      ∧ allocate (withSlots serving (List.replicate 48 (.filling 1))) = none := by decide +kernel

theorem witness_PlacementRanks :
    2 ≤ (markMembers 7).length ∧ 16 ≤ (markMembers 0xFFFF).length ∧ 0 < 64 ∧ 63 < 64 := by decide +kernel

def busy : State :=
  { serving with
    cache := { Cache.reset with waiting := [.writeRecord 1 1 0 0, .writeRecord 2 1 0 1] }
    repair := { Repair.reset with fetches := List.replicate 4 (fetch .queued false) }
    replay := { Replay.reset with pushes := List.replicate 2 (push .queued) } }

/-- Block 2 is of a group the station does not hold, block 0 of one whose co-replica is live. -/
def toRepair : State :=
  { serving with repair := { Repair.reset with
      list := [{ block := 2, state := .ready }, { block := 0, state := .ready }] } }

def sweeping (g : Option Nat) (retakes : List Retake) : State :=
  { catching with repair := { catching.repair with
      sweepSet := [0, 1], group := g, cursor := 64, retakes := retakes } }

theorem witness_EnginesRest :
    enginesIdle serving = true ∧ placesTaken busy = true ∧ engineStep serving = none
      ∧ (engineStep toRepair).isSome = true
      ∧ inService toRepair = true ∧ toRepair.repair.fetches.length < 4
      ∧ toRepair.repair.list = [{ block := 2, state := .ready }] ++ { block := 0, state := .ready } :: []
      ∧ groupLive toRepair (groupOf 0) = true ∧ groupLive toRepair (groupOf 2) = false
      ∧ inService released = false ∧ 4 ≤ busy.repair.fetches.length
      ∧ (∀ x ∈ serving.repair.list, x.state = .ready → groupLive serving (groupOf x.block) = false) := by
  decide +kernel

/-- The sweep with no current group, with one, and with a block whose 5 ms are over, or not yet; its group's
co-replicas live, or none of them. -/
theorem witness_EnginesRest_sweep :
    (sweeping none []).member.state = .catchingUp ∧ (sweeping none []).repair.active = true
      ∧ (sweeping none []).repair.group = none ∧ (sweeping none []).repair.sweepSet = 0 :: [1]
      ∧ serving.member.state ≠ .catchingUp
      ∧ { catching.repair with waitingRoom := [1] }.waitingRoom ≠ []
      ∧ (sweeping (some 0) []).repair.waitingRoom = [] ∧ (sweeping (some 0) []).repair.group = some 0
      ∧ (∀ r ∈ (sweeping (some 0) [{ block := 1, due := some 5000 }]).repair.retakes, r.due ≠ none)
      ∧ groupLive (sweeping (some 0) []) 0 = true
      ∧ groupLive (heardPeer (sweeping (some 0) []) { peer .absent none with peer := 0 }) 0 = false
      ∧ ((sweeping (some 0) [{ block := 1, due := none }]).repair.retakes.find? fun x => x.due.isNone)
          = some { block := 1, due := none } := by decide +kernel

def twoDirty : State := withSlots serving [.dirty 1 4 0 9, .dirty 2 4 0 8]

theorem witness_FlusherTakesLowestOrder :
    twoDirty.member.state ≠ .out .mediaDown ∧ twoDirty.port.down = false
      ∧ ((twoDirty.port.queue ++ twoDirty.cache.waiting).countP MediaCmd.isWrite) < 2
      ∧ twoDirty.cache.slots[1]? = some (.dirty 2 4 0 8)
      ∧ (∀ (j : Nat) b' v' d' o', twoDirty.cache.slots[j]? = some (.dirty b' v' d' o') → j ≠ 1 → 8 < o') := by
  refine ⟨by decide, by decide, by decide, by decide +kernel, ?_⟩
  intro j b' v' d' o' h hj
  match j, hj with
  | 0, _ => cases h; decide
  | n + 2, _ => simp [twoDirty, withSlots] at h

def draining : Entry := { entry .clientFlush .draining 0 with block := none, drain := [{ slot := 0, block := 1, version := 4 }] }

theorem witness_FlushAnsweredWhenDrained :
    (withEntry serving draining).table = [] ++ draining :: []
      ∧ draining.kind = .clientFlush ∧ draining.state = .draining
      ∧ (∀ m ∈ draining.drain, stillDrains (withEntry serving draining) m = false)
      ∧ (∃ e ∈ (withEntry serving draining).table, e.state = .draining
          ∧ ∃ m ∈ e.drain, stillDrains (withEntry serving draining) m = false)
      ∧ (∀ e ∈ (withEntry (withSlots serving [.writing 1 4 0]) draining).table, e.state = .draining →
          ∀ m ∈ e.drain, stillDrains (withEntry (withSlots serving [.writing 1 4 0]) draining) m = true) := by
  decide +kernel

def twoMissed : State :=
  { serving with replay := { Replay.reset with
      pool := [{ peer := 2, block := 1, recorded := 0, retry := none, push := false },
               { peer := 0, block := 0, recorded := 0, retry := some 5, push := false }]
      lastServed := some 15 } }

theorem witness_PushesTakeTurns :
    (twoMissed.replay.pool.all fun x => x.peer.isStore) = true
      ∧ nextPush twoMissed = some { peer := 2, block := 1, recorded := 0, retry := none, push := false }
      ∧ inService twoMissed = true ∧ twoMissed.replay.pushes.length < 2
      ∧ 2 ≤ busy.replay.pushes.length ∧ nextPush serving = none := by
  decide +kernel

/-- A push with data in hand: without an entry yet, at a table with room and at one without; with one already; and
to a peer become ABSENT. -/
theorem witness_PushesTakeTurns_inHand :
    let first : Push := { push .lookup with tag := none }
    let s : State := { withSlots twoMissed [.clean 1 4 0 1] with
      replay := { twoMissed.replay with pushes := [first] } }
    let later : State := { s with replay := { s.replay with pushes := [push .lookup] } }
    findPush s first.id = some first ∧ currentCopy s first.block = some (0, 4, 0)
      ∧ isLive s first.peer = true ∧ isListed s first.block = false ∧ s.table.length < 24
      ∧ (let full := { s with table := List.replicate 24 (entry .clientRead .lookup 1) }
        24 ≤ full.table.length ∧ (∀ e ∈ full.table, e.state.finished = false))
      ∧ findPush later (push .lookup).id = some (push .lookup) ∧ (push .lookup).tag = some ownTag9
      ∧ isLive (heardPeer s (peer .absent none)) first.peer = false := by decide +kernel

def caughtUp : State := { catching with repair := { catching.repair with rejoinSent := true } }

theorem witness_CatchUpEnds :
    caughtUp.member.state = .catchingUp ∧ caughtUp.repair.active = true ∧ caughtUp.repair.rejoinSent = true
      ∧ caughtUp.repair.awaited = 0 ∧ caughtUp.repair.sweepSet = []
      ∧ (∀ f ∈ caughtUp.repair.fetches, f.sweep = false)
      ∧ caughtUp.repair.waitingRoom = [] ∧ accepts caughtUp .caughtUp = true
      ∧ accepts { caughtUp with bus := { Bus.reset with accepting := false } } .caughtUp = false
      ∧ serving.member.state = .serving ∧ (beginCatchUp serving).bus.accepting = true
      ∧ (beginCatchUp { serving with bus := { Bus.reset with accepting := false } }).bus.accepting = false := by
  decide +kernel

/-- A SERVING station with a READ in its slot wait, one ANSWERED whose DATA is still queued, and one ANSWERED with
nothing queued. -/
def readers : State :=
  withQueue { serving with table := [
      { entry .clientRead .slotWait 1 with tag := { origin := 17, seq := 0 } },
      { entry .clientRead .answered 1 with tag := { origin := 18, seq := 0 }, finished := some 0 },
      { entry .clientRead .answered 1 with tag := tag, finished := some 0 }] }
    [queued .readAnswer (dataFrame fromSelf tag 1 4 0) .queued 0]

theorem witness_CatchUpEnds_reads :
    readers.member.state = .serving ∧ tagsUnique readers = true
      ∧ (∃ f ∈ readers.bus.queue, f.purpose = .readAnswer ∧ f.frame.tag = tag ∧ f.phase = .queued)
      ∧ (∀ f ∈ readers.bus.queue, f.purpose = .readAnswer → f.frame.tag = { origin := 18, seq := 0 } →
        f.phase ≠ .queued) := by decide +kernel

/-- R56; log 44. -/
theorem test_catch_up_silences_reads :
    (beginCatchUp readers).table.map (·.state) = [.silent, .answered, .silent] := by decide +kernel

theorem witness_OutEndsAllWork :
    isOut serving = false ∧ serving.member.member = true ∧ (OutReason.badStrap ≠ .mediaDown)
      ∧ (enterOut serving .mediaDown).bus.accepting = true
      ∧ (enterOut { serving with bus := { Bus.reset with accepting := false } } .mediaDown).bus.accepting
          = false := by decide +kernel

def writing (ph : PortPhase) : State := withPort serving [.writeRecord 1 5 0 0] ph 0

theorem witness_PowerOnReset :
    serving.port.phase = .idle
      ∧ (writing .writing).port.queue = .writeRecord 1 5 0 0 :: [] ∧ (writing .writing).port.phase = .writing
      ∧ (writing .readingBack).port.phase = .readingBack := by decide +kernel

theorem witness_ReleaseRestarts : State.reset.resetHeld = true ∧ serving.resetHeld = false := by decide

def probing : State :=
  { released with port := { released.port with
      phase := .probing, op := 4, timer := some 50000, probeLimit := some 2000000 } }

theorem witness_ProbeOutcomes :
    probing.resetHeld = false ∧ probing.port.phase = .probing ∧ probing.port.timer = some 50000
      ∧ probing.port.probeLimit = some 2000000 ∧ probing.port.queue = [] ∧ probing.cache.waiting = []
      ∧ (3 : Nat) ≠ probing.port.op ∧ serving.port.phase = .idle := by decide +kernel

def writtenBack (x : Slot) (wrong : List Nat) : State :=
  { withSlots (writing .readingBack) [x] with media := [(1, { newRecord 5 0 with wrong := wrong })] }

/-- A write; a read-back of three bursts into a WRITING slot, of none into a RETIRING one, and of four; and a fault
at the third attempt. -/
theorem witness_WriteIsReadBack :
    (writing .writing).resetHeld = false ∧ (writing .writing).port.phase = .writing
      ∧ (writing .writing).port.queue = .writeRecord 1 5 0 0 :: []
      ∧ (let s := writtenBack (.writing 1 5 0) [0, 8]
        s.port.phase = .readingBack
          ∧ (((readMedia s.media 1).flip []).flip [16]).check = some 3
          ∧ (countCorrected (nextCommand s)).cache.slots[0]? = some (.writing 1 5 0)
          ∧ (((readMedia s.media 1).flip [24]).flip [16]).check = none ∧ s.port.retry + 1 < 4)
      ∧ (let s := writtenBack (.retiring 1 5 0) []
        (((readMedia s.media 1).flip []).flip []).check = some 0
          ∧ (nextCommand s).cache.slots[0]? = some (.retiring 1 5 0))
      ∧ (withPort serving [.writeRecord 1 5 0 0] .writing 2).port.retry + 1 < 4
      ∧ (withPort serving [.writeRecord 1 5 0 0] .readingBack 2).port.timer = some 50000 := by
  decide +kernel

def filling (m : List (Nat × Record)) : State :=
  { withSlots (withPort serving [.readRecord 1 0] .reading 0) [.filling 1] with media := m }

/-- A block never written, a record of three bursts, and commits pending on the read above and at the version
read. -/
theorem witness_ReadFillsItsSlot :
    (filling []).resetHeld = false ∧ (filling []).port.phase = .reading
      ∧ (filling []).port.queue = .readRecord 1 0 :: [] ∧ (filling []).member.state ≠ .out .mediaDown
      ∧ (filling []).port.down = false ∧ (filling []).cache.slots[0]? = some (.filling 1)
      ∧ currentSlot (filling []) 1 = some 0 ∧ (∀ p ∈ (filling []).cache.pendings, p.block ≠ 1)
      ∧ (readMedia (filling []).media 1).written = false
      ∧ (let r := readMedia (filling [(1, { someRecord with wrong := [0, 8] })]).media 1
        r.written = true ∧ ((r.flip []).flip [16]).check = some 3)
      ∧ (let q (v : Version) : PendingCommit :=
          { block := 1, on := .record, slot := 2, version := v, data := 0, source := .replay ownTag9 }
        (1 : Version) < (q 2).version ∧ (q 1).version ≤ 1 ∧ (q 2).block = 1 ∧ (q 2).on = .record) := by
  decide +kernel

def headed (slots : List Slot) : State := withSlots (withPort serving [.readHeader 1] .reading 0) slots

/-- A READ_HEADER with one burst and with two, where the block has no slot, with one to be had and with none, a CLEAN
one at the version read, a DIRTY one and a FILLING one. -/
theorem witness_ReadFillsItsSlot_header :
    (headed []).port.queue = .readHeader 1 :: [] ∧ (∀ q ∈ (headed []).cache.pendings, q.block ≠ 1)
      ∧ isFilling (headed []) 1 = false ∧ ({ someRecord with wrong := [0] } : Record).check = some 1
      ∧ currentSlot (headed [.free]) 1 = none ∧ ({ someRecord with wrong := [0, 8] } : Record).check = some 2
      ∧ allocate (headed [.free]) = some 0 ∧ allocate (headed [.filling 2]) = none
      ∧ currentSlot (headed [.clean 1 1 0 1]) 1 = some 0
      ∧ (headed [.clean 1 1 0 1]).cache.slots[0]? = some (.clean 1 1 0 1)
      ∧ currentSlot (headed [.dirty 1 2 0 1]) 1 = some 0 ∧ isFilling (headed [.filling 1]) 1 = true := by
  decide +kernel

/-- Two REPLAY commits that wait on one read of block 1, of a version above and one not above the record's. -/
def replays (k : ReadKind) : List PendingCommit :=
  [{ block := 1, on := k, slot := 1, version := 6, data := 0, source := .replay ownTag9 },
   { block := 1, on := k, slot := 2, version := 5, data := 0, source := .replay tag }]
def offeredOn (k : ReadKind) (x : Slot) (record : Version) : State :=
  let s := withPort serving [if k = .header then .readHeader 1 else .readRecord 1 0] .reading 0
  { s with
    media := [(1, newRecord record 0)]
    cache := { s.cache with
      slots := [x, .held 1 0 (.replayTarget ownTag9) (some 6), .held 1 0 (.replayTarget tag) (some 5), .free]
      pendings := replays k } }

/-- Both wait on a READ_HEADER with no slot of the block, with a slot to be had, and on a READ_RECORD. -/
theorem witness_ReadFillsItsSlot_pending :
    (let s := offeredOn .header .free 4;
      currentOnce s = true ∧ isFilling s 1 = false ∧ currentSlot s 1 = none ∧ allocate s = some 0
        ∧ (s.cache.pendings.filter fun q => decide (q.block = 1) && decide (q.on = .header)) = replays .header
        ∧ s.cache.slots[1]? = some (.held 1 0 (.replayTarget ownTag9) (some 6))
        ∧ s.cache.slots[2]? = some (.held 1 0 (.replayTarget tag) (some 5))
        ∧ (readMedia s.media 1).check = some 0 ∧ (readMedia s.media 1).written = true
        ∧ (readMedia (offeredOn .header .free 7).media 1).version = 7)
      ∧ ((replays .header).Pairwise fun q r => q.slot ≠ r.slot)
      ∧ (let s := offeredOn .record (.filling 1) 4;
        currentOnce s = true ∧ currentSlot s 1 = some 0 ∧ s.cache.slots[0]? = some (.filling 1)
          ∧ (s.cache.pendings.filter fun q => decide (q.block = 1) && decide (q.on = .record)) = replays .record) := by
  decide +kernel

/-- R78, R136: with version 4 on the media the first is committed and the second, below what that left, is not; with
version 7 neither is. Both are answered, in their order. -/
theorem test_pending_replays_in_order :
    after (exec (.mediaReady 0 { lasting := [], passing := [] } straps) (offeredOn .header .free 4))
      (fun s => (s.cache.slots.drop 1 |>.take 2, s.bus.queue.map fun f => f.frame.version)) =
      some ([.writing 1 6 0, .free], [6, 6])
    ∧ after (exec (.mediaReady 0 { lasting := [], passing := [] } straps) (offeredOn .record (.filling 1) 7))
      (fun s => (s.cache.slots.take 3, s.bus.queue.map fun f => f.frame.version)) =
      some ([.clean 1 7 0 1, .free, .free], [7, 7]) := by decide +kernel

theorem witness_FailedMediaAttempts :
    (filling []).resetHeld = false ∧ (filling []).port.phase = .reading
      ∧ (MediaCmd.readRecord 1 0).isWrite = false
      ∧ (withPort serving [.readRecord 1 0] .reading 2).port.retry + 1 < 4
      ∧ (filling []).port.timer = some 50000
      ∧ (let r := readMedia (filling [(1, { someRecord with wrong := [0, 8, 16] })]).media 1
        r.written = true ∧ ((r.flip []).flip [24]).check = none)
      ∧ (withPort serving [.readHeader 1] .reading 3).port.retry = 3
      ∧ (withPort serving [.readRecord 1 0] .reading 3).port.queue = .readRecord 1 0 :: []
      ∧ (withPort serving [.writeRecord 1 5 0 0] .writing 3).port.phase = .writing
      ∧ (withPort serving [.writeRecord 1 5 0 0] .readingBack 3).port.phase = .readingBack
      ∧ (withPort serving [.readHeader 1] .reading 3).port.timer = some 50000
      ∧ (withPort serving [.writeRecord 1 5 0 0] .writing 3).port.timer = some 50000
      ∧ (withPort serving [.writeRecord 1 5 0 0] .readingBack 3).port.timer = some 50000
      ∧ ((neverWritten.flip [0, 8, 16]).flip [24]).check = none := by decide +kernel

/-- A read whose failure completes it: block 1 waits in a FILLING slot, without a slot, with a commit pending, and with
a copy committed meanwhile. -/
def failing (slots : List Slot) (pendings : List PendingCommit) : State :=
  { serving with cache := { Cache.reset with slots := slots, pendings := pendings } }
def pendingReplay (k : ReadKind) : PendingCommit :=
  { block := 1, on := k, slot := 1, version := 5, data := 0, source := .replay ownTag9 }

theorem witness_FailedMediaAttempts_completes :
    (let listed (s : State) := listBlock (countUncorrectable s) 1;
      (failing [.filling 1] []).counters.uncorrectable ≠ 65535
        ∧ currentOnce (listed (failing [.filling 1] [])) = true
        ∧ (listed (failing [.filling 1] [])).cache.slots[0]? = some (.filling 1)
        ∧ (listed (failing [.filling 1] [])).cache.pendings = []
        ∧ heldVersion (listed (failing [] [])) 1 = none ∧ heldVersion (listed (failing [.clean 1 4 0 1] [])) 1 = some 4
        ∧ (listed (failing [.clean 1 4 0 1] [])).cache.slots[0]? ≠ some (.filling 1)
        ∧ (listed (failing [.filling 1, .free] [pendingReplay .record])).cache.pendings = [pendingReplay .record]
        ∧ heldVersion (listed (failing [.filling 1, .free] [pendingReplay .record])) 1 = none
        ∧ isFilling (listed (failing [] [pendingReplay .header])) 1 = false)
      ∧ busy.port.queue.drop 1 ++ busy.cache.waiting.take 8 ≠ [] ∧ busy.port.down = false
      ∧ serving.port.queue.drop 1 ++ serving.cache.waiting.take 8 = [] := by decide +kernel

/-- Two commits of the block that wait on the read that fails. -/
theorem witness_FailedMediaAttempts_pending :
    (let s := listBlock (countUncorrectable (offeredOn .header .free 4)) 1;
      (s.cache.pendings.filter fun q => decide (q.block = 1) && decide (q.on = .header)) = replays .header
        ∧ heldVersion s 1 = none ∧ isFilling s 1 = false ∧ currentOnce s = true
        ∧ s.cache.slots[1]? = some (.held 1 0 (.replayTarget ownTag9) (some 6))
        ∧ s.cache.slots[2]? = some (.held 1 0 (.replayTarget tag) (some 5))) := by decide +kernel

theorem witness_FailedMediaAttempts_waiters :
    currentCopy serving 1 = none ∧ findEntry (withEntry serving (entry .clientRead .lookup 1)) tag
        = some (entry .clientRead .lookup 1)
      ∧ (entry .clientRead .lookup 1).blk = 1 ∧ (entry .clientWrite .lookup 1).followed = none
      ∧ findPush (withPush .lookup 1) (push .lookup).id = some (push .lookup)
      ∧ pushOfTag serving ownTag9 = none ∧ pushOfTag (withPush .comparing 1) ownTag9 = some (push .comparing) := by
  decide +kernel

/-- R100: the failed read of a READ_RECORD is counted, lists its block and frees its slot; R83: the commands that waited
are in the queue and the first is served. -/
theorem test_failed_read_lists :
    (let t := completeRead (failing [.filling 1] []) .record 1 0 .failed false;
      (t.counters.uncorrectable, t.repair.list.map (·.block), t.cache.slots)) = (1, [1], [.free])
      ∧ (let t := nextCommand busy;
        (t.port.queue, t.port.phase, t.cache.waiting)) = (busy.cache.waiting, .writing, []) := by decide +kernel

def checking : State := { catching with member := { catching.member with checkPending := true } }

def ack1 : Frame := ackFrame fromSelf tag 1 1
def read1 : Frame := fetchFrame fromSelf ownTag9 1 4 false

/-- A queued class-1 frame behind a class-2 one; a frame in transmission; and an empty queue. -/
theorem witness_IdleLineContends :
    (withQueue serving [queued .ownFetch read1 .queued 0, queued .acknowledgement ack1 .queued 0]).bus.queue[1]?
        = some (queued .acknowledgement ack1 .queued 0)
      ∧ (∀ g ∈ (withQueue serving [queued .ownFetch read1 .queued 0, queued .acknowledgement ack1 .queued 0]).bus.queue,
          g.phase = .queued ∧ kindClass ack1.kind ≤ kindClass g.frame.kind)
      ∧ kindClass ack1.kind ≠ kindClass read1.kind
      ∧ (withQueue serving [queued .acknowledgement ack1 .inTransmission 1]).bus.queue[0]?
        = some (queued .acknowledgement ack1 .inTransmission 1)
      ∧ serving.resetHeld = false ∧ serving.bus.line = .quiet ∧ serving.bus.queue = [] := by decide +kernel

/-- The line in a phase, with one frame. -/
def onLine (l : LinePhase) (f : TxFrame) : State :=
  { serving with bus := { queue := [f], line := l, accepting := true, echo := none } }

theorem witness_ArbitrationEnds :
    (onLine .arbitrating (queued .acknowledgement ack1 .contending 0)).resetHeld = false
      ∧ (onLine .arbitrating (queued .acknowledgement ack1 .contending 0)).bus.line = .arbitrating
      ∧ (onLine .arbitrating (queued .acknowledgement ack1 .contending 0)).bus.queue[0]?
          = some (queued .acknowledgement ack1 .contending 0)
      ∧ { queued .acknowledgement ack1 .contending 0 with withdrawal := some .plain }.withdrawal = some .plain
      ∧ (queued .acknowledgement ack1 .inTransmission 0).phase ≠ .queued := by decide +kernel

/-- A withdrawal that takes a queued frame, and one that takes none. -/
theorem witness_ArbitrationEnds_withdrawal :
    (let s := withQueue serving [queued .acknowledgement ack1 .queued 0];
      ∃ f ∈ s.bus.queue, (forPurpose .acknowledgement f && decide (f.phase = .queued)) = true
        ∧ f.purpose ≠ .readAnswer ∧ f.purpose ≠ .fetchAnswer)
      ∧ ∀ f ∈ (withQueue serving [queued .acknowledgement ack1 .contending 0]).bus.queue,
        (forPurpose .acknowledgement f && decide (f.phase = .queued)) = false := by decide +kernel

/-- The frame is of class 1 and sender 1, so its value is 33: it wins against none, an equal and a higher one, and loses
to a lower one. -/
theorem witness_ArbitrationEnds_values :
    arbitrationValue ack1 = 33 ∧ (∀ o ∈ [33, 34, 64], arbitrationValue ack1 ≤ o)
      ∧ (∃ o ∈ [34, 32], o < arbitrationValue ack1) := by decide +kernel

/-- R180: against class 0 of station 15 and class 1 of station 0 the frame is lost and queued again; against class 1 of
stations 2 and 16 and its own value it is won. -/
theorem test_lowest_value_wins :
    after (exec (.arbitrationEnd [15, 32]) (onLine .arbitrating (queued .acknowledgement ack1 .contending 0)))
        (fun s => (s.bus.queue.map (·.phase), s.bus.line)) = some ([.queued], .quiet)
      ∧ after (exec (.arbitrationEnd [34, 48, 33])
          (onLine .arbitrating (queued .acknowledgement ack1 .contending 0)))
        (fun s => (s.bus.queue.map (·.phase), s.bus.line)) = some ([.inTransmission], .driving) := by
  decide +kernel

/-- R180: a frame of value 0 wins whatever contends. -/
theorem test_value_zero_wins :
    winsArbitration (presentFrame from0 1 { copiesCode := 2, volumeCode := 0 }) [0, 1, 127] = true := by
  decide +kernel

theorem witness_SentFrameLeaves :
    (onLine .driving (queued .acknowledgement ack1 .inTransmission 0)).bus.queue[0]?
        = some (queued .acknowledgement ack1 .inTransmission 0)
      ∧ fetchOfTag (withFetch (fetch .queued false) 1) read1.tag = some (fetch .queued false)
      ∧ pushOfTag (withPush .queued 1) ownTag9 = some (push .queued)
      ∧ (queued .rosterQuery (rosterQueryFrame fromSelf) .inTransmission 0).purpose = .rosterQuery
      ∧ checking.member.checkPending = true ∧ serving.member.checkPending = false
      ∧ fetchOfTag serving read1.tag = none ∧ pushOfTag serving ownTag9 = none
      ∧ (queued (.rejoin 5) (rejoinFrame fromSelf) .inTransmission 0).purpose = .rejoin catching.repair.serial
      ∧ catching.member.state = .catchingUp ∧ catching.repair.active = true := by decide +kernel

/-- The third failed attempt leaves the frame, the fourth drops it. -/
theorem witness_FailedAttempt :
    (queued .acknowledgement ack1 .inTransmission 2).attempts + 1 < 4
      ∧ 4 ≤ (queued .acknowledgement ack1 .inTransmission 3).attempts + 1
      ∧ (onLine .driving (queued .acknowledgement ack1 .inTransmission 3)).bus.line = .driving
      ∧ (member .forming).member.state = .forming ∧ serving.member.state = .serving
      ∧ checking.member.checkPending = true ∧ serving.member.checkPending = false
      ∧ catching.member.state = .catchingUp ∧ catching.repair.active = true ∧ (5 : Nat) = catching.repair.serial
      ∧ inService serving = true
      ∧ fetchOfTag (withFetch (fetch .queued false) 1) read1.tag = some (fetch .queued false)
      ∧ pushOfTag (withPush .queued 1) ownTag9 = some (push .queued)
      ∧ fetchOfTag serving read1.tag = none ∧ pushOfTag serving ownTag9 = none := by decide +kernel

theorem witness_DamagedFrameIsCounted :
    { serving with counters := { Counters.zero with discarded := 65535 } }.resetHeld = false := by decide

theorem witness_FrameStopsAtTheChecks :
    examined (rejoinFrame fromSelf) = rejoinFrame fromSelf
      ∧ released.member.state = .starting ∧ serving.bus.echo ≠ some (rejoinFrame fromSelf)
      ∧ (rejoinFrame fromSelf).sender = ownNumber serving
      ∧ examined (stationResetFrame from2 0) = stationResetFrame from2 0
      ∧ isFiltered (stationResetFrame from2 0).kind = true
      ∧ (stationResetFrame from2 0).target ≠ ownNumber serving := by decide +kernel

/-- A listening station, number 1, with no roster. -/
def listening : State :=
  { released with member := { released.member with state := .listening, listeningWindow := some 25000 } }

/-- A ROSTER of another configuration; a mark without the station; an ACK of a roster the station is in. -/
theorem witness_AdoptionBegins :
    listening.resetHeld = false ∧ listening.member.state = .listening
      ∧ examined (rosterFrame from2 { copiesCode := 1, volumeCode := 0 })
          = rosterFrame from2 { copiesCode := 1, volumeCode := 0 }
      ∧ auxConfiguration (rosterFrame from2 { copiesCode := 1, volumeCode := 0 }).aux ≠ ownConfiguration listening
      ∧ auxConfiguration (rosterFrame from2 (ownConfiguration listening)).aux = ownConfiguration listening
      ∧ inMark (4 : Mark) (ownNumber listening) = false
      ∧ (markMembers (2 : Mark)).length < copies listening
      ∧ inMark from2.mark (ownNumber listening) = true ∧ ¬(markMembers from2.mark).length < copies listening
      ∧ from2.sender.isStore = true ∧ (ackFrame from2 tag 1 1).mark ≠ 0
      ∧ listening.bus.echo ≠ some (ackFrame from2 tag 1 1)
      ∧ examined (statusReportFrame from2 tag 1 0) = statusReportFrame from2 tag 1 0
      ∧ (statusReportFrame from2 tag 1 0).target = ownNumber listening := by decide +kernel

def forming : State :=
  { released with member := { released.member with
      state := .forming, candidates := 2, quietTimer := some 15000 } }
def noMark (n : StationNo) : Source := { sender := n, mark := 0 }

theorem witness_PresentHeard :
    takesFrame forming (presentFrame (noMark 2) 4 (ownConfiguration forming)) = true
      ∧ takesFrame forming (presentFrame (noMark 15) 2 { copiesCode := 3, volumeCode := 6 }) = true
      ∧ takesFrame listening (presentFrame (noMark 0) 1 (ownConfiguration listening)) = true
      ∧ takesFrame serving (presentFrame (noMark 2) 4 (ownConfiguration serving)) = true
      ∧ takesFrame (member .spectator) (presentFrame (noMark 16) 4 (ownConfiguration serving)) = true
      ∧ (noMark 15).sender.isStore = true ∧ (noMark 16).sender.isStore = false := by decide +kernel

theorem witness_RosterHeard :
    takesFrame serving (rosterFrame from2 (ownConfiguration serving)) = true
      ∧ takesFrame serving (rosterFrame { sender := 2, mark := 3 } (ownConfiguration serving)) = true
      ∧ takesFrame checking (rosterFrame from2 (ownConfiguration checking)) = true
      ∧ takesFrame checking (rosterFrame from2 { copiesCode := 3, volumeCode := 0 }) = true
      ∧ checking.member.checkPending = true ∧ from2.mark = checking.member.mark
      ∧ from2.sender ≠ ownNumber checking ∧ inService checking = true
      ∧ copies checking ≤ (markMembers checking.member.mark).length := by decide +kernel

/-- With station 0 ABSENT the wait of station 1 is of no slots. -/
theorem witness_RosterAnswerWaits :
    takesFrame serving (rosterQueryFrame from2) = true ∧ inService serving = true
      ∧ serving.member.checkPending = false ∧ serving.member.rosterWait = none ∧ rosterQueued serving = false
      ∧ slotWait serving (markMembers serving.member.mark) = 60
      ∧ slotWait (heardPeer serving { peer .absent none with peer := 0 }) (markMembers serving.member.mark) = 0
      ∧ takesFrame checking (rosterQueryFrame from2) = true
      ∧ { serving with member := { serving.member with rosterWait := some 60 } }.member.rosterWait = some 60 := by
  decide +kernel

/-- R15: stations 0 and 2 stand before station 3, and the one marked PRESENT counts. -/
theorem witness_RosterAnswerWaits_slots :
    (let s := heardPeer serving (peer .present none);
      ownNumber s ∉ [(0 : StationNo), 2] ∧ slotWait s [0, 2, 1, 3] = 60) := by decide +kernel

theorem witness_PeerDownHeard :
    takesFrame serving (peerDownFrame from2 0) = true ∧ takesFrame serving (peerDownFrame from2 1) = true
      ∧ takesFrame serving (peerDownFrame from2 15) = true
      ∧ takesFrame { serving with bus := { Bus.reset with echo := some (peerDownFrame fromSelf 2) } }
          (peerDownFrame fromSelf 2) = true
      ∧ inService serving = true ∧ from2.mark = serving.member.mark ∧ isMember serving 2 = true
      ∧ isMember serving 15 = false ∧ isLive serving 0 = true
      ∧ isAbsent (heardPeer serving { peer .absent none with peer := 0 }) 0 = true
      ∧ isMember serving from16.sender = false := by decide +kernel

/-- The last notice 3 ms back, and a microsecond less. -/
theorem witness_RejoinAndCaughtUpHeard :
    takesFrame serving (rejoinFrame from2) = true ∧ takesFrame serving (caughtUpFrame from2) = true
      ∧ inService serving = true ∧ from2.mark = serving.member.mark ∧ isMember serving from2.sender = true
      ∧ from2.sender ≠ ownNumber serving
      ∧ (∃ m ∈ twoMissed.replay.pool, m.peer = from2.sender)
      ∧ (∀ m ∈ serving.replay.pool, m.peer ≠ from2.sender) ∧ accepts serving .replayDone = true
      ∧ accepts { serving with bus := { Bus.reset with accepting := false } } .replayDone = false
      ∧ peerEntry (heardPeer serving (peer .catchingUp none)) 2 = some (peer .catchingUp none)
      ∧ peerEntry (heardPeer serving (peer .present none)) 2 = some (peer .present none)
      ∧ peerEntry (heardPeer serving (peer .absent (some 1))) 2 = some (peer .absent (some 1))
      ∧ 1 + 3000 ≤ { heardPeer serving (peer .absent (some 1)) with clock := 3001 }.clock
      ∧ { heardPeer serving (peer .absent (some 1)) with clock := 3000 }.clock < 1 + 3000
      ∧ takesFrame serving (rejoinFrame { sender := 2, mark := 3 }) = true := by decide +kernel

theorem witness_ReplayDoneLeavesAwaited :
    takesFrame catching (replayDoneFrame from2 1 true) = true ∧ catching.member.state = .catchingUp
      ∧ from2.mark = catching.member.mark ∧ isMember catching from2.sender = true
      ∧ from2.sender ≠ ownNumber catching
      ∧ inMark { catching with repair := { catching.repair with awaited := 4 } }.repair.awaited from2.sender = true
      ∧ takesFrame serving (replayDoneFrame from2 1 false) = true ∧ serving.member.state ≠ .catchingUp := by
  decide +kernel

/-- A sweep in its second block of group 1, a group the station holds, as group 2 is not. -/
def sweepingOne : State :=
  { catching with repair := { catching.repair with sweepSet := [1, 5], group := some 1, cursor := 65 } }

theorem witness_ReplayDoneLeavesAwaited_groups :
    sweepingOne.repair.group = some 1 ∧ sweepingOne.repair.sweepSet.Pairwise (fun a b => a < b)
      ∧ ownNumber sweepingOne ∈ replicas sweepingOne 1 ∧ ownNumber sweepingOne ∉ replicas sweepingOne 2
      ∧ catching.repair.group = none := by decide +kernel

/-- R160: group 2 is not the station's, group 1 is in the set already and its sweep begins afresh. -/
theorem test_groups_added_once :
    (let t := addGroups sweepingOne [2, 1, 0, 1];
      (t.repair.sweepSet, t.repair.group, t.repair.cursor)) = ([0, 1, 5], some 1, 1) := by decide +kernel

theorem witness_StationResetHeard :
    takesFrame serving (stationResetFrame from16 1) = true
      ∧ takesFrame (member .resetting) (stationResetFrame from16 1) = true
      ∧ takesFrame (member (.out .mediaDown)) (stationResetFrame from16 1) = true
      ∧ takesFrame { member (.out .duplicateNumber) with port := { Port.reset 0 with down := true } }
          (stationResetFrame from16 1) = true
      ∧ takesFrame (member (.out .badStrap)) (stationResetFrame from16 1) = true
      ∧ (member (.out .badStrap)).port.down = false := by decide +kernel

/-- A write in LOOKUP, one in WAIT_ORDER and one in COMMITTING, with room for the two NACKs. -/
def writing3 : State :=
  { serving with table := [
      entry .clientWrite .lookup 1, { entry .clientWrite .waitOrder 4 with tag := { origin := 17, seq := 0 } },
      { entry .clientWrite .committing 7 with tag := { origin := 18, seq := 0 }, ackWindow := some 3000 }] }

theorem witness_StationResetHeard_writes :
    tagsUnique writing3 = true ∧ writing3.bus.accepting = true
      ∧ (writing3.bus.queue.length + writing3.table.countP fun e =>
          decide (e.kind = .clientWrite) && (decide (e.state = .lookup) || decide (e.state = .waitOrder))) = 2
      ∧ writing3.table.map (fun e => (e.kind, e.state))
          = [(.clientWrite, .lookup), (.clientWrite, .waitOrder), (.clientWrite, .committing)]
      ∧ { serving.bus with accepting := false }.accepting = false
      ∧ ¬(straps.copiesCode = 0 ∨ straps.volumeCode = 7) ∧ { straps with volumeCode := 7 }.volumeCode = 7 := by
  decide +kernel

/-- R39, R163, R188: the reset refuses the writes, and with nothing to drain the station restarts with their NACKs
still to be sent. -/
theorem test_reset_refuses_writes :
    after (exec (.stationResetHeard { src := from16, target := 1 } straps) writing3)
      (fun s => decide (s.member.state = .starting) && decide (s.table = []) && !s.bus.accepting
        && decide (s.bus.queue.map (fun f => (f.frame.tag.origin, f.frame.kind, f.frame.aux))
            = [(16, .nack, 7), (17, .nack, 7)])
        && decide (s.bus.queue.map (·.purpose) = [.orphan, .orphan])) = some true := by decide +kernel

/-- An ORDER above the one followed, one equal to it, one for a tag that is refused, expired or unknown, and one out of
range. -/
theorem witness_OrderHeard :
    takesFrame serving (orderFrame from2 tag 1 4) = true ∧ takesFrame serving (orderFrame from2 tag 65536 4) = true
      ∧ inRange serving 65535 = true ∧ inRange serving 65536 = false
      ∧ findEntry (signOfLife (afterEcho serving) from2) tag = none
      ∧ isReplica serving 1 = true ∧ isReplica serving 2 = false ∧ inService serving = true
      ∧ from2.mark = serving.member.mark
      ∧ findEntry (signOfLife (afterEcho (withEntry serving (entry .clientWrite .waitOrder 1))) from2) tag
          = some (entry .clientWrite .waitOrder 1)
      ∧ { entry .clientWrite .acked 1 with followed := some 3 }.followed = some 3 ∧ (3 : Version) < 4
      ∧ (entry .clientWrite .expired 1).state = .expired ∧ (entry .clientWrite .refused 1).state = .refused := by
  decide +kernel

def following : Entry :=
  { entry .clientWrite .waitOrder 1 with slot := some 0, ownVersion := some (.known 3), followed := some 4 }
def committing (writeBack : Bool) : State :=
  let s := withEntry (withSlots serving (.held 1 0 (.clientWrite tag) none :: List.replicate 47 .free)) following
  { s with member := { s.member with straps := { straps with writeBack := writeBack } } }

theorem witness_CommitOnFollowedOrder :
    (committing true).cache.slots.length = 48 ∧ currentOnce (committing true) = true
      ∧ tagsUnique (committing true) = true ∧ findEntry (committing true) tag = some following
      ∧ following.kind = .clientWrite ∧ following.state = .waitOrder ∧ following.followed = some 4
      ∧ following.committed = none ∧ following.slot = some 0
      ∧ (committing true).cache.slots[0]? = some (.held following.blk 0 (.clientWrite tag) none)
      ∧ isFilling (committing true) following.blk = false
      ∧ (∀ p ∈ (committing true).cache.pendings, p.block ≠ following.blk)
      ∧ heldForWrite (committing true) following = .known 3 ∧ (3 : Version) < 4
      ∧ (committing true).member.straps.writeBack = true ∧ (committing false).member.straps.writeBack = false := by
  decide +kernel

/-- The block's former current slot, WRITING, beside the held data. -/
def replacing : State :=
  withSlots (committing true) (.held 1 0 (.clientWrite tag) none :: .writing 1 3 0 :: List.replicate 46 .free)
/-- A write that follows version 4, in a state, on one slot and 47 others. -/
def follower (st : EntryState) (committed : Option Version) : Entry :=
  { entry .clientWrite st 1 with committed := committed, followed := some 4 }
def followed (e : Entry) (x y : Slot) : State := withEntry (withSlots serving (x :: List.replicate 47 y)) e

/-- A held version not below the ORDER, at the maximum and with the block listed; data replaced, and gone; and the
tag's own data in a DIRTY, a CLEAN and a WRITING slot, with a slot to be had and without. -/
theorem witness_CommitOnFollowedOrder_follows :
    currentSlot replacing 1 = some 1 ∧ replacing.cache.slots[1]? = some (.writing 1 3 0)
      ∧ currentSlot (withSlots replacing [.free, .dirty 1 3 0 1]) 1 = some 1
      ∧ (let e := follower .waitOrder none
        findEntry (followed e (.clean 1 7 0 1) .free) tag = some e ∧ e.committed = none ∧ e.followed = some 4
          ∧ isFilling (followed e (.clean 1 7 0 1) .free) e.blk = false
          ∧ heldForWrite (followed e (.clean 1 7 0 1) .free) e = .known 7 ∧ (4 : Version) ≤ 7
          ∧ heldForWrite (followed e (.clean 1 4294967295 0 1) .free) e = .known 4294967295
          ∧ isListed (followed e (.clean 1 7 0 1) .free) e.blk = false
          ∧ isListed { followed e (.clean 1 7 0 1) .free with
              repair := { Repair.reset with list := [{ block := 1, state := .ready }] } } e.blk = true)
      ∧ (let e := follower .acked (some 3)
        heldVersion (followed e (.clean 1 7 0 1) .free) e.blk = some 7
          ∧ heldVersion (followed e .free .free) e.blk = none
          ∧ currentCopy (followed e (.dirty 1 3 0 1) .free) e.blk = some (0, 3, 0)
          ∧ currentCopy (followed e (.clean 1 3 0 1) .free) e.blk = some (0, 3, 0)
          ∧ currentCopy (followed e (.writing 1 3 0) .free) e.blk = some (0, 3, 0)
          ∧ allocate (followed e (.writing 1 3 0) .free) = some 1
          ∧ allocate (followed e (.writing 1 3 0) (.retiring 2 1 0)) = none
          ∧ (followed e (.dirty 1 3 0 1) .free).cache.slots.length = 48
          ∧ currentOnce (followed e (.dirty 1 3 0 1) .free) = true
          ∧ tagsUnique (followed e (.dirty 1 3 0 1) .free) = true ∧ e.kind = .clientWrite)
      ∧ { follower .acked (some 5) with followed := some 5 }.committed = some 5 := by decide +kernel

def writeThrough (s : State) : State :=
  { s with member := { s.member with straps := { straps with writeBack := false } } }

/-- With write-back off: a first commit, the tag's data CLEAN and being written, and a media queue with commands that
wait. -/
theorem witness_CommitOnFollowedOrder_issues :
    (committing false).member.straps.writeBack = false ∧ (committing false).port.down = false
      ∧ (committing false).cache.waiting = [] ∧ (committing false).port.queue.length < 8
      ∧ (let e := follower .acked (some 3);
        (writeThrough (followed e (.clean 1 3 0 1) .free)).member.straps.writeBack = false
          ∧ (writeThrough (followed e (.clean 1 3 0 1) .free)).port.down = false
          ∧ (writeThrough (followed e (.clean 1 3 0 1) .free)).cache.slots[0]? = some (.clean 1 3 0 1)
          ∧ (writeThrough (followed e (.writing 1 3 0) .free)).cache.slots[0]? = some (.writing 1 3 0)
          ∧ allocate (writeThrough (followed e (.writing 1 3 0) .free)) = some 1)
      ∧ busy.cache.waiting ≠ [] := by decide +kernel

/-- R30, R79, R85: with write-back off the record of a first commit and of a commit made again is issued at once. -/
theorem test_commit_issues_its_record :
    (decideFollow (committing false) tag).port.queue = [.writeRecord 1 4 0 0]
      ∧ (decideFollow (writeThrough (followed (follower .acked (some 3)) (.writing 1 3 0) .free)) tag).port.queue
        = [.writeRecord 1 4 0 1]
      ∧ (decideFollow (committing true) tag).port.queue = [] := by decide +kernel

/-- R31: with version 7 held, an ORDER of 4 is superseded by one of 8. -/
theorem test_order_is_superseded :
    (decideFollow (followed (follower .waitOrder none) (.clean 1 7 0 1) .free) tag).bus.queue.map
      (fun f => (f.frame.kind, f.frame.version)) = [(.order, 8)] := by decide +kernel

/-- R30, R79: the tag's data, being written at version 3, is committed again in another slot. -/
theorem test_commit_again_while_writing :
    (let t := decideFollow (followed (follower .acked (some 3)) (.writing 1 3 0) .free) tag;
      (slotAt t 0, slotAt t 1, t.table.map (·.committed))) =
      (.retiring 1 3 0, .dirty 1 4 0 1, [some 4]) := by decide +kernel

theorem witness_AcksAndNacksRecorded :
    takesFrame serving (ackFrame from2 tag 1 4) = true ∧ takesFrame serving (nackFrame from2 tag 1 4 3) = true
      ∧ findEntry (clearMisses (afterEcho serving) from2) tag = none
      ∧ findEntry (clearMisses (afterEcho (withEntry serving (entry .clientWrite .acked 1))) from2) tag
          = some (entry .clientWrite .acked 1)
      ∧ findEntry (signOfLife (afterEcho (withEntry serving (entry .clientWrite .acked 1))) from2) tag
          = some (entry .clientWrite .acked 1)
      ∧ inRange (clearMisses (afterEcho serving) from2) 1 = true
      ∧ isMember serving from2.sender = true ∧ from2.mark = serving.member.mark ∧ isLive serving 2 = true
      ∧ inService released = false
      ∧ peerEntry (heardPeer serving (peer .absent (some 1))) 2 = some (peer .absent (some 1))
      ∧ { heardPeer serving (peer .absent (some 1)) with clock := 3000 }.clock < 1 + 3000
      ∧ 1 + 3000 ≤ { heardPeer serving (peer .absent (some 1)) with clock := 3001 }.clock
      ∧ peerEntry (heardPeer serving (peer .present none)) 2 = some (peer .present none) := by decide +kernel

/-- R117: an ABSENT member's ACK draws PEER_DOWN naming it, 3 ms after the last notice and not before. -/
theorem test_absent_member_is_named_again :
    (clearMisses { heardPeer serving (peer .absent (some 1)) with clock := 3001 } from2).bus.queue.map
        (fun f => (f.frame.kind, f.frame.target)) = [(.peerDown, 2)]
      ∧ (clearMisses { heardPeer serving (peer .absent (some 1)) with clock := 3000 } from2).bus.queue = [] := by
  decide +kernel

def pushed (l : List Slot) : State := withSlots (withPush (.awaiting 3000) 1) l
def pushedEntry : Entry := { entry .ownReplay .outstanding 1 with target := some 2 }
/-- The push over, its entry DONE. -/
def latePush : State :=
  { withEntry (withSlots serving [.clean 1 4 0 1]) { pushedEntry with state := .done, finished := some 0 } with
    replay := { Replay.reset with
      pool := [{ peer := 2, block := 1, recorded := 0, retry := none, push := false }] } }

/-- The station's own REPLAY answered: an ACK at the held version, one below it, one with no current slot and one that
is late; and answers of another station or about another block. -/
theorem witness_AcksAndNacksRecorded_replay :
    (let s := pushed [.clean 1 4 0 1]
      let h := clearMisses (afterEcho s) from2
      takesFrame s (ackFrame from2 ownTag9 1 4) = true ∧ takesFrame s (nackFrame from2 ownTag9 1 4 3) = true
        ∧ findEntry h ownTag9 = some pushedEntry ∧ pushedEntry.kind = .ownReplay
        ∧ findEntry (signOfLife (afterEcho s) from2) ownTag9 = some pushedEntry
        ∧ pushedEntry.target = some from2.sender ∧ pushedEntry.block = some 1 ∧ from2.mark = s.member.mark
        ∧ pushOfTag h ownTag9 = some (push (.awaiting 3000)) ∧ heldVersion h 1 = some 4
        ∧ (4 : Version) ≤ 4 ∧ ¬((4 : Version) ≤ 3)
        ∧ pushedEntry.target ≠ some from0.sender ∧ pushedEntry.block ≠ some 0)
      ∧ (let h := clearMisses (afterEcho (pushed [])) from2
        heldVersion h 1 = none ∧ (pushed []).port.down = false
          ∧ pushOfTag h ownTag9 = some (push (.awaiting 3000)))
      ∧ (let h := clearMisses (afterEcho latePush) from2
        pushOfTag h ownTag9 = none ∧ heldVersion h 1 = some 4 ∧ inService latePush = true
          ∧ (∀ q ∈ h.replay.pushes, q.peer ≠ from2.sender ∨ q.block ≠ 1)
          ∧ findEntry h ownTag9 = some { pushedEntry with state := .done, finished := some 0 }) := by
  decide +kernel

def waitingRead : Entry := { entry .clientRead .slotWait 1 with slot := some 0, wait := some 60 }
def reading : State := withEntry (withSlots serving [.clean 1 4 0 1]) waitingRead

/-- A DATA of the very version in hand suppresses; a frame of another block counts for nothing. -/
theorem witness_AnswersSuppressRead :
    takesFrame reading (unavailableFrame from2 tag 1 8) = true ∧ takesFrame reading (dataFrame from2 tag 1 4 0) = true
      ∧ findEntry (signOfLife (afterEcho reading) from2) tag = some waitingRead
      ∧ waitingRead.kind = .clientRead ∧ waitingRead.block = some 1 ∧ waitingRead.block ≠ some 0
      ∧ from2.mark = (signOfLife (afterEcho reading) from2).member.mark ∧ waitingRead.state = .slotWait
      ∧ waitingRead.sent = none
      ∧ waitingRead.sentData = false ∧ heldVersion (signOfLife (afterEcho reading) from2) 1 = some 4
      ∧ (4 : Version) ≤ 4 ∧ waitingFrame (signOfLife (afterEcho reading) from2) .readAnswer tag = none := by
  decide +kernel

def answeredRead (sent : Kind) (st : EntryState) : Entry :=
  { entry .clientRead st 1 with sent := some { kind := sent, version := 4 } }
def withAnswer (s : State) (f : Frame) : State := withQueue s [queued .readAnswer f .queued 0]

/-- ANSWERED with an UNAVAILABLE queued, which the station's own number does not suppress; and a DATA below the held
version, heard in the slot wait and once SUPPRESSED. -/
theorem witness_AnswersSuppressRead_answered :
    (let s := withAnswer (withEntry serving (answeredRead .unavailable .answered)) (unavailableFrame fromSelf tag 1 8)
      let h := signOfLife (afterEcho s) from2
      findEntry h tag = some (answeredRead .unavailable .answered)
        ∧ from2.sender ≠ ownNumber s ∧ fromSelf.sender = ownNumber s
        ∧ (answeredRead .unavailable .answered).sentData = false
        ∧ (waitingFrame h .readAnswer tag).map (·.frame.kind) = some .unavailable)
      ∧ (let h := signOfLife (afterEcho reading) from2
        reading.member.state = .serving ∧ isListed h 1 = false ∧ currentCopy h 1 = some (0, 4, 0)
          ∧ (3 : Version) < 4 ∧ (∀ x ∈ waitingRead.heard, ∀ y ∈ x.data, y < (4 : Version))
          ∧ accepts h .data = true ∧ waitingRead.reason = none ∧ waitingRead.slot ≠ none)
      ∧ (entry .clientRead .suppressed 1).state = .suppressed := by decide +kernel

def ownUnavailable (p : Purpose) : TxFrame := queued p (unavailableFrame fromSelf tag 1 8) .queued 0
def ownData (p : Purpose) : TxFrame := queued p (dataFrame fromSelf tag 1 4 0) .queued 0

/-- ANSWERED with its own DATA queued, an UNAVAILABLE from before its restart in front of it; SILENT and SUPPRESSED
with and without that UNAVAILABLE; and refused in its slot wait. -/
theorem witness_AnswersSuppressRead_queued :
    (let q := [ownUnavailable .readAnswer, ownData .readAnswer]
      let s := withQueue (withEntry (withSlots serving [.clean 1 4 0 1]) (answeredRead .data .answered)) q
      let h := signOfLife (afterEcho s) from2
      findEntry h tag = some (answeredRead .data .answered) ∧ (answeredRead .data .answered).reason = none
        ∧ waitingFrame h .readAnswer tag = some (ownData .readAnswer) ∧ (ownData .readAnswer).frame.kind = .data
        ∧ (∀ g ∈ h.bus.queue, g.purpose = .readAnswer → g.frame.tag = tag → g.phase = .queued)
        ∧ heldVersion h 1 = some 4 ∧ (4 : Version) ≤ 4 ∧ (3 : Version) < 4
        ∧ heldVersion (signOfLife (afterEcho (withSlots s [])) from2) 1 = none
        ∧ (ownData .readAnswer).frame.version ≤ 4)
      ∧ (let s := withQueue (withEntry serving (answeredRead .unavailable .silent)) [ownUnavailable .readAnswer]
        let h := signOfLife (afterEcho s) from2
        findEntry h tag = some (answeredRead .unavailable .silent) ∧ EntryState.silent.finished = true
          ∧ (waitingFrame h .readAnswer tag).map (·.frame.kind) = some .unavailable
          ∧ waitingFrame (signOfLife (afterEcho serving) from2) .readAnswer tag = none)
      ∧ { waitingRead with reason := some .rosterMismatch }.reason ≠ none ∧ tagsUnique reading = true := by
  decide +kernel

/-- R49, R52: with DATA of version 4 queued, an older UNAVAILABLE in front of it, a DATA of 3 withdraws nothing and one
of 4 withdraws both. -/
theorem test_own_data_is_measured :
    (let q := [ownUnavailable .readAnswer, ownData .readAnswer]
      let s := withQueue (withEntry (withSlots serving [.clean 1 4 0 1]) (answeredRead .data .answered)) q
      ((deliverData s from2 tag 1 3 0).bus.queue.length, (deliverData s from2 tag 1 3 0).table.map (·.state),
        (deliverData s from2 tag 1 4 0).bus.queue.length, (deliverData s from2 tag 1 4 0).table.map (·.state))) =
      (2, [.answered], 0, [.suppressed]) := by decide +kernel

/-- R49, R55 (log 55): SILENT after a restart, the UNAVAILABLE queued before it is withdrawn. -/
theorem test_old_answer_is_withdrawn :
    (let s := withQueue (withEntry serving (answeredRead .unavailable .silent)) [ownUnavailable .readAnswer]
      let t := deliverUnavailable s from2 tag 1
      (t.bus.queue.length, t.table.map (·.state))) = (0, [.suppressed]) := by decide +kernel

/-- A FETCH ANSWERED with DATA queued, asked from below and at the held version; and one refused. -/
theorem witness_AnswersSuppressRead_fetchQueued :
    (let e : Entry := { answeredRead .data .answered with kind := .peerFetch, requested := some (.known 3) }
      let s := withQueue (withEntry (withSlots serving [.clean 1 4 0 1]) e) [ownData .fetchAnswer]
      let h := signOfLife (afterEcho s) from2
      findEntry h tag = some e ∧ waitingFrame h .fetchAnswer tag = some (ownData .fetchAnswer)
        ∧ (∀ g ∈ h.bus.queue, g.purpose = .fetchAnswer → g.frame.tag = tag → g.phase = .queued)
        ∧ (e.sentData = true → (ownData .fetchAnswer).frame.kind = .data) ∧ e.reason = none ∧ e.block = some 1
        ∧ heldVersion h 1 = some 4 ∧ (3 : Version) < 4 ∧ (4 : Version) ≤ 4 ∧ inRange h 1 = true
        ∧ e.requested = some (.known 3) ∧ from2.sender ≠ ownNumber s)
      ∧ { entry .peerFetch .slotWait 1 with reason := some .rosterMismatch }.reason ≠ none
      ∧ (entry .peerFetch .slotWait 1).sentData = false
      ∧ (answeredRead .unavailable .answered).sentData = false := by decide +kernel

/-- A FETCH asked from below the held version, at it, and with no copy; and DATA sent, the block held and not. -/
theorem witness_AnswersSuppressRead_fetch :
    (let e : Entry := { entry .peerFetch .slotWait 0 with requester := some 0, requested := some (.known 3) }
      let s := withEntry (withSlots serving [.clean 0 4 0 1]) e
      let h := signOfLife (afterEcho s) from2
      findEntry h tag = some e ∧ e.reason = none ∧ e.sentData = false ∧ e.sent = none ∧ inRange h 0 = true
        ∧ heldVersion h 0 = some 4 ∧ (3 : Version) < 4 ∧ ¬((4 : Version) < 4)
        ∧ heldVersion (signOfLife (afterEcho (withEntry serving e)) from2) 0 = none
        ∧ waitingFrame h .fetchAnswer tag = none)
      ∧ (let s := withEntry (withSlots serving [.clean 1 4 0 1]) (answeredRead .data .answered)
        let h := signOfLife (afterEcho s) from2
        (answeredRead .data .answered).state.finished = true ∧ (answeredRead .data .answered).sentData = true
          ∧ findEntry h tag = some (answeredRead .data .answered)
          ∧ waitingFrame h .readAnswer tag = none ∧ inService s = true ∧ inRange h 1 = true
          ∧ heldVersion h 1 = some 4 ∧ s.port.down = false)
      ∧ heldVersion (signOfLife (afterEcho (withEntry serving (answeredRead .data .answered))) from2) 1 = none := by
  decide +kernel

def fetching : State := withFetch (fetch (.window 2000) false) 1

theorem witness_FetchTakesAnswers :
    takesFrame fetching (dataFrame from2 ownTag9 1 4 0) = true
      ∧ takesFrame fetching (currentFrame from2 ownTag9 1 4) = true
      ∧ takesFrame fetching (unavailableFrame from2 ownTag9 1 8) = true
      ∧ findEntry (signOfLife (afterEcho fetching) from2) ownTag9 = some (entry .ownFetch .outstanding 1)
      ∧ from2.mark = (signOfLife (afterEcho fetching) from2).member.mark
      ∧ fetchOfTag (signOfLife (afterEcho fetching) from2) ownTag9 = some (fetch (.window 2000) false)
      ∧ inRange (signOfLife (afterEcho fetching) from2) 1 = true := by decide +kernel

def fullTable : State := { serving with table := List.replicate 24 (entry .clientRead .lookup 1) }
def otherTag : Tag := { origin := 17, seq := 0 }

theorem witness_ReadAndFetchTakenUp :
    takesFrame serving (readFrameOf from16 tag 1) = true ∧ takesFrame serving (readFrameOf from16 tag 2) = true
      ∧ isReplica serving 1 = true ∧ isReplica serving 2 = false ∧ serving.member.state = .serving
      ∧ findEntry serving tag = none ∧ serving.table.length < 24
      ∧ findEntry fullTable otherTag = none ∧ 24 ≤ fullTable.table.length
      ∧ (∀ e ∈ fullTable.table, e.state.finished = false)
      ∧ takesFrame serving (fetchFrame from2 tag 1 0 true) = true ∧ inService serving = true
      ∧ from2.sender ∈ coReplicas serving (groupOf 1) ∧ from0.sender ∉ coReplicas serving (groupOf 1)
      ∧ volume serving = 65536 := by decide +kernel

/-- Repeated requests: at an entry in LOOKUP, at one finished without DATA sent, and at one that has sent it. -/
theorem witness_ReadAndFetchTakenUp_repeated :
    (let s := withEntry serving (entry .clientRead .lookup 1);
      takesFrame s (readFrameOf from16 tag 1) = true ∧ findEntry s tag = some (entry .clientRead .lookup 1))
      ∧ (let s := withEntry serving (entry .clientRead .expired 1)
        findEntry s tag = some (entry .clientRead .expired 1)
          ∧ (entry .clientRead .expired 1).sentData = false ∧ from16.mark = s.member.mark
          ∧ (3 : Mark) ≠ s.member.mark ∧ ¬(volume s ≤ (entry .clientRead .expired 1).blk.toNat))
      ∧ (answeredRead .data .answered).sentData = true ∧ (answeredRead .data .answered).state = .answered
      ∧ (answeredRead .data .expired).state = .expired
      ∧ (let e := entry .peerFetch .silent 1
        let s := withEntry serving e
        takesFrame s (fetchFrame from2 tag 1 0 true) = true ∧ from2.sender ∈ coReplicas s (groupOf 1)
          ∧ findEntry s tag = some e ∧ e.sentData = false) := by decide +kernel

/-- A READ at the end of its lookup with version 4 in hand, having heard this DATA of station 2. -/
def looked (heard : Option Version) : Entry :=
  { entry .clientRead .lookup 1 with
    slot := some 0,
    heard := [{ station := 2, ack := none, nack := none, data := heard, unavailable := none, current := none }] }
def lookedUp (st : StationState) : State := withSlots (member st) [.clean 1 4 0 1]

theorem witness_ReadAndFetchTakenUp_ends :
    currentCopy (lookedUp .serving) 1 = some (0, 4, 0) ∧ (looked none).slot ≠ none
      ∧ (lookedUp .serving).member.state = .serving ∧ isListed (lookedUp .serving) 1 = false
      ∧ (looked none).sentData = false ∧ accepts (lookedUp .serving) .data = true
      ∧ (looked (some 3)).heard.map (·.data) = [some 3] ∧ (looked (some 4)).heard.map (·.data) = [some 4]
      ∧ (looked none).heard.map (·.data) = [none] ∧ (looked none).heard.map (·.unavailable) = [none]
      ∧ heldVersion (lookedUp .serving) 1 = some 4 ∧ heldVersion serving 1 = none ∧ (3 : Version) < 4
      ∧ serving.port.down = false ∧ isFilling serving 1 = false ∧ isFilling (withSlots serving [.filling 1]) 1 = true
      ∧ allocate serving = some 0 ∧ allocate (withSlots serving [.retiring 2 1 0]) = none
      ∧ slotWait serving (replicas serving 1) = 0 ∧ serving.resetHeld = false
      ∧ (let s := heardPeer serving { peer .present none with peer := 0 };
        0 < slotWait s (replicas s 0)) := by decide +kernel

/-- R46: a lower DATA heard in the lookup is corrected by a SERVING station and silences one that is catching up; an
equal one suppresses. -/
theorem test_lookup_ends :
    (let ends (st : StationState) (v : Version) : List EntryState :=
        (endReadLookup (withEntry (lookedUp st) (looked (some v))) (looked (some v))).table.map (·.state);
      (ends .serving 3, ends .catchingUp 3, ends .serving 4)) = ([.answered], [.suppressed], [.suppressed]) := by
  decide +kernel

theorem witness_WriteTakenUp :
    takesFrame serving (writeFrame from16 tag 1 0) = true ∧ takesFrame serving (writeFrame from16 tag 2 0) = true
      ∧ takesFrame (member .resetting) (writeFrame from16 tag 1 0) = true
      ∧ isReplica (member .resetting) 1 = true
      ∧ takesFrame serving (writeFrame { sender := 16, mark := 3 } tag 1 0) = true
      ∧ isReplica serving 2 = false ∧ isReplica serving 65537 = true ∧ volume serving ≤ (65537 : Block).toNat
      ∧ takesFrame fullTable (writeFrame from16 otherTag 1 0) = true
      ∧ allocate serving = some 0
      ∧ allocate (withSlots serving (List.replicate 48 (.filling 1))) = none
      ∧ findEntry (withEntry serving { entry .clientWrite .acked 1 with committed := some 4 }) tag
          = some { entry .clientWrite .acked 1 with committed := some 4 } := by decide +kernel

def doneAt (n created : Nat) : Entry :=
  { entry .clientRead .silent 1 with tag := { origin := 16, seq := BitVec.ofNat 8 n }, created := created, finished := some 50 }
def reusable : State := { serving with table := (List.range 24).map fun n => doneAt n (if n = 3 then 4 else 5) }

/-- A full table of finished entries, all finished at the same time and one created earlier; its repeated WRITE at an
ACKED entry and at a REFUSED one. -/
theorem witness_WriteTakenUp_reuse :
    oldestFinished reusable = some (doneAt 3 4) ∧ 24 ≤ reusable.table.length
      ∧ oldestFinished { reusable with table := [{ doneAt 3 4 with ackWindow := some 3000 }] }
          = some { doneAt 3 4 with ackWindow := some 3000 }
      ∧ serving.table.length < 24 ∧ (∀ e ∈ fullTable.table, e.state.finished = false)
      ∧ (giveEntry serving).isSome = true
      ∧ (let e := { entry .clientWrite .refused 1 with reason := some .cacheFull }
        findEntry (withEntry serving e) tag = some e ∧ e.reason = some .cacheFull)
      ∧ (entry .clientWrite .expired 1).state = .expired := by decide +kernel

/-- A NACK without an entry, at a table that gives one and at one that does not. -/
theorem witness_WriteTakenUp_nack :
    (giveEntry (offer serving (nackFrame fromSelf tag 1 0 6) .acknowledgement)).isSome = true
      ∧ giveEntry (offer fullTable (nackFrame fromSelf otherTag 1 0 6) .acknowledgement) = none := by decide +kernel

theorem witness_FlushTakenUp :
    takesFrame serving (flushFrame from16 tag) = true ∧ inService serving = true
      ∧ from16.mark = serving.member.mark ∧ findEntry serving tag = none ∧ serving.table.length < 24
      ∧ takesFrame serving (flushFrame { sender := 16, mark := 3 } tag) = true
      ∧ (3 : Mark) ≠ serving.member.mark := by decide +kernel

/-- A full table that gives no entry, and one that gives a finished entry reused early. -/
theorem witness_FlushTakenUp_full :
    takesFrame fullTable (flushFrame from16 otherTag) = true ∧ findEntry fullTable otherTag = none
      ∧ giveEntry (afterEcho fullTable) = none
      ∧ takesFrame reusable (flushFrame from16 otherTag) = true ∧ findEntry reusable otherTag = none
      ∧ (giveEntry (afterEcho reusable)).isSome = true := by decide +kernel

/-- R63, R88: the FLUSH takes the place of a finished entry. -/
theorem test_flush_reuses :
    after (exec (.flushHeard from16 otherTag) { reusable with cache := twoDirty.cache })
      (fun s => (s.table.length, (s.table.getLast?.map (·.drain.length)))) = some (24, some 2) := by decide +kernel

def holding : State := withSlots serving [.clean 1 4 0 1, .free]

/-- A REPLAY above the held version, one equal to it, one out of range, one with no slot to be had, one of another mark. -/
theorem witness_ReplayTaken :
    takesFrame holding (replayFrame from2 ownTag9 1 1 5 0) = true
      ∧ takesFrame holding (replayFrame from2 ownTag9 1 1 4 0) = true
      ∧ inService holding = true ∧ from2.mark = holding.member.mark ∧ isReplica holding 1 = true
      ∧ allocate holding = some 1
      ∧ heldVersion (withSlots (afterEcho holding) [.clean 1 4 0 1, .held 1 0 (.replayTarget ownTag9) (some 5)]) 1
          = some 4
      ∧ isReplica serving 65537 = true ∧ volume serving ≤ (65537 : Block).toNat
      ∧ allocate (withSlots serving (List.replicate 48 (.filling 1))) = none
      ∧ takesFrame holding (replayFrame { sender := 2, mark := 3 } ownTag9 1 1 5 0) = true
      ∧ allocate (withSlots serving [.free]) = some 0
      ∧ heldVersion (withSlots (afterEcho serving) [.held 1 0 (.replayTarget ownTag9) (some 5)]) 1 = none
      ∧ (withSlots serving [.free]).port.down = false := by decide +kernel

/-- R80: with no current slot the commit is pending on a READ_HEADER, and nothing is answered yet. -/
theorem test_replay_waits :
    after (exec (.replayHeard from2 ownTag9 1 1 5 0) (withSlots serving [.free]))
      (fun s => (s.cache.pendings.map fun p => (p.on, p.slot, p.version), s.port.queue, s.bus.queue)) =
      some ([(.header, 0, 5)], [.readHeader 1], []) := by decide +kernel

/-- A command issued where others wait, at an idle port and at one at work. -/
theorem witness_ReplayTaken_issue :
    busy.cache.waiting ≠ [] ∧ busy.port.down = false
      ∧ serving.cache.waiting = [] ∧ serving.port.queue = [] ∧ serving.port.phase = .idle ∧ serving.port.down = false
      ∧ (withPort serving [.readHeader 2] .reading 0).port.phase ≠ .idle
      ∧ (withPort serving [.readHeader 2] .reading 0).port.queue.length < 8 := by decide +kernel

theorem witness_StatusReported :
    takesFrame serving (statusQueryFrame { sender := 31, mark := 0 } tag 1) = true
      ∧ takesFrame (member (.out .badStrap)) (statusQueryFrame { sender := 31, mark := 0 } tag 1) = true
      ∧ takesFrame serving (statusReportFrame from2 tag 1 0) = true := by decide +kernel

def leading (v : Version) : Entry :=
  { entry .clientWrite .waitOrder 1 with ownVersion := some (.known v), wait := some 60 }

theorem witness_LeadWaitEnds :
    serving.resetHeld = false ∧ findEntry (withEntry serving (leading 3)) tag = some (leading 3)
      ∧ (leading 3).kind = .clientWrite ∧ (leading 3).wait = some 60
      ∧ (withEntry serving (leading 3)).member.state = .serving
      ∧ isListed (withEntry serving (leading 3)) (leading 3).blk = false
      ∧ (leading 3).ownVersion = some (.known 3)
      ∧ heldForWrite (withEntry serving (leading 3)) (leading 3) = .known 3 ∧ (3 : Version) ≠ 4294967295
      ∧ heldForWrite (withEntry serving (leading 4294967295)) (leading 4294967295) = .known 4294967295
      ∧ (withEntry (member .catchingUp) (leading 3)).member.state ≠ .serving := by decide +kernel

/-- A write in LOOKUP that follows an ORDER and one that follows none; a lead wait behind a PRESENT station and one with
nobody ahead. -/
theorem witness_LeadWaitEnds_begins :
    (entry .clientWrite .lookup 1).state = .lookup ∧ (entry .clientWrite .lookup 1).followed = none
      ∧ { entry .clientWrite .lookup 1 with followed := some 4 }.followed ≠ none
      ∧ (leading 3).state ≠ .lookup
      ∧ (let s := heardPeer serving { peer .present none with peer := 0 };
        replicas s 0 = [0, 1] ∧ 0 < slotWait s (replicas s 0) ∧ slotWait s (replicas s 1) = 0) := by decide +kernel

/-- R15, R24: rank 1 of group 0 waits 60 µs for the PRESENT station of rank 0. -/
theorem test_lead_wait_begins :
    (beginLead (withEntry (heardPeer serving { peer .present none with peer := 0 })
      { entry .clientWrite .waitOrder 0 with ownVersion := some (.known 3) }) tag).table.map (·.wait) = [some 60] := by
  decide +kernel

theorem witness_ReadSlotWaitEnds :
    reading.resetHeld = false ∧ findEntry reading tag = some waitingRead ∧ waitingRead.kind = .clientRead
      ∧ waitingRead.wait = some 60 ∧ accepts reading .data = true ∧ accepts reading .unavailable = true
      ∧ waitingRead.reason = none ∧ currentCopy reading waitingRead.blk = some (0, 4, 0)
      ∧ reading.member.state = .serving ∧ isListed reading waitingRead.blk = false ∧ waitingRead.slot ≠ none
      ∧ waitingRead.sentData = false
      ∧ { waitingRead with reason := some .outOfRange }.reason = some .outOfRange
      ∧ currentCopy (withEntry serving waitingRead) waitingRead.blk = none
      ∧ (((replicas serving (groupOf 1)).dropWhile fun n => decide (n ≠ ownNumber serving)).drop 1) = [2]
      ∧ isAbsent serving 2 = false ∧ isAbsent (heardPeer serving (peer .absent none)) 2 = true
      ∧ (((replicas serving (groupOf 0)).dropWhile fun n => decide (n ≠ ownNumber serving)).drop 1) = [] := by
  decide +kernel

def waitingFetch (v : HeldVersion) : Entry :=
  { entry .peerFetch .slotWait 0 with slot := some 0, wait := some 60, requester := some 0, requested := some v }
def fetchedFrom (v : HeldVersion) : State := withEntry (withSlots serving [.clean 0 4 0 1]) (waitingFetch v)

/-- The requester's version unknown, one below the held one, and equal to it. -/
theorem witness_FetchSlotWaitEnds :
    (fetchedFrom .unknown).resetHeld = false
      ∧ findEntry (fetchedFrom .unknown) tag = some (waitingFetch .unknown)
      ∧ (waitingFetch .unknown).kind = .peerFetch ∧ (waitingFetch .unknown).wait = some 60
      ∧ (∀ k, kindClass k = 1 → accepts (fetchedFrom .unknown) k = true)
      ∧ (waitingFetch .unknown).reason = none ∧ isListed (fetchedFrom .unknown) 0 = false
      ∧ (waitingFetch .unknown).sentData = false
      ∧ currentCopy (fetchedFrom .unknown) (waitingFetch .unknown).blk = some (0, 4, 0)
      ∧ (3 : Version) < 4 ∧ (waitingFetch (.known 3)).requested = some (.known 3)
      ∧ (4 : Version) ≤ 4 ∧ (waitingFetch (.known 4)).requested = some (.known 4)
      ∧ currentCopy (withEntry serving (waitingFetch .unknown)) 0 = none
      ∧ isListed { fetchedFrom .unknown with repair := { Repair.reset with list := [{ block := 0, state := .ready }] } } 0
          = true := by
  refine ⟨by decide, by decide +kernel, by decide, by decide, ?_, by decide, by decide +kernel, by decide,
    by decide +kernel, by decide, by decide, by decide, by decide, by decide +kernel, by decide +kernel⟩
  intro k h
  cases k <;> decide +kernel

def windowEntry : Entry := { entry .clientWrite .acked 1 with followed := some 4, ackWindow := some 3000, finished := some 10 }
def answered : List HeardAnswer :=
  [{ station := 2, ack := some 4, nack := none, data := none, unavailable := none, current := none }]

/-- Station 2 silent, and its ACK of the very version followed heard; the retire hold running, and at its end. -/
theorem witness_AckWindowEnds :
    findEntry (withEntry serving windowEntry) tag = some windowEntry ∧ windowEntry.kind = .clientWrite
      ∧ windowEntry.ackWindow = some 3000 ∧ serving.resetHeld = false
      ∧ ((coReplicas serving (groupOf 1)).filter fun n => !hasAnswered windowEntry n) = [2]
      ∧ ((coReplicas serving (groupOf 1)).filter fun n => !hasAnswered { windowEntry with heard := answered } n) = []
      ∧ isAbsent (heardPeer serving (peer .absent none)) 2 = true ∧ inService serving = true
      ∧ isLive (heardPeer serving { peer .present none with misses := 1 }) 2 = true
      ∧ peerEntry (heardPeer serving { peer .present none with misses := 1 }) 2
          = some { peer .present none with misses := 1 }
      ∧ ¬(10 + 100000 ≤ max serving.clock 3000)
      ∧ 10 + 100000 ≤ max { serving with clock := 100010 }.clock 3000 := by decide +kernel

/-- Three copies, so that group 1 has the two co-replicas 0 and 2. -/
def threeCopies : State :=
  { serving with member := { serving.member with
      straps := { straps with copiesCode := 3 }, placement := buildPlacement 7 3 } }

/-- Two co-replicas silent; a third miss; and a station out of service. -/
theorem witness_AckWindowEnds_two :
    ((coReplicas threeCopies (groupOf 1)).filter fun n => !hasAnswered windowEntry n) = [2, 0]
      ∧ findEntry (withEntry threeCopies windowEntry) tag = some windowEntry
      ∧ peerEntry (heardPeer serving (peer .present none)) 2 = some (peer .present none)
      ∧ 3 ≤ (peer .present none).misses + 1 ∧ isLive (heardPeer serving (peer .present none)) 2 = true
      ∧ isLive (heardPeer serving (peer .absent none)) 2 = false ∧ inService released = false := by decide +kernel

def fullPool : State :=
  { serving with replay := { Replay.reset with
      pool := List.replicate 1024 { peer := 0, block := 0, recorded := 0, retry := none, push := false } } }

theorem witness_MissedWriteIsListed :
    inService serving = true ∧ isMissed serving 2 1 = false ∧ inMark serving.replay.overflow 2 = false
      ∧ (1 : Block).toNat < volume serving ∧ serving.replay.pool.length < 1024
      ∧ volume serving ≤ (65536 : Block).toNat ∧ isMissed twoMissed 2 1 = true
      ∧ (2 : StationNo).isStore = true ∧ isMissed fullPool 2 1 = false
      ∧ 1024 ≤ fullPool.replay.pool.length := by decide +kernel

def fullList : State :=
  { serving with repair := { Repair.reset with list := List.replicate 64 { block := 4, state := .ready } } }

/-- A block in doubt with room in the list, listed already, out of range, and with the list full: SERVING, and in a
catch-up that sweeps. -/
theorem witness_MissedWriteIsListed_doubt :
    isListed serving 1 = false ∧ serving.repair.list.length < 64 ∧ isListed fullList 4 = true
      ∧ isListed fullList 1 = false ∧ 64 ≤ fullList.repair.list.length
      ∧ fullList.member.state ≠ .catchingUp
      ∧ { fullList.member with state := .catchingUp, sweepNeeded := true }.state = .catchingUp := by
  decide +kernel

/-- A finished entry; an unfinished one of each kind; a write that followed nothing. -/
theorem witness_EntryTimesEnd :
    serving.resetHeld = false
      ∧ findEntry (withEntry serving (entry .clientWrite .acked 1)) tag = some (entry .clientWrite .acked 1)
      ∧ (entry .clientWrite .acked 1).state.finished = true
      ∧ (entry .clientRead .lookup 1).state.finished = false
      ∧ (entry .clientWrite .waitOrder 1).followed = none
      ∧ findEntry (withPush .queued 1) ownTag9 = some { entry .ownReplay .outstanding 1 with target := some 2, attempts := 1 }
      ∧ pushOfTag (withPush .queued 1) ownTag9 = some (push .queued)
      ∧ findEntry (withFetch (fetch .queued true) 1) ownTag9 = some { entry .ownFetch .outstanding 1 with attempts := 1 }
      ∧ fetchOfTag (withFetch (fetch .queued true) 1) ownTag9 = some (fetch .queued true)
      ∧ (fetch .queued true).sweep = true
      ∧ heldForWrite (followed (follower .waitOrder none) (.clean 1 7 0 1) .free) (follower .waitOrder none) = .known 7
      ∧ (4 : Version) ≤ 7
      ∧ heldForWrite (committing true) following = .known 3 ∧ (3 : Version) < 4
      ∧ fetchOfTag (withFetch (fetch .queued false) 1) ownTag9 = some (fetch .queued false)
      ∧ (fetch .queued false).sweep = false
      ∧ ownsEntry (withFetch (fetch .queued false) 1) (fetch .queued false) = true
      ∧ (entry .clientWrite .acked 1).finished = some 0 ∧ (entry .clientWrite .acked 1).ackWindow = none
      ∧ windowEntry.ackWindow ≠ none := by decide +kernel

theorem witness_ExpiredEntry :
    findEntry (withEntry serving (entry .clientRead .lookup 1)) tag = some (entry .clientRead .lookup 1) := by
  decide +kernel

def parked : State := { serving with repair := { Repair.reset with list := [{ block := 1, state := .parked 50000 }] } }
def heldBack : State :=
  { catching with repair := { catching.repair with retakes := [{ block := 1, due := some 5000 }] } }
def reoffering : State :=
  { heardPeer serving (peer .catchingUp none) with
    replay := { Replay.reset with reoffers := [{ peer := 2, sweep := true, due := 5000 }] } }

theorem witness_HeldBackWorkIsFreed :
    twoMissed.resetHeld = false
      ∧ (twoMissed.replay.pool.find? fun x => decide (x.peer = 0) && decide (x.block = 0))
          = some { peer := 0, block := 0, recorded := 0, retry := some 5, push := false }
      ∧ (parked.repair.list.find? fun x => decide (x.block = 1)) = some { block := 1, state := .parked 50000 }
      ∧ (heldBack.repair.retakes.find? fun x => decide (x.block = 1) && x.due.isSome)
          = some { block := 1, due := some 5000 }
      ∧ (reoffering.replay.reoffers.find? fun x => decide (x.peer = 2)) = some { peer := 2, sweep := true, due := 5000 }
      ∧ inService reoffering = true ∧ isCatchingUp reoffering 2 = true
      ∧ (∀ m ∈ reoffering.replay.pool, m.peer ≠ 2) ∧ accepts reoffering .replayDone = true
      ∧ isCatchingUp { reoffering with peers := serving.peers } 2 = false := by decide +kernel

def awaiting (misses attempts : Nat) : State :=
  heardPeer (withPush (.awaiting 3000) attempts) { peer .present none with misses := misses }

/-- The second and the third attempt with the peer live, and the third miss, which ends the push. -/
theorem witness_ReplayAnswerWaitEnds :
    (awaiting 0 2).resetHeld = false ∧ pushOfTag (awaiting 0 2) ownTag9 = some (push (.awaiting 3000))
      ∧ (push (.awaiting 3000)).phase = .awaiting 3000
      ∧ findPush (reportMiss (awaiting 0 2) 2) 3 = some (push (.awaiting 3000))
      ∧ isLive (reportMiss (awaiting 0 2) 2) 2 = true
      ∧ attemptsOf (reportMiss (awaiting 0 2) 2) (some ownTag9) < 3
      ∧ 3 ≤ attemptsOf (reportMiss (awaiting 0 3) 2) (some ownTag9)
      ∧ findPush (reportMiss (awaiting 2 3) 2) 3 = none
      ∧ isLive (heardPeer (withPush (.awaiting 3000) 1) (peer .absent none)) 2 = false
      ∧ findPush (reportMiss (heardPeer (withPush (.awaiting 3000) 1) (peer .absent none)) 2) 3
          = some (push (.awaiting 3000)) := by decide +kernel

def window : Fetch := fetch (.window 2000) false

theorem witness_FetchWindowCloses :
    (withFetch window 3).resetHeld = false ∧ fetchOfTag (withFetch window 3) ownTag9 = some window
      ∧ window.phase = .window 2000 ∧ window.buffer = none ∧ window.currentTaken = false
      ∧ attemptsOf (withFetch window 2) window.tag < 3 ∧ 3 ≤ attemptsOf (withFetch window 3) window.tag
      ∧ { window with buffer := some ((4 : Version), (0 : Data)) }.buffer = some (4, 0)
      ∧ { window with currentTaken := true }.currentTaken = true
      ∧ allocate (withFetch window 3) = some 0
      ∧ allocate (withSlots (withFetch window 3) (List.replicate 48 (.filling 1))) = none := by decide +kernel

/-- A fetch whose lookup is answered: without an entry yet, at a table with room and at one without, and with one. -/
theorem witness_FetchWindowCloses_begin :
    let f : Fetch := { fetch .lookup false with tag := none }
    let s := withFetch f 1
    findFetch s f.id = some f ∧ f.phase = .lookup ∧ serving.table.length < 24
      ∧ 24 ≤ fullTable.table.length ∧ (∀ e ∈ fullTable.table, e.state.finished = false)
      ∧ (fetch .lookup false).tag = some ownTag9
      ∧ currentCopy (withSlots s [.clean 1 4 0 1]) f.block = some (0, 4, 0)
      ∧ currentCopy s f.block = none ∧ s.port.down = false := by decide +kernel

/-- A fetch with an entry and without, one whose repair entry is its own and one whose entry a later fetch has; a block
listed and one not; a commit offered against a current copy, and with none. -/
theorem witness_FetchWindowCloses_ends :
    { window with tag := none }.tag = none ∧ window.tag = some ownTag9
      ∧ ownsEntry (withFetch window 1) window = true ∧ window.sweep = false
      ∧ ownsEntry (withFetch { window with id := 5 } 1) window = false ∧ (fetch (.window 2000) true).sweep = true
      ∧ isListed (withFetch window 1) 1 = true ∧ 1 ∉ (withFetch window 1).repair.waitingRoom
      ∧ isListed serving 1 = false
      ∧ findFetch (withFetch window 1) 4 = some window ∧ findFetch serving 4 = none
      ∧ heldVersion (withSlots serving [.clean 1 4 0 1]) 1 = some 4
      ∧ heldVersion serving 1 = none ∧ serving.port.down = false := by decide +kernel

/-- R147: a window of CURRENT alone ends the fetch, its entry DONE and its block off the repair list; R144: without a
slot for its data the block is PARKED for 5 ms. -/
theorem test_fetch_ends :
    (let t := settleFetch (withFetch window 1) window;
      (t.repair.list, t.repair.fetches, t.table.map (·.state))) = ([], [], [.done])
    ∧ (let t := endNoAttempt (withFetch window 1) window;
      (t.repair.list, t.repair.fetches, t.table.map (·.state))) =
        ([{ block := 1, state := .parked 5000 }], [], [.done]) := by decide +kernel

def swept (b : Block) (list : List RepairEntry) : State :=
  { catching with repair := { catching.repair with
      list := list, fetches := [{ fetch (.window 2000) true with block := b }] } }
def unanswered (b : Block) (list : List RepairEntry) : State :=
  endFetch (swept b list) { fetch (.window 2000) true with block := b } .done

/-- A sweep fetch that ends unanswered, its block listed already, the list full or not, its group live or not; and a
block that waits for room. -/
theorem witness_FetchWindowCloses_unanswered :
    groupLive (unanswered 4 []) (groupOf 4) = true ∧ isListed (unanswered 4 [{ block := 4, state := .ready }]) 4 = true
      ∧ isListed (unanswered 4 []) 4 = false ∧ 4 ∉ (unanswered 4 []).repair.waitingRoom
      ∧ (unanswered 4 []).repair.list.length < 64
      ∧ 64 ≤ (unanswered 1 (List.replicate 64 { block := 4, state := .ready })).repair.list.length
      ∧ groupLive (heardPeer (unanswered 1 []) (peer .absent none)) (groupOf 1) = false
      ∧ isListed { catching with repair := { catching.repair with waitingRoom := [1] } } 1 = false := by decide +kernel

def limited : State := { catching with repair := { catching.repair with awaited := 5, limit := some 500000 } }

theorem witness_CatchUpLimitExpires :
    limited.resetHeld = false ∧ limited.repair.limit = some 500000 ∧ inService limited = true
      ∧ (2 : StationNo).isStore = true ∧ inMark limited.repair.awaited 2 = true
      ∧ 1 ∈ sharedGroups limited 2 ∧ isLive limited 2 = true
      ∧ isLive (heardPeer limited (peer .absent none)) 2 = false ∧ limited.repair.active = true := by decide +kernel

/-- One candidate is too few for copies 2, two are enough; the sweep-needed flag set and clear. -/
theorem witness_FormationTimersEnd :
    listening.resetHeld = false ∧ listening.member.listeningWindow = some 25000 ∧ accepts listening .present = true
      ∧ forming.member.quietTimer = some 15000 ∧ (markMembers forming.member.candidates).length < copies forming
      ∧ copies forming ≤ (markMembers { forming.member with candidates := 6 }.candidates).length
      ∧ forming.member.sweepNeeded = true
      ∧ { forming.member with sweepNeeded := false }.sweepNeeded = false := by decide +kernel

def reoffered : State :=
  { serving with
    member := { serving.member with
      presentReoffers := [5000, 6000], queryTimer := some 5000, ownDownReoffer := some 5000, checkPending := true }
    repair := { Repair.reset with rejoinRequeue := some 5000, caughtUpRequeue := some 5000, active := true } }

theorem witness_FramesOfferedAgain :
    reoffered.resetHeld = false ∧ reoffered.member.presentReoffers = 5000 :: [6000]
      ∧ { reoffered.member with state := .forming }.state = .forming ∧ presentQueued reoffered = false
      ∧ accepts reoffered .present = true ∧ reoffered.member.queryTimer = some 5000
      ∧ reoffered.member.checkPending = true ∧ inService reoffered = true ∧ accepts reoffered .rosterQuery = true
      ∧ reoffered.member.ownDownReoffer = some 5000
      ∧ { reoffered.member with state := .out .mediaDown }.state = .out .mediaDown
      ∧ reoffered.member.member = true ∧ accepts reoffered .peerDown = true
      ∧ reoffered.repair.rejoinRequeue = some 5000 ∧ reoffered.repair.active = true
      ∧ { reoffered.member with state := .catchingUp }.state = .catchingUp ∧ accepts reoffered .rejoin = true
      ∧ reoffered.repair.caughtUpRequeue = some 5000 ∧ reoffered.member.state = .serving
      ∧ accepts reoffered .caughtUp = true := by decide +kernel

end Sys2Proof.Tests
end

section
/-! The record memory: a stored record is read back, and every step keeps the canonical form (R1, R2). -/

namespace Sys2Proof.Machine

/-! ### Reading after a store -/

/-- The record found for a block number in a list with one more record put in. -/
theorem find_insertRecord (m : List (Nat × Record)) (a : Nat) (r : Record) (x : Nat) :
    (insertRecord a r m).find? (fun c => decide (c.1 = x))
      = if x = a then some (a, r) else m.find? fun c => decide (c.1 = x) := by
  induction m with
  | nil => by_cases h : a = x <;> simp [insertRecord, h, eq_comm]
  | cons c m ih =>
    unfold insertRecord
    split
    · by_cases h : a = x <;> simp [List.find?_cons, h, eq_comm]
    · split
      next heq =>
        by_cases h : a = x
        · simp [h]
        · simp [h, ← heq, Ne.symm h]
      next heq =>
        by_cases h : c.1 = x
        · simp [h, Ne.symm (h ▸ heq)]
        · simp [h, ih]

/-- The record found for a block number in a list with one number taken out. -/
theorem find_withoutRecord (m : List (Nat × Record)) (a x : Nat) :
    (m.filter fun c => decide (c.1 ≠ a)).find? (fun c => decide (c.1 = x))
      = if x = a then none else m.find? fun c => decide (c.1 = x) := by
  rw [List.find?_filter]
  by_cases h : x = a
  · simp +contextual [h]
  · rw [if_neg h]
    congr 1
    funext c
    by_cases hc : c.1 = x <;> simp [hc, h]

/-- Reading after a store: the record at its own number, what was there at every other (R1, R2). -/
theorem readMedia_writeMedia (m : List (Nat × Record)) (a : Nat) (r : Record) (x : Nat) :
    readMedia (writeMedia m a r) x
      = if x = a then (if r.written then r else neverWritten) else readMedia m x := by
  unfold readMedia writeMedia
  by_cases hw : r.written = true
  · simp only [hw, if_true, find_insertRecord]
    by_cases h : x = a <;> simp [h]
  · simp only [hw, Bool.false_eq_true, if_false, find_withoutRecord]
    by_cases h : x = a <;> simp [h]

/-- Settles O6: by the lemma for a record put in and the lemma for a number taken out. -/
theorem recordReadAfterWrite : Obligations.RecordReadAfterWrite := by
  unfold Obligations.RecordReadAfterWrite
  exact fun m a r x _ => readMedia_writeMedia m a r x

/-! ### Every command keeps the canonical form -/

theorem execPowerOnReset_media {s t : State} (h : execPowerOnReset s = .next t) :
    t.media = (breakOff s).media := by
  cases h
  rfl

theorem execResetRelease_media {straps : Straps} {s t : State} (h : execResetRelease straps s = .next t) :
    t.media = s.media := by
  unfold execResetRelease at h
  split at h
  · cases h
    exact (enterStarting_keeps _).media
  · cases h
    rfl

theorem Holds.mediaWf {s t : State} (a : Holds s t) (h : mediaWf s.media = true) : mediaWf t.media = true :=
  a.media ▸ h

/-- Every command keeps the record memory in canonical form: the answers of the memory by what they store, a power-on
reset by what a write broken off leaves (R96), the others by leaving the memory alone. -/
theorem exec_mediaWf {c : Instr} {s t : State} (wf : mediaWf s.media = true) (h : exec c s = .next t) :
    mediaWf t.media = true := by
  cases c with
  | powerOnReset => exact execPowerOnReset_media h ▸ (breakOff_tends s).media wf
  | resetRelease => exact execResetRelease_media h ▸ wf
  | mediaReady => exact (execMediaReady_tends _ _ _ h).media wf
  | mediaFault => exact (execMediaFault_tends _ h).media wf
  | attemptTimeout => exact (execAttemptTimeout_tends h).media wf
  | probeLimitExpiry => exact (execProbeLimitExpiry_holds h).mediaWf wf
  | lineIdle => exact (execLineIdle_holds h).mediaWf wf
  | arbitrationEnd => exact (execArbitrationEnd_holds _ h).mediaWf wf
  | frameSent => exact (execFrameSent_holds h).mediaWf wf
  | attemptFailed => exact (execAttemptFailed_holds h).mediaWf wf
  | receiveCheckFail => exact (execReceiveCheckFail_holds h).mediaWf wf
  | presentHeard => exact (execPresentHeard_holds _ _ _ h).mediaWf wf
  | rosterHeard => exact (execRosterHeard_holds _ _ h).mediaWf wf
  | rosterQueryHeard => exact (execRosterQueryHeard_holds _ h).mediaWf wf
  | peerDownHeard => exact (execPeerDownHeard_holds _ _ h).mediaWf wf
  | rejoinHeard => exact (execRejoinHeard_holds _ h).mediaWf wf
  | caughtUpHeard => exact (execCaughtUpHeard_holds _ h).mediaWf wf
  | replayDoneHeard => exact (execReplayDoneHeard_holds _ _ _ h).mediaWf wf
  | stationResetHeard =>
    obtain ⟨_, held⟩ := execStationResetHeard_holds _ _ h
    exact held.mediaWf wf
  | orderHeard => exact (execOrderHeard_holds _ _ _ _ h).mediaWf wf
  | ackHeard => exact (execAckHeard_holds _ _ _ _ h).mediaWf wf
  | nackHeard => exact (execNackHeard_holds _ _ _ _ _ h).mediaWf wf
  | dataHeard => exact (execDataHeard_holds _ _ _ _ _ h).mediaWf wf
  | unavailableHeard => exact (execUnavailableHeard_holds _ _ _ _ h).mediaWf wf
  | currentHeard => exact (execCurrentHeard_holds _ _ _ _ h).mediaWf wf
  | readHeard => exact (execReadHeard_holds _ _ _ h).mediaWf wf
  | writeHeard => exact (execWriteHeard_holds _ _ _ _ h).mediaWf wf
  | flushHeard => exact (execFlushHeard_holds _ _ h).mediaWf wf
  | fetchHeard => exact (execFetchHeard_holds _ _ _ _ _ h).mediaWf wf
  | replayHeard => exact (execReplayHeard_holds _ _ _ _ _ _ h).mediaWf wf
  | statusQueryHeard => exact (execStatusQueryHeard_holds _ _ _ h).mediaWf wf
  | statusReportHeard => exact (execStatusReportHeard_holds _ _ _ _ h).mediaWf wf
  | leadWaitExpiry => exact (execLeadWaitExpiry_holds _ h).mediaWf wf
  | readSlotWaitExpiry => exact (execReadSlotWaitExpiry_holds _ h).mediaWf wf
  | fetchSlotWaitExpiry => exact (execFetchSlotWaitExpiry_holds _ h).mediaWf wf
  | rosterAnswerWaitExpiry => exact (execRosterAnswerWaitExpiry_holds h).mediaWf wf
  | ackWindowExpiry => exact (execAckWindowExpiry_holds _ h).mediaWf wf
  | requestLifetimeExpiry => exact (execRequestLifetimeExpiry_holds _ h).mediaWf wf
  | retireHoldEnd => exact (execRetireHoldEnd_holds _ h).mediaWf wf
  | replayRetryTimeExpiry => exact (execReplayRetryTimeExpiry_holds _ _ h).mediaWf wf
  | replayAnswerWaitExpiry => exact (execReplayAnswerWaitExpiry_holds _ h).mediaWf wf
  | replayDoneReoffer => exact (execReplayDoneReoffer_holds _ h).mediaWf wf
  | fetchWindowClose => exact (execFetchWindowClose_holds _ h).mediaWf wf
  | parkEnd => exact (execParkEnd_holds _ h).mediaWf wf
  | sweepBlockRetake => exact (execSweepBlockRetake_holds _ h).mediaWf wf
  | rejoinRequeue => exact (execRejoinRequeue_holds h).mediaWf wf
  | catchUpLimitExpiry => exact (execCatchUpLimitExpiry_holds h).mediaWf wf
  | caughtUpRequeue => exact (execCaughtUpRequeue_holds h).mediaWf wf
  | listeningWindowExpiry => exact (execListeningWindowExpiry_holds h).mediaWf wf
  | quietTimerExpiry => exact (execQuietTimerExpiry_holds h).mediaWf wf
  | presentReoffer => exact (execPresentReoffer_holds h).mediaWf wf
  | rosterQueryRepeat => exact (execRosterQueryRepeat_holds h).mediaWf wf
  | ownPeerDownReoffer => exact (execOwnPeerDownReoffer_holds h).mediaWf wf

/-- Settles O5: an idle step touches no record, and every command keeps the form. -/
theorem stepKeepsMemoryForm : Obligations.StepKeepsMemoryForm := by
  unfold Obligations.StepKeepsMemoryForm
  intro s t wf h
  unfold step at h
  split at h
  · cases h
    exact wf
  · next rest _ => exact exec_mediaWf (s := { s with pending := rest }) wf h

end Sys2Proof.Machine
end

section
/-! Placement: the replica lists by rank (R11). -/

namespace Sys2Proof.Machine

theorem markMembers_nodup (m : Mark) : (markMembers m).Nodup := by
  unfold markMembers
  exact List.Nodup.filter _ (by decide)

theorem replicaList_length (members : List StationNo) (copies g : Nat) :
    (replicaList members copies g).length = copies := by simp [replicaList]

/-- The member of rank `k` for group `g` is S[(g + k) mod n] (R11). -/
theorem replicaList_rank {members : List StationNo} {copies k : Nat} (g : Nat) (hn : 0 < members.length)
    (hk : k < copies) : (replicaList members copies g)[k]? = members[(g + k) % members.length]? := by
  have hm : (g + k) % members.length < members.length := Nat.mod_lt _ hn
  simp [replicaList, hk, hm]

theorem buildPlacement_group (mark : Mark) (copies : Nat) {g : Nat} (hg : g < 64) :
    (buildPlacement mark copies)[g]? = some (replicaList (markMembers mark) copies g) := by
  simp [buildPlacement, Config.groupCount, hg]

/-- Two ranks below `n` that fall on one place of the roster are the same rank. -/
theorem rank_injective {g n j k : Nat} (hj : j < n) (hk : k < n) (h : (g + j) % n = (g + k) % n) : j = k := by
  have : j ≡ k [MOD n] := Nat.ModEq.add_left_cancel' g h
  rwa [Nat.ModEq, Nat.mod_eq_of_lt hj, Nat.mod_eq_of_lt hk] at this

/-- With enough members the ranks fall on distinct members. -/
theorem replicaList_nodup {members : List StationNo} {copies : Nat} (g : Nat) (nodup : members.Nodup)
    (enough : copies ≤ members.length) : (replicaList members copies g).Nodup := by
  unfold replicaList
  refine (List.nodup_range).map_on fun j hj k hk h => ?_
  have hj : j < members.length := (List.mem_range.1 hj).trans_le enough
  have hk : k < members.length := (List.mem_range.1 hk).trans_le enough
  have hn : 0 < members.length := by omega
  rw [List.getD_eq_getElem _ _ (Nat.mod_lt _ hn), List.getD_eq_getElem _ _ (Nat.mod_lt _ hn),
    nodup.getElem_inj_iff] at h
  exact rank_injective hj hk h

/-- The place `i` of the roster is the one of rank `k` for group `g` where `k` is `i - g` modulo `n`. -/
theorem place_of_rank {g i k n : Nat} (hg : g < 64) (hi : i < n) (hk : k < n) :
    (g + k) % n = i ↔ (i + 64 * n - g) % n = k := by
  have hgn : g ≤ 64 * n := by nlinarith
  constructor
  · rintro rfl
    have : (g + k) % n + 64 * n - g ≡ k [MOD n] := by
      refine Nat.ModEq.add_left_cancel' g ?_
      rw [Nat.add_sub_cancel' (by omega)]
      simp [Nat.ModEq]
    rwa [Nat.ModEq, Nat.mod_eq_of_lt hk] at this
  · rintro rfl
    rw [Nat.add_mod_mod, Nat.add_sub_cancel' (by omega)]
    simp [Nat.mod_eq_of_lt hi]

/-- The member at place `i` holds group `g` where `i - g` modulo `n` is below `copies` (R11). -/
theorem mem_replicaList_iff {members : List StationNo} {copies g i : Nat} {p : StationNo} (nodup : members.Nodup)
    (enough : copies ≤ members.length) (hg : g < 64) (hp : members[i]? = some p) :
    p ∈ replicaList members copies g ↔ (i + 64 * members.length - g) % members.length < copies := by
  obtain ⟨hi, rfl⟩ := List.getElem?_eq_some_iff.1 hp
  have hn : 0 < members.length := by omega
  have rank (k : Nat) (hk : k < members.length) :
      members.getD ((g + k) % members.length) 0 = members[i]
        ↔ (i + 64 * members.length - g) % members.length = k := by
    rw [List.getD_eq_getElem _ _ (Nat.mod_lt _ hn), nodup.getElem_inj_iff, place_of_rank hg hi hk]
  simp only [replicaList, List.mem_map, List.mem_range]
  constructor
  · rintro ⟨k, hk, h⟩
    exact ((rank k (by omega)).1 h).symm ▸ hk
  · exact fun h => ⟨_, h, (rank _ (Nat.mod_lt _ hn)).2 rfl⟩

/-- Settles O11: the list of group `g` is the replica list over the members, rank by rank. -/
theorem placementRanks : Obligations.PlacementRanks := by
  unfold Obligations.PlacementRanks
  intro mark copies g enough hg members n
  have nodup : members.Nodup := markMembers_nodup mark
  refine ⟨by simp [buildPlacement, Config.groupCount], _, buildPlacement_group mark copies hg,
    replicaList_length _ _ _, replicaList_nodup g nodup enough, fun k hk => ?_, fun i p hp => ?_⟩
  · exact replicaList_rank g (by omega) hk
  · exact mem_replicaList_iff nodup enough hg hp

end Sys2Proof.Machine
end

section
/-! Waits: the slot wait (R15), the roster answer wait (R174) and the lead wait of a write (R23 to R25). -/

namespace Sys2Proof.Machine

/-! ### The slot wait (R15) -/

/-- Of an answering list the stations before this one count, those marked PRESENT. -/
theorem slotWait_split {s : State} {before : List StationNo} (after : List StationNo) (h : ownNumber s ∉ before) :
    slotWait s (before ++ ownNumber s :: after)
      = 60 * (before.filter fun n => decide (peerState s n = some .present)).length := by
  have others : ∀ n ∈ before, decide (n ≠ ownNumber s) = true := fun n hn =>
    decide_eq_true fun hne => h (hne ▸ hn)
  unfold slotWait
  rw [List.takeWhile_append_of_pos others, List.takeWhile_cons_of_neg (by simp), List.append_nil,
    List.countP_eq_length_filter]
  rfl

/-! ### The roster answer wait (R174) -/

/-- What must hold for a roster answer wait to begin. -/
def mayAnswerRoster (s : State) : Prop :=
  inService s = true ∧ s.member.checkPending = false ∧ s.member.rosterWait = none ∧ rosterQueued s = false

theorem beginRosterWait_of_busy {s : State} (h : ¬mayAnswerRoster s) : beginRosterWait s = s := by
  unfold beginRosterWait
  refine if_neg fun hc => h ?_
  simpa [mayAnswerRoster, and_assoc] using hc

theorem beginRosterWait_of_free {s : State} (h : mayAnswerRoster s) :
    beginRosterWait s =
      if slotWait s (markMembers s.member.mark) = 0 then offer s (rosterFrame (self s) (ownConfiguration s)) .roster
      else { s with member := { s.member with
        rosterWait := some (s.clock + slotWait s (markMembers s.member.mark)) } } := by
  obtain ⟨hs, hc, hw, hq⟩ := h
  have same : { s with member := { s.member with rosterWait := none } } = s := by rw [← hw]
  have ends (w : Option Nat) : expireRosterWait { s with member := { s.member with rosterWait := w } }
      = offer s (rosterFrame (self s) (ownConfiguration s)) .roster := by
    conv_rhs => rw [← same]
    rfl
  unfold beginRosterWait
  rw [if_pos (by simp [hs, hc, hw, hq])]
  dsimp only
  rw [ends]

theorem takeRosterQuery_of_own {s : State} {src : Source} (h : src.sender = ownNumber s) :
    takeRosterQuery (afterEcho s) src = afterEcho s := if_pos h

theorem takeRosterQuery_of_other {s : State} {src : Source} (h : src.sender ≠ ownNumber s) :
    takeRosterQuery (afterEcho s) src = beginRosterWait (afterEcho s) := if_neg h

theorem exec_rosterQueryHeard {s : State} {src : Source} (h : takesFrame s (rosterQueryFrame src) = true) :
    exec (.rosterQueryHeard src) s = .next (settle (takeRosterQuery (afterEcho s) src)) :=
  hear_of_takes (fun u => takeRosterQuery u src) h

theorem exec_rosterAnswerWaitExpiry {s : State} {due : Nat} (released : s.resetHeld = false)
    (running : s.member.rosterWait = some due) :
    exec .rosterAnswerWaitExpiry s = .next (settle (expireRosterWait (reach s due))) := by
  refine Eq.trans (b := execRosterAnswerWaitExpiry s) rfl ?_
  unfold execRosterAnswerWaitExpiry
  rw [happening_of_released _ released]
  simp only [running]

/-- Settles O33: by what a roster answer wait does once it may begin, and by its end. -/
theorem rosterAnswerWaits : Obligations.RosterAnswerWaits := by
  unfold Obligations.RosterAnswerWaits
  refine ⟨fun s before after h => slotWait_split after h, fun s src takes => ?_,
    fun s due released running => exec_rosterAnswerWaitExpiry released running⟩
  rw [exec_rosterQueryHeard takes]
  have begins : mayAnswerRoster s → beginRosterWait (afterEcho s) = _ := beginRosterWait_of_free (s := afterEcho s)
  refine ⟨fun other free hw => ?_, fun other free hw => ?_, fun stays => ?_⟩
  · rw [takeRosterQuery_of_other other, begins free, if_neg]
    · rfl
    · exact hw.ne'
  · rw [takeRosterQuery_of_other other, begins free, if_pos]
    · rfl
    · exact hw
  · by_cases other : src.sender = ownNumber s
    · rw [takeRosterQuery_of_own other]
    · rw [takeRosterQuery_of_other other]
      exact congrArg _ (congrArg _ (beginRosterWait_of_busy (stays.resolve_left other)))

/-! ### The lead wait (R23 to R25) -/

/-- The entry found under a tag after a change that keeps tags. -/
theorem findEntry_updateEntry {s : State} {t : Tag} {e : Entry} {f : Entry → Entry} (hf : ∀ x, (f x).tag = x.tag)
    (h : findEntry s t = some e) : findEntry (updateEntry s t f) t = some (f e) := by
  have ht : e.tag = t := (findEntry_some h).2
  have same : (fun e : Entry => decide (e.tag = t)) ∘ (fun e => if e.tag = t then f e else e)
      = fun e => decide (e.tag = t) := by
    funext x
    by_cases hx : x.tag = t <;> simp [hx, hf]
  unfold findEntry updateEntry at *
  rw [List.find?_map, same, h]
  simp [ht]

/-- A replica may lead a write in SERVING, the block not listed and its version known (R24). -/
theorem mayLead_iff (s : State) (e : Entry) :
    mayLead s e = true ↔ s.member.state = .serving ∧ isListed s e.blk = false
      ∧ ∃ v, e.ownVersion = some (.known v) := by
  unfold mayLead
  rcases e.ownVersion with _ | _ | _ <;> simp

theorem writeAnswered_of_lookup {s : State} {t : Tag} {e : Entry} {a : HeldVersion} (h : findEntry s t = some e)
    (hl : e.state = .lookup) :
    writeAnswered s t a = if e.followed = none then beginLead (storeOwnVersion s t a) t
      else decideFollow (storeOwnVersion s t a) t := by
  have stored : findEntry (storeOwnVersion s t a) t = some { e with state := .waitOrder, ownVersion := some a } := by
    unfold storeOwnVersion
    rw [findEntry_updateEntry (fun x => by split <;> rfl) h, if_pos hl]
  unfold writeAnswered
  simp only [h, hl, if_true]
  unfold afterLookup
  rw [stored]
  cases e.followed <;> rfl

theorem writeAnswered_of_finished {s : State} {t : Tag} {e : Entry} {a : HeldVersion} (h : findEntry s t = some e)
    (hl : e.state ≠ .lookup) : writeAnswered s t a = s := by
  unfold writeAnswered
  rw [h]
  exact if_neg hl

theorem beginLead_of_barred {s : State} {t : Tag} {e : Entry} (h : findEntry s t = some e)
    (barred : mayLead s e = false) : beginLead s t = s := by
  unfold beginLead
  simp [h, barred]

/-- The state of a replica whose lead wait has just begun. -/
def waitingToLead (s : State) (t : Tag) (e : Entry) : State :=
  updateEntry s t fun x => { x with wait := some (s.clock + slotWait s (replicas s (groupOf e.blk))) }

theorem beginLead_of_mayLead {s : State} {t : Tag} {e : Entry} (h : findEntry s t = some e)
    (may : mayLead s e = true) :
    beginLead s t = if slotWait s (replicas s (groupOf e.blk)) = 0 then leadExpire (waitingToLead s t e) t
      else waitingToLead s t e := by
  unfold beginLead
  rw [h]
  exact if_pos may

/-- The state with the wait of an entry over. -/
def waitOver (s : State) (t : Tag) : State := updateEntry s t fun x => { x with wait := none }

/-- A replica that may no longer lead queues nothing at the end of its lead wait (R25). -/
theorem leadExpire_of_barred {s : State} {t : Tag} {e : Entry} (h : findEntry s t = some e)
    (barred : mayLead s e = false) : leadExpire s t = waitOver s t := by
  have barred' : ¬mayLead (waitOver s t) e = true := Bool.eq_false_iff.1 barred
  unfold leadExpire
  rw [h]
  exact if_neg barred'

/-- A replica that may still lead refuses the write at the maximum and leads it below (R5, R25). -/
theorem leadExpire_of_mayLead {s : State} {t : Tag} {e : Entry} {v : Version} (h : findEntry s t = some e)
    (may : mayLead s e = true) (held : heldForWrite s e = .known v) :
    leadExpire s t = if v = maxVersion then nackWrite (waitOver s t) e .versionLimit
      else offer (waitOver s t) (orderFrame (self s) t e.blk (v + 1)) .leadOrder := by
  have may' : mayLead (waitOver s t) e = true := may
  have held' : heldForWrite (waitOver s t) e = .known v := held
  unfold leadExpire
  rw [h]
  change (if mayLead (waitOver s t) e then _ else _) = _
  rw [if_pos may']
  simp only [waitOver] at held' ⊢
  rw [held']
  rfl

/-- The expiry of a write's lead wait ends the wait at its due moment. -/
theorem exec_leadWaitExpiry {s : State} {t : Tag} {e : Entry} {due : Nat} (released : s.resetHeld = false)
    (h : findEntry s t = some e) (write : e.kind = .clientWrite) (waits : e.wait = some due) :
    exec (.leadWaitExpiry t) s = .next (settle (leadExpire (reach s due) t)) := by
  refine Eq.trans (b := execLeadWaitExpiry t s) rfl ?_
  unfold execLeadWaitExpiry
  rw [happening_of_released _ released]
  simp only [onEntry, atWaitEnd, h, write, waits, if_true]

/-- A lead wait of no slots that has just begun ends at once when its expiry is taken (R15; log 15). -/
theorem exec_leadWaitExpiry_of_noSlots {s : State} {t : Tag} {e : Entry} (released : s.resetHeld = false)
    (h : findEntry s t = some e) (write : e.kind = .clientWrite)
    (noSlots : slotWait s (replicas s (groupOf e.blk)) = 0) :
    exec (.leadWaitExpiry t) (waitingToLead s t e) = .next (settle (leadExpire (waitingToLead s t e) t)) := by
  have found : findEntry (waitingToLead s t e) t = _ := findEntry_updateEntry (fun _ => rfl) h
  have now : reach (waitingToLead s t e) (s.clock + slotWait s (replicas s (groupOf e.blk)))
      = waitingToLead s t e := by
    simp [reach, noSlots, waitingToLead, updateEntry]
  rw [exec_leadWaitExpiry (s := waitingToLead s t e) released found write rfl, now]

/-- Settles O48: by the answer of the lookup, the begin of the lead wait and its end. -/
theorem leadWaitEnds : Obligations.LeadWaitEnds := by
  unfold Obligations.LeadWaitEnds
  simp only [← mayLead_iff]
  refine ⟨fun s tag e a found => ?_, fun s tag e found => ?_, fun s tag e due released found write waits => ?_⟩
  · refine ⟨fun hl => writeAnswered_of_finished found hl, fun hl hf => ?_, fun hl hf => ?_⟩
    · exact (writeAnswered_of_lookup found hl).trans (if_neg hf)
    · exact (writeAnswered_of_lookup found hl).trans (if_pos hf)
  · refine ⟨fun barred => beginLead_of_barred found (by simpa using barred), fun may hw => ?_,
      fun may hw write released => ?_⟩
    · exact (beginLead_of_mayLead found may).trans (if_neg hw.ne')
    · rw [beginLead_of_mayLead found may, if_pos hw]
      exact exec_leadWaitExpiry_of_noSlots released found write hw
  · have reached : findEntry (reach s due) tag = some e := found
    rw [exec_leadWaitExpiry released found write waits]
    refine ⟨fun barred => ?_, fun may v held => ⟨fun hv => ?_, fun hv => ?_⟩⟩
    · rw [leadExpire_of_barred reached (Bool.eq_false_iff.2 barred)]
      rfl
    · rw [leadExpire_of_mayLead reached may held, if_neg (show ¬v = maxVersion from hv)]
      rfl
    · rw [leadExpire_of_mayLead reached may held, if_pos (show v = maxVersion from hv)]
      rfl

end Sys2Proof.Machine
end

section
/-! Missed writes (R124 to R126) and blocks in doubt (R139, R140, R142). -/

namespace Sys2Proof.Machine

/-! ### A block in doubt -/

/-- Where a block is not to be listed nothing happens (R9, R140). -/
theorem listBlock_of_refused {s : State} {b : Block}
    (h : inService s = false ∨ isListed s b = true ∨ volume s ≤ b.toNat) : listBlock s b = s := by
  unfold listBlock
  refine if_pos ?_
  rcases h with h | h | h <;> simp [inRange, h]

theorem listBlock_of_taken {s : State} {b : Block} (serves : inService s = true) (new : isListed s b = false)
    (range : b.toNat < volume s) :
    listBlock s b = if s.repair.list.length < 64 then placeReady s b else overflowRepair s b := by
  unfold listBlock
  exact if_neg (by simp [inRange, serves, new, range])

/-- The block at the tail of the repair list as READY, what waits to be sent of it not yet held back (R140). -/
def readied (s : State) (b : Block) : State :=
  { s with repair := { s.repair with list := s.repair.list ++ [{ block := b, state := .ready }] } }

theorem afterWithdrawal_repair (s : State) (f : TxFrame) (w : Withdrawal) :
    (afterWithdrawal s f w).repair = s.repair := by
  have first : ∀ u : State, u = (match f.purpose with
      | .replayDone p true => { s with replay := { s.replay with overflow := s.replay.overflow ||| markOf p } }
      | .readAnswer | .fetchAnswer =>
        if f.frame.kind = Kind.data then updateEntry s f.frame.tag fun e => { e with sent := none } else s
      | _ => s) → u.repair = s.repair := by
    rintro _ rfl
    split
    · rfl
    · split <;> rfl
    · split <;> rfl
    · rfl
  unfold afterWithdrawal
  dsimp only
  cases w with
  | plain => exact first _ rfl
  | entryBecomes st =>
    dsimp only
    split
    · exact first _ rfl
    · split
      · split
        · exact (expireEntry_repair _ _).trans (first _ rfl)
        · exact (finishEntry_repair _ _ _).trans (first _ rfl)
      · exact first _ rfl

theorem withdraw_repair (s : State) (sel : TxFrame → Bool) (w : Withdrawal) :
    (withdraw s sel w).repair = s.repair := by
  have fold : ∀ (l : List TxFrame) (u : State), (l.foldl (fun s f => afterWithdrawal s f w) u).repair = u.repair := by
    intro l
    induction l with
    | nil => exact fun _ => rfl
    | cons f l ih => exact fun u => (ih _).trans (afterWithdrawal_repair u f w)
  unfold withdraw
  dsimp only
  split
  · rfl
  · exact fold _ _

theorem endPush_repair (s : State) (p : Push) (retry : Option Nat) (st : EntryState) :
    (endPush s p retry st).repair = s.repair := by
  unfold endPush
  dsimp only
  split
  · rfl
  · rw [withdraw_repair, (closeOwn_recovery _ _ _).2]
    rfl

theorem endPushes_repair (s : State) (sel : Push → Bool) (st : EntryState) :
    (endPushes s sel st).repair = s.repair := by
  have fold : ∀ (l : List Push) (u : State), (l.foldl (fun s p => endPush s p none st) u).repair = u.repair := by
    intro l
    induction l with
    | nil => exact fun _ => rfl
    | cons p l ih => exact fun u => (ih _).trans (endPush_repair u p none st)
  exact fold _ s

theorem holdBack_repair (s : State) (b : Block) : (holdBack s b).repair = s.repair := by
  unfold holdBack
  rw [endPushes_repair, withdraw_repair, withdraw_repair]

/-- What is still queued once a block is held back was queued before, and is no ORDER, answer to a FETCH or DATA of a
READ for the block (R139). -/
theorem holdBack_queued {s : State} {b : Block} {f : TxFrame} (h : f ∈ (holdBack s b).bus.queue)
    (q : f.phase = .queued) :
    f ∈ s.bus.queue ∧ (f.frame.block = b → f.purpose ≠ .leadOrder ∧ f.purpose ≠ .supersedeOrder
      ∧ f.purpose ≠ .fetchAnswer ∧ (f.purpose = .readAnswer → f.frame.kind ≠ .data)) := by
  obtain ⟨h2, -⟩ := (endPushes_ends _ _ rfl).frames f h
  obtain ⟨h1, noAnswer⟩ := withdraw_gone (h2 q) q
  obtain ⟨h0, noOrder⟩ := withdraw_gone h1 q
  refine ⟨h0, fun hb => ?_⟩
  simp only [forPurpose, hb, decide_true, Bool.and_true, Bool.true_and, Bool.or_eq_false_iff,
    Bool.and_eq_false_iff, decide_eq_false_iff_not] at noOrder noAnswer
  exact ⟨noOrder.1, noOrder.2, noAnswer.1, noAnswer.2.resolve_left ∘ not_not_intro⟩

/-- No push of a block that is held back is left, and none is begun (R130). -/
theorem holdBack_pushes {s : State} {b : Block} {p : Push} (h : p ∈ (holdBack s b).replay.pushes) :
    p ∈ s.replay.pushes ∧ p.block ≠ b := by
  obtain ⟨hp, hb⟩ := endPushes_gone h
  rw [(withdraw_lists _ _ _).2, (withdraw_lists _ _ _).2] at hp
  exact ⟨hp, by simpa using hb⟩

/-! ### A missed write -/

/-- Where a missed write is not to be recorded nothing happens (R9, R125). -/
theorem recordMissed_of_refused {s : State} {p : StationNo} {b : Block}
    (h : inService s = false ∨ isMissed s p b = true ∨ inMark s.replay.overflow p = true ∨ volume s ≤ b.toNat) :
    recordMissed s p b = s := by
  unfold recordMissed
  refine if_pos ?_
  rcases h with h | h | h | h <;> simp [overflowed, inRange, h]

theorem recordMissed_of_taken {s : State} {p : StationNo} {b : Block} (serves : inService s = true)
    (new : isMissed s p b = false) (kept : inMark s.replay.overflow p = false) (range : b.toNat < volume s) :
    recordMissed s p b =
      if s.replay.pool.length < 1024 then
        withdraw
          { s with replay := { s.replay with
              pool := s.replay.pool
                ++ [{ peer := p, block := b, recorded := s.clock, retry := none, push := false }] } }
          (isReplayDoneTo p) .plain
      else giveUp s p := by
  unfold recordMissed
  exact if_neg (by simp [overflowed, inRange, serves, new, kept, range])

/-- A REPLAY_DONE is the answer to no READ or FETCH. -/
theorem isReplayDoneTo_purpose {p : StationNo} {f : TxFrame} (h : isReplayDoneTo p f = true) :
    f.purpose ≠ .readAnswer ∧ f.purpose ≠ .fetchAnswer := by
  unfold isReplayDoneTo at h
  split at h
  next hp => simp [hp]
  · cases h

/-! ### A peer given up -/

/-- `t` comes from `s` by an operation that leaves the Peer Table alone, lists no missed write for a peer that has none
and clears no overflow flag. -/
structure LeavesPeers (s t : State) : Prop where
  peers : t.peers = s.peers
  pool : ∀ m ∈ t.replay.pool, ∃ x ∈ s.replay.pool, x.peer = m.peer
  overflow : ∀ p, inMark s.replay.overflow p = true → inMark t.replay.overflow p = true

theorem LeavesPeers.refl (s : State) : LeavesPeers s s := ⟨rfl, fun m h => ⟨m, h, rfl⟩, fun _ => id⟩

theorem LeavesPeers.of_same {s t : State} (peers : t.peers = s.peers) (replay : t.replay = s.replay) :
    LeavesPeers s t := ⟨peers, fun m h => ⟨m, replay ▸ h, rfl⟩, fun _ h => replay ▸ h⟩

theorem LeavesPeers.trans {s t u : State} (a : LeavesPeers s t) (b : LeavesPeers t u) : LeavesPeers s u := by
  refine ⟨b.peers.trans a.peers, fun m h => ?_, fun p h => b.overflow p (a.overflow p h)⟩
  obtain ⟨x, hx, hm⟩ := b.pool m h
  obtain ⟨y, hy, hp⟩ := a.pool x hx
  exact ⟨y, hy, hp.trans hm⟩

/-- `LeavesPeers.trans` from the end: the last operation is taken off. -/
theorem LeavesPeers.after {s t u : State} (b : LeavesPeers t u) (a : LeavesPeers s t) : LeavesPeers s u := a.trans b

theorem leavesPeers_foldl {α : Type} (f : State → α → State) (hf : ∀ u x, LeavesPeers u (f u x)) (l : List α) :
    ∀ u : State, LeavesPeers u (l.foldl f u) := by
  induction l with
  | nil => exact LeavesPeers.refl
  | cons x l ih => exact fun u => (hf u x).trans (ih (f u x))

/-- A flag set stays set where others are set beside it. -/
theorem inMark_or {m n : Mark} {p : StationNo} : inMark (m ||| n) p = (inMark m p || inMark n p) :=
  BitVec.getLsbD_or

theorem inMark_markOf {p : StationNo} (h : p.isStore = true) : inMark (markOf p) p = true := by
  have hp : p.toNat < 16 := by simpa [StationNo.isStore] using h
  rw [inMark, markOf, BitVec.getLsbD_ofNat, Nat.testBit_two_pow_self]
  simpa using hp

theorem afterWithdrawal_plain_leavesPeers (s : State) (f : TxFrame) :
    LeavesPeers s (afterWithdrawal s f .plain) := by
  unfold afterWithdrawal
  dsimp only
  split
  · exact ⟨rfl, fun m h => ⟨m, h, rfl⟩, fun q hq => by simp [inMark_or, hq]⟩
  · split <;> exact .of_same rfl rfl
  · split <;> exact .of_same rfl rfl
  · exact .refl s

theorem withdraw_plain_leavesPeers (s : State) (sel : TxFrame → Bool) :
    LeavesPeers s (withdraw s sel .plain) := by
  unfold withdraw
  dsimp only
  split
  · exact .of_same rfl rfl
  · exact (leavesPeers_foldl (fun u f => afterWithdrawal u f .plain) afterWithdrawal_plain_leavesPeers _ _).after
      (.of_same rfl rfl)

theorem closeOwn_leavesPeers (s : State) (t : Tag) {st : EntryState} (h : st.finished = true) :
    LeavesPeers s (closeOwn s t st) := .of_same (closeOwn_ends s t h).peers (closeOwn_recovery s t st).1

theorem endPush_leavesPeers (s : State) (p : Push) (retry : Option Nat) {st : EntryState} (h : st.finished = true) :
    LeavesPeers s (endPush s p retry st) := by
  have first : LeavesPeers s (dropWaiters { s with replay := { s.replay with
      pushes := s.replay.pushes.filter fun q => decide (q.id ≠ p.id)
      pool := s.replay.pool.map fun m =>
        if m.peer = p.peer ∧ m.block = p.block then { m with push := false, retry := retry } else m } }
      fun u => decide (u = .push p.id)) := by
    refine ⟨rfl, fun m hm => ?_, fun _ => id⟩
    obtain ⟨x, hx, rfl⟩ := List.mem_map.1 hm
    exact ⟨x, hx, by split <;> rfl⟩
  unfold endPush
  dsimp only
  split
  · exact first
  · exact (first.trans (closeOwn_leavesPeers _ _ h)).trans (withdraw_plain_leavesPeers _ _)

theorem endPushes_leavesPeers (s : State) (sel : Push → Bool) : LeavesPeers s (endPushes s sel .done) :=
  leavesPeers_foldl _ (fun u p => endPush_leavesPeers u p none rfl) _ _

theorem addGroups_leavesPeers (s : State) (gs : List Nat) : LeavesPeers s (addGroups s gs) := by
  refine leavesPeers_foldl _ (fun u g => ?_) _ _
  dsimp only
  split
  · exact .of_same rfl rfl
  · exact .refl u

theorem dropDeadRoom_leavesPeers (s : State) : LeavesPeers s (dropDeadRoom s) := .of_same rfl rfl

theorem unawait_leavesPeers (s : State) (p : StationNo) : LeavesPeers s (unawait s p) := .of_same rfl rfl

/-- The change of a peer to ABSENT, handed on, touches neither table of peers (R120). -/
theorem handOnAbsent_leavesPeers (s : State) (p : StationNo) : LeavesPeers s (handOnAbsent s p) := by
  have ended := (endPushes_leavesPeers s fun q => decide (q.peer = p)).trans
    (withdraw_plain_leavesPeers _ (isReplayDoneTo p))
  unfold handOnAbsent
  dsimp only
  refine (dropDeadRoom_leavesPeers _).after ?_
  split
  · exact (addGroups_leavesPeers _ _).after ((unawait_leavesPeers _ p).after ended)
  · exact ended

theorem offer_leavesPeers (s : State) (f : Frame) (p : Purpose) : LeavesPeers s (offer s f p) := by
  obtain ⟨_, _, h⟩ := offer_spec s f p
  exact h ▸ .of_same rfl rfl

/-- A change of a peer's entry that keeps whose it is. -/
theorem peerEntry_updatePeer {s : State} {p : StationNo} {f : PeerEntry → PeerEntry} (hf : ∀ e, (f e).peer = e.peer) :
    peerEntry (updatePeer s p f) p = (peerEntry s p).map f := by
  have same : (fun e : PeerEntry => decide (e.peer = p)) ∘ (fun e => if e.peer = p then f e else e)
      = fun e => decide (e.peer = p) := by
    funext x
    by_cases hx : x.peer = p <;> simp [hx, hf]
  unfold peerEntry updatePeer
  rw [List.find?_map, same]
  cases h : s.peers.find? fun e => decide (e.peer = p) with
  | none => rfl
  | some e =>
    have : e.peer = p := by simpa using List.find?_some h
    simp [this]

/-- The peer's entry ABSENT and PEER_DOWN naming it offered (R113). -/
def noticedAbsent (s : State) (p : StationNo) : State :=
  notice (updatePeer s p fun e => { e with state := .absent, misses := 0 }) p

theorem declareDown_of_live {s : State} {p : StationNo} (serves : inService s = true) (live : isLive s p = true) :
    declareDown s p = handOnAbsent (noticedAbsent s p) p := by
  unfold declareDown
  exact if_pos (by simp [serves, live])

theorem declareDown_of_dead {s : State} {p : StationNo} (dead : isLive s p = false) : declareDown s p = s := by
  unfold declareDown
  exact if_neg (by simp [dead])

theorem offer_replay (s : State) (f : Frame) (p : Purpose) : (offer s f p).replay = s.replay := by
  obtain ⟨_, _, h⟩ := offer_spec s f p
  rw [h]

theorem noticedAbsent_replay (s : State) (p : StationNo) : (noticedAbsent s p).replay = s.replay :=
  offer_replay _ _ _

/-- Whatever stood in the peer's entry, it is ABSENT; a peer without an entry has none made. -/
theorem noticedAbsent_state (s : State) (p : StationNo) :
    peerState (noticedAbsent s p) p = (peerEntry s p).map fun _ => .absent := by
  have marked : peerEntry (updatePeer s p fun e => { e with state := .absent, misses := 0 }) p = _ :=
    peerEntry_updatePeer fun _ => rfl
  have noticed : peerEntry (updatePeer (updatePeer s p fun e => { e with state := .absent, misses := 0 }) p
      fun e => { e with lastNotice := some s.clock }) p = _ := peerEntry_updatePeer fun _ => rfl
  unfold noticedAbsent notice peerState peerEntry
  rw [(offer_leavesPeers _ _ _).peers]
  refine (congrArg (Option.map PeerEntry.state) noticed).trans ?_
  rw [marked, Option.map_map, Option.map_map]
  rfl

/-- A peer declared down is not live (R113). -/
theorem declareDown_dead {s : State} (p : StationNo) (serves : inService s = true) :
    isLive (declareDown s p) p = false := by
  cases live : isLive s p with
  | false => rwa [declareDown_of_dead live]
  | true =>
    have state : peerState (handOnAbsent (noticedAbsent s p) p) p = (peerEntry s p).map fun _ => .absent := by
      rw [← noticedAbsent_state]
      unfold peerState peerEntry
      rw [(handOnAbsent_leavesPeers _ _).peers]
    rw [declareDown_of_live serves live]
    unfold isLive isPresent isCatchingUp
    rw [state]
    cases peerEntry s p <;> rfl

/-- Declaring a peer down lists no missed write and clears no overflow flag. -/
theorem declareDown_lists {s : State} (p : StationNo) (serves : inService s = true) :
    (∀ m ∈ (declareDown s p).replay.pool, ∃ x ∈ s.replay.pool, x.peer = m.peer)
      ∧ ∀ q, inMark s.replay.overflow q = true → inMark (declareDown s p).replay.overflow q = true := by
  cases live : isLive s p with
  | false =>
    rw [declareDown_of_dead live]
    exact ⟨fun m h => ⟨m, h, rfl⟩, fun _ => id⟩
  | true =>
    rw [declareDown_of_live serves live, ← noticedAbsent_replay s p]
    exact ⟨(handOnAbsent_leavesPeers _ _).pool, (handOnAbsent_leavesPeers _ _).overflow⟩

/-- The peer's list freed and its overflow flag set. -/
def listFreed (s : State) (p : StationNo) : State :=
  { s with replay := { s.replay with
      pool := s.replay.pool.filter fun m => decide (m.peer ≠ p)
      overflow := s.replay.overflow ||| markOf p } }

/-- A peer given up has no missed writes listed, its overflow flag is set and it is not live (R126). -/
theorem giveUp_spec {s : State} {p : StationNo} (serves : inService s = true) (store : p.isStore = true) :
    (∀ m ∈ (giveUp s p).replay.pool, m.peer ≠ p) ∧ inMark (giveUp s p).replay.overflow p = true
      ∧ isLive (giveUp s p) p = false := by
  have ended := endPushes_leavesPeers (listFreed s p) fun q => decide (q.peer = p)
  have serves' : inService (endPushes (listFreed s p) (fun q => decide (q.peer = p)) .done) = true := by
    unfold inService
    rw [(endPushes_ends _ _ rfl).member]
    exact serves
  obtain ⟨pool, overflow⟩ := declareDown_lists p serves'
  refine ⟨fun m hm => ?_, overflow p (ended.overflow p ?_), declareDown_dead p serves'⟩
  · obtain ⟨x, hx, hp⟩ := pool m hm
    obtain ⟨y, hy, hq⟩ := ended.pool x hx
    rw [← hp, ← hq]
    simpa using (List.mem_filter.1 hy).2
  · simp [listFreed, inMark_or, inMark_markOf store]

/-- Settles O52: by what keeps a block or a missed write off its list, what listing it leaves, and what giving a peer
up leaves. -/
theorem missedWriteIsListed : Obligations.MissedWriteIsListed := by
  unfold Obligations.MissedWriteIsListed
  refine ⟨fun s b => ⟨listBlock_of_refused, fun serves new range => ?_⟩,
    fun s p b => ⟨recordMissed_of_refused, fun serves new kept range room => ?_,
      fun serves store new kept range full => ?_⟩⟩
  · rw [listBlock_of_taken serves new range]
    refine ⟨fun room => ?_, fun full => ?_⟩
    · rw [if_pos room]
      have ends := holdBack_ends (readied s b) b
      have repair := holdBack_repair (readied s b) b
      exact ⟨rfl, congrArg Repair.list repair, fun f => holdBack_queued (s := readied s b),
        fun p => holdBack_pushes (s := readied s b), congrArg Repair.waitingRoom (a₂ := (readied s b).repair) repair,
        congrArg Repair.fetches (a₂ := (readied s b).repair) repair, ends.peers, ends.member, ends.media, ends.slots⟩
    · rw [if_neg (Nat.not_lt.2 full)]
      refine ⟨fun catching needed => if_pos ⟨catching, needed⟩, fun h => if_neg ?_⟩
      rintro ⟨catching, needed⟩
      rcases h with h | h
      · exact h catching
      · simp [needed] at h
  · rw [recordMissed_of_taken serves new kept range, if_pos room]
    exact ⟨withdraw_plain_pool _ _, withdraw_plain_table fun _ => isReplayDoneTo_purpose, withdraw_plain_cache _ _,
      withdraw_plain_peers _ _, withdraw_plain_member _ _, withdraw_plain_repair _ _⟩
  · rw [recordMissed_of_taken serves new kept range, if_neg (Nat.not_lt.2 full)]
    exact giveUp_spec serves store

end Sys2Proof.Machine
end

section
/-! The completion of a media read (R78, R93 to R95): what it reads, whose commits it decides and what its slot
becomes. -/

namespace Sys2Proof.Machine

/-! ### The current slot of a block -/

/-- A slot that is current for no block gives way to another such slot: every block's current slot stays. -/
theorem currentSlot_setSlot_idle {s : State} {i : Nat} {x y : Slot} (b : Block) (hy : s.cache.slots[i]? = some y)
    (idle : y.currentBlock = none) (hx : x.currentBlock = none) :
    currentSlot (setSlot s i x) b = currentSlot s b := by
  obtain ⟨hi, rfl⟩ := List.getElem?_eq_some_iff.1 hy
  have notCurrent {z : Slot} (hz : z.currentBlock = none) : z.isCurrentOf b = false :=
    Bool.eq_false_iff.2 fun h => by simp [(Slot.isCurrentOf_iff z b).1 h] at hz
  have same : (s.cache.slots.set i x).map (Slot.isCurrentOf b) = s.cache.slots.map (Slot.isCurrentOf b) := by
    rw [List.map_set, notCurrent hx, ← notCurrent idle,
      ← List.getElem_map (Slot.isCurrentOf b) (h := by simpa using hi)]
    exact List.set_getElem_self _
  have byMap (l : List Slot) : l.findIdx? (Slot.isCurrentOf b) = (l.map (Slot.isCurrentOf b)).findIdx? id := by
    rw [List.findIdx?_map]
    rfl
  unfold currentSlot
  rw [setSlot_slots, byMap, same, ← byMap]

/-- A slot put where the block's current slot stands, or where it has none, is the block's current slot. -/
theorem currentSlot_setSlot_first {s : State} {i j : Nat} {b : Block} {x : Slot} (hx : x.currentBlock = some b)
    (first : currentSlot s b = some i ∨ currentSlot s b = none) (h : currentSlot (setSlot s i x) b = some j) :
    j = i ∧ slotAt (setSlot s i x) i = x := by
  have atJ := currentSlot_some h
  rw [setSlot_slots] at atJ
  have place : j = i := by
    rcases currentBlock_of_set atJ with ⟨rfl, -⟩ | ⟨hij, old⟩
    · rfl
    · rcases first with first | first
      · unfold currentSlot at first h
        rw [List.findIdx?_eq_some_iff_getElem] at first h
        obtain ⟨hi, -, before⟩ := first
        obtain ⟨hj, -, before'⟩ := h
        rcases Nat.lt_or_gt_of_ne hij with lt | gt
        · have := before' i lt
          simp [(Slot.isCurrentOf_iff _ _).2 hx] at this
        · have := before j gt
          rw [List.getElem?_eq_getElem (by omega)] at old
          exact absurd ((Slot.isCurrentOf_iff _ _).2 old) this
      · exact absurd old (currentSlot_none first j)
  subst place
  have hi : j < (s.cache.slots.set j x).length := by
    by_contra hlen
    rw [List.getElem?_eq_none (by omega)] at atJ
    cases atJ
  refine ⟨rfl, ?_⟩
  unfold slotAt
  rw [setSlot_slots, List.getD_eq_getElem _ _ hi, List.getElem_set_self]

/-- Once a copy of this version is the block's current slot, it is the version held. -/
theorem heldNow_setSlot {s : State} {i : Nat} {b : Block} {x : Slot} {v : Version} {d : Data}
    (hx : x.currentBlock = some b) (copy : x.copy = some (v, d))
    (first : currentSlot s b = some i ∨ currentSlot s b = none) :
    heldNow (setSlot s i x) b (.known v) = .known v := by
  unfold heldNow heldVersion currentCopy
  cases h : currentSlot (setSlot s i x) b with
  | none => rfl
  | some j =>
    obtain ⟨rfl, atJ⟩ := currentSlot_setSlot_first hx first h
    simp [atJ, copy]

/-- Between two states whose slots are the same nothing tells the version held. -/
theorem heldVersion_congr {s t : State} (h : t.cache.slots = s.cache.slots) (b : Block) :
    heldVersion t b = heldVersion s b := by
  simp only [heldVersion, currentCopy, currentSlot, slotAt, h]

theorem heldNow_makeClean {s : State} {i : Nat} {b : Block} {v : Version} {d : Data}
    (first : currentSlot s b = some i ∨ currentSlot s b = none) :
    heldNow (makeClean s i b v d) b (.known v) = .known v :=
  heldNow_setSlot (s := nextRecency s) rfl rfl first

theorem heldNow_refresh {s : State} {i : Nat} {b : Block} {v : Version} {d : Data}
    (first : currentSlot s b = some i ∨ currentSlot s b = none) :
    heldNow (countRefresh (makeDirty s i b v d)) b (.known v) = .known v :=
  heldNow_setSlot (s := { s with cache := { s.cache with commitOrder := s.cache.commitOrder + 1 } }) rfl rfl first

theorem slotAt_of_getElem {s : State} {i : Nat} {x : Slot} (h : s.cache.slots[i]? = some x) : slotAt s i = x := by
  simp [slotAt, List.getD_eq_getElem?_getD, h]

theorem currentCopy_of_slot {s : State} {i : Nat} {b : Block} (h : currentSlot s b = some i) :
    currentCopy s b = (slotAt s i).copy.map fun c => (i, c.1, c.2) := by
  unfold currentCopy
  rw [h]

/-- The place of a block's current copy is that of its current slot. -/
theorem currentSlot_of_copy {s : State} {b : Block} {j : Nat} {v : Version} {d : Data}
    (h : currentCopy s b = some (j, v, d)) : currentSlot s b = some j := by
  cases hc : currentSlot s b with
  | none => simp [currentCopy, hc] at h
  | some i =>
    rw [currentCopy_of_slot hc, Option.map_eq_some_iff] at h
    obtain ⟨c, -, hj⟩ := h
    cases hj
    rfl

theorem heldVersion_of_slot {s : State} {i : Nat} {b : Block} (h : currentSlot s b = some i) :
    heldVersion s b = (slotAt s i).copy.map fun c => c.1 := by
  unfold heldVersion
  rw [currentCopy_of_slot h, Option.map_map]
  rfl

theorem heldVersion_of_noSlot {s : State} {b : Block} (h : currentSlot s b = none) : heldVersion s b = none := by
  simp [heldVersion, currentCopy, h]

theorem isFilling_of_slot {s : State} {i : Nat} {b : Block} (h : currentSlot s b = some i) :
    isFilling s b = (slotAt s i).isFilling := by
  unfold isFilling
  rw [h]

/-- A block whose current slot is FILLING has no held version. -/
theorem heldVersion_of_filling {s : State} {b : Block} (h : isFilling s b = true) : heldVersion s b = none := by
  cases hc : currentSlot s b with
  | none => exact heldVersion_of_noSlot hc
  | some i =>
    rw [isFilling_of_slot hc] at h
    rw [heldVersion_of_slot hc]
    cases hx : slotAt s i <;> simp_all [Slot.isFilling, Slot.copy]

theorem heldNow_known (s : State) (b : Block) (v : Version) :
    heldNow s b (.known v) = .known ((heldVersion s b).getD v) := by
  unfold heldNow
  cases heldVersion s b <;> rfl

/-! ### What the memory delivers (R2, R93 to R95) -/

/-- The state once the memory has answered a read of the block: the strap levels brought, the lasting changes in the
record. -/
def readMade (s : State) (x : BitChanges) (p : Straps) (b : Block) : State :=
  { s with
    pins := p
    media := if (readMedia s.media b.toNat).written then
      writeMedia s.media b.toNat ((readMedia s.media b.toNat).flip x.lasting) else s.media }

/-- The bursts the check unit corrects in what is read, at most three: none in a block never written (R93). -/
def readBursts (s : State) (x : BitChanges) (b : Block) : Option Nat :=
  if (readMedia s.media b.toNat).written then
    (((readMedia s.media b.toNat).flip x.lasting).flip x.passing).check
  else some 0

/-- What a read delivers: the record, or version 0 and zero data of a block never written (R2). -/
def readOutcome (s : State) (b : Block) (n : Nat) : ReadOutcome :=
  .delivered (if (readMedia s.media b.toNat).written then (readMedia s.media b.toNat).version else 0)
    (if (readMedia s.media b.toNat).written then (readMedia s.media b.toNat).data else 0) n

theorem readBursts_le {s : State} {x : BitChanges} {b : Block} {n : Nat} (h : readBursts s x b = some n) : n ≤ 3 := by
  unfold readBursts Record.check at h
  split at h
  · split at h
    next ok =>
      cases h
      exact ok.2
    · cases h
  · cases h
    omega

theorem readReady_of_bursts {s : State} {x : BitChanges} {p : Straps} {b : Block} {n : Nat} (c : MediaCmd)
    (h : readBursts s x b = some n) :
    readReady { s with pins := p } c b x = finishRead (readMade s x p b) c (readOutcome s b n) := by
  unfold readBursts at h
  unfold readReady readMade readOutcome
  dsimp only
  by_cases w : (readMedia s.media b.toNat).written = true
  · simp only [w, if_true] at h ⊢
    rw [h]
    rfl
  · simp only [w, Bool.false_eq_true, if_false, Option.some.injEq] at h ⊢
    rw [← h]

/-- A command that reads the block: a READ_HEADER, or a READ_RECORD into slot `i`. -/
def readsBlock (c : MediaCmd) (k : ReadKind) (b : Block) (i : Nat) : Prop :=
  c = .readHeader b ∧ k = .header ∧ i = 0 ∨ c = .readRecord b i ∧ k = .record

theorem finishRead_of_reads {s : State} {c : MediaCmd} {k : ReadKind} {b : Block} {i : Nat} (o : ReadOutcome)
    (command : readsBlock c k b i) : finishRead s c o = completeRead (nextCommand s) k b i o false := by
  rcases command with ⟨rfl, rfl, rfl⟩ | ⟨rfl, rfl⟩ <;> rfl

theorem takeReady_of_reads {s : State} {c : MediaCmd} {rest : List MediaCmd} {k : ReadKind} {b : Block} {i : Nat}
    (x : BitChanges) (command : readsBlock c k b i) (reading : s.port.phase = .reading)
    (queue : s.port.queue = c :: rest) : takeReady s x = readReady s c b x := by
  unfold takeReady
  rcases command with ⟨rfl, -⟩ | ⟨rfl, -⟩ <;> simp only [reading, queue]

/-- The memory's answer to a read in service is the completion of the command with what was read. -/
theorem exec_mediaReady_completes {s : State} {x : BitChanges} {p : Straps} {b : Block} {c : MediaCmd}
    {rest : List MediaCmd} {k : ReadKind} {i n : Nat} (released : s.resetHeld = false)
    (reading : s.port.phase = .reading) (queue : s.port.queue = c :: rest) (command : readsBlock c k b i)
    (bursts : readBursts s x b = some n) :
    exec (.mediaReady s.port.op x p) s = .next (drainCheck (settle
      (completeRead (nextCommand (readMade s x p b)) k b i (readOutcome s b n) false))) := by
  have answered : answers { s with pins := p } s.port.op = true := by simp [answers, reading]
  have taken := takeReady_of_reads (s := { s with pins := p }) x command reading queue
  refine Eq.trans (b := execMediaReady s.port.op x p s) rfl ?_
  unfold execMediaReady
  rw [atPort_of_released _ released]
  dsimp only
  rw [if_pos answered, taken, readReady_of_bursts c bursts, finishRead_of_reads _ command]

/-! ### The completion at the cache (R78) -/

/-- `t` shows a read's completion the same slots and pending commits as `s`, the same table and Membership Controller,
and a port that is down in both or in neither. -/
structure ReadsAlike (s t : State) : Prop where
  slots : t.cache.slots = s.cache.slots
  pendings : t.cache.pendings = s.cache.pendings
  table : t.table = s.table
  member : t.member = s.member
  down : t.port.down = s.port.down

theorem ReadsAlike.currentSlot {s t : State} (a : ReadsAlike s t) (b : Block) : currentSlot t b = currentSlot s b := by
  simp only [Machine.currentSlot, a.slots]

theorem ReadsAlike.isFilling {s t : State} (a : ReadsAlike s t) (b : Block) : isFilling t b = isFilling s b := by
  simp only [Machine.isFilling, a.currentSlot, slotAt, a.slots]

theorem ReadsAlike.heldVersion {s t : State} (a : ReadsAlike s t) (b : Block) : heldVersion t b = heldVersion s b :=
  heldVersion_congr a.slots b

theorem allocate_congr {s t : State} (slots : t.cache.slots = s.cache.slots) (table : t.table = s.table) :
    allocate t = allocate s := by
  have same : replaceable t = replaceable s := by
    unfold replaceable pinned
    rw [slots, table]
  unfold allocate
  rw [slots, same]

/-- The next command takes the port and room for commands that wait, and nothing else of the cache. -/
theorem nextCommand_cache (s : State) :
    (nextCommand s).cache = { s.cache with waiting := (nextCommand s).cache.waiting } := by
  unfold nextCommand
  rw [(serveHead_aside _).1]
  rfl

theorem nextCommand_readsAlike (s : State) : ReadsAlike s (nextCommand s) := by
  have cache := nextCommand_cache s
  obtain ⟨-, member, -, table, -, -, down⟩ := serveHead_aside (refillQueue
    { s with port := { s.port with queue := s.port.queue.drop 1, retry := 0, phase := .idle, timer := none } })
  exact ⟨by rw [cache], by rw [cache], table, member, down⟩

theorem nextCommand_waiters (s : State) : (nextCommand s).cache.waiters = s.cache.waiters := by rw [nextCommand_cache]

theorem ReadsAlike.trans {s t u : State} (a : ReadsAlike s t) (b : ReadsAlike t u) : ReadsAlike s u :=
  ⟨b.slots.trans a.slots, b.pendings.trans a.pendings, b.table.trans a.table, b.member.trans a.member,
    b.down.trans a.down⟩

theorem readMade_readsAlike (s : State) (x : BitChanges) (p : Straps) (b : Block) : ReadsAlike s (readMade s x p b) :=
  ⟨rfl, rfl, rfl, rfl, rfl⟩

/-- The count of a read corrected (R102). -/
def readCounted (s : State) (n : Nat) : State := if n = 0 then s else countCorrected s

theorem readCounted_cache (s : State) (n : Nat) : (readCounted s n).cache = s.cache := by
  unfold readCounted
  split <;> rfl

/-- A read corrected is counted and the lookups that wait on it are taken up, to be answered. -/
def lookupsTaken (s : State) (n : Nat) (b : Block) (k : ReadKind) : State := takeWaiters (readCounted s n) b k

theorem lookupsTaken_readsAlike (s : State) (n : Nat) (b : Block) (k : ReadKind) :
    ReadsAlike s (lookupsTaken s n b k) := by
  unfold lookupsTaken readCounted
  split <;> exact ⟨rfl, rfl, rfl, rfl, rfl⟩

theorem countRead_delivered (s : State) (b : Block) (v : Version) (d : Data) (n : Nat) :
    countRead s b (.delivered v d n) false = readCounted s n := by simp [countRead, readCounted]

theorem waitersOf_readCounted (s : State) (n : Nat) (b : Block) (k : ReadKind) :
    waitersOf (readCounted s n) b k = waitersOf s b k := by
  unfold waitersOf
  rw [readCounted_cache]

/-- A read that completes while the block's slot is not to be filled by another: the commits pending on it, then its
slot, then the lookups (R78). -/
theorem completeRead_delivered {s : State} {k : ReadKind} {b : Block} {i n : Nat} {v : Version} {d : Data}
    (h : k = .record ∨ isFilling s b = false) :
    completeRead s k b i (.delivered v d n) false =
      let s3 := decidePendings (lookupsTaken s n b k) b k (.known ((heldVersion s b).getD v))
      let s4 := settleSlot s3 k b i (.delivered v d n)
        (decide (heldNow s3 b (.known v) ≠ .known ((heldVersion s b).getD v)))
      answerWaiters s4 b (waitersOf s b k) (heldNow s4 b (.known v)) := by
  have alike := lookupsTaken_readsAlike s n b k
  have held : heldNow (lookupsTaken s n b k) b (.known v) = .known ((heldVersion s b).getD v) := by
    rw [heldNow_known, alike.heldVersion]
  unfold lookupsTaken at *
  unfold completeRead
  dsimp only
  rw [countRead_delivered, waitersOf_readCounted, if_neg]
  · simp only [ReadOutcome.held, held]
  · rintro ⟨rfl, fills⟩
    rw [alike.isFilling] at fills
    simp [fills] at h

/-- A READ_HEADER that completes while the block's slot is FILLING: its pending commits move to the READ_RECORD
(R78). -/
theorem completeRead_moves {s : State} {b : Block} {i n : Nat} {v : Version} {d : Data} (h : isFilling s b = true) :
    completeRead s .header b i (.delivered v d n) false =
      answerWaiters (movePendings (lookupsTaken s n b .header) b) b (waitersOf s b .header) (.known v) := by
  have filling := ((lookupsTaken_readsAlike s n b .header).isFilling b).trans h
  unfold lookupsTaken at *
  unfold completeRead
  dsimp only
  rw [countRead_delivered, waitersOf_readCounted, if_pos ⟨rfl, filling⟩]
  rfl

end Sys2Proof.Machine
end

section
/-! The commits pending on a media read, decided in the order in which they were offered (R78, R79). -/

namespace Sys2Proof.Machine

/-- One pending commit decided against the version held, with the version then held: above it the commit is accepted,
otherwise its slot is freed (R79, R81). -/
def decideAgainst (b : Block) (a : State × Version) (q : PendingCommit) : State × Version :=
  if a.2 < q.version then
    (reportCommit (acceptCommit a.1 q.slot b q.version q.data) b q.source q.version, q.version)
  else (reportCommit (setSlot a.1 q.slot .free) b q.source a.2, a.2)

theorem decideAgainst_of_above {b : Block} {u : State} {h : Version} {q : PendingCommit} (above : h < q.version) :
    decideAgainst b (u, h) q
      = (reportCommit (acceptCommit u q.slot b q.version q.data) b q.source q.version, q.version) :=
  if_pos above

theorem decideAgainst_of_below {b : Block} {u : State} {h : Version} {q : PendingCommit} (below : q.version ≤ h) :
    decideAgainst b (u, h) q = (reportCommit (setSlot u q.slot .free) b q.source h, h) :=
  if_neg (BitVec.not_lt.2 below)

theorem decideCommit_known (s : State) {b : Block} {q : PendingCommit} (h : Version) (hb : q.block = b) :
    decideCommit s q.slot q.block q.version q.data q.source (.known h) = (decideAgainst b (s, h) q).1 := by
  subst hb
  unfold decideCommit decideAgainst
  dsimp only
  split <;> rfl

theorem decidePendings_none {s : State} {b : Block} (k : ReadKind) (a : HeldVersion)
    (noCommit : ∀ q ∈ s.cache.pendings, q.block ≠ b) : decidePendings s b k a = s := by
  have mine : pendingOf s b k = [] := by
    unfold pendingOf
    rw [List.filter_eq_nil_iff]
    intro q hq
    simp [noCommit q hq]
  have others : s.cache.pendings.filter (fun q => !(decide (q.block = b) && decide (q.on = k))) = s.cache.pendings := by
    rw [List.filter_eq_self]
    intro q hq
    simp [noCommit q hq]
  unfold decidePendings takePendings
  rw [mine, others]
  rfl

/-- Where no commit of the block is pending, none moves. -/
theorem movePendings_none {s : State} {b : Block} (noCommit : ∀ q ∈ s.cache.pendings, q.block ≠ b) :
    movePendings s b = s := by
  have same : (s.cache.pendings.map fun q => if q.block = b ∧ q.on = .header then { q with on := .record } else q)
      = s.cache.pendings := by
    refine (List.map_congr_left fun q hq => ?_).trans (List.map_id _)
    exact if_neg fun h => noCommit q hq h.1
  unfold movePendings
  rw [same]

/-- With a FILLING current slot, one commit pending on the READ_RECORD is decided against the version read. -/
theorem decidePendings_one {s : State} {b : Block} {q : PendingCommit} {v : Version} (filling : heldVersion s b = none)
    (only : s.cache.pendings = [q]) (hb : q.block = b) (hk : q.on = .record) :
    decidePendings s b .record (.known v)
      = (decideAgainst b ({ s with cache := { s.cache with pendings := [] } }, v) q).1 := by
  have mine : pendingOf s b .record = [q] := by simp [pendingOf, only, hb, hk]
  have left : takePendings s b .record = { s with cache := { s.cache with pendings := [] } } := by
    simp [takePendings, only, hb, hk]
  have noCopy : heldVersion { s with cache := { s.cache with pendings := [] } } b = none := filling
  have held : heldNow { s with cache := { s.cache with pendings := [] } } b (.known v) = .known v := by
    rw [heldNow_known, noCopy]
    rfl
  unfold decidePendings
  rw [mine, left, List.foldl_cons, held, decideCommit_known _ _ hb]
  rfl

/-! ### Several commits -/

/-- How far the decisions have come that began in `s` with this version held: `a` the state and the version held by
then, `rest` the commits still to be decided. The version held is the first as long as no commit was accepted, and the
block's slot is then as it was; afterwards it is the version of the block's current copy. -/
structure Deciding (s : State) (b : Block) (held : Version) (rest : List PendingCommit) (a : State × Version) :
    Prop where
  single : SingleCurrent a.1.cache.slots
  offered : ∀ q ∈ rest, ∃ o w, a.1.cache.slots[q.slot]? = some (.held b q.data o w)
  member : a.1.member = s.member
  down : a.1.port.down = s.port.down
  held : (a.2 = held ∧ currentSlot a.1 b = currentSlot s b
      ∧ ∀ i, currentSlot s b = some i → a.1.cache.slots[i]? = s.cache.slots[i]?)
    ∨ (held < a.2 ∧ ∃ j d, currentCopy a.1 b = some (j, a.2, d))

variable {s : State} {b : Block} {held : Version} {rest : List PendingCommit} {a : State × Version}

theorem Deciding.unchanged (h : Deciding s b held rest a) (same : a.2 = held) :
    currentSlot a.1 b = currentSlot s b ∧ ∀ i, currentSlot s b = some i → a.1.cache.slots[i]? = s.cache.slots[i]? := by
  rcases h.held with ⟨-, slot⟩ | ⟨above, -⟩
  · exact slot
  · exact absurd (same ▸ above) (BitVec.lt_irrefl held)

theorem Deciding.raised (h : Deciding s b held rest a) (above : held < a.2) :
    ∃ j d, currentCopy a.1 b = some (j, a.2, d) := by
  rcases h.held with ⟨same, -⟩ | ⟨-, copy⟩
  · exact absurd (same ▸ above) (BitVec.lt_irrefl held)
  · exact copy

theorem Deciding.heldVersion_unchanged (h : Deciding s b held rest a) (same : a.2 = held) :
    heldVersion a.1 b = heldVersion s b := by
  obtain ⟨slot, there⟩ := h.unchanged same
  cases hc : currentSlot s b with
  | none => rw [heldVersion_of_noSlot hc, heldVersion_of_noSlot (slot.trans hc)]
  | some i =>
    rw [heldVersion_of_slot hc, heldVersion_of_slot (slot.trans hc)]
    simp only [slotAt, List.getD_eq_getElem?_getD, there i hc]

theorem Deciding.heldVersion_raised (h : Deciding s b held rest a) (above : held < a.2) :
    heldVersion a.1 b = some a.2 := by
  obtain ⟨j, d, copy⟩ := h.raised above
  simp [heldVersion, copy]

/-- At every moment the version held is the one the next commit is decided against. -/
theorem Deciding.heldNow (h : Deciding s b held rest a) (start : heldNow s b (.known held) = .known held) :
    heldNow a.1 b (.known held) = .known a.2 := by
  rw [heldNow_known] at start ⊢
  rcases h.held with ⟨same, -⟩ | ⟨above, -⟩
  · rw [h.heldVersion_unchanged same, start, same]
  · rw [h.heldVersion_raised above]
    rfl

/-- A HELD slot is the current slot of no block. -/
theorem not_current_of_held {s : State} {i : Nat} {b c : Block} {d : Data} {o : HeldOwner} {w : Option Version}
    (h : s.cache.slots[i]? = some (.held c d o w)) : currentSlot s b ≠ some i := fun hc => by
  have := currentSlot_some hc
  rw [h] at this
  cases this

/-- Where the version held is not below the commit's, its slot is freed and nothing else of the block changes. -/
theorem Deciding.refuse {q : PendingCommit} (h : Deciding s b held (q :: rest) a)
    (distinct : ∀ r ∈ rest, q.slot ≠ r.slot) (below : q.version ≤ a.2) :
    Deciding s b held rest (decideAgainst b a q) := by
  obtain ⟨o, w, atSlot⟩ := h.offered q List.mem_cons_self
  have report := reportCommit_aside (setSlot a.1 q.slot .free) b q.source a.2
  have slot : currentSlot (setSlot a.1 q.slot .free) b = currentSlot a.1 b :=
    currentSlot_setSlot_idle b atSlot rfl rfl
  have stays (j : Nat) (hj : q.slot ≠ j) :
      (reportCommit (setSlot a.1 q.slot .free) b q.source a.2).cache.slots[j]? = a.1.cache.slots[j]? := by
    rw [report.slots, setSlot_slots, List.getElem?_set_ne hj]
  have apart {j : Nat} (hj : currentSlot a.1 b = some j) : q.slot ≠ j := fun e =>
    not_current_of_held atSlot (e ▸ hj)
  rw [decideAgainst_of_below below]
  refine ⟨?_, fun r hr => ?_, report.member.trans h.member, (congrArg Port.down report.port).trans h.down, ?_⟩
  · rw [report.slots]
    exact h.single.set _ _ fun _ hb => by cases hb
  · rw [stays _ (distinct r hr)]
    exact h.offered r (List.mem_cons_of_mem _ hr)
  · rcases h.held with ⟨same, first, there⟩ | ⟨above, j, d, copy⟩
    · refine .inl ⟨same, (report.currentSlot b).trans (slot.trans first), fun i hi => ?_⟩
      rw [stays i (apart (first.trans hi)), there i hi]
    · refine .inr ⟨above, j, d, ?_⟩
      have current : currentSlot a.1 b = some j := currentSlot_of_copy copy
      rw [report.currentCopy, currentCopy_of_slot (slot.trans current), ← copy, currentCopy_of_slot current]
      simp only [slotAt, List.getD_eq_getElem?_getD, setSlot_slots, List.getElem?_set_ne (apart current)]

/-- Where the version held is below the commit's, it is accepted: its slot is the block's current copy (R79). -/
theorem Deciding.accept {q : PendingCommit} (h : Deciding s b held (q :: rest) a)
    (distinct : ∀ r ∈ rest, q.slot ≠ r.slot) (above : a.2 < q.version) :
    Deciding s b held rest (decideAgainst b a q) := by
  obtain ⟨o, w, atSlot⟩ := h.offered q List.mem_cons_self
  have report := reportCommit_aside (acceptCommit a.1 q.slot b q.version q.data) b q.source q.version
  obtain ⟨member, -, -, copy, -, single, down, -, slots, -⟩ := acceptCommit_spec a.1 q.slot b q.version q.data
    (List.getElem?_eq_some_iff.1 atSlot).1 h.single
  have risen : held < q.version := by
    rcases h.held with ⟨same, -⟩ | ⟨lower, -⟩
    · exact same ▸ above
    · exact BitVec.lt_trans lower above
  rw [decideAgainst_of_above above]
  refine ⟨report.slots ▸ single, fun r hr => ?_, report.member.trans (member.trans h.member),
    (congrArg Port.down report.port).trans (down.trans h.down),
    .inr ⟨risen, q.slot, q.data, (report.currentCopy b).trans copy⟩⟩
  obtain ⟨o', w', atOther⟩ := h.offered r (List.mem_cons_of_mem _ hr)
  refine ⟨o', w', ?_⟩
  rw [report.slots, slots, List.getElem?_set_ne (distinct r hr),
    givenWay_other _ _ _ _ (.inl (not_current_of_held atOther))]
  exact atOther

theorem Deciding.next {q : PendingCommit} (h : Deciding s b held (q :: rest) a)
    (distinct : ∀ r ∈ rest, q.slot ≠ r.slot) : Deciding s b held rest (decideAgainst b a q) := by
  by_cases above : a.2 < q.version
  · exact h.accept distinct above
  · exact h.refuse distinct (BitVec.not_lt.1 above)

/-- The commits decided one after the other, each against the version the one before left. -/
theorem Deciding.all (start : Machine.heldNow s b (.known held) = .known held) :
    ∀ (l : List PendingCommit) (a : State × Version), Deciding s b held l a → (∀ q ∈ l, q.block = b) →
      l.Pairwise (fun q r => q.slot ≠ r.slot) →
      l.foldl (fun s p => decideCommit s p.slot p.block p.version p.data p.source
          (Machine.heldNow s b (.known held))) a.1
          = (l.foldl (decideAgainst b) a).1
        ∧ Deciding s b held [] (l.foldl (decideAgainst b) a) := by
  intro l
  induction l with
  | nil => exact fun a h _ _ => ⟨rfl, h⟩
  | cons q l ih =>
    intro a h blocks distinct
    obtain ⟨apart, distinct⟩ := List.pairwise_cons.1 distinct
    simp only [List.foldl_cons]
    rw [h.heldNow start, decideCommit_known _ _ (blocks q List.mem_cons_self)]
    exact ih (decideAgainst b a q) (h.next apart) (fun r hr => blocks r (List.mem_cons_of_mem _ hr)) distinct

/-- The state and the version held once every commit pending on the read is decided, in the order offered. -/
def decidedAll (s : State) (b : Block) (k : ReadKind) (held : Version) : State × Version :=
  (pendingOf s b k).foldl (decideAgainst b) (takePendings s b k, held)

/-- Every pending commit has its own slot, which holds its data for the block (R80). -/
structure WellOffered (s : State) (b : Block) (k : ReadKind) : Prop where
  single : SingleCurrent s.cache.slots
  distinct : (pendingOf s b k).Pairwise fun q r => q.slot ≠ r.slot
  held : ∀ q ∈ pendingOf s b k, ∃ o w, s.cache.slots[q.slot]? = some (.held b q.data o w)

/-- Commits offered as R80 has it are so where the completion finds them. -/
theorem wellOffered_of_alike {s t : State} {b : Block} {k : ReadKind} (alike : ReadsAlike s t)
    (once : currentOnce s = true)
    (distinct : (pendingOf s b k).Pairwise fun q r => q.slot ≠ r.slot)
    (held : ∀ q ∈ pendingOf s b k, ∃ o w, s.cache.slots[q.slot]? = some (.held b q.data o w)) :
    WellOffered t b k := by
  have mine : pendingOf t b k = pendingOf s b k := by
    unfold pendingOf
    rw [alike.pendings]
  refine ⟨?_, mine ▸ distinct, fun q hq => ?_⟩
  · rw [alike.slots, singleCurrent_iff]
    simpa [currentOnce] using once
  · rw [alike.slots]
    exact held q (mine ▸ hq)

theorem decidePendings_offered {k : ReadKind} (h : WellOffered s b k)
    (start : heldNow s b (.known held) = .known held) :
    decidePendings s b k (.known held) = (decidedAll s b k held).1
      ∧ Deciding s b held [] (decidedAll s b k held) := by
  have first : Deciding (takePendings s b k) b held (pendingOf s b k) (takePendings s b k, held) :=
    ⟨h.single, h.held, rfl, rfl, .inl ⟨rfl, rfl, fun _ _ => rfl⟩⟩
  have mine : ∀ q ∈ pendingOf s b k, q.block = b := fun q hq => by
    simpa using (Bool.and_eq_true_iff.1 (List.mem_filter.1 hq).2).1
  obtain ⟨same, D⟩ := Deciding.all (s := takePendings s b k) start _ _ first mine h.distinct
  exact ⟨same, D.single, D.offered, D.member, D.down, D.held⟩

end Sys2Proof.Machine
end

section
/-! What the slot of a completed media read becomes, and the statement about both reads (R78, R82, R93 to R95). -/

namespace Sys2Proof.Machine

theorem refreshMade_iff (s : State) :
    refreshMade s = true ↔ s.member.state ≠ .out .mediaDown ∧ s.port.down = false := by simp [refreshMade]

/-! ### The slot of a READ_RECORD -/

/-- The FILLING slot with what was read in it: CLEAN, or DIRTY by a refresh with two or three bursts (R82, R102). -/
def filledSlot (s : State) (b : Block) (i : Nat) (v : Version) (d : Data) (n : Nat) : State :=
  if 2 ≤ n then countRefresh (makeDirty s i b v d) else makeClean s i b v d

theorem settleFill_of_filling {s : State} {b : Block} {i n : Nat} (v : Version) (d : Data)
    (filling : s.cache.slots[i]? = some (.filling b)) (few : n ≤ 3) (made : refreshMade s = true) :
    settleFill s b i (.delivered v d n) = filledSlot s b i v d n := by
  unfold settleFill filledSlot
  rw [slotAt_of_getElem filling]
  simp [wantsRefresh, few, made]

theorem heldNow_filledSlot {s : State} {b : Block} {i : Nat} {v : Version} {d : Data} (n : Nat)
    (current : currentSlot s b = some i) : heldNow (filledSlot s b i v d n) b (.known v) = .known v := by
  unfold filledSlot
  split
  · exact heldNow_refresh (.inl current)
  · exact heldNow_makeClean (.inl current)

/-- Once a commit has given the block a current copy, the read fills no slot. -/
theorem settleFill_of_copy {s : State} {b : Block} {i j : Nat} {w : Version} {d : Data} (o : ReadOutcome)
    (single : SingleCurrent s.cache.slots) (copy : currentCopy s b = some (j, w, d)) :
    settleFill s b i o = s := by
  unfold settleFill
  cases hs : slotAt s i with
  | filling c =>
    refine if_neg ?_
    rintro rfl
    have place : i = j := single i j c (slotAt_current (by rw [hs]; rfl)) (currentCopy_some copy)
    rw [currentCopy_of_slot (currentSlot_of_copy copy), ← place, hs] at copy
    cases copy
  | _ => rfl

section Record

variable {s : State} {b : Block} {i n : Nat} {v : Version} {d : Data}

/-- A READ_RECORD with no commit pending on it fills its slot. -/
theorem completeRecord_plain (filling : s.cache.slots[i]? = some (.filling b)) (current : currentSlot s b = some i)
    (few : n ≤ 3) (made : refreshMade s = true) (noCommit : ∀ q ∈ s.cache.pendings, q.block ≠ b) :
    completeRead s .record b i (.delivered v d n) false
      = answerWaiters (filledSlot (lookupsTaken s n b .record) b i v d n) b (waitersOf s b .record) (.known v) := by
  have alike := lookupsTaken_readsAlike s n b .record
  have noCopy : heldVersion s b = none := by rw [heldVersion_of_slot current, slotAt_of_getElem filling]; rfl
  have made' : refreshMade (lookupsTaken s n b .record) = true := by
    rw [refreshMade_iff, alike.member, alike.down, ← refreshMade_iff]
    exact made
  rw [completeRead_delivered (.inl rfl), noCopy, decidePendings_none _ _ (by rw [alike.pendings]; exact noCommit)]
  dsimp only [settleSlot]
  rw [settleFill_of_filling v d (by rw [alike.slots]; exact filling) few made',
    heldNow_filledSlot n ((alike.currentSlot b).trans current)]

/-- A READ_RECORD with one commit pending on it decides it before its slot is settled. -/
theorem completeRecord_one {q : PendingCommit} (filling : s.cache.slots[i]? = some (.filling b))
    (current : currentSlot s b = some i) (only : s.cache.pendings = [q]) (hb : q.block = b) (hk : q.on = .record) :
    completeRead s .record b i (.delivered v d n) false =
      let taken := lookupsTaken s n b .record
      let u := (decideAgainst b ({ taken with cache := { taken.cache with pendings := [] } }, v) q).1
      let t := settleFill u b i (.delivered v d n)
      answerWaiters t b (waitersOf s b .record) (heldNow t b (.known v)) := by
  have alike := lookupsTaken_readsAlike s n b .record
  have noCopy : heldVersion s b = none := by rw [heldVersion_of_slot current, slotAt_of_getElem filling]; rfl
  rw [completeRead_delivered (.inl rfl), noCopy]
  dsimp only [Option.getD, settleSlot]
  rw [decidePendings_one ((alike.heldVersion b).trans noCopy) (alike.pendings.trans only) hb hk]

/-- A READ_RECORD with commits pending on it: none accepted, it fills its slot; one accepted, it fills none. -/
theorem completeRecord_offered (filling : s.cache.slots[i]? = some (.filling b)) (current : currentSlot s b = some i)
    (few : n ≤ 3) (made : refreshMade s = true) (offered : WellOffered (lookupsTaken s n b .record) b .record) :
    let out := decidedAll (lookupsTaken s n b .record) b .record v
    (out.2 = v → completeRead s .record b i (.delivered v d n) false
      = answerWaiters (filledSlot out.1 b i v d n) b (waitersOf s b .record) (.known v))
    ∧ (v < out.2 → completeRead s .record b i (.delivered v d n) false
      = answerWaiters out.1 b (waitersOf s b .record) (.known out.2)) := by
  intro out
  have alike := lookupsTaken_readsAlike s n b .record
  have noCopy : heldVersion s b = none := by rw [heldVersion_of_slot current, slotAt_of_getElem filling]; rfl
  have start : heldNow (lookupsTaken s n b .record) b (.known v) = .known v := by
    rw [heldNow_known, alike.heldVersion, noCopy]
    rfl
  obtain ⟨decided, D⟩ := decidePendings_offered offered start
  rw [completeRead_delivered (.inl rfl), noCopy]
  dsimp only [Option.getD, settleSlot]
  rw [decided]
  refine ⟨fun same => ?_, fun above => ?_⟩
  · obtain ⟨slot, there⟩ := D.unchanged same
    have current' := (alike.currentSlot b).trans current
    have filling' := (there i current').trans ((congrArg (·[i]?) alike.slots).trans filling)
    have made' : refreshMade out.1 = true := by
      rw [refreshMade_iff, D.member, D.down, alike.member, alike.down, ← refreshMade_iff]
      exact made
    rw [settleFill_of_filling v d filling' few made', heldNow_filledSlot n (slot.trans current')]
  · obtain ⟨j, d', copy⟩ := D.raised above
    rw [settleFill_of_copy _ D.single copy, heldNow_known, D.heldVersion_raised above]
    rfl

end Record

/-! ### The refresh of a READ_HEADER (R82) -/

theorem refreshHeader_of_full {s : State} {b : Block} {v : Version} {d : Data} (h : currentSlot s b = none)
    (full : allocate s = none) : refreshHeader s b v d = s := by
  unfold refreshHeader
  simp only [h, full]

theorem refreshHeader_of_room {s : State} {b : Block} {i : Nat} {v : Version} {d : Data}
    (h : currentSlot s b = none) (room : allocate s = some i) :
    refreshHeader s b v d = countRefresh (makeDirty s i b v d) := by
  unfold refreshHeader
  simp only [h, room]

theorem refreshHeader_of_clean {s : State} {b : Block} {i r : Nat} {v : Version} {d d' : Data}
    (h : currentSlot s b = some i) (clean : s.cache.slots[i]? = some (.clean b v d' r)) :
    refreshHeader s b v d = countRefresh (makeDirty s i b v d') := by
  unfold refreshHeader
  rw [h]
  dsimp only
  rw [slotAt_of_getElem clean]
  exact if_pos rfl

/-- A copy not yet on the media is refreshed by its own write. -/
theorem refreshHeader_of_unwritten {s : State} {b : Block} {i o : Nat} {v w : Version} {d d' : Data}
    (h : currentSlot s b = some i)
    (unwritten : s.cache.slots[i]? = some (.dirty b w d' o) ∨ s.cache.slots[i]? = some (.writing b w d')) :
    refreshHeader s b v d = s := by
  unfold refreshHeader
  rw [h]
  rcases unwritten with atSlot | atSlot <;> dsimp only <;> rw [slotAt_of_getElem atSlot]

section Header

variable {s : State} {b : Block} {n : Nat} {v : Version} {d : Data}

/-- With no commit pending on it a READ_HEADER only makes its refresh, where one is due. -/
theorem completeHeader_plain (free : isFilling s b = false) (few : n ≤ 3)
    (noCommit : ∀ q ∈ s.cache.pendings, q.block ≠ b) :
    completeRead s .header b 0 (.delivered v d n) false =
      let taken := lookupsTaken s n b .header
      let u := if 2 ≤ n ∧ refreshMade s = true then refreshHeader taken b v d else taken
      answerWaiters u b (waitersOf s b .header) (heldNow u b (.known v)) := by
  have alike := lookupsTaken_readsAlike s n b .header
  have made : refreshMade (lookupsTaken s n b .header) = refreshMade s := by
    unfold refreshMade
    rw [alike.member, alike.down]
  have unchanged : decide (heldNow (lookupsTaken s n b .header) b (.known v)
      ≠ .known ((heldVersion s b).getD v)) = false := by
    rw [heldNow_known, alike.heldVersion]
    simp
  have due : (wantsRefresh n && refreshMade s && !false) = decide (2 ≤ n ∧ refreshMade s = true) := by
    simp [wantsRefresh, few]
  rw [completeRead_delivered (.inr free), decidePendings_none _ _ (by rw [alike.pendings]; exact noCommit)]
  dsimp only
  rw [unchanged]
  dsimp only [settleSlot]
  rw [made, due]
  simp only [decide_eq_true_eq]

/-- Where no refresh is due, or the slots allow none, a READ_HEADER only delivers the version. -/
theorem completeHeader_unrefreshed (free : isFilling s b = false) (few : n ≤ 3)
    (noCommit : ∀ q ∈ s.cache.pendings, q.block ≠ b)
    (idle : n < 2 ∨ refreshHeader (lookupsTaken s n b .header) b v d = lookupsTaken s n b .header) :
    completeRead s .header b 0 (.delivered v d n) false
      = answerWaiters (lookupsTaken s n b .header) b (waitersOf s b .header)
          (.known ((heldVersion s b).getD v)) := by
  have same : (if 2 ≤ n ∧ refreshMade s = true then refreshHeader (lookupsTaken s n b .header) b v d
      else lookupsTaken s n b .header) = lookupsTaken s n b .header := by
    split
    next due => exact idle.resolve_left (Nat.not_lt.2 due.1)
    · rfl
  rw [completeHeader_plain free few noCommit]
  dsimp only
  rw [same, heldNow_known, (lookupsTaken_readsAlike s n b .header).heldVersion]

/-- The refresh of a READ_HEADER leaves the block with the version read. -/
theorem completeHeader_refreshed {i : Nat} {d' : Data} (free : isFilling s b = false) (few : n ≤ 3)
    (noCommit : ∀ q ∈ s.cache.pendings, q.block ≠ b) (due : 2 ≤ n) (made : refreshMade s = true)
    (first : currentSlot s b = some i ∨ currentSlot s b = none)
    (refresh : refreshHeader (lookupsTaken s n b .header) b v d
      = countRefresh (makeDirty (lookupsTaken s n b .header) i b v d')) :
    completeRead s .header b 0 (.delivered v d n) false
      = answerWaiters (countRefresh (makeDirty (lookupsTaken s n b .header) i b v d')) b (waitersOf s b .header)
          (.known v) := by
  rw [completeHeader_plain free few noCommit]
  dsimp only
  rw [if_pos ⟨due, made⟩, refresh, heldNow_refresh]
  rwa [(lookupsTaken_readsAlike s n b .header).currentSlot]

/-- A block without a current slot takes the slot that its refresh is given, if it is given one (R82). -/
theorem completeHeader_noSlot (noSlot : currentSlot s b = none) (few : n ≤ 3)
    (noCommit : ∀ q ∈ s.cache.pendings, q.block ≠ b) (due : 2 ≤ n) (made : refreshMade s = true) :
    (allocate s = none → completeRead s .header b 0 (.delivered v d n) false
      = answerWaiters (lookupsTaken s n b .header) b (waitersOf s b .header) (.known v))
    ∧ ∀ i, allocate s = some i → completeRead s .header b 0 (.delivered v d n) false
      = answerWaiters (countRefresh (makeDirty (lookupsTaken s n b .header) i b v d)) b (waitersOf s b .header)
          (.known v) := by
  have alike := lookupsTaken_readsAlike s n b .header
  have free : isFilling s b = false := by simp [isFilling, noSlot]
  have noSlot' := (alike.currentSlot b).trans noSlot
  have given := allocate_congr alike.slots alike.table
  refine ⟨fun full => ?_, fun i room => ?_⟩
  · have idle := refreshHeader_of_full (v := v) (d := d) noSlot' (given.trans full)
    rw [completeHeader_unrefreshed free few noCommit (.inr idle), heldVersion_of_noSlot noSlot]
    rfl
  · exact completeHeader_refreshed free few noCommit due made (.inr noSlot)
      (refreshHeader_of_room noSlot' (given.trans room))

/-- A CLEAN slot of the version read is refreshed with its own data (R82). -/
theorem completeHeader_clean {i r : Nat} {d' : Data} (current : currentSlot s b = some i)
    (clean : s.cache.slots[i]? = some (.clean b v d' r)) (few : n ≤ 3)
    (noCommit : ∀ q ∈ s.cache.pendings, q.block ≠ b) (due : 2 ≤ n) (made : refreshMade s = true) :
    completeRead s .header b 0 (.delivered v d n) false
      = answerWaiters (countRefresh (makeDirty (lookupsTaken s n b .header) i b v d')) b (waitersOf s b .header)
          (.known v) := by
  have alike := lookupsTaken_readsAlike s n b .header
  have free : isFilling s b = false := by
    rw [isFilling_of_slot current, slotAt_of_getElem clean]
    rfl
  exact completeHeader_refreshed free few noCommit due made (.inl current)
    (refreshHeader_of_clean ((alike.currentSlot b).trans current) (by rw [alike.slots]; exact clean))

/-- A DIRTY or WRITING slot is not refreshed. -/
theorem completeHeader_unwritten {i o : Nat} {w : Version} {d' : Data} (current : currentSlot s b = some i)
    (unwritten : s.cache.slots[i]? = some (.dirty b w d' o) ∨ s.cache.slots[i]? = some (.writing b w d'))
    (few : n ≤ 3) (noCommit : ∀ q ∈ s.cache.pendings, q.block ≠ b) :
    completeRead s .header b 0 (.delivered v d n) false
      = answerWaiters (lookupsTaken s n b .header) b (waitersOf s b .header)
          (.known ((heldVersion s b).getD v)) := by
  have alike := lookupsTaken_readsAlike s n b .header
  have free : isFilling s b = false := by
    rw [isFilling_of_slot current]
    rcases unwritten with atSlot | atSlot <;> rw [slotAt_of_getElem atSlot] <;> rfl
  exact completeHeader_unrefreshed free few noCommit
    (.inr (refreshHeader_of_unwritten ((alike.currentSlot b).trans current) (by rw [alike.slots]; exact unwritten)))

/-- While the block's slot is FILLING the version is delivered, and no refresh is made. -/
theorem completeHeader_filling (filling : isFilling s b = true) (noCommit : ∀ q ∈ s.cache.pendings, q.block ≠ b) :
    completeRead s .header b 0 (.delivered v d n) false
      = answerWaiters (lookupsTaken s n b .header) b (waitersOf s b .header) (.known v) := by
  rw [completeRead_moves filling, movePendings_none]
  rw [(lookupsTaken_readsAlike s n b .header).pendings]
  exact noCommit

/-- A READ_HEADER with commits pending on it: one accepted, it makes no refresh; none accepted, it makes the one that
is due. -/
theorem completeHeader_offered (free : isFilling s b = false) (few : n ≤ 3)
    (offered : WellOffered (lookupsTaken s n b .header) b .header) :
    let held := (heldVersion s b).getD v
    let out := decidedAll (lookupsTaken s n b .header) b .header held
    let u := if out.2 = held ∧ 2 ≤ n ∧ refreshMade s = true then refreshHeader out.1 b v d else out.1
    Deciding (lookupsTaken s n b .header) b held [] out
      ∧ completeRead s .header b 0 (.delivered v d n) false
        = answerWaiters u b (waitersOf s b .header) (heldNow u b (.known v)) := by
  intro held out u
  have alike := lookupsTaken_readsAlike s n b .header
  have start : heldNow (lookupsTaken s n b .header) b (.known held) = .known held := by
    rw [heldNow_known, alike.heldVersion]
    cases h : heldVersion s b <;> simp [held, h]
  obtain ⟨decided, D⟩ := decidePendings_offered offered start
  refine ⟨D, ?_⟩
  have made : refreshMade out.1 = refreshMade s := by
    unfold refreshMade
    rw [D.member, D.down, alike.member, alike.down]
  have accepted : decide (heldNow out.1 b (.known v) ≠ .known held) = decide (out.2 ≠ held) := by
    rw [heldNow_known]
    rcases D.held with ⟨same, -⟩ | ⟨above, -⟩
    · rw [D.heldVersion_unchanged same, alike.heldVersion]
      simp [held, out, same]
    · rw [D.heldVersion_raised above]
      simp [out]
  have due : (wantsRefresh n && refreshMade s && !decide (out.2 ≠ held))
      = decide (out.2 = held ∧ 2 ≤ n ∧ refreshMade s = true) := by
    by_cases same : out.2 = held <;> simp [wantsRefresh, few, same]
  rw [completeRead_delivered (.inr free), decided]
  dsimp only
  rw [accepted]
  dsimp only [settleSlot]
  rw [made, due]
  simp only [decide_eq_true_eq]
  rfl

/-- One of the pending commits accepted, the lookups are answered with the version then held and no refresh is made
(R78). -/
theorem completeHeader_raised (free : isFilling s b = false) (few : n ≤ 3)
    (offered : WellOffered (lookupsTaken s n b .header) b .header) :
    let held := (heldVersion s b).getD v
    let out := decidedAll (lookupsTaken s n b .header) b .header held
    held < out.2 → completeRead s .header b 0 (.delivered v d n) false
      = answerWaiters out.1 b (waitersOf s b .header) (.known out.2) := by
  intro held out above
  obtain ⟨D, complete⟩ := completeHeader_offered (v := v) (d := d) free few offered
  have raised : ¬out.2 = held := fun same => BitVec.lt_irrefl held (same ▸ above)
  rw [complete, if_neg fun h => raised h.1, heldNow_known, D.heldVersion_raised above]
  rfl

/-- None accepted, and no refresh due or the slots allowing none, the version is delivered. -/
theorem completeHeader_refused (free : isFilling s b = false) (few : n ≤ 3)
    (offered : WellOffered (lookupsTaken s n b .header) b .header) :
    let held := (heldVersion s b).getD v
    let out := decidedAll (lookupsTaken s n b .header) b .header held
    out.2 = held → (n < 2 ∨ refreshHeader out.1 b v d = out.1) →
    completeRead s .header b 0 (.delivered v d n) false
      = answerWaiters out.1 b (waitersOf s b .header) (.known held) := by
  intro held out same idle
  obtain ⟨D, complete⟩ := completeHeader_offered (v := v) (d := d) free few offered
  have left : (if out.2 = held ∧ 2 ≤ n ∧ refreshMade s = true then refreshHeader out.1 b v d else out.1) = out.1 := by
    split
    next due => exact idle.resolve_left (Nat.not_lt.2 due.2.1)
    · rfl
  rw [complete, left, heldNow_known, D.heldVersion_unchanged same,
    (lookupsTaken_readsAlike s n b .header).heldVersion]

/-- None accepted, and the block without a current slot, the refresh that is due takes the slot it is given, if it is
given one (R82). -/
theorem completeHeader_refused_noSlot (noSlot : currentSlot s b = none) (few : n ≤ 3)
    (offered : WellOffered (lookupsTaken s n b .header) b .header) (due : 2 ≤ n) (made : refreshMade s = true) :
    let out := decidedAll (lookupsTaken s n b .header) b .header v
    out.2 = v →
    (allocate out.1 = none → completeRead s .header b 0 (.delivered v d n) false
      = answerWaiters out.1 b (waitersOf s b .header) (.known v))
    ∧ ∀ i, allocate out.1 = some i → completeRead s .header b 0 (.delivered v d n) false
      = answerWaiters (countRefresh (makeDirty out.1 i b v d)) b (waitersOf s b .header) (.known v) := by
  have free : isFilling s b = false := by simp [isFilling, noSlot]
  have held : (heldVersion s b).getD v = v := by rw [heldVersion_of_noSlot noSlot]; rfl
  obtain ⟨D, complete⟩ := completeHeader_offered (v := v) (d := d) free few offered
  rw [held] at D complete
  intro out same
  have noSlot' : currentSlot out.1 b = none :=
    (D.unchanged same).1.trans (((lookupsTaken_readsAlike s n b .header).currentSlot b).trans noSlot)
  rw [complete, if_pos ⟨same, due, made⟩]
  refine ⟨fun full => ?_, fun i room => ?_⟩
  · rw [refreshHeader_of_full noSlot' full, heldNow_known, heldVersion_of_noSlot noSlot']
    rfl
  · rw [refreshHeader_of_room noSlot' room, heldNow_refresh (.inr noSlot')]

end Header

/-! ### Both reads -/

/-- Settles O22: the memory's answer is the completion of the read at the cache, which decides the pending commits,
settles the slot and answers the lookups. -/
theorem readFillsItsSlot : Obligations.ReadFillsItsSlot := by
  unfold Obligations.ReadFillsItsSlot
  refine ⟨fun s x p b c rest n released reading queue => ?_, fun s b v d n filling => ?_⟩
  · intro stored kept bursts version data s1 counted waits commits taken answered mine offered decided refreshed
    have few : n ≤ 3 := readBursts_le (s := s) bursts
    have served : s1 = nextCommand (readMade s x p b) := rfl
    have alike : ReadsAlike s s1 := (readMade_readsAlike s x p b).trans (nextCommand_readsAlike (readMade s x p b))
    have waiters : s1.cache.waiters = s.cache.waiters := nextCommand_waiters (readMade s x p b)
    have outcome : readOutcome s b n = .delivered version data n := rfl
    have execReady {k : ReadKind} {i : Nat} (command : readsBlock c k b i) :
        exec (.mediaReady s.port.op x p) s
          = .next (drainCheck (settle (completeRead s1 k b i (.delivered version data n) false))) := by
      rw [served, ← outcome]
      exact exec_mediaReady_completes released reading queue command bursts
    -- Of the port's answer no more is needed: the state in which the next command is served stays unexpanded.
    clear_value s1 version data
    have takes (k : ReadKind) : taken k = lookupsTaken s1 n b k := by
      show { counted with cache := { counted.cache with waiters := s.cache.waiters.filter fun w => !waits k w } } = _
      rw [← waiters, ← readCounted_cache s1 n]
      rfl
    have alikeTaken (k : ReadKind) : ReadsAlike s (lookupsTaken s1 n b k) :=
      alike.trans (lookupsTaken_readsAlike s1 n b k)
    have decides (k : ReadKind) (h : Version) : decided k h = decidedAll (lookupsTaken s1 n b k) b k h := by
      unfold decidedAll pendingOf takePendings
      rw [(alikeTaken k).pendings, ← takes]
      rfl
    have wellOffered (k : ReadKind) : offered k → WellOffered (lookupsTaken s1 n b k) b k :=
      fun ⟨once, distinct, held⟩ => wellOffered_of_alike (alikeTaken k) once distinct held
    have users (k : ReadKind) : (s.cache.waiters.filter (waits k)).map (·.user) = waitersOf s1 b k := by
      rw [← waiters]
      rfl
    have serves (out : s.member.state ≠ .out .mediaDown) (up : s.port.down = false) : refreshMade s1 = true := by
      rw [refreshMade_iff, alike.member, alike.down]
      exact ⟨out, up⟩
    have concludes {k : ReadKind} {i : Nat} {u : State} {h : Version} (command : readsBlock c k b i)
        (completes : completeRead s1 k b i (.delivered version data n) false
          = answerWaiters u b (waitersOf s1 b k) (.known h)) : answered k u h :=
      (execReady command).trans (by rw [completes, ← users k])
    refine ⟨fun i command out up filling current => ?_, fun command noCommit => ?_, fun command free off => ?_⟩
    · have filling1 : s1.cache.slots[i]? = some (.filling b) := by rw [alike.slots]; exact filling
      have current1 : currentSlot s1 b = some i := (alike.currentSlot b).trans current
      have made := serves out up
      intro filled
      refine ⟨fun noCommit => concludes (.inr ⟨command, rfl⟩) ?_, fun q only hb hk => ?_, fun off => ?_⟩
      · rw [takes]
        exact completeRecord_plain filling1 current1 few made (by rw [alike.pendings]; exact noCommit)
      · have ready := execReady (.inr ⟨command, rfl⟩)
        rw [completeRecord_one filling1 current1 (alike.pendings.trans only) hb hk, ← takes, ← users] at ready
        dsimp only at ready
        refine ⟨fun above => ?_, fun below => ?_⟩
        · rw [decideAgainst_of_above above] at ready
          exact ready
        · rw [decideAgainst_of_below below] at ready
          exact ready
      · have complete := completeRecord_offered (v := version) (d := data) filling1 current1 few made
          (wellOffered _ off)
        rw [← decides] at complete
        exact ⟨fun same => concludes (.inr ⟨command, rfl⟩) (complete.1 same),
          fun above => concludes (.inr ⟨command, rfl⟩) (complete.2 above)⟩
    · have header {u : State} {h : Version} := concludes (k := .header) (u := u) (h := h) (.inl ⟨command, rfl, rfl⟩)
      have noCommit1 : ∀ q ∈ s1.cache.pendings, q.block ≠ b := by rw [alike.pendings]; exact noCommit
      rw [takes, ← alike.heldVersion]
      refine ⟨fun free lt => header (completeHeader_unrefreshed ((alike.isFilling b).trans free) few noCommit1 (.inl lt)),
        fun noSlot due out up => ?_, fun i d' r current clean due out up => ?_,
        fun ⟨i, v', d', o, current, unwritten⟩ => ?_, fun filling => ?_⟩
      · have noSlot1 : currentSlot s1 b = none := (alike.currentSlot b).trans noSlot
        obtain ⟨full, room⟩ := completeHeader_noSlot (v := version) (d := data) noSlot1 few noCommit1 due (serves out up)
        rw [allocate_congr alike.slots alike.table] at full room
        rw [heldVersion_of_noSlot noSlot1]
        exact ⟨fun h => header (full h), fun i h => header (room i h)⟩
      · rw [alike.heldVersion, heldVersion_of_slot current, slotAt_of_getElem clean]
        exact header (completeHeader_clean ((alike.currentSlot b).trans current) (by rw [alike.slots]; exact clean)
          few noCommit1 due (serves out up))
      · exact header (completeHeader_unwritten ((alike.currentSlot b).trans current)
          (by rw [alike.slots]; exact unwritten) few noCommit1)
      · rw [alike.heldVersion, heldVersion_of_filling filling]
        exact header (completeHeader_filling ((alike.isFilling b).trans filling) noCommit1)
    · have header {u : State} {h : Version} := concludes (k := .header) (u := u) (h := h) (.inl ⟨command, rfl, rfl⟩)
      have free1 : isFilling s1 b = false := (alike.isFilling b).trans free
      have offered1 := wellOffered .header off
      intro held out
      have decided1 : out = decidedAll (lookupsTaken s1 n b .header) b .header ((heldVersion s1 b).getD version) := by
        rw [alike.heldVersion]
        exact decides _ _
      have held1 : held = (heldVersion s1 b).getD version := by rw [alike.heldVersion]
      clear_value out held
      subst decided1 held1
      refine ⟨fun above => header (completeHeader_raised free1 few offered1 above),
        fun same lt => header (completeHeader_refused free1 few offered1 same (.inl lt)),
        fun same noSlot due outOf up => ?_⟩
      have noSlot1 : currentSlot s1 b = none := (alike.currentSlot b).trans noSlot
      have held : (heldVersion s1 b).getD version = version := by rw [heldVersion_of_noSlot noSlot1]; rfl
      rw [held] at same ⊢
      obtain ⟨full, room⟩ := completeHeader_refused_noSlot (d := data) noSlot1 few offered1 due (serves outOf up) same
      exact ⟨fun h => header (full h), fun i h => header (room i h)⟩
  · rw [completeRead_moves filling]
    unfold lookupsTaken readCounted
    split <;> rfl

end Sys2Proof.Machine
end

section
/-! Going OUT (R177): what is done to the table, the transmit queue, the pushes and the fetches on the way. -/

namespace Sys2Proof.Machine

/-! ### The frames of the answers -/

/-- Once the requests in progress have ended for SPECTATOR or OUT no answer to a READ or a FETCH is queued (R56, R70). -/
theorem endRequests_gone {s : State} {f : TxFrame} (h : f ∈ (endRequests s false).bus.queue) (q : f.phase = .queued) :
    f.purpose ≠ .readAnswer ∧ f.purpose ≠ .fetchAnswer := by
  have reads := (closeAnswers_ends (closeAnswers (expireKind (expireWrites s) .clientFlush) .clientRead .readAnswer
    .expired) .peerFetch .fetchAnswer (st := .expired) rfl).frames f h
  exact ⟨closeAnswers_gone (reads.1 q) q, closeAnswers_gone h q⟩

theorem endRequests_ends (s : State) : Ends s (endRequests s false) :=
  ((expireWrites_ends s).trans (expireKind_ends _ _)).trans
    ((closeAnswers_ends _ _ _ rfl).trans (closeAnswers_ends _ _ _ rfl))

/-- Requests in progress of every kind but the station's own are finished (R39, R56, R70). -/
theorem endRequests_done (s : State) : DoneKind .clientWrite (endRequests s false)
    ∧ DoneKind .clientFlush (endRequests s false) ∧ DoneKind .clientRead (endRequests s false)
    ∧ DoneKind .peerFetch (endRequests s false) := by
  have flushes := expireKind_ends (expireWrites s) .clientFlush
  have reads := closeAnswers_ends (expireKind (expireWrites s) .clientFlush) .clientRead .readAnswer
    (st := .expired) rfl
  have fetches := closeAnswers_ends (closeAnswers (expireKind (expireWrites s) .clientFlush) .clientRead .readAnswer
    .expired) .peerFetch .fetchAnswer (st := .expired) rfl
  exact ⟨(flushes.trans (reads.trans fetches)).done (expireWrites_done s),
    (reads.trans fetches).done (expireKind_done _ _), fetches.done (closeAnswers_done _ _ _ rfl),
    closeAnswers_done _ _ _ rfl⟩

/-! ### The station's own entries -/

/-- The station's pushes and fetches over and their entries EXPIRED, the repair list as it was. -/
def ownEntriesEnded (s : State) : State :=
  expireKind (expireKind (endFetches (endPushes s (fun _ => true) .expired) (fun _ => true) .expired) .ownFetch)
    .ownReplay

theorem ownEntriesEnded_ends (s : State) : Ends s (ownEntriesEnded s) :=
  ((endPushes_ends s _ rfl).trans (endFetches_ends _ _ rfl)).trans
    ((expireKind_ends _ _).trans (expireKind_ends _ _))

theorem ownEntriesEnded_done (s : State) :
    DoneKind .ownFetch (ownEntriesEnded s) ∧ DoneKind .ownReplay (ownEntriesEnded s) :=
  ⟨(expireKind_ends _ _).done (expireKind_done _ _), expireKind_done _ _⟩

/-- No push is left (R138). -/
theorem ownEntriesEnded_pushes (s : State) : (ownEntriesEnded s).replay.pushes = [] := by
  refine List.eq_nil_iff_forall_not_mem.2 fun p hp => ?_
  have later := (endFetches_ends (endPushes s (fun _ => true) .expired) (fun _ => true) (st := .expired) rfl).trans
    ((expireKind_ends _ .ownFetch).trans (expireKind_ends _ .ownReplay))
  exact Bool.noConfusion (endPushes_gone (later.pushes p hp)).2

/-- No fetch is left (R148). -/
theorem ownEntriesEnded_fetches (s : State) : (ownEntriesEnded s).repair.fetches = [] := by
  refine List.eq_nil_iff_forall_not_mem.2 fun f hf => ?_
  have later := (expireKind_ends (endFetches (endPushes s (fun _ => true) .expired) (fun _ => true) .expired)
    .ownFetch).trans (expireKind_ends _ .ownReplay)
  exact Bool.noConfusion (endFetches_gone (later.fetches f hf)).2

/-! ### The change to OUT -/

/-- The station in the state OUT, the frames that leave with service withdrawn. -/
def outOfService (s : State) (r : OutReason) : State :=
  withdraw { s with member := { s.member with state := .out r } } (fun f => leavesWithService f.purpose) .plain

/-- All work in progress ended on the way OUT: the requests, the pushes and the fetches. -/
def workEnded (s : State) (r : OutReason) : State := ownEntriesEnded (endRequests (outOfService s r) false)

theorem workEnded_ends (s : State) (r : OutReason) :
    Ends { s with member := { s.member with state := .out r } } (workEnded s r) :=
  ((withdraw_plain_ends _ _).trans (endRequests_ends _)).trans (ownEntriesEnded_ends _)

/-- Every entry of the table is finished, of whatever kind. -/
theorem workEnded_finished {s : State} {r : OutReason} {e : Entry} (he : e ∈ (workEnded s r).table) :
    e.state.finished = true := by
  have own := ownEntriesEnded_ends (endRequests (outOfService s r) false)
  obtain ⟨writes, flushes, reads, fetches⟩ := endRequests_done (outOfService s r)
  obtain ⟨ownFetches, ownReplays⟩ := ownEntriesEnded_done (endRequests (outOfService s r) false)
  cases hk : e.kind with
  | clientRead => exact own.done reads e he hk
  | clientWrite => exact own.done writes e he hk
  | clientFlush => exact own.done flushes e he hk
  | peerFetch => exact own.done fetches e he hk
  | ownFetch => exact ownFetches e he hk
  | ownReplay => exact ownReplays e he hk

/-- A wait still there is that of an entry that was finished before. -/
theorem workEnded_wait {s : State} {r : OutReason} {e : Entry} (he : e ∈ (workEnded s r).table) :
    e.wait = none ∨ ∃ x ∈ s.table, x.tag = e.tag ∧ x.state.finished = true ∧ x.wait = e.wait := by
  obtain ⟨x, hx, tag, -, -, wait⟩ := (workEnded_ends s r).entries e he
  rcases wait with wait | ⟨wait, state⟩
  · exact .inl wait
  · exact .inr ⟨x, hx, tag, state ▸ workEnded_finished he, wait.symm⟩

/-- A frame still queued leaves not with service and is no answer to a READ or a FETCH. -/
theorem workEnded_queued {s : State} {r : OutReason} {f : TxFrame} (hf : f ∈ (workEnded s r).bus.queue)
    (q : f.phase = .queued) :
    leavesWithService f.purpose = false ∧ f.purpose ≠ .readAnswer ∧ f.purpose ≠ .fetchAnswer := by
  unfold workEnded at hf
  have answered := ((ownEntriesEnded_ends (endRequests (outOfService s r) false)).frames f hf).1 q
  have out := ((endRequests_ends (outOfService s r)).frames f answered).1 q
  exact ⟨(withdraw_gone out q).2, endRequests_gone answered q⟩

theorem workEnded_pushes (s : State) (r : OutReason) : (workEnded s r).replay.pushes = [] := by
  unfold workEnded
  exact ownEntriesEnded_pushes _

theorem workEnded_fetches (s : State) (r : OutReason) : (workEnded s r).repair.fetches = [] := by
  unfold workEnded
  exact ownEntriesEnded_fetches _

/-- What leaving service does once the work has ended: FETCHING entries are READY again, the cache gives up what its
owners waited for, and no timer of the service runs on (R80, R138, R148, R162, R174). -/
def serviceLeft (u : State) : State :=
  stopServiceTimers (abandonCache
    { u with repair := { u.repair with
        list := u.repair.list.map fun e => if e.state = .fetching then { e with state := .ready } else e } })

theorem serviceLeft_of_ownEntriesEnded (u : State) :
    serviceLeft (ownEntriesEnded u) = stopServiceTimers (abandonCache (endOwnWork u)) := by
  unfold serviceLeft endOwnWork ownEntriesEnded
  rfl

theorem leaveService_out (s : State) (r : OutReason) :
    leaveService s (.out r) = serviceLeft (workEnded s r) := by
  have notResetting : decide (StationState.out r = .resetting) = false := by simp
  unfold workEnded outOfService leaveService
  rw [serviceLeft_of_ownEntriesEnded]
  dsimp only
  rw [notResetting]

/-- The station with no timer of listening or formation running either (R177). -/
def idled (u : State) : State :=
  { serviceLeft u with member := { (serviceLeft u).member with
      listeningWindow := none, quietTimer := none, presentReoffers := [] } }

section Idled

variable (u : State)

@[simp] theorem idled_table : (idled u).table = u.table := rfl
@[simp] theorem idled_bus : (idled u).bus = u.bus := rfl
@[simp] theorem idled_media : (idled u).media = u.media := rfl
@[simp] theorem idled_clock : (idled u).clock = u.clock := rfl
@[simp] theorem idled_pushes : (idled u).replay.pushes = u.replay.pushes := rfl
@[simp] theorem idled_fetches : (idled u).repair.fetches = u.repair.fetches := rfl
@[simp] theorem idled_pendings : (idled u).cache.pendings = [] := rfl
@[simp] theorem idled_active : (idled u).repair.active = false := rfl
@[simp] theorem idled_limit : (idled u).repair.limit = none := rfl
@[simp] theorem idled_member : (idled u).member = { u.member with
    rosterWait := none, queryTimer := none, listeningWindow := none, quietTimer := none, presentReoffers := [] } := rfl

end Idled

/-- No slot is HELD once the cache has given up what its owners waited for (R80, R87). -/
theorem idled_unheld {u : State} {x : Slot} (h : x ∈ (idled u).cache.slots) (b : Block) (d : Data) (o : HeldOwner)
    (v : Option Version) : x ≠ .held b d o v := by
  obtain ⟨y, -, rfl⟩ := List.mem_map.1 h
  cases y <;> simp

theorem enterOut_of_in {s : State} (r : OutReason) (h : isOut s = false) :
    enterOut s r = if r = .mediaDown ∧ s.member.member = true then queueOwnDown (idled (workEnded s r))
      else idled (workEnded s r) := by
  have member : (idled (workEnded s r)).member.member = s.member.member := by
    rw [idled_member, (workEnded_ends s r).member]
  rw [← member]
  unfold enterOut idled
  rw [if_neg (by simp [h]), leaveService_out]

/-! ### PEER_DOWN naming the station -/

theorem accepts_peerDown (s : State) :
    accepts s .peerDown = true ↔ s.bus.accepting = true ∧ s.bus.queue.length < 16 := by
  have urgent : kindClass .peerDown = 0 := rfl
  simp only [accepts, urgent, decide_true, Bool.true_or, Bool.and_true, Bool.and_eq_true, decide_eq_true_eq]
  rfl

theorem queueOwnDown_of_refused {s : State} (h : accepts s .peerDown = false) :
    queueOwnDown s = { s with member := { s.member with ownDownReoffer := some (s.clock + 5000) } } := by
  unfold queueOwnDown
  exact if_neg (by simp [h])

/-- PEER_DOWN naming the station touches the transmit queue and its own re-offer, and nothing else. -/
theorem queueOwnDown_spec (s : State) : ∃ (queue : List TxFrame) (reoffer : Option Nat), queueOwnDown s =
    { s with bus := { s.bus with queue := queue }, member := { s.member with ownDownReoffer := reoffer } } := by
  by_cases h : accepts s .peerDown = true
  · exact ⟨_, _, queueOwnDown_of_accepts h⟩
  · exact ⟨_, _, queueOwnDown_of_refused (Bool.eq_false_iff.2 h)⟩

/-- However PEER_DOWN fares, going OUT leaves what it leaves before PEER_DOWN is offered. -/
theorem enterOut_spec {s : State} (r : OutReason) (h : isOut s = false) :
    ∃ (queue : List TxFrame) (reoffer : Option Nat), enterOut s r =
      { idled (workEnded s r) with
        bus := { (idled (workEnded s r)).bus with queue := queue }
        member := { (idled (workEnded s r)).member with ownDownReoffer := reoffer } } := by
  rw [enterOut_of_in r h]
  generalize idled (workEnded s r) = u
  split
  · exact queueOwnDown_spec u
  · exact ⟨u.bus.queue, u.member.ownDownReoffer, rfl⟩

/-- Settles O17: the work that ends on the way OUT, kind by kind, and PEER_DOWN offered to the queue it leaves. -/
theorem outEndsAllWork : Obligations.OutEndsAllWork := by
  unfold Obligations.OutEndsAllWork
  intro s r inService t
  have ended := workEnded_ends s r
  have waits := @workEnded_wait s r
  have finished := @workEnded_finished s r
  have queued := @workEnded_queued s r
  have pushes := workEnded_pushes s r
  have fetches := workEnded_fetches s r
  have out : t = _ := enterOut_of_in r inService
  have spec : ∃ (queue : List TxFrame) (reoffer : Option Nat), t = _ := enterOut_spec r inService
  -- Of the work ended no more is needed than these facts: the state it leaves stays unexpanded.
  clear_value t
  generalize workEnded s r = u at *
  obtain ⟨queue, reoffer, spec⟩ := spec
  have sameSelf : self (idled u) = self s := by simp [self, ownNumber, ended.member]
  have sameNumber : ownNumber (idled u) = ownNumber s := by simp [ownNumber, ended.member]
  have accepting : t.bus.accepting = u.bus.accepting := by simp [spec]
  refine ⟨?_, ?_, ?_, ⟨u.bus.queue, fun f hf => (ended.frames f hf).2, fun f => queued, fun stays => ?_,
    fun down member => ⟨fun opened room => ?_, fun refused => ?_⟩⟩, ?_, ?_, ?_, ?_, ?_, ?_, ?_, ?_, ?_, ?_, ?_⟩
  · simp [spec, ended.member]
  · simpa [spec] using fun _ => finished
  · simpa [spec] using fun _ => waits
  · have noNotice : ¬(r = .mediaDown ∧ s.member.member = true) := fun ⟨down, member⟩ =>
      stays.elim (· down) (by simp [member])
    rw [out, if_neg noNotice, idled_bus]
  · rw [accepting] at opened
    rw [out, if_pos ⟨down, member⟩,
      queueOwnDown_of_accepts (s := idled u) ((accepts_peerDown _).2 ⟨opened, room⟩), sameSelf, sameNumber]
    exact ⟨rfl, rfl⟩
  · rw [accepting] at refused
    have full : accepts (idled u) .peerDown = false := by
      rw [Bool.eq_false_iff, ne_eq, accepts_peerDown]
      rintro ⟨opened, room⟩
      exact refused.elim (fun closed => Bool.noConfusion (opened.symm.trans closed)) (Nat.not_le.2 room)
    rw [out, if_pos ⟨down, member⟩, queueOwnDown_of_refused full, idled_clock, ended.clock]
    exact ⟨rfl, rfl⟩
  · rw [spec]
    exact fun x hx => idled_unheld hx
  · simp [spec]
  · simp [spec, pushes]
  · simp [spec, fetches]
  · simp [spec]
  · simp [spec]
  · simp [spec]
  · simp [spec]
  · simp [spec]
  · simp [spec, ended.media]
  · simp [spec, ended.clock]

end Sys2Proof.Machine
end

section
/-! Signs of life (R112, R117): what a frame of a member does at the Peer Table, before its entry takes it. -/

namespace Sys2Proof.Machine

/-- A frame at the Peer Table touches the Peer Table, the Bus Interface and the counters, and nothing else. -/
structure AtPeers (s t : State) : Prop where
  spec : ∃ (peers : List PeerEntry) (bus : Bus) (counters : Counters),
    t = { s with peers := peers, bus := bus, counters := counters }

theorem AtPeers.refl (s : State) : AtPeers s s := ⟨_, _, _, rfl⟩

theorem notice_atPeers (s : State) (p : StationNo) : AtPeers s (notice s p) := by
  obtain ⟨bus, counters, offered⟩ := offer_spec (updatePeer s p fun e => { e with lastNotice := some s.clock })
    (peerDownFrame (self s) p) (.peerNotice p)
  exact ⟨_, bus, counters, offered⟩

theorem renotice_atPeers (s : State) (p : StationNo) : AtPeers s (renotice s p) := by
  unfold renotice
  split
  · exact .refl s
  · split
    · split
      · exact notice_atPeers s p
      · split
        · exact .refl s
        · exact notice_atPeers s p
    · exact .refl s

theorem signOfLife_atPeers (s : State) (src : Source) : AtPeers s (signOfLife s src) := by
  unfold signOfLife
  split
  · exact renotice_atPeers s _
  · exact .refl s

theorem clearMisses_atPeers (s : State) (src : Source) : AtPeers s (clearMisses s src) := by
  unfold clearMisses
  split
  · obtain ⟨_, _, _, noticed⟩ :=
      renotice_atPeers (updatePeer s src.sender fun e => { e with misses := 0 }) src.sender
    exact ⟨_, _, _, noticed⟩
  · exact .refl s

section
variable {s t : State} (a : AtPeers s t)
include a

theorem AtPeers.member : t.member = s.member := by
  obtain ⟨_, _, _, rfl⟩ := a
  rfl

theorem AtPeers.clock : t.clock = s.clock := by
  obtain ⟨_, _, _, rfl⟩ := a
  rfl

theorem AtPeers.port : t.port = s.port := by
  obtain ⟨_, _, _, rfl⟩ := a
  rfl

theorem AtPeers.inService : Machine.inService t = Machine.inService s := by
  unfold Machine.inService
  rw [a.member]

theorem AtPeers.inRange (b : Block) : Machine.inRange t b = Machine.inRange s b := by
  unfold Machine.inRange volume
  rw [a.member]

end

theorem markMatches_iff (s : State) (src : Source) : markMatches s src = true ↔ src.mark = s.member.mark := by
  simp [markMatches]

/-- The Peer Table takes a frame of another member with the station's mark, in service (R110). -/
theorem peerTakes_iff (s : State) (src : Source) :
    peerTakes s src = true ↔ inService s = true ∧ src.mark = s.member.mark ∧ isMember s src.sender = true
      ∧ src.sender ≠ ownNumber s := by
  simp [peerTakes, markMatches, and_assoc]

theorem signOfLife_of_taken {s : State} {src : Source} (h : peerTakes s src = true) :
    signOfLife s src = renotice s src.sender := if_pos h

theorem clearMisses_of_taken {s : State} {src : Source} (h : peerTakes s src = true) :
    clearMisses s src = renotice (updatePeer s src.sender fun e => { e with misses := 0 }) src.sender := if_pos h

theorem signOfLife_of_passed {s : State} {src : Source} (h : peerTakes s src = false) : signOfLife s src = s :=
  if_neg (by simp [h])

theorem clearMisses_of_passed {s : State} {src : Source} (h : peerTakes s src = false) : clearMisses s src = s :=
  if_neg (by simp [h])

/-! ### The notice of an ABSENT member (R117) -/

theorem renotice_of_here {s : State} {p : StationNo} {e : PeerEntry} (found : peerEntry s p = some e)
    (here : e.state ≠ .absent) : renotice s p = s := by
  unfold renotice
  simp only [found]
  exact if_neg here

theorem renotice_of_recent {s : State} {p : StationNo} {e : PeerEntry} {n : Nat} (found : peerEntry s p = some e)
    (last : e.lastNotice = some n) (recent : s.clock < n + 3000) : renotice s p = s := by
  unfold renotice
  simp only [found, last]
  split
  · exact if_pos recent
  · rfl

theorem renotice_of_due {s : State} {p : StationNo} {e : PeerEntry} (found : peerEntry s p = some e)
    (absent : e.state = .absent) (due : ∀ n, e.lastNotice = some n → n + 3000 ≤ s.clock) :
    renotice s p = notice s p := by
  unfold renotice
  simp only [found, if_pos absent]
  cases last : e.lastNotice with
  | none => rfl
  | some n => exact if_neg (Nat.not_lt.2 (due n last))

/-- A live peer has an entry, which is not ABSENT. -/
theorem isLive_entry {s : State} {p : StationNo} (h : isLive s p = true) :
    ∃ e, peerEntry s p = some e ∧ e.state ≠ .absent := by
  unfold isLive isPresent isCatchingUp peerState at h
  cases found : peerEntry s p with
  | none => simp [found] at h
  | some e =>
    refine ⟨e, rfl, fun absent => ?_⟩
    simp [found, absent] at h

end Sys2Proof.Machine
end

section
/-! The end of an ack window (R36, R37): its reports leave the clock and the Block Cache alone. -/

namespace Sys2Proof.Machine

/-! ### Reports work aside of the cache -/

theorem addGroups_aside (s : State) (gs : List Nat) : Aside s (addGroups s gs) := by
  refine aside_foldl _ (fun u g => ?_) gs s
  dsimp only
  split
  · exact ⟨rfl, rfl, rfl, rfl⟩
  · exact Aside.refl u

theorem endPushes_aside (s : State) (sel : Push → Bool) (st : EntryState) : Aside s (endPushes s sel st) :=
  aside_foldl _ (fun u p => endPush_aside u p none st) _ s

theorem handOnAbsent_aside (s : State) (p : StationNo) : Aside s (handOnAbsent s p) := by
  have ended := (endPushes_aside s (fun q => decide (q.peer = p)) .done).trans
    (withdraw_aside _ (isReplayDoneTo p) .plain)
  have room (u : State) : Aside u (dropDeadRoom u) := ⟨rfl, rfl, rfl, rfl⟩
  unfold handOnAbsent
  dsimp only
  refine (room _).after ?_
  split
  · exact (addGroups_aside _ _).after (Aside.after ⟨rfl, rfl, rfl, rfl⟩ ended)
  · exact ended

theorem notice_aside (s : State) (p : StationNo) : Aside s (notice s p) :=
  (offer_aside _ _ _).after ⟨rfl, rfl, rfl, rfl⟩

theorem declareDown_aside (s : State) (p : StationNo) : Aside s (declareDown s p) := by
  unfold declareDown
  split
  · exact (handOnAbsent_aside _ _).after ((notice_aside _ _).after ⟨rfl, rfl, rfl, rfl⟩)
  · exact Aside.refl s

theorem reportMiss_aside (s : State) (p : StationNo) : Aside s (reportMiss s p) := by
  unfold reportMiss
  split
  · split
    · exact Aside.refl s
    · split
      · exact ⟨rfl, rfl, rfl, rfl⟩
      · exact declareDown_aside s p
  · exact Aside.refl s

theorem giveUp_aside (s : State) (p : StationNo) : Aside s (giveUp s p) :=
  (declareDown_aside _ _).after ((endPushes_aside _ _ _).after ⟨rfl, rfl, rfl, rfl⟩)

theorem recordMissed_aside (s : State) (p : StationNo) (b : Block) : Aside s (recordMissed s p b) := by
  unfold recordMissed
  split
  · exact Aside.refl s
  · split
    · exact (withdraw_aside _ _ _).after ⟨rfl, rfl, rfl, rfl⟩
    · exact giveUp_aside s p

theorem reportSilent_aside (s : State) (b : Block) (p : StationNo) : Aside s (reportSilent s b p) := by
  unfold reportSilent
  split
  · exact recordMissed_aside s p b
  · exact (reportMiss_aside s p).trans (recordMissed_aside _ p b)

/-- The report of an ack window leaves the cache, the port, the membership and the clock alone (R37). -/
theorem reportWindow_aside (s : State) (e : Entry) : Aside s (reportWindow s e) :=
  (aside_foldl _ (fun u p => reportSilent_aside u e.blk p) _ _).after ⟨rfl, rfl, rfl, rfl⟩

/-! ### A miss (R111, R113) -/

theorem reportMiss_of_dead {s : State} {p : StationNo} (h : inService s = false ∨ isLive s p = false) :
    reportMiss s p = s := by
  unfold reportMiss
  refine if_neg ?_
  rcases h with h | h <;> simp [h]

theorem reportMiss_of_live {s : State} {p : StationNo} {x : PeerEntry} (serves : inService s = true)
    (live : isLive s p = true) (found : peerEntry s p = some x) :
    reportMiss s p = if x.misses + 1 < 3 then updatePeer s p fun y => { y with misses := y.misses + 1 }
      else handOnAbsent (noticedAbsent s p) p := by
  unfold reportMiss
  rw [if_pos (by simp [serves, live]), declareDown_of_live serves live]
  simp only [found]
  rfl

/-- The peer's entry ABSENT, its count cleared and its last notice set, in one change of the entry (R113). -/
theorem noticedAbsent_eq (s : State) (p : StationNo) :
    noticedAbsent s p = offer
      (updatePeer s p fun y => { y with state := .absent, misses := 0, lastNotice := some s.clock })
      (peerDownFrame (self s) p) (.peerNotice p) := by
  have twice : updatePeer (updatePeer s p fun y => { y with state := .absent, misses := 0 }) p
        (fun y => { y with lastNotice := some s.clock })
      = updatePeer s p fun y => { y with state := .absent, misses := 0, lastNotice := some s.clock } := by
    unfold updatePeer
    simp only [List.map_map]
    congr 2
    funext y
    by_cases h : y.peer = p <;> simp [h]
  show offer (updatePeer (updatePeer s p fun y => { y with state := .absent, misses := 0 }) p
    fun y => { y with lastNotice := some s.clock }) (peerDownFrame (self s) p) (.peerNotice p) = _
  rw [twice]

/-! ### The report at the window's end (R36, R37) -/

/-- The co-replicas that have not answered a write when its ack window ends. -/
def silentOf (s : State) (e : Entry) : List StationNo :=
  (coReplicas s (groupOf e.blk)).filter fun n => !hasAnswered e n

/-- The report begins by using a free value, which settles the order of two (log 14). -/
def orderTaken (s : State) : State := { s with freeCount := s.freeCount + 1 }

theorem reportWindow_none {s : State} {e : Entry} (h : silentOf s e = []) : reportWindow s e = orderTaken s := by
  show (reportOrder s (silentOf s e)).foldl _ (orderTaken s) = _
  rw [h]
  rfl

theorem reportWindow_one {s : State} {e : Entry} {p : StationNo} (h : silentOf s e = [p]) :
    reportWindow s e = reportSilent (orderTaken s) e.blk p := by
  show (reportOrder s (silentOf s e)).foldl _ (orderTaken s) = _
  rw [h]
  rfl

/-- Of two silent co-replicas either is reported first (log 14). -/
theorem reportWindow_two {s : State} {e : Entry} {p q : StationNo} (h : silentOf s e = [p, q]) :
    reportWindow s e = reportSilent (reportSilent (orderTaken s) e.blk p) e.blk q
      ∨ reportWindow s e = reportSilent (reportSilent (orderTaken s) e.blk q) e.blk p := by
  have report : reportWindow s e
      = (reportOrder s (silentOf s e)).foldl (fun u n => reportSilent u e.blk n) (orderTaken s) := rfl
  rw [report, h]
  unfold reportOrder
  dsimp only
  split
  · exact .inr rfl
  · exact .inl rfl

/-! ### The entry whose window ends (R69) -/

theorem holdPassed_iff (s : State) (e : Entry) :
    holdPassed s e = true ↔ ∃ f, e.finished = some f ∧ f + 100000 ≤ s.clock := by
  unfold holdPassed
  cases e.finished with
  | none => simp
  | some f =>
    simp only [decide_eq_true_eq, Option.some.injEq, exists_eq_left']
    rfl

/-- The ack window of the entry with this tag no longer runs. -/
def windowClosed (s : State) (t : Tag) : State := updateEntry s t fun x => { x with ackWindow := none }

theorem dropEntry_windowClosed (s : State) (t : Tag) : dropEntry (windowClosed s t) t = dropEntry s t := by
  have same : (fun e : Entry => decide (e.tag ≠ t)) ∘ (fun e => if e.tag = t then { e with ackWindow := none } else e)
      = fun e => decide (e.tag ≠ t) := by
    funext e
    by_cases h : e.tag = t <;> simp [h]
  unfold dropEntry windowClosed updateEntry
  simp only [List.filter_map, same]
  congr 1
  refine (List.map_congr_left fun e he => ?_).trans (List.map_id _)
  have other : e.tag ≠ t := by simpa using (List.mem_filter.1 he).2
  exact if_neg other

theorem endWindow_eq (s : State) (t : Tag) (e : Entry) :
    endWindow s t e = if holdPassed s e then dropEntry (reportWindow s e) t else windowClosed (reportWindow s e) t := by
  have same : holdPassed (windowClosed (reportWindow s e) t) e = holdPassed s e := by
    have clock : (windowClosed (reportWindow s e) t).clock = s.clock := (reportWindow_aside s e).clock
    unfold holdPassed
    rw [clock]
  rw [← same, ← dropEntry_windowClosed]
  rfl

theorem exec_ackWindowExpiry {s : State} {t : Tag} {e : Entry} {due : Nat} (released : s.resetHeld = false)
    (found : findEntry s t = some e) (write : e.kind = .clientWrite) (runs : e.ackWindow = some due) :
    exec (.ackWindowExpiry t) s = .next (settle (endWindow (reach s due) t e)) := by
  refine Eq.trans (b := execAckWindowExpiry t s) rfl ?_
  unfold execAckWindowExpiry
  rw [happening_of_released _ released]
  simp only [onEntry, found, write, runs, if_true]

/-- Settles O51: by what a miss does, and by the window's report and end. -/
theorem ackWindowEnds : Obligations.AckWindowEnds := by
  unfold Obligations.AckWindowEnds
  refine ⟨fun s p => ⟨fun x serves live found => ⟨fun few => ?_, fun third => ?_⟩, reportMiss_of_dead⟩,
    fun s tag e due released found write runs => ?_⟩
  · exact (reportMiss_of_live serves live found).trans (if_pos few)
  · rw [reportMiss_of_live serves live found, if_neg (Nat.not_lt.2 third), noticedAbsent_eq]
    rfl
  · intro t held closed silent report
    have passed : holdPassed (reach s due) e = true ↔ held := holdPassed_iff (reach s due) e
    have ends : ¬held → exec (.ackWindowExpiry tag) s
        = .next (settle (closed (reportWindow (reach s due) e))) := fun open_ => by
      rw [exec_ackWindowExpiry released found write runs, endWindow_eq, if_neg (passed.not.2 open_)]
      rfl
    have one : ∀ p, silent = [p] → reportWindow (reach s due) e = report t p := fun p h => reportWindow_one h
    refine ⟨fun p h late => ?_, fun p q h late => ?_, fun h late => ?_, fun h early => ?_, fun p h absent late => ?_,
      fun p x h serves live peer few late => ?_⟩
    · rw [ends late, one p h]
    · rw [ends late]
      rcases reportWindow_two (s := reach s due) (e := e) h with order | order
      · exact .inl (by rw [order]; rfl)
      · exact .inr (by rw [order]; rfl)
    · rw [ends late, reportWindow_none (s := reach s due) h]
      rfl
    · rw [exec_ackWindowExpiry released found write runs, endWindow_eq, if_pos (passed.2 early),
        reportWindow_none (s := reach s due) h]
      rfl
    · rw [ends late, one p h]
      exact congrArg (fun u => Host.Outcome.next (settle (closed u))) (if_pos absent)
    · have notAbsent : isAbsent t p = false := by
        obtain ⟨y, found', here⟩ := isLive_entry (s := t) live
        simp [isAbsent, peerState, found', here]
      have counted := (reportMiss_of_live (s := t) serves live peer).trans (if_pos few)
      rw [ends late, one p h]
      refine congrArg (fun u => Host.Outcome.next (settle (closed u))) ?_
      refine (if_neg (by simp [notAbsent])).trans ?_
      rw [counted]
      rfl

end Sys2Proof.Machine
end

section
/-! The end of an entry's lifetime (R38, R57, R67, R68) and of its retire hold (R69). -/

namespace Sys2Proof.Machine

/-- What an entry's lifetime running out answers: nothing at a finished entry, its end at any other (R67). -/
theorem exec_requestLifetimeExpiry {s : State} {t : Tag} {e : Entry} (released : s.resetHeld = false)
    (found : findEntry s t = some e) :
    exec (.requestLifetimeExpiry t) s = .next (settle (
      if e.state.finished then s else endLifetime (reach s (e.created + 100000)) e)) := by
  refine Eq.trans (b := execRequestLifetimeExpiry t s) rfl ?_
  unfold execRequestLifetimeExpiry
  rw [happening_of_released _ released]
  simp only [found]
  rfl

theorem exec_retireHoldEnd {s : State} {t : Tag} {e : Entry} {f : Nat} (released : s.resetHeld = false)
    (found : findEntry s t = some e) (finished : e.finished = some f) :
    exec (.retireHoldEnd t) s = .next (settle (
      if e.ackWindow.isSome then reach s (f + 100000) else dropEntry (reach s (f + 100000)) t)) := by
  refine Eq.trans (b := execRetireHoldEnd t s) rfl ?_
  unfold execRetireHoldEnd
  rw [happening_of_released _ released]
  simp only [found, finished]
  rfl

/-! ### A client's request -/

/-- The followed version is known to be held (R38). -/
def holdsFollowed (s : State) (e : Entry) : Prop :=
  ∃ f w, e.followed = some f ∧ heldForWrite s e = .known w ∧ f ≤ w

/-- A write EXPIRED before it committed, its HELD slot freed (R38). -/
def expiredUncommitted (s : State) (t : Tag) : State :=
  freeHeld (expireEntry s t) fun o => decide (o = .clientWrite t)

theorem expireWrite_of_followed {s : State} {e : Entry} (open_ : e.uncommitted = true) (h : holdsFollowed s e) :
    expireWrite s e = expiredUncommitted s e.tag := by
  obtain ⟨f, w, followed, held, le⟩ := h
  unfold expireWrite
  rw [if_pos open_]
  simp only [followed, held]
  exact if_pos (decide_eq_true le)

theorem expireWrite_of_behind {s : State} {e : Entry} (open_ : e.uncommitted = true)
    (behind : ∀ f w, e.followed = some f → heldForWrite s e = .known w → w < f) :
    expireWrite s e = listBlock (expiredUncommitted s e.tag) e.blk := by
  unfold expireWrite
  rw [if_pos open_]
  cases followed : e.followed with
  | none => rfl
  | some f =>
    cases held : heldForWrite s e with
    | unknown => rfl
    | known w => exact if_neg (by simpa using behind f w followed held)

theorem expireWrite_of_committed {s : State} {e : Entry} (h : e.uncommitted = false) :
    expireWrite s e = expireEntry s e.tag := by
  unfold expireWrite
  exact if_neg (by simp [h])

theorem expiredUncommitted_eq (s : State) (t : Tag) :
    expiredUncommitted s t = { expireEntry s t with cache := { (expireEntry s t).cache with
      slots := (expireEntry s t).cache.slots.map fun x =>
        match x with
        | .held b d o v => if o = .clientWrite t then .free else .held b d o v
        | x => x } } := by
  unfold expiredUncommitted freeHeld
  have same : ∀ x : Slot, (match x with
      | .held _ _ o _ => if decide (o = HeldOwner.clientWrite t) then Slot.free else x
      | .free | .filling .. | .clean .. | .dirty .. | .writing .. | .retiring .. => x)
      = match x with
        | .held b d o v => if o = .clientWrite t then .free else .held b d o v
        | x => x := by
    intro x
    cases x <;> simp
  exact congrArg (fun l => { expireEntry s t with cache := { (expireEntry s t).cache with slots := l } })
    (List.map_congr_left fun x _ => same x)

/-! ### The station's own work -/

/-- An own fetch ended by its entry's lifetime, its pending commit dropped (R148). -/
def fetchCutOff (s : State) (f : Fetch) : State := endFetch (dropFetchCommit s f.id) f .expired

theorem expireOwnFetch_of_none {s : State} {e : Entry} (h : fetchOfTag s e.tag = none) :
    expireOwnFetch s e = expireEntry s e.tag := by
  unfold expireOwnFetch
  simp only [h]

theorem expireOwnReplay_of_none {s : State} {e : Entry} (h : pushOfTag s e.tag = none) :
    expireOwnReplay s e = expireEntry s e.tag := by
  unfold expireOwnReplay
  simp only [h]

theorem expireOwnReplay_of_push {s : State} {e : Entry} {p : Push} (h : pushOfTag s e.tag = some p) :
    expireOwnReplay s e = endPush s p none .expired := by
  unfold expireOwnReplay
  simp only [h]

theorem expireOwnFetch_of_repair {s : State} {e : Entry} {f : Fetch} (found : fetchOfTag s e.tag = some f)
    (repair : f.sweep = false) :
    expireOwnFetch s e =
      if ownsEntry s f then setRepairState (fetchCutOff s f) f.block .ready else fetchCutOff s f := by
  have own : ownsEntry (dropFetchCommit s f.id) f = ownsEntry s f := rfl
  unfold expireOwnFetch setAside
  simp only [found, repair, own]
  rfl

theorem expireOwnFetch_of_sweep {s : State} {e : Entry} {f : Fetch} (found : fetchOfTag s e.tag = some f)
    (sweep : f.sweep = true) : expireOwnFetch s e = addRetake (fetchCutOff s f) f.block none := by
  unfold expireOwnFetch setAside
  simp only [found, sweep]
  rfl

/-- Settles O53: by the end of the lifetime for each kind of entry, and by the end of the retire hold. -/
theorem entryTimesEnd : Obligations.EntryTimesEnd := by
  unfold Obligations.EntryTimesEnd
  refine ⟨fun s tag e released found => ?_, fun s tag e f released found finished => ?_⟩
  · have expiry := exec_requestLifetimeExpiry released found
    have same : e.tag = tag := (findEntry_some found).2
    intro t expired
    refine ⟨fun finished => by rw [expiry, if_pos finished], fun unfinished => ?_⟩
    have ends : exec (.requestLifetimeExpiry tag) s = .next (settle (endLifetime t e)) := by
      rw [expiry, if_neg (by simp [unfinished])]
      rfl
    rw [ends]
    subst same
    refine ⟨fun plain => ?_, fun write open_ => ?_, fun own p push => ?_, fun own f fetch repair => ?_,
      fun own f fetch sweep => ?_⟩
    · refine congrArg (fun u => Host.Outcome.next (settle u)) ?_
      rcases plain with kind | kind | kind | ⟨kind, notLookup, notWaiting⟩ | ⟨kind, gone⟩ | ⟨kind, gone⟩ <;>
        simp only [endLifetime, kind]
      case inl | inr.inl | inr.inr.inl => rfl
      case inr.inr.inr.inl => exact expireWrite_of_committed (by simp [Entry.uncommitted, notLookup, notWaiting])
      case inr.inr.inr.inr.inl => exact expireOwnFetch_of_none gone
      case inr.inr.inr.inr.inr => exact expireOwnReplay_of_none gone
    · have uncommitted : e.uncommitted = true := by
        rcases open_ with state | state <;> simp [Entry.uncommitted, write, state]
      intro freed
      have same : expiredUncommitted t e.tag = freed := expiredUncommitted_eq t e.tag
      have kind : endLifetime t e = expireWrite t e := by simp only [endLifetime, write]
      rw [kind]
      refine ⟨fun holds => ?_, fun behind => ?_⟩
      · rw [expireWrite_of_followed (s := t) uncommitted holds, same]
      · rw [expireWrite_of_behind (s := t) uncommitted behind, same]
    · simp only [endLifetime, own]
      rw [expireOwnReplay_of_push (s := t) push]
    · simp only [endLifetime, own]
      rw [expireOwnFetch_of_repair (s := t) fetch repair]
      rfl
    · simp only [endLifetime, own]
      rw [expireOwnFetch_of_sweep (s := t) fetch sweep]
      rfl
  · have expiry := exec_retireHoldEnd released found finished
    refine ⟨fun window => ?_, fun window => ?_⟩
    · rw [expiry, if_neg (by simp [window])]
      rfl
    · rw [expiry, if_pos (by simpa [Option.isSome_iff_ne_none] using window)]
      rfl

end Sys2Proof.Machine
end

section
/-! ACKs and NACKs heard: for a client write (R36, R61), and for the station's own REPLAY (R6, R131, R132). -/

namespace Sys2Proof.Machine

theorem exec_ackHeard {s : State} {src : Source} {t : Tag} {b : Block} {v : Version}
    (h : takesFrame s (ackFrame src t b v) = true) :
    exec (.ackHeard src t b v) s = .next (settle (deliverAck (clearMisses (afterEcho s) src) src t b v)) :=
  hear_of_takes (fun u => deliverAck (clearMisses u src) src t b v) h

theorem exec_nackHeard {s : State} {src : Source} {t : Tag} {b : Block} {v : Version} {r : BitVec 8}
    (h : takesFrame s (nackFrame src t b v r) = true) :
    exec (.nackHeard src t b v r) s = .next (settle (deliverNack (signOfLife (afterEcho s) src) src t b v)) :=
  hear_of_takes (fun u => deliverNack (signOfLife u src) src t b v) h

/-! ### An answer that counts for nothing, and one for a client write -/

section
variable {s : State} {src : Source} {t : Tag} {b : Block} {v : Version}

theorem deliverAck_of_unknown (h : findEntry s t = none) : deliverAck s src t b v = s := by
  unfold deliverAck
  simp only [h]

theorem deliverNack_of_unknown (h : findEntry s t = none) : deliverNack s src t b v = s := by
  unfold deliverNack
  simp only [h]

theorem deliverAck_of_write {e : Entry} (found : findEntry s t = some e) (write : e.kind = .clientWrite)
    (range : inRange s b = true) : deliverAck s src t b v = recordAnswer s t src.sender .ack v := by
  unfold deliverAck
  simp only [found, write]
  exact if_pos range

theorem deliverNack_of_write {e : Entry} (found : findEntry s t = some e) (write : e.kind = .clientWrite)
    (range : inRange s b = true) : deliverNack s src t b v = recordAnswer s t src.sender .nack v := by
  unfold deliverNack
  simp only [found, write]
  exact if_pos range

/-! ### An answer to the station's own REPLAY -/

/-- An answer counts for a push where it comes from the push's target, for its block, with the station's mark (R131). -/
theorem countsForPush_iff {e : Entry} (own : e.kind = .ownReplay) :
    countsForPush s e src b = true ↔ e.target = some src.sender ∧ e.block = some b ∧ src.mark = s.member.mark := by
  simp [countsForPush, countsFor, markMatches_iff, own]

theorem deliverAck_of_push {e : Entry} (found : findEntry s t = some e) (own : e.kind = .ownReplay) :
    deliverAck s src t b v =
      if countsForPush s e src b then replayAcked (recordAnswer s t src.sender .ack v) t src.sender b v else s := by
  unfold deliverAck
  simp only [found, own]

theorem deliverNack_of_push {e : Entry} (found : findEntry s t = some e) (own : e.kind = .ownReplay) :
    deliverNack s src t b v =
      if countsForPush s e src b then replayNacked (recordAnswer s t src.sender .nack v) t else s := by
  unfold deliverNack
  simp only [found, own]

theorem replayNacked_of_none (h : pushOfTag s t = none) : replayNacked s t = s := by
  unfold replayNacked
  simp only [h]

theorem replayNacked_of_push {q : Push} (h : pushOfTag s t = some q) :
    replayNacked s t = endPush s q (some (s.clock + 5000)) .done := by
  unfold replayNacked
  simp only [h]
  rfl

end

/-- The push's answer wait is over: an ACK is taken and compared (R131). -/
def comparing (s : State) (q : Push) : State := updatePush s q.id fun x => { x with phase := .comparing }

theorem pushOfTag_comparing {s : State} {t : Tag} {q : Push} (h : pushOfTag s t = some q) :
    pushOfTag (comparing s q) t = some { q with phase := .comparing } := by
  have same : (fun p : Push => decide (p.tag = some t)) ∘
      (fun p => if p.id = q.id then { p with phase := .comparing } else p) = fun p => decide (p.tag = some t) := by
    funext p
    by_cases hp : p.id = q.id <;> simp [hp]
  unfold pushOfTag comparing updatePush at *
  rw [List.find?_map, same, h]
  simp

/-- A push ends in whatever phase it is. -/
theorem endPush_comparing (s : State) (q : Push) (retry : Option Nat) (st : EntryState) :
    endPush (comparing s q) { q with phase := .comparing } retry st = endPush s q retry st := by
  have same : (comparing s q).replay.pushes.filter (fun p => decide (p.id ≠ q.id))
      = s.replay.pushes.filter fun p => decide (p.id ≠ q.id) := by
    have ids : (fun p : Push => decide (p.id ≠ q.id)) ∘
        (fun p => if p.id = q.id then { p with phase := .comparing } else p) = fun p => decide (p.id ≠ q.id) := by
      funext p
      by_cases hp : p.id = q.id <;> simp [hp]
    unfold comparing updatePush
    simp only [List.filter_map, ids]
    refine (List.map_congr_left fun p hp => ?_).trans (List.map_id _)
    have other : p.id ≠ q.id := by simpa using (List.mem_filter.1 hp).2
    exact if_neg other
  unfold endPush
  dsimp only
  rw [same]
  rfl

theorem compareLookup_of_held {s : State} {b : Block} {w : Version} (u : LookupUser) (h : heldVersion s b = some w) :
    compareLookup s b u = (s, some (.known w)) := by
  unfold compareLookup
  simp only [h]

theorem currentCopy_of_unheld {s : State} {b : Block} (h : heldVersion s b = none) : currentCopy s b = none :=
  Option.map_eq_none_iff.1 h

/-- A comparison with no current slot waits on a media read (R6, R131). -/
theorem beginCompare_of_unheld {s : State} {t : Tag} {p : StationNo} {b : Block} {v : Version}
    (unheld : heldVersion s b = none) (up : s.port.down = false) :
    beginCompare s t p b v =
      if isFilling s b then addWaiter s b .record (.replayAck t p v)
      else if headerInFlight s b then addWaiter s b .header (.replayAck t p v)
      else issue (addWaiter s b .header (.replayAck t p v)) (.readHeader b) := by
  unfold beginCompare compareLookup versionLookup
  simp only [unheld, currentCopy_of_unheld unheld, up]
  by_cases filling : isFilling s b = true
  · simp [filling]
  · by_cases header : headerInFlight s b = true <;> simp [filling, header]

theorem beginCompare_of_held {s : State} {t : Tag} {p : StationNo} {b : Block} {v w : Version}
    (held : heldVersion s b = some w) : beginCompare s t p b v = replayCompare s t p b v (.known w) := by
  unfold beginCompare
  simp only [compareLookup_of_held _ held]

theorem replayCompare_of_push {s : State} {t : Tag} {p : StationNo} {b : Block} {v w : Version} {q : Push}
    (push : pushOfTag s t = some q) :
    replayCompare s t p b v (.known w) =
      if w ≤ v then freeMissed (endPush s q none .done) p b else endPush s q none .done := by
  unfold replayCompare
  simp only [push, decide_eq_true_eq]

theorem replayCompare_of_late {s : State} {t : Tag} {p : StationNo} {b : Block} {v w : Version}
    (ended : pushOfTag s t = none) :
    replayCompare s t p b v (.known w) =
      if w ≤ v ∧ ∀ q ∈ s.replay.pushes, q.peer ≠ p ∨ q.block ≠ b then freeMissed s p b else s := by
  have idle : beingPushed s p b = false ↔ ∀ q ∈ s.replay.pushes, q.peer ≠ p ∨ q.block ≠ b := by
    simp [beingPushed, imp_iff_not_or]
  unfold replayCompare
  simp only [ended, Bool.and_eq_true, decide_eq_true_eq, Bool.not_eq_true', idle]

theorem replayAcked_of_push {s : State} {t : Tag} {p : StationNo} {b : Block} {v : Version} {q : Push}
    (push : pushOfTag s t = some q) : replayAcked s t p b v = beginCompare (comparing s q) t p b v := by
  unfold replayAcked
  simp only [push]
  rfl

/-- The ACK of a push in progress ends it, and frees the missed write where it is not below what is held (R131). -/
theorem replayAcked_of_held {s : State} {t : Tag} {p : StationNo} {b : Block} {v w : Version} {q : Push}
    (push : pushOfTag s t = some q) (held : heldVersion s b = some w) :
    replayAcked s t p b v =
      if w ≤ v then freeMissed (endPush s q none .done) p b else endPush s q none .done := by
  have held' : heldVersion (comparing s q) b = some w := held
  rw [replayAcked_of_push push, beginCompare_of_held held', replayCompare_of_push (pushOfTag_comparing push),
    endPush_comparing]

/-- A late ACK is compared in service (R131, R138). -/
theorem replayAcked_of_late {s : State} {t : Tag} {p : StationNo} {b : Block} {v w : Version}
    (ended : pushOfTag s t = none) (held : heldVersion s b = some w) (serves : inService s = true) :
    replayAcked s t p b v =
      if w ≤ v ∧ ∀ q ∈ s.replay.pushes, q.peer ≠ p ∨ q.block ≠ b then freeMissed s p b else s := by
  rw [← replayCompare_of_late ended, ← beginCompare_of_held held]
  unfold replayAcked
  simp only [ended]
  exact if_pos serves

/-! ### The statement -/

/-- What a frame does to the Peer Table, its misses and its notices (R112, R117). -/
theorem signsOfLife_of_taken (s : State) (src : Source) :
    (peerTakes s src = true → isLive s src.sender = true →
      clearMisses s src = updatePeer s src.sender fun e => { e with misses := 0 })
    ∧ ∀ e, peerTakes s src = true → peerEntry s src.sender = some e →
      (e.state ≠ .absent → signOfLife s src = s)
      ∧ (e.state = .absent → (∃ n, e.lastNotice = some n ∧ s.clock < n + 3000) →
        signOfLife s src = s ∧ clearMisses s src = updatePeer s src.sender fun e => { e with misses := 0 })
      ∧ (e.state = .absent → (∀ n, e.lastNotice = some n → n + 3000 ≤ s.clock) →
        signOfLife s src = notice s src.sender
        ∧ clearMisses s src = notice (updatePeer s src.sender fun e => { e with misses := 0 }) src.sender) := by
  have cleared {e : PeerEntry} (found : peerEntry s src.sender = some e) :
      peerEntry (updatePeer s src.sender fun e => { e with misses := 0 }) src.sender = some { e with misses := 0 } := by
    rw [peerEntry_updatePeer (f := fun e => { e with misses := 0 }) fun _ => rfl, found]
    rfl
  refine ⟨fun takes live => ?_, fun e takes found => ⟨fun here => ?_, fun _ recent => ?_, fun absent due => ?_⟩⟩
  · obtain ⟨e, found, here⟩ := isLive_entry live
    rw [clearMisses_of_taken takes, renotice_of_here (cleared found) here]
  · rw [signOfLife_of_taken takes, renotice_of_here found here]
  · obtain ⟨n, last, recent⟩ := recent
    rw [signOfLife_of_taken takes, clearMisses_of_taken takes, renotice_of_recent found last recent,
      renotice_of_recent (cleared found) last recent]
    exact ⟨rfl, rfl⟩
  · rw [signOfLife_of_taken takes, clearMisses_of_taken takes, renotice_of_due found absent due,
      renotice_of_due (cleared found) absent due]
    exact ⟨rfl, rfl⟩

/-- Settles O40: by what the frame does at the Peer Table, and then at the entry of its tag. -/
theorem acksAndNacksRecorded : Obligations.AcksAndNacksRecorded := by
  unfold Obligations.AcksAndNacksRecorded
  refine ⟨fun s src => ⟨fun serves mark member other live => ?_, fun passed => ?_,
      fun e serves mark member other found => ?_⟩,
    fun s src tag b v reason e => ⟨fun takes => ?_, fun takes => ?_⟩,
    fun s src tag b v reason => ⟨fun takes => ?_, fun takes => ?_⟩⟩
  · exact (signsOfLife_of_taken s src).1 ((peerTakes_iff s src).2 ⟨serves, mark, member, other⟩) live
  · have passes : peerTakes s src = false := by
      rw [Bool.eq_false_iff, ne_eq, peerTakes_iff]
      rintro ⟨serves, mark, member, other⟩
      rcases passed with out | wrong | stranger | own
      · exact Bool.noConfusion (serves.symm.trans out)
      · exact wrong mark
      · exact Bool.noConfusion (member.symm.trans stranger)
      · exact other own
    exact ⟨clearMisses_of_passed passes, signOfLife_of_passed passes⟩
  · exact (signsOfLife_of_taken s src).2 e ((peerTakes_iff s src).2 ⟨serves, mark, member, other⟩) found
  · have aside := clearMisses_atPeers (afterEcho s) src
    have mark : (clearMisses (afterEcho s) src).member.mark = s.member.mark := congrArg Membership.mark aside.member
    rw [exec_ackHeard takes]
    intro h found own rec'
    have delivered := deliverAck_of_push (src := src) (b := b) (v := v) found own
    have counts := countsForPush_iff (s := h) (src := src) (b := b) own
    refine ⟨fun idle => ?_, fun target block same => ?_⟩
    · rw [delivered, if_neg (counts.not.2 (by rw [mark]; tauto))]
    · rw [delivered, if_pos (counts.2 ⟨target, block, same.trans mark.symm⟩)]
      refine ⟨fun q w push held => ?_, fun w late held serves => ?_, fun q push unheld up => ?_⟩
      · rw [replayAcked_of_held (s := recordAnswer h tag src.sender .ack v) push held]
        rfl
      · rw [replayAcked_of_late (s := recordAnswer h tag src.sender .ack v) late held (aside.inService.trans serves)]
        rfl
      · have up' : h.port.down = false := (congrArg Port.down aside.port).trans up
        rw [replayAcked_of_push (s := recordAnswer h tag src.sender .ack v) push,
          beginCompare_of_unheld (s := comparing (recordAnswer h tag src.sender .ack v) q) unheld up']
        rfl
  · have aside := signOfLife_atPeers (afterEcho s) src
    have mark : (signOfLife (afterEcho s) src).member.mark = s.member.mark := congrArg Membership.mark aside.member
    rw [exec_nackHeard takes]
    intro h found own rec'
    have delivered := deliverNack_of_push (src := src) (b := b) (v := v) found own
    have counts := countsForPush_iff (s := h) (src := src) (b := b) own
    refine ⟨fun idle => ?_, fun target block same => ?_⟩
    · rw [delivered, if_neg (counts.not.2 (by rw [mark]; tauto))]
    · rw [delivered, if_pos (counts.2 ⟨target, block, same.trans mark.symm⟩)]
      refine ⟨fun late => ?_, fun q push => ?_⟩
      · rw [replayNacked_of_none (s := recordAnswer h tag src.sender .nack v) late]
        rfl
      · have clock : h.clock = s.clock := aside.clock
        rw [replayNacked_of_push (s := recordAnswer h tag src.sender .nack v) push, ← clock]
        rfl
  · rw [exec_ackHeard takes]
    exact ⟨fun unknown => by rw [deliverAck_of_unknown unknown],
      fun e found write range => by rw [deliverAck_of_write found write range]; rfl⟩
  · rw [exec_nackHeard takes]
    exact ⟨fun unknown => by rw [deliverNack_of_unknown unknown],
      fun e found write range => by rw [deliverNack_of_write found write range]; rfl⟩

end Sys2Proof.Machine
end

section
/-! An ORDER heard (R26, R27, R31, R33): what it cancels, and what it leads to at the entry of its tag. -/

namespace Sys2Proof.Machine

theorem exec_orderHeard {s : State} {src : Source} {t : Tag} {b : Block} {v : Version}
    (h : takesFrame s (orderFrame src t b v) = true) :
    exec (.orderHeard src t b v) s = .next (settle (takeOrder (signOfLife (afterEcho s) src) src t b v)) :=
  hear_of_takes (fun u => takeOrder (signOfLife u src) src t b v) h

/-! ### What the ORDER cancels (R26, R31) -/

/-- The lead wait over, a queued lead ORDER and a queued superseding ORDER not above the one heard withdrawn. -/
def cancelledBy (s : State) (t : Tag) (v : Version) : State :=
  withdraw (withdraw (updateEntry s t fun x => { x with wait := none }) (forTag .leadOrder t) .plain)
    (fun f => forTag .supersedeOrder t f && decide (f.frame.version ≤ v)) .plain

theorem orderCancels_of_unknown {s : State} {t : Tag} {v : Version} (h : findEntry s t = none) :
    orderCancels s t v = s := by
  unfold orderCancels
  simp only [h]

theorem orderCancels_of_write {s : State} {t : Tag} {v : Version} {e : Entry} (found : findEntry s t = some e)
    (write : e.kind = .clientWrite) : orderCancels s t v = cancelledBy s t v := by
  unfold orderCancels
  simp only [found]
  exact if_pos write

theorem cancelledBy_member (s : State) (t : Tag) (v : Version) : (cancelledBy s t v).member = s.member := by
  unfold cancelledBy
  rw [withdraw_plain_member, withdraw_plain_member]
  rfl

/-- Of the table only the entry's wait is cancelled: an ORDER withdrawn leaves no trace at an entry. -/
theorem findEntry_cancelledBy {s : State} {t : Tag} {v : Version} {e : Entry} (found : findEntry s t = some e) :
    findEntry (cancelledBy s t v) t = some { e with wait := none } := by
  have order {p : Purpose} {sel : TxFrame → Bool} (hp : p ≠ .readAnswer ∧ p ≠ .fetchAnswer)
      (hs : ∀ f, sel f = true → f.purpose = p) :
      ∀ f, sel f = true → f.purpose ≠ .readAnswer ∧ f.purpose ≠ .fetchAnswer := fun f hf => by
    rw [hs f hf]
    exact hp
  have table : (cancelledBy s t v).table = (updateEntry s t fun x => { x with wait := none }).table := by
    unfold cancelledBy
    rw [withdraw_plain_table (order (p := .supersedeOrder) (by decide) fun f hf => ?_),
      withdraw_plain_table (order (p := .leadOrder) (by decide) fun f hf => ?_)]
    · simp only [forTag, Bool.and_eq_true, decide_eq_true_eq] at hf
      exact hf.1
    · simp only [forTag, Bool.and_eq_true, decide_eq_true_eq] at hf
      exact hf.1.1
  have waiting := findEntry_updateEntry (f := fun x => { x with wait := none }) (fun _ => rfl) found
  unfold findEntry at waiting ⊢
  rw [table]
  exact waiting

/-! ### Whether the station acts on the ORDER (R13, R27) -/

/-- The station acts on an ORDER of its own mark, for a group it holds, in service. -/
def actsOn (s : State) (src : Source) (b : Block) : Prop :=
  src.mark = s.member.mark ∧ isReplica s b = true ∧ inService s = true

theorem takeOrder_of_outside {s : State} {src : Source} {t : Tag} {b : Block} {v : Version}
    (h : inRange s b = false) : takeOrder s src t b v = s := by
  unfold takeOrder
  exact if_neg (by simp [h])

theorem takeOrder_of_acts {s : State} {src : Source} {t : Tag} {b : Block} {v : Version} (range : inRange s b = true)
    (acts : actsOn (orderCancels s t v) src b) :
    takeOrder s src t b v = orderReaches (orderCancels s t v) t b v := by
  obtain ⟨mark, replica, serves⟩ := acts
  unfold takeOrder
  rw [if_pos range]
  exact if_pos (by simp [markMatches, mark, replica, serves])

theorem takeOrder_of_passes {s : State} {src : Source} {t : Tag} {b : Block} {v : Version} (range : inRange s b = true)
    (passes : ¬actsOn (orderCancels s t v) src b) : takeOrder s src t b v = orderCancels s t v := by
  unfold takeOrder
  rw [if_pos range]
  refine if_neg fun acts => passes ?_
  simp only [markMatches, Bool.and_eq_true, decide_eq_true_eq, and_assoc] at acts
  exact acts

/-! ### What the ORDER leads to (R27, R33) -/

theorem nackVersion_none (s : State) (b : Block) : nackVersion s b none = (heldVersion s b).getD 0 := by
  unfold nackVersion
  cases heldVersion s b <;> rfl

/-- The NACK of an EXPIRED entry: offered, recorded, and the block listed (R33; logs 42 and 61). -/
def expiredNacked (s : State) (e : Entry) : State :=
  listBlock (recordSent (offer s
    (nackFrame (self s) e.tag e.blk ((heldVersion s e.blk).getD 0) 6) .acknowledgement)
    e.tag .nack ((heldVersion s e.blk).getD 0)) e.blk

theorem nackExpired_eq (s : State) (e : Entry) : nackExpired s e = if e.sentNack then s else expiredNacked s e := by
  unfold nackExpired expiredNacked
  rw [nackVersion_none]
  rfl

/-- The ORDER followed: version and place recorded, the ack window afresh, absent co-replicas listed (R27, R36, R37). -/
def followedBy (s : State) (e : Entry) (v : Version) : State :=
  recordAbsent
    (updateEntry { s with followCount := s.followCount + 1 } e.tag fun x =>
      { x with
        followed := some v, followSeq := s.followCount, ackWindow := some (s.clock + 3000), wait := none })
    e.blk

theorem follow_eq (s : State) (e : Entry) (v : Version) :
    follow s e v = if e.state = .lookup then followedBy s e v else decideFollow (followedBy s e v) e.tag := rfl

section
variable {s : State} {t : Tag} {e : Entry} (b : Block) (v : Version)

theorem orderReaches_of_unknown (h : findEntry s t = none) : orderReaches s t b v = nackNew s t b .noData := by
  unfold orderReaches
  simp only [h]

theorem orderReaches_of_refused (found : findEntry s t = some e) (write : e.kind = .clientWrite)
    (refused : e.state = .refused) : orderReaches s t b v = s := by
  unfold orderReaches
  simp only [found, write, refused, if_true]

theorem orderReaches_of_expired (found : findEntry s t = some e) (write : e.kind = .clientWrite)
    (expired : e.state = .expired) : orderReaches s t b v = nackExpired s e := by
  unfold orderReaches
  simp only [found, write, expired, if_true]

/-- An ORDER is followed where it is the first or above the one followed, and otherwise ignored (R27). -/
theorem orderReaches_of_open (found : findEntry s t = some e) (write : e.kind = .clientWrite)
    (open_ : e.state = .lookup ∨ e.state = .waitOrder ∨ e.state = .committing ∨ e.state = .acked) :
    (∀ f, e.followed = some f → v ≤ f → orderReaches s t b v = s)
    ∧ ((e.followed = none ∨ ∃ f, e.followed = some f ∧ f < v) → orderReaches s t b v = follow s e v) := by
  unfold orderReaches
  simp only [found, write, if_true]
  rcases open_ with state | state | state | state <;> simp only [state] <;>
  · refine ⟨fun f followed above => ?_, fun first => ?_⟩
    · simp [followed, BitVec.not_lt.2 above]
    · rcases first with first | ⟨f, followed, below⟩
      · simp [first]
      · simp [followed, below]

end

/-- Settles O38: what the ORDER cancels first, then whether the station acts on it, then by the state of its entry. -/
theorem orderHeard : Obligations.OrderHeard := by
  unfold Obligations.OrderHeard
  intro s src tag b v takes h acts
  rw [exec_orderHeard takes]
  have aside : AtPeers (afterEcho s) h := signOfLife_atPeers (afterEcho s) src
  have member : h.member = s.member := aside.member
  have sameRange : inRange h b = inRange s b := aside.inRange b
  have acts_iff : ∀ u : State, u.member = s.member → (actsOn u src b ↔ acts u) := fun u same => by
    unfold actsOn
    rw [same]
  refine ⟨fun outside => ?_, fun range unknown => ?_, fun range e found write => ?_⟩
  · rw [takeOrder_of_outside (sameRange.trans outside)]
  · have nothing : orderCancels h tag v = h := orderCancels_of_unknown unknown
    refine ⟨fun passes => ?_, fun does => ?_⟩
    · rw [takeOrder_of_passes (sameRange.trans range) (by rw [nothing, acts_iff h member]; exact passes), nothing]
    · rw [takeOrder_of_acts (sameRange.trans range) (by rw [nothing, acts_iff h member]; exact does), nothing,
        orderReaches_of_unknown b v unknown]
  · have cancels : orderCancels h tag v = cancelledBy h tag v := orderCancels_of_write found write
    have waits : findEntry (cancelledBy h tag v) tag = some { e with wait := none } := findEntry_cancelledBy found
    have sameMember : (cancelledBy h tag v).member = s.member := (cancelledBy_member h tag v).trans member
    have same : e.tag = tag := (findEntry_some found).2
    have sameSelf : self (cancelledBy h tag v) = self s := by
      unfold self ownNumber
      rw [sameMember]
    intro cancelled
    have cancelled_eq : cancelledBy h tag v = cancelled := rfl
    refine ⟨fun passes => ?_, fun does => ?_⟩
    · rw [takeOrder_of_passes (sameRange.trans range) (by rw [cancels, acts_iff _ sameMember]; exact passes), cancels,
        cancelled_eq]
    · rw [takeOrder_of_acts (sameRange.trans range) (by rw [cancels, acts_iff _ sameMember]; exact does), cancels]
      rw [cancelled_eq] at waits sameSelf ⊢
      clear_value cancelled
      refine ⟨fun refused => ?_, fun expired => ?_, fun open_ => ?_⟩
      · rw [orderReaches_of_refused b v waits write refused]
      · rw [orderReaches_of_expired b v waits write expired, nackExpired_eq, expiredNacked, ← sameSelf, ← same]
        rfl
      · obtain ⟨ignored, followed⟩ := orderReaches_of_open b v waits write open_
        refine ⟨fun ⟨f, hf, above⟩ => by rw [ignored f hf above], fun first => ?_⟩
        rw [followed first, follow_eq, ← same]
        rfl

end Sys2Proof.Machine
end

section
/-! A WRITE taken up (R19, R20, R65): the entry the table gives it (R63, R64), its four checks, and its repetition. -/

namespace Sys2Proof.Machine

/-! ### The finished entry reused early (R63) -/

/-- `a` is reused no later than `b`. -/
def NoLater (a b : Entry) : Prop :=
  a.finished.getD 0 < b.finished.getD 0 ∨ (a.finished.getD 0 = b.finished.getD 0 ∧ a.created ≤ b.created)

theorem NoLater.refl (a : Entry) : NoLater a a := .inr ⟨rfl, le_refl _⟩

theorem NoLater.trans {a b c : Entry} (h : NoLater a b) (k : NoLater b c) : NoLater a c := by
  unfold NoLater at *
  omega

theorem noLater_of_reusedBefore {a b : Entry} (h : reusedBefore a b = true) : NoLater a b := by
  simp only [reusedBefore, Bool.or_eq_true, Bool.and_eq_true, decide_eq_true_eq] at h
  unfold NoLater
  omega

theorem noLater_of_not_reusedBefore {a b : Entry} (h : ¬reusedBefore a b = true) : NoLater b a := by
  simp only [reusedBefore, Bool.or_eq_true, Bool.and_eq_true, decide_eq_true_eq] at h
  unfold NoLater
  omega

/-- The best entry so far, with one more looked at. -/
def lookedAt (best : Option Entry) (e : Entry) : Option Entry :=
  match best with
  | none => some e
  | some b => if reusedBefore e b then some e else some b

theorem oldestFinished_eq (s : State) :
    oldestFinished s = (s.table.filter fun e => e.state.finished).foldl lookedAt none := rfl

/-- The search from an entry on ends at that entry or at one of those looked at, none of which is reused before it. -/
theorem foldl_lookedAt (l : List Entry) (b : Entry) :
    ∃ o, l.foldl lookedAt (some b) = some o ∧ (o = b ∨ o ∈ l) ∧ NoLater o b ∧ ∀ x ∈ l, NoLater o x := by
  induction l generalizing b with
  | nil => exact ⟨b, rfl, .inl rfl, .refl b, fun _ h => nomatch h⟩
  | cons e l ih =>
    have better : ∃ c, lookedAt (some b) e = some c ∧ (c = b ∨ c = e) ∧ NoLater c b ∧ NoLater c e := by
      unfold lookedAt
      dsimp only
      split
      next h => exact ⟨e, rfl, .inr rfl, noLater_of_reusedBefore h, .refl e⟩
      next h => exact ⟨b, rfl, .inl rfl, .refl b, noLater_of_not_reusedBefore h⟩
    obtain ⟨c, step, which, overB, overE⟩ := better
    obtain ⟨o, found, origin, overC, overL⟩ := ih c
    refine ⟨o, (congrArg (l.foldl lookedAt) step).trans found, ?_, overC.trans overB, fun x hx => ?_⟩
    · rcases origin with rfl | mem
      · exact which.imp_right fun h => List.mem_cons.2 (.inl h)
      · exact .inr (List.mem_cons_of_mem _ mem)
    · rcases List.mem_cons.1 hx with rfl | hx
      · exact overC.trans overE
      · exact overL x hx

theorem oldestFinished_none {s : State} (h : ∀ e ∈ s.table, e.state.finished = false) : oldestFinished s = none := by
  have noneFinished : (s.table.filter fun e => e.state.finished) = [] :=
    List.filter_eq_nil_iff.2 fun e he => by simp [h e he]
  rw [oldestFinished_eq, noneFinished]
  rfl

/-- The entry found is finished, and no finished one is reused before it. -/
theorem oldestFinished_spec {s : State} {o : Entry} (h : oldestFinished s = some o) :
    o ∈ s.table ∧ o.state.finished = true ∧ ∀ x ∈ s.table, x.state.finished = true → NoLater o x := by
  rw [oldestFinished_eq] at h
  have mem {x : Entry} : x ∈ (s.table.filter fun e => e.state.finished) ↔ x ∈ s.table ∧ x.state.finished = true :=
    List.mem_filter
  generalize (s.table.filter fun e => e.state.finished) = l at h mem
  cases l with
  | nil => cases h
  | cons e l =>
    obtain ⟨o', found, origin, overE, overL⟩ := foldl_lookedAt l e
    have same : o' = o := Option.some.inj (found.symm.trans h)
    subst same
    obtain ⟨table, finished⟩ := mem.1 (List.mem_cons.2 origin)
    refine ⟨table, finished, fun x hx hf => ?_⟩
    rcases List.mem_cons.1 (mem.2 ⟨hx, hf⟩) with rfl | hx
    · exact overE
    · exact overL x hx

/-! ### The entry the table gives (R63, R64) -/

theorem giveEntry_of_room {s : State} (h : s.table.length < 24) : giveEntry s = some s := if_pos h

theorem giveEntry_of_full {s : State} (full : 24 ≤ s.table.length) :
    giveEntry s = (oldestFinished s).map fun o =>
      dropEntry (if o.ackWindow = none then s else reportWindow s o) o.tag := by
  unfold giveEntry
  rw [if_neg (show ¬s.table.length < Config.tableSize from Nat.not_lt.2 full)]
  cases oldestFinished s with
  | none => rfl
  | some o => cases h : o.ackWindow <;> simp [h]

/-! ### A refusal without an entry (R21, R33) -/

/-- The block is listed, but for OUT_OF_RANGE and RESETTING (R21). -/
theorem listRefused_eq (s : State) (b : Block) (r : Reason) :
    listRefused s b r = if r = .outOfRange ∨ r = .resetting then s else listBlock s b := by
  unfold listRefused
  cases r <;> rfl

/-- The NACK of a WRITE without an entry, the version known named in it. -/
def nackOffered (s : State) (t : Tag) (b : Block) (r : Reason) : State :=
  offer s (nackFrame (self s) t b ((heldVersion s b).getD 0) (reasonCode r)) .acknowledgement

theorem nackOffered_eq (s : State) (t : Tag) (b : Block) (r : Reason) :
    offerNack s t b (nackVersion s b none) r = nackOffered s t b r := by
  rw [nackVersion_none]
  rfl

theorem nackNew_of_none {s : State} {t : Tag} {b : Block} {r : Reason}
    (full : giveEntry (nackOffered s t b r) = none) : nackNew s t b r = listRefused (nackOffered s t b r) b r := by
  unfold nackNew
  dsimp only
  rw [nackOffered_eq, full]

theorem nackNew_of_given {s g : State} {t : Tag} {b : Block} {r : Reason}
    (given : giveEntry (nackOffered s t b r) = some g) :
    nackNew s t b r = listRefused (addEntry g { newEntry g t .clientWrite (some b) .refused with
      reason := some r, finished := some g.clock,
      sent := some { kind := .nack, version := (heldVersion s b).getD 0 } }) b r := by
  unfold nackNew
  dsimp only
  rw [nackOffered_eq, given, nackVersion_none]
  rfl

/-! ### A new WRITE (R19, R20, R22, R23) -/

theorem exec_writeHeard {s : State} {src : Source} {t : Tag} {b : Block} {d : Data}
    (h : takesFrame s (writeFrame src t b d) = true) :
    exec (.writeHeard src t b d) s = .next (settle (takeWrite (afterEcho s) src t b d)) :=
  hear_of_takes (fun u => takeWrite u src t b d) h

section
variable {s : State} {src : Source} {t : Tag} {b : Block} {d : Data}

theorem takeWrite_of_stranger (h : isReplica s b = false) : takeWrite s src t b d = s := by
  unfold takeWrite
  exact if_neg (by simp [h])

theorem takeWrite_of_resetting (replica : isReplica s b = true) (resetting : s.member.state = .resetting)
    (new : findEntry s t = none) : takeWrite s src t b d = nackNew s t b .resetting := by
  have out : inService s = false := by simp [inService, resetting]
  unfold takeWrite
  simp [replica, resetting, new, out]

theorem takeWrite_of_new (replica : isReplica s b = true) (serves : inService s = true)
    (new : findEntry s t = none) : takeWrite s src t b d = admitWrite s src t b d := by
  unfold takeWrite
  simp [replica, serves, new]

theorem takeWrite_of_known {e : Entry} (replica : isReplica s b = true)
    (open_ : inService s = true ∨ s.member.state = .resetting) (found : findEntry s t = some e) :
    takeWrite s src t b d = repeatedWrite s e := by
  unfold takeWrite
  rw [if_pos (by simpa [replica] using open_)]
  simp only [found]

theorem admitWrite_of_stranger (h : src.mark ≠ s.member.mark) :
    admitWrite s src t b d = nackNew s t b .rosterMismatch := by
  unfold admitWrite
  exact if_pos (by simp [markMatches, h])

theorem admitWrite_of_outside (mark : src.mark = s.member.mark) (outside : volume s ≤ b.toNat) :
    admitWrite s src t b d = nackNew s t b .outOfRange := by
  unfold admitWrite
  simp [markMatches, inRange, mark, outside]

theorem admitWrite_of_full (mark : src.mark = s.member.mark) (inside : b.toNat < volume s)
    (full : giveEntry s = none) : admitWrite s src t b d = listBlock (nackOffered s t b .tableFull) b := by
  unfold admitWrite
  simp only [markMatches, inRange, mark, inside, full, nackOffered_eq, listRefused_eq]
  rfl

theorem admitWrite_of_given {g : State} (mark : src.mark = s.member.mark) (inside : b.toNat < volume s)
    (given : giveEntry s = some g) :
    admitWrite s src t b d = admitHeld (addEntry g (newEntry g t .clientWrite (some b) .lookup))
      (newEntry g t .clientWrite (some b) .lookup) b d := by
  unfold admitWrite
  simp only [markMatches, inRange, mark, inside, given]
  rfl

end

/-- The entry just added is the only one changed under its tag, which no other has. -/
theorem updateEntry_addEntry {s : State} {e : Entry} (f : Entry → Entry) (fresh : e.tag ∉ tagsOf s) :
    updateEntry (addEntry s e) e.tag f = addEntry s (f e) := by
  have others : s.table.map (fun x => if x.tag = e.tag then f x else x) = s.table :=
    (List.map_congr_left fun x hx => if_neg fun h : x.tag = e.tag =>
      fresh (h ▸ List.mem_map_of_mem (f := Entry.tag) hx)).trans (List.map_id _)
  unfold updateEntry addEntry
  simp only [List.map_append, others, List.map_cons, List.map_nil, if_true]

theorem admitHeld_of_full {s : State} {e : Entry} {b : Block} {d : Data} (h : allocate s = none) :
    admitHeld s e b d = nackWrite s e .cacheFull := by
  unfold admitHeld
  simp only [h]

/-- The slot HELD for a write that has been admitted, with its data (R20, R22). -/
def heldFor (s : State) (e : Entry) (i : Nat) (b : Block) (d : Data) : State :=
  updateEntry (setSlot s i (.held b d (.clientWrite e.tag) none)) e.tag fun x => { x with slot := some i }

/-- What a write's version lookup answered at once leads to (R23). -/
def lookupTaken (t : Tag) : State × Option HeldVersion → State
  | (s, some a) => writeAnswered s t a
  | (s, none) => s

theorem admitHeld_of_room {s : State} {e : Entry} {i : Nat} {b : Block} {d : Data} (h : allocate s = some i) :
    admitHeld s e b d = lookupTaken e.tag (versionLookup (heldFor s e i b d) b (.write e.tag)) := by
  unfold admitHeld
  simp only [h]
  rfl

/-! ### A repeated WRITE (R65) -/

section
variable {s : State} {e : Entry} (write : e.kind = .clientWrite)
include write

theorem repeatedWrite_of_acked {c : Version} (acked : e.state = .acked) (committed : e.committed = some c) :
    repeatedWrite s e = offer s (ackFrame (self s) e.tag e.blk c) .acknowledgement := by
  unfold repeatedWrite
  simp only [write, acked, committed, if_true]
  rfl

theorem repeatedWrite_of_refused {r : Reason} (refused : e.state = .refused) (reason : e.reason = some r) :
    repeatedWrite s e = nackOffered s e.tag e.blk r := by
  unfold repeatedWrite
  simp only [write, refused, reason, if_true, nackOffered_eq]

theorem repeatedWrite_of_idle
    (idle : e.state = .lookup ∨ e.state = .waitOrder ∨ e.state = .committing ∨ e.state = .expired) :
    repeatedWrite s e = s := by
  unfold repeatedWrite
  rcases idle with state | state | state | state <;> simp only [write, state, if_true]

end

/-- Settles O44: by the entry the table gives, the refusal without one, the checks in their order and the repeated
WRITE. -/
theorem writeTakenUp : Obligations.WriteTakenUp := by
  unfold Obligations.WriteTakenUp
  refine ⟨fun u => ⟨giveEntry_of_room, fun full unfinished => ?_, fun o oldest => ?_⟩, fun u tag b r => ?_,
    fun s src tag b d takes => ?_⟩
  · rw [giveEntry_of_full full, oldestFinished_none unfinished]
    rfl
  · obtain ⟨table, finished, first⟩ := oldestFinished_spec oldest
    refine ⟨table, finished, first, fun full => ?_⟩
    rw [giveEntry_of_full full, oldest]
    rfl
  · intro v nacked listed
    exact ⟨fun full => (nackNew_of_none full).trans (listRefused_eq _ b r),
      fun g given => (nackNew_of_given given).trans (listRefused_eq _ b r)⟩
  · rw [exec_writeHeard takes]
    intro h
    refine ⟨fun stranger => ?_, fun replica resetting new => ?_, fun replica serves new => ?_,
      fun e replica open_ found write => ?_⟩
    · rw [takeWrite_of_stranger (s := h) stranger]
    · rw [takeWrite_of_resetting (s := h) replica resetting new]
    · rw [takeWrite_of_new (s := h) replica serves new]
      refine ⟨fun other => ?_, fun mark outside => ?_, fun mark inside full unfinished => ?_,
        fun mark inside g given => ?_⟩
      · rw [admitWrite_of_stranger (s := h) other]
      · rw [admitWrite_of_outside (s := h) mark outside]
      · have refuses : giveEntry h = none := by
          rw [giveEntry_of_full (s := h) full, oldestFinished_none (s := h) unfinished]
          rfl
        rw [admitWrite_of_full (s := h) mark inside refuses]
        rfl
      · rw [admitWrite_of_given (s := h) mark inside given]
        intro e made
        refine ⟨fun noSlot => ?_, fun i slot => ?_⟩
        · exact congrArg (fun u => Host.Outcome.next (settle u)) (admitHeld_of_full (s := made) noSlot)
        · have fresh : e.tag ∉ tagsOf g := fun known => findEntry_none new ((giveEntry_spec given).2.2 _ known)
          intro held
          have holds : heldFor made e i b d = held :=
            updateEntry_addEntry (s := setSlot g i (.held b d (.clientWrite tag) none)) (e := e) _ fresh
          have admitted : admitHeld made e b d = lookupTaken tag (versionLookup held b (.write tag)) := by
            rw [admitHeld_of_room (s := made) slot, holds]
            rfl
          exact congrArg (fun u => Host.Outcome.next (settle u)) admitted
    · rw [takeWrite_of_known (s := h) replica open_ found]
      have same : e.tag = tag := (findEntry_some found).2
      refine ⟨fun c acked committed => ?_, fun r refused reason => ?_, fun idle => ?_⟩
      · rw [repeatedWrite_of_acked write acked committed, same]
        rfl
      · rw [repeatedWrite_of_refused write refused reason, same]
        rfl
      · rw [repeatedWrite_of_idle write idle]

end Sys2Proof.Machine
end

section
/-! The end of a slot wait (R15, R16, R42, R47): the answer that the queue takes, and the silence. -/

namespace Sys2Proof.Machine

/-! ### An answer that the transmit queue takes -/

/-- The answer to a READ queued, recorded as sent, and the entry ANSWERED (R47, R58). -/
def readAnswered (s : State) (t : Tag) (f : Frame) : State :=
  finishEntry
    (recordSent { s with bus := { s.bus with queue := s.bus.queue ++ [queuedFrame f .readAnswer] } }
      t f.kind f.version)
    t .answered

section
variable {s : State} {e : Entry} (read : e.kind = .clientRead)
include read

theorem answer_of_read {f : Frame} (room : accepts s f.kind = true) : answer s e f = readAnswered s e.tag f := by
  have purpose : answerPurpose e.kind = .readAnswer := by rw [read]; rfl
  unfold answer
  rw [if_pos room, purpose, offer_of_accepts _ room]
  rfl

theorem answerUnavailable_of_read (r : Reason) (room : accepts s .unavailable = true) :
    answerUnavailable s e r
      = readAnswered s e.tag (unavailableFrame (self s) e.tag e.blk (reasonCode r)) :=
  answer_of_read read room

theorem answerData_of_read {i : Nat} {v : Version} {d : Data} (copy : currentCopy s e.blk = some (i, v, d))
    (room : accepts s .data = true) :
    answerData s e = touchSlot (readAnswered s e.tag (dataFrame (self s) e.tag e.blk v d)) i := by
  unfold answerData
  simp only [copy, room, if_true]
  rw [answer_of_read read (f := dataFrame (self s) e.tag e.blk v d) room]

end

/-! ### What the end of the wait does -/

theorem answeringList_of_read {e : Entry} (s : State) (read : e.kind = .clientRead) :
    answeringList s e = replicas s (groupOf e.blk) := by
  unfold answeringList
  exact if_neg (by simp [read])

/-- An entry can serve in SERVING, its block not listed and held in its slot, no DATA sent for it before (R47). -/
theorem canServe_iff (s : State) (e : Entry) :
    canServe s e = true ↔ s.member.state = .serving ∧ isListed s e.blk = false ∧ e.slot ≠ none
      ∧ currentCopy s e.blk ≠ none ∧ e.sentData = false := by
  simp [canServe, Option.isSome_iff_ne_none, and_assoc]

theorem expireRead_of_refused {s : State} {e : Entry} {r : Reason} (refused : e.reason = some r) :
    expireRead s e = answerUnavailable s e r := by
  unfold expireRead
  simp only [refused]

theorem expireRead_of_serves {s : State} {e : Entry} (taken : e.reason = none) (serves : canServe s e = true) :
    expireRead s e = answerData s e := by
  unfold expireRead
  simp only [taken, serves, if_true]

theorem expireRead_of_fails {s : State} {e : Entry} (taken : e.reason = none) (fails : canServe s e = false) :
    expireRead s e = if lastToAnswer s (answeringList s e) then answerUnavailable s e (unavailableReason e)
      else finishEntry s e.tag .silent := by
  unfold expireRead
  simp only [taken, fails, Bool.false_eq_true, if_false]

theorem reasonCode_unavailableReason (e : Entry) :
    reasonCode (unavailableReason e) = if e.failure = some .mediaError then 9 else 8 := by
  unfold unavailableReason
  split <;> rfl

theorem expireWait_of_read {s : State} {t : Tag} {e : Entry} (found : findEntry s t = some e)
    (read : e.kind = .clientRead) : expireWait s t = expireRead s e := by
  unfold expireWait
  simp only [found]
  exact if_neg (by simp [read])

/-! ### The expiry -/

/-- What the expiry of a slot wait does to an entry of the kind whose wait it ends (R16). -/
theorem onEntry_waitEnd {s : State} {t : Tag} {e : Entry} {k : EntryKind} {due : Nat}
    (found : findEntry s t = some e) (kind : e.kind = k) (waits : e.wait = some due) :
    (onEntry s t k fun s e => atWaitEnd s e fun s => expireWait s t) = expireWait (reach s due) t := by
  simp only [onEntry, atWaitEnd, found, kind, waits, if_true]

theorem exec_readSlotWaitExpiry {s : State} {t : Tag} {e : Entry} {due : Nat} (released : s.resetHeld = false)
    (found : findEntry s t = some e) (read : e.kind = .clientRead) (waits : e.wait = some due) :
    exec (.readSlotWaitExpiry t) s = .next (settle (expireWait (reach s due) t)) := by
  refine Eq.trans (b := execReadSlotWaitExpiry t s) rfl ?_
  unfold execReadSlotWaitExpiry
  rw [happening_of_released _ released, onEntry_waitEnd found read waits]

/-- Settles O49: a refused read is answered with its reason, one that can serve with its DATA, and any other with
UNAVAILABLE from the last replica to answer and with silence before it. -/
theorem readSlotWaitEnds : Obligations.ReadSlotWaitEnds := by
  unfold Obligations.ReadSlotWaitEnds
  intro s tag e due released found read waits roomForData roomForUnavailable t answered
  obtain rfl : e.tag = tag := (findEntry_some found).2
  have ends : exec (.readSlotWaitExpiry e.tag) s = .next (settle (expireRead t e)) := by
    rw [exec_readSlotWaitExpiry released found read waits, expireWait_of_read (s := reach s due) found read]
    rfl
  have unavailable (r : Reason) : answerUnavailable t e r
      = answered (unavailableFrame (self s) e.tag e.blk (reasonCode r)) :=
    answerUnavailable_of_read (s := t) read r roomForUnavailable
  rw [ends]
  refine ⟨fun r refused => ?_, fun taken i v d copy serving unlisted slot unsent => ?_, fun taken fails => ?_⟩
  · rw [expireRead_of_refused refused, unavailable]
  · have serves : canServe t e = true :=
      (canServe_iff t e).2 ⟨serving, unlisted, slot, by rw [show currentCopy t e.blk = _ from copy]; simp, unsent⟩
    rw [expireRead_of_serves taken serves, answerData_of_read (s := t) read copy roomForData]
    rfl
  · have idle : canServe t e = false := by
      rw [Bool.eq_false_iff, ne_eq, canServe_iff]
      rintro ⟨serving, unlisted, slot, copy, unsent⟩
      rcases fails with away | listed | noSlot | noCopy | sent
      · exact away serving
      · exact Bool.noConfusion (listed.symm.trans unlisted)
      · exact slot noSlot
      · exact copy noCopy
      · exact Bool.noConfusion (sent.symm.trans unsent)
    have last : lastToAnswer t (answeringList t e) = true ↔ ∀ n ∈ stationsAfter s (replicas s (groupOf e.blk)),
        isAbsent s n = true := by
      rw [answeringList_of_read t read]
      exact List.all_eq_true
    rw [expireRead_of_fails taken idle]
    refine ⟨fun ⟨n, after, here⟩ => ?_, fun absent => ?_⟩
    · rw [if_neg fun all => Bool.noConfusion (here.symm.trans (last.1 all n after))]
    · rw [if_pos (last.2 absent), unavailable, reasonCode_unavailableReason]

end Sys2Proof.Machine
end

section
/-! READs and FETCHes taken up (R41, R42, R55, R64, R66, R149): a new request's entry, and a repeated one's. -/

namespace Sys2Proof.Machine

theorem exec_readHeard {s : State} {src : Source} {t : Tag} {b : Block}
    (h : takesFrame s (readFrameOf src t b) = true) :
    exec (.readHeard src t b) s = .next (settle (takeRead (afterEcho s) src t b)) :=
  hear_of_takes (fun u => takeRead u src t b) h

theorem exec_fetchHeard {s : State} {src : Source} {t : Tag} {b : Block} {v : Version} {unknownMark : Bool}
    (h : takesFrame s (fetchFrame src t b v unknownMark) = true) :
    exec (.fetchHeard src t b v unknownMark) s
      = .next (settle (takeFetch (afterEcho s) src t b v unknownMark)) :=
  hear_of_takes (fun u => takeFetch u src t b v unknownMark) h

/-! ### The checks of a request (R42, R149) -/

/-- Two changes of the entry with a tag are one, where the first keeps tags. -/
theorem updateEntry_updateEntry {f : Entry → Entry} (s : State) (t : Tag) (g : Entry → Entry)
    (hf : ∀ x, (f x).tag = x.tag) :
    updateEntry (updateEntry s t f) t g = updateEntry s t fun x => g (f x) := by
  have twice : ∀ x : Entry, (if (if x.tag = t then f x else x).tag = t then g (if x.tag = t then f x else x)
      else if x.tag = t then f x else x) = if x.tag = t then g (f x) else x := by
    intro x
    by_cases hx : x.tag = t <;> simp [hx, hf]
  unfold updateEntry
  simp only [List.map_map, Function.comp_def, twice]

/-- A request is refused for its mark, then for its range; otherwise its block is looked up (R42, R43, R149). -/
theorem takeUp_eq (s : State) (src : Source) (t : Tag) (b : Block) :
    takeUp s src t b =
      if src.mark ≠ s.member.mark then
        beginWait (updateEntry s t fun e => { e with reason := some .rosterMismatch }) t
      else if volume s ≤ b.toNat then
        beginWait (updateEntry s t fun e => { e with reason := some .outOfRange }) t
      else beginCopyLookup s t b := by
  unfold takeUp refusal
  by_cases mark : src.mark = s.member.mark
  · by_cases range : volume s ≤ b.toNat
    · simp [markMatches, inRange, mark, range]
    · simp [markMatches, inRange, mark, range]
  · simp [markMatches, mark]

/-- The checks of a request at an entry that is changed first. -/
theorem takeUp_updated {f : Entry → Entry} (s : State) (src : Source) (t : Tag) (b : Block)
    (hf : ∀ x, (f x).tag = x.tag) :
    takeUp (updateEntry s t f) src t b =
      if src.mark ≠ s.member.mark then
        beginWait (updateEntry s t fun x => { f x with reason := some .rosterMismatch }) t
      else if volume s ≤ b.toNat then
        beginWait (updateEntry s t fun x => { f x with reason := some .outOfRange }) t
      else beginCopyLookup (updateEntry s t f) t b := by
  rw [takeUp_eq, updateEntry_updateEntry _ _ _ hf, updateEntry_updateEntry _ _ _ hf]
  rfl

/-- The checks of a request whose entry is just made, under a tag that no other has. -/
theorem takeUp_added {s : State} {e : Entry} (src : Source) (b : Block) (fresh : e.tag ∉ tagsOf s) :
    takeUp (addEntry s e) src e.tag b =
      if src.mark ≠ s.member.mark then
        beginWait (addEntry s { e with reason := some .rosterMismatch }) e.tag
      else if volume s ≤ b.toNat then beginWait (addEntry s { e with reason := some .outOfRange }) e.tag
      else beginCopyLookup (addEntry s e) e.tag b := by
  rw [takeUp_eq, updateEntry_addEntry _ fresh, updateEntry_addEntry _ fresh]
  rfl

/-! ### A repeated request (R55, R66) -/

theorem repeated_of_busy {s : State} {e : Entry} (src : Source)
    (busy : e.state = .lookup ∨ e.state = .slotWait) : repeated s src e = s := by
  unfold repeated
  rcases busy with state | state <;> simp only [state]

section
variable {s : State} {e : Entry}
  (ended : e.state = .answered ∨ e.state = .suppressed ∨ e.state = .silent ∨ e.state = .expired)
include ended

theorem finished_of_ended : e.state.finished = true := by
  rcases ended with state | state | state | state <;> rw [state] <;> rfl

theorem repeated_of_unsent (src : Source) (unsent : e.sentData = false) :
    repeated s src e = takeUp (updateEntry s e.tag fun x => x.restarted s.clock) src e.tag e.blk := by
  unfold repeated
  rcases ended with state | state | state | state <;> simp [state, unsent]

theorem repeated_of_sent (src : Source) (sent : e.sentData = true) :
    repeated s src e =
      if e.state = .answered then updateEntry s e.tag fun x => x.renewed s.clock else s := by
  unfold repeated
  rcases ended with state | state | state | state <;> simp [state, sent]

end

/-! ### A READ heard (R41, R55) -/

section
variable {s : State} {src : Source} {t : Tag} {b : Block}

theorem takeRead_of_aside (h : isReplica s b = false ∨ s.member.state ≠ .serving) : takeRead s src t b = s := by
  unfold takeRead
  refine if_neg ?_
  rcases h with h | h <;> simp [h]

variable (replica : isReplica s b = true) (serving : s.member.state = .serving)
include replica serving

theorem takeRead_of_known {e : Entry} (found : findEntry s t = some e) :
    takeRead s src t b = if e.kind = .clientRead then repeated s src e else s := by
  unfold takeRead
  rw [if_pos (by simp [replica, serving])]
  simp only [found]

theorem takeRead_of_full (new : findEntry s t = none) (full : giveEntry s = none) : takeRead s src t b = s := by
  unfold takeRead
  rw [if_pos (by simp [replica, serving])]
  simp only [new, full]

theorem takeRead_of_given {g : State} (new : findEntry s t = none) (given : giveEntry s = some g) :
    takeRead s src t b = takeUp (addEntry g (newEntry g t .clientRead (some b) .lookup)) src t b := by
  unfold takeRead
  rw [if_pos (by simp [replica, serving])]
  simp only [new, given]

end

/-! ### A FETCH heard (R66, R149) -/

/-- The entry with who asks, and from which version on. -/
def Entry.askedBy (e : Entry) (n : StationNo) (a : HeldVersion) : Entry :=
  { e with requester := some n, requested := some a }

section
variable {s : State} {src : Source} {t : Tag} {b : Block} {v : Version} {unknownMark : Bool}

theorem takeFetch_of_aside
    (h : inService s = false ∨ isReplica s b = false ∨ src.sender ∉ coReplicas s (groupOf b)) :
    takeFetch s src t b v unknownMark = s := by
  unfold takeFetch
  refine if_neg ?_
  rcases h with h | h | h <;> simp [h]

variable (serves : inService s = true) (replica : isReplica s b = true)
  (shared : src.sender ∈ coReplicas s (groupOf b))
include serves replica shared

theorem takeFetch_of_other {e : Entry} (found : findEntry s t = some e) (other : e.kind ≠ .peerFetch) :
    takeFetch s src t b v unknownMark = s := by
  unfold takeFetch
  rw [if_pos (by simp [serves, replica, shared])]
  simp only [found]
  exact if_neg other

/-- A FETCH repeated while its entry is at work, or after DATA was sent, leaves who asks as it was. -/
theorem takeFetch_of_kept {e : Entry} (found : findEntry s t = some e) (fetch : e.kind = .peerFetch)
    (kept : e.state.finished = false ∨ e.sentData = true) :
    takeFetch s src t b v unknownMark = repeated s src e := by
  have keeps : (e.state.finished && !e.sentData) = false := by rcases kept with h | h <;> simp [h]
  unfold takeFetch
  rw [if_pos (by simp [serves, replica, shared])]
  simp only [found, fetch, keeps, if_true, Bool.false_eq_true, if_false]

theorem takeFetch_of_unsent {e : Entry} (found : findEntry s t = some e) (fetch : e.kind = .peerFetch)
    (finished : e.state.finished = true) (unsent : e.sentData = false) :
    takeFetch s src t b v unknownMark =
      repeated (updateEntry s t fun x => x.askedBy src.sender (requestedVersion v unknownMark)) src
        (e.askedBy src.sender (requestedVersion v unknownMark)) := by
  have asked : findEntry (updateEntry s t fun x => x.askedBy src.sender (requestedVersion v unknownMark)) t
      = some (e.askedBy src.sender (requestedVersion v unknownMark)) := findEntry_updateEntry (fun _ => rfl) found
  unfold Entry.askedBy at *
  unfold takeFetch
  rw [if_pos (by simp [serves, replica, shared])]
  simp only [found, fetch, finished, unsent, Bool.not_false, Bool.and_true, if_true, asked]

theorem takeFetch_of_full (new : findEntry s t = none) (full : giveEntry s = none) :
    takeFetch s src t b v unknownMark = s := by
  unfold takeFetch
  rw [if_pos (by simp [serves, replica, shared])]
  simp only [new, full]

theorem takeFetch_of_given {g : State} (new : findEntry s t = none) (given : giveEntry s = some g) :
    takeFetch s src t b v unknownMark =
      takeUp (addEntry g ((newEntry g t .peerFetch (some b) .lookup).askedBy src.sender
        (requestedVersion v unknownMark))) src t b := by
  unfold takeFetch
  rw [if_pos (by simp [serves, replica, shared])]
  simp only [new, given]
  rfl

end

/-- A tag that the table does not hold is fresh also once the table has given an entry. -/
theorem fresh_of_given {s g : State} {t : Tag} (new : findEntry s t = none) (given : giveEntry s = some g) :
    t ∉ tagsOf g := fun known => findEntry_none new ((giveEntry_spec given).2.2 _ known)

end Sys2Proof.Machine
end

section
/-! The lookup of a READ or a FETCH (R43, R44, R77), what its end compares (R46, R150), and the slot wait begun
(R15). -/

namespace Sys2Proof.Machine

/-! ### The copy lookup (R43, R77) -/

theorem beginCopyLookup_of_copy {s : State} {b : Block} {i : Nat} {v : Version} {d : Data} (t : Tag)
    (copy : currentCopy s b = some (i, v, d)) :
    beginCopyLookup s t b = copyAnswered (touchSlot s i) t .mediaError := by
  unfold beginCopyLookup copyLookup
  simp only [copy]

section
variable {s : State} {b : Block} (t : Tag) (noCopy : currentCopy s b = none)
include noCopy

theorem beginCopyLookup_of_down (down : s.port.down = true) :
    beginCopyLookup s t b = copyAnswered s t .mediaError := by
  unfold beginCopyLookup copyLookup
  simp only [noCopy, down, if_true]

theorem beginCopyLookup_of_filling (up : s.port.down = false) (filling : isFilling s b = true) :
    beginCopyLookup s t b = addWaiter s b .record (.copy t) := by
  unfold beginCopyLookup copyLookup
  simp only [noCopy, up, filling, Bool.false_eq_true, if_true, if_false]

theorem beginCopyLookup_of_full (up : s.port.down = false) (notFilling : isFilling s b = false)
    (full : allocate s = none) : beginCopyLookup s t b = copyAnswered s t .notCurrent := by
  unfold beginCopyLookup copyLookup
  simp only [noCopy, up, notFilling, full, Bool.false_eq_true, if_false]

theorem beginCopyLookup_of_room {i : Nat} (up : s.port.down = false) (notFilling : isFilling s b = false)
    (room : allocate s = some i) :
    beginCopyLookup s t b
      = issue (addWaiter (setSlot s i (.filling b)) b .record (.copy t)) (.readRecord b i) := by
  unfold beginCopyLookup copyLookup
  simp only [noCopy, up, notFilling, room, Bool.false_eq_true, if_false]

end

/-- The end of a copy lookup leaves in the entry what it found, and compares it with what was heard (R44, R46,
R150). -/
theorem copyAnswered_of_lookup {s : State} {t : Tag} {e : Entry} (r : Reason) (found : findEntry s t = some e)
    (lookup : e.state = .lookup) :
    let taken (x : Entry) : Entry := x.withCopy (currentCopy s e.blk) r
    copyAnswered s t r = if e.kind = .peerFetch then endFetchLookup (updateEntry s t taken) (taken e)
      else endReadLookup (updateEntry s t taken) (taken e) := by
  intro taken
  have tag (x : Entry) : (taken x).tag = x.tag := by
    show (x.withCopy _ r).tag = _
    unfold Entry.withCopy
    split <;> rfl
  have kind : (taken e).kind = e.kind := by
    show (e.withCopy _ r).kind = _
    unfold Entry.withCopy
    split <;> rfl
  have holds : findEntry (updateEntry s t taken) t = some (taken e) := findEntry_updateEntry tag found
  unfold copyAnswered
  rw [found]
  dsimp only
  rw [if_pos lookup, holds]
  dsimp only
  rw [kind]

/-! ### What was heard (R46, R150) -/

theorem heardData_iff (e : Entry) (p : Version → Prop) [DecidablePred p] :
    (e.heardData fun w => decide (p w)) = true ↔ ∃ h ∈ e.heard, ∃ d, h.data = some d ∧ p d := by
  unfold Entry.heardData
  rw [List.any_eq_true]
  refine exists_congr fun h => and_congr_right fun _ => ?_
  cases h.data <;> simp

theorem heardData_any_iff (e : Entry) :
    (e.heardData fun _ => true) = true ↔ ∃ h ∈ e.heard, ∃ d, h.data = some d ∧ True :=
  heardData_iff e fun _ => True

theorem heardUnavailable_iff (e : Entry) : e.heardUnavailable = true ↔ ∃ h ∈ e.heard, h.unavailable ≠ none := by
  simp [Entry.heardUnavailable, Option.isSome_iff_ne_none]

theorem heardCurrent_iff (e : Entry) : e.heardCurrent = true ↔ ∃ h ∈ e.heard, h.current ≠ none := by
  simp [Entry.heardCurrent, Option.isSome_iff_ne_none]

/-- Once the entry has queued an answer the station's own frames do not count for it (R50; log 48). -/
theorem withoutOwn_eq (e : Entry) (own : StationNo) :
    e.withoutOwn own
      = { e with heard := e.heard.filter fun h => decide (e.sent = none ∨ h.station ≠ own) } := by
  unfold Entry.withoutOwn
  by_cases sent : e.sent = none
  · have all : e.heard.filter (fun h => decide (e.sent = none ∨ h.station ≠ own)) = e.heard := by simp [sent]
    rw [all, if_neg (by simp [sent])]
  · rw [if_pos (Option.isSome_iff_ne_none.2 sent)]
    simp [sent]

/-! ### The end of a READ's lookup (R46) -/

/-- The station may correct a lower DATA: it is SERVING and the block is not listed (R46, R51). -/
def mayCorrect (s : State) (b : Block) : Bool := decide (s.member.state = .serving) && !isListed s b

theorem mayCorrect_iff (s : State) (b : Block) :
    mayCorrect s b = true ↔ s.member.state = .serving ∧ isListed s b = false := by
  simp [mayCorrect]

theorem endReadLookup_of_data {s : State} {e : Entry} {v : Version} (slot : e.slot ≠ none)
    (held : heldVersion s e.blk = some v) :
    let x := e.withoutOwn (ownNumber s)
    let below := x.heardData fun w => decide (w < v)
    let above := x.heardData fun w => decide (v ≤ w)
    endReadLookup s e =
      if mayCorrect s e.blk && below && !above && !e.sentData then answerData s x
      else if (!mayCorrect s e.blk && below) || above || x.heardUnavailable then finishEntry s e.tag .suppressed
      else beginWait s e.tag := by
  intro x below above
  obtain ⟨i, hi⟩ := Option.ne_none_iff_exists'.1 slot
  have same : x = _ := withoutOwn_eq e (ownNumber s)
  have slot' : x.slot = some i := by rw [same]; exact hi
  have blk : x.blk = e.blk := by rw [same]; rfl
  have tag : x.tag = e.tag := by rw [same]
  have sent : x.sentData = e.sentData := by rw [same]; rfl
  have held' : heldVersion s x.blk = some v := by rw [blk]; exact held
  rw [← blk, ← tag, ← sent]
  unfold endReadLookup
  simp only [show e.withoutOwn (ownNumber s) = x from rfl, slot', held']
  rfl

theorem endReadLookup_of_nothing {s : State} {e : Entry} (nothing : e.slot = none ∨ heldVersion s e.blk = none) :
    let x := e.withoutOwn (ownNumber s)
    endReadLookup s e =
      if (x.heardData fun _ => true) || x.heardUnavailable then finishEntry s e.tag .suppressed
      else beginWait s e.tag := by
  intro x
  have same : x = _ := withoutOwn_eq e (ownNumber s)
  have slot : x.slot = e.slot := by rw [same]
  have blk : x.blk = e.blk := by rw [same]; rfl
  have tag : x.tag = e.tag := by rw [same]
  rw [← slot, ← blk] at nothing
  rw [← tag]
  unfold endReadLookup
  simp only [show e.withoutOwn (ownNumber s) = x from rfl]
  split
  next hs hv => simp [hs, hv] at nothing
  · rfl

/-! ### The end of a FETCH's lookup (R150) -/

/-- The version is above what the FETCH asks about. -/
theorem aboveRequested_of_above {e : Entry} {v : Version}
    (h : e.requested = some .unknown ∨ ∃ r, e.requested = some (.known r) ∧ r < v) : aboveRequested e v = true := by
  unfold aboveRequested
  rcases h with unknown | ⟨r, known, above⟩
  · rw [unknown]
  · rw [known]
    exact decide_eq_true above

theorem aboveRequested_of_reached {e : Entry} {v r : Version} (known : e.requested = some (.known r))
    (reached : v ≤ r) : aboveRequested e v = false := by
  unfold aboveRequested
  rw [known]
  exact decide_eq_false (BitVec.not_lt.2 reached)

/-- Some answer was heard, whatever its kind. -/
def Entry.heardAny (e : Entry) : Bool := (e.heardData fun _ => true) || e.heardCurrent || e.heardUnavailable

theorem endFetchLookup_of_above {s : State} {e : Entry} {v : Version} (held : heldVersion s e.blk = some v)
    (above : aboveRequested e v = true) :
    let x := e.withoutOwn (ownNumber s)
    endFetchLookup s e =
      if (x.heardData fun w => decide (v ≤ w)) || x.heardUnavailable then finishEntry s e.tag .suppressed
      else beginWait s e.tag := by
  intro x
  have same : x = _ := withoutOwn_eq e (ownNumber s)
  have tag : x.tag = e.tag := by rw [same]
  have held' : heldVersion s x.blk = some v := by rw [same]; exact held
  have above' : aboveRequested x v = true := by rw [same]; exact above
  rw [← tag]
  unfold endFetchLookup
  simp only [show e.withoutOwn (ownNumber s) = x from rfl, held', above', if_true]

theorem endFetchLookup_of_reached {s : State} {e : Entry}
    (reached : ∀ v, heldVersion s e.blk = some v → aboveRequested e v = false) :
    let x := e.withoutOwn (ownNumber s)
    endFetchLookup s e = if x.heardAny then finishEntry s e.tag .suppressed else beginWait s e.tag := by
  intro x
  have same : x = _ := withoutOwn_eq e (ownNumber s)
  have tag : x.tag = e.tag := by rw [same]
  have blk : x.blk = e.blk := by rw [same]; rfl
  rw [← tag]
  unfold endFetchLookup
  simp only [show e.withoutOwn (ownNumber s) = x from rfl, blk]
  cases held : heldVersion s e.blk with
  | none => rfl
  | some v =>
    have reached' : aboveRequested x v = false := by rw [same]; exact reached v held
    simp only [reached', Bool.false_eq_true, if_false]
    rfl

/-! ### The slot wait begun (R15) -/

/-- Who answers before and after the station: the group's replicas, for a FETCH without the one who asks (R15). -/
theorem answeringList_eq (s : State) (e : Entry) :
    answeringList s e = (replicas s (groupOf e.blk)).filter fun n =>
      decide (e.kind ≠ .peerFetch ∨ some n ≠ e.requester) := by
  unfold answeringList
  by_cases fetch : e.kind = .peerFetch <;> simp [fetch]

/-- The entry in its slot wait, which has just begun. -/
def waitBegun (s : State) (t : Tag) (e : Entry) : State :=
  updateEntry s t fun x =>
    { x with state := .slotWait, wait := some (s.clock + slotWait s (answeringList s e)) }

theorem beginWait_of_found {s : State} {t : Tag} {e : Entry} (found : findEntry s t = some e) :
    beginWait s t = if slotWait s (answeringList s e) = 0 then expireWait (waitBegun s t e) t
      else waitBegun s t e := by
  unfold beginWait
  rw [found]
  rfl

theorem exec_fetchSlotWaitExpiry {s : State} {t : Tag} {e : Entry} {due : Nat} (released : s.resetHeld = false)
    (found : findEntry s t = some e) (fetch : e.kind = .peerFetch) (waits : e.wait = some due) :
    exec (.fetchSlotWaitExpiry t) s = .next (settle (expireWait (reach s due) t)) := by
  refine Eq.trans (b := execFetchSlotWaitExpiry t s) rfl ?_
  unfold execFetchSlotWaitExpiry
  rw [happening_of_released _ released, onEntry_waitEnd found fetch waits]

/-- A slot wait of no slots that has just begun ends at the moment it stands at (R15; log 15). -/
theorem reach_waitBegun {s : State} {e : Entry} (t : Tag) (noSlots : slotWait s (answeringList s e) = 0) :
    reach (waitBegun s t e) (s.clock + slotWait s (answeringList s e)) = waitBegun s t e := by
  simp [reach, noSlots, waitBegun, updateEntry]

end Sys2Proof.Machine
end

section
/-! What the heard answers make of a lookup's end, and the statement about READs and FETCHes taken up. -/

namespace Sys2Proof.Machine

/-! ### The comparison at the end of a lookup -/

section
variable {s : State} {e : Entry}

/-- The READ corrects a lower DATA, where it may and none is as high as its own (R46, R51). -/
theorem endReadLookup_of_corrects {i : Nat} {v : Version} {d : Data} (read : e.kind = .clientRead)
    (slot : e.slot ≠ none) (copy : currentCopy s e.blk = some (i, v, d)) (may : mayCorrect s e.blk = true)
    (below : ((e.withoutOwn (ownNumber s)).heardData fun w => decide (w < v)) = true)
    (notAbove : ((e.withoutOwn (ownNumber s)).heardData fun w => decide (v ≤ w)) = false)
    (unsent : e.sentData = false) (room : accepts s .data = true) :
    endReadLookup s e = touchSlot (readAnswered s e.tag (dataFrame (self s) e.tag e.blk v d)) i := by
  have held : heldVersion s e.blk = some v := by simp [heldVersion, copy]
  have read' : (e.withoutOwn (ownNumber s)).kind = .clientRead := by rw [withoutOwn_eq]; exact read
  have blk : (e.withoutOwn (ownNumber s)).blk = e.blk := by rw [withoutOwn_eq]; rfl
  have tag : (e.withoutOwn (ownNumber s)).tag = e.tag := by rw [withoutOwn_eq]
  rw [endReadLookup_of_data slot held, if_pos (by simp [may, below, notAbove, unsent]),
    answerData_of_read read' (by rw [blk]; exact copy) room, tag, blk]

/-- The READ with data in hand is SUPPRESSED by a DATA as high, or by a lower one or an UNAVAILABLE where it makes no
correction (R46). -/
theorem endReadLookup_of_outdone {v : Version} (slot : e.slot ≠ none) (held : heldVersion s e.blk = some v)
    (outdone : ((e.withoutOwn (ownNumber s)).heardData fun w => decide (v ≤ w)) = true
      ∨ (mayCorrect s e.blk = false
        ∧ ((e.withoutOwn (ownNumber s)).heardData fun w => decide (w < v)) = true)
      ∨ ((e.withoutOwn (ownNumber s)).heardUnavailable = true ∧ (mayCorrect s e.blk = false
        ∨ ((e.withoutOwn (ownNumber s)).heardData fun w => decide (w < v)) = false))) :
    endReadLookup s e = finishEntry s e.tag .suppressed := by
  rw [endReadLookup_of_data slot held, if_neg, if_pos]
  · rcases outdone with above | ⟨bars, below⟩ | ⟨unavailable, -⟩
    · simp [above]
    · simp [bars, below]
    · simp [unavailable]
  · rcases outdone with above | ⟨bars, -⟩ | ⟨-, bars | notBelow⟩
    · simp [above]
    · simp [bars]
    · simp [bars]
    · simp [notBelow]

/-- Nothing heard, the READ with data in hand waits its slot (R46). -/
theorem endReadLookup_of_unheard {v : Version} (slot : e.slot ≠ none) (held : heldVersion s e.blk = some v)
    (noData : ∀ p, (e.withoutOwn (ownNumber s)).heardData p = false)
    (notUnavailable : (e.withoutOwn (ownNumber s)).heardUnavailable = false) :
    endReadLookup s e = beginWait s e.tag := by
  rw [endReadLookup_of_data slot held, if_neg (by simp [noData]), if_neg (by simp [noData, notUnavailable])]

end

/-- No DATA heard, none of whatever version is. -/
theorem heardData_false {e : Entry} (unheard : ¬∃ h ∈ e.heard, ∃ d, h.data = some d ∧ True) (p : Version → Bool) :
    e.heardData p = false := by
  refine Bool.eq_false_iff.2 fun heard => unheard ?_
  have heard' : (e.heardData fun w => decide (p w = true)) = true := by simpa using heard
  obtain ⟨h, mem, d, data, -⟩ := (heardData_iff e fun w => p w = true).1 heard'
  exact ⟨h, mem, d, data, trivial⟩

/-! ### The statement -/

/-- Settles O43: by the repeated request and the new one of each kind, the copy lookup, its end, the comparison there,
and the slot wait begun. -/
theorem readAndFetchTakenUp : Obligations.ReadAndFetchTakenUp := by
  unfold Obligations.ReadAndFetchTakenUp
  refine ⟨fun s src tag b e takes replica serving found => ?_,
    fun s src tag b v unknownMark e takes serves replica shared found => ?_, fun s src tag b takes => ?_,
    fun s src tag b v unknownMark takes => ?_, fun s t b => ⟨fun i v d copy => ?_, fun noCopy => ?_⟩,
    fun s t e r found lookup => ?_, fun s e => ?_, fun s t e found => ?_⟩
  · obtain rfl : e.tag = tag := (findEntry_some found).2
    rw [exec_readHeard takes]
    intro h at_ restarted
    rw [takeRead_of_known (s := h) replica serving found]
    refine ⟨fun passes => ?_, fun read ended => ⟨fun unsent => ?_, fun sent => ?_⟩⟩
    · by_cases read : e.kind = .clientRead
      · rw [if_pos read, repeated_of_busy src (passes.resolve_left fun other => other read)]
      · rw [if_neg read]
    · rw [if_pos read, repeated_of_unsent ended src unsent,
        takeUp_updated (f := fun x => x.restarted h.clock) _ _ _ _ fun _ => rfl]
      rfl
    · rw [if_pos read, repeated_of_sent ended src sent]
      rfl
  · obtain rfl : e.tag = tag := (findEntry_some found).2
    rw [exec_fetchHeard takes]
    intro h at_ restarted
    refine ⟨fun passes => ?_, fun fetch ended => ⟨fun unsent => ?_, fun sent => ?_⟩⟩
    · by_cases fetch : e.kind = .peerFetch
      · have busy := passes.resolve_left fun other => other fetch
        have unfinished : e.state.finished = false := by rcases busy with state | state <;> rw [state] <;> rfl
        rw [takeFetch_of_kept (s := h) serves replica shared found fetch (.inl unfinished), repeated_of_busy src busy]
      · rw [takeFetch_of_other (s := h) serves replica shared found fetch]
    · let asks : HeldVersion := requestedVersion v unknownMark
      rw [takeFetch_of_unsent (s := h) serves replica shared found fetch (finished_of_ended ended) unsent,
        repeated_of_unsent (e := e.askedBy _ _) ended src unsent]
      refine congrArg (fun u => Host.Outcome.next (settle u)) ?_
      refine (congrArg (fun u => takeUp u src e.tag e.blk) (updateEntry_updateEntry h e.tag
        (fun x => x.restarted h.clock) (f := fun x => x.askedBy src.sender asks) fun _ => rfl)).trans ?_
      rw [takeUp_updated (f := fun x => (x.askedBy src.sender asks).restarted h.clock) _ _ _ _ fun _ => rfl]
      rfl
    · rw [takeFetch_of_kept (s := h) serves replica shared found fetch (.inr sent), repeated_of_sent ended src sent]
      rfl
  · rw [exec_readHeard takes]
    intro h
    refine ⟨fun aside => ?_, fun replica serving new g given => ?_, fun replica serving new full => ?_⟩
    · rw [takeRead_of_aside (s := h) aside]
    · rw [takeRead_of_given (s := h) replica serving new given]
      exact congrArg (fun u => Host.Outcome.next (settle u))
        (takeUp_added (e := newEntry g tag .clientRead (some b) .lookup) src b (fresh_of_given (s := h) new given))
    · rw [takeRead_of_full (s := h) replica serving new full]
  · rw [exec_fetchHeard takes]
    intro h
    refine ⟨fun aside => ?_, fun serves replica shared new g given => ?_, fun serves replica shared new full => ?_⟩
    · rw [takeFetch_of_aside (s := h) aside]
    · rw [takeFetch_of_given (s := h) serves replica shared new given]
      exact congrArg (fun u => Host.Outcome.next (settle u))
        (takeUp_added (e := (newEntry g tag .peerFetch (some b) .lookup).askedBy src.sender
          (requestedVersion v unknownMark)) src b (fresh_of_given (s := h) new given))
    · rw [takeFetch_of_full (s := h) serves replica shared new full]
  · exact beginCopyLookup_of_copy t copy
  · exact ⟨beginCopyLookup_of_down t noCopy, beginCopyLookup_of_filling t noCopy, fun up notFilling =>
      ⟨beginCopyLookup_of_full t noCopy up notFilling, fun i => beginCopyLookup_of_room t noCopy up notFilling⟩⟩
  · have answered := copyAnswered_of_lookup r found lookup
    refine ⟨fun i v d copy => ?_, fun noCopy => ?_⟩
    · rw [copy] at answered
      exact answered
    · rw [noCopy] at answered
      exact answered
  · intro others data unavailable current any serves suppressed waits
    have same := withoutOwn_eq e (ownNumber s)
    have heard : (e.withoutOwn (ownNumber s)).heard = others := by rw [same]
    generalize hx : e.withoutOwn (ownNumber s) = x at heard
    have isData (p : Version → Prop) [DecidablePred p] : (x.heardData fun w => decide (p w)) = true ↔ data p := by
      rw [heardData_iff, heard]
    have isUnavailable : x.heardUnavailable = true ↔ unavailable := by rw [heardUnavailable_iff, heard]
    have isCurrent : x.heardCurrent = true ↔ current := by rw [heardCurrent_iff, heard]
    have isAny : (x.heardData fun _ => true) = true ↔ any := by rw [heardData_any_iff, heard]
    have may : mayCorrect s e.blk = true ↔ serves := mayCorrect_iff s e.blk
    have noData (unheard : ¬any) (p : Version → Bool) : x.heardData p = false :=
      heardData_false (by rw [heard]; exact unheard) p
    have isHeard : x.heardAny = true ↔ any ∨ current ∨ unavailable := by
      simp only [Entry.heardAny, Bool.or_eq_true, isAny, isCurrent, isUnavailable, or_assoc]
    refine ⟨fun i v d read slot copy => ?_, fun nothing => ?_, fun v held above => ?_, fun reached => ?_⟩
    · have held : heldVersion s e.blk = some v := by simp [heldVersion, copy]
      refine ⟨fun corrects below notAbove unsent room => ?_, fun bars below => ?_, fun above => ?_,
        fun gone bars => ?_, fun unheard notUnavailable => ?_⟩
      · exact endReadLookup_of_corrects read slot copy (may.2 corrects) (hx ▸ (isData _).2 below)
          (hx ▸ Bool.eq_false_iff.2 ((isData _).not.2 notAbove)) unsent room
      · exact endReadLookup_of_outdone slot held
          (.inr (.inl ⟨Bool.eq_false_iff.2 (may.not.2 bars), hx ▸ (isData _).2 below⟩))
      · exact endReadLookup_of_outdone slot held (.inl (hx ▸ (isData _).2 above))
      · refine endReadLookup_of_outdone slot held (.inr (.inr ⟨hx ▸ isUnavailable.2 gone, ?_⟩))
        exact bars.imp (fun bars => Bool.eq_false_iff.2 (may.not.2 bars))
          fun notBelow => hx ▸ Bool.eq_false_iff.2 ((isData _).not.2 notBelow)
      · exact endReadLookup_of_unheard slot held (hx ▸ noData unheard)
          (hx ▸ Bool.eq_false_iff.2 (isUnavailable.not.2 notUnavailable))
    · have ends := endReadLookup_of_nothing (s := s) (nothing.imp_right fun noCopy => by simp [heldVersion, noCopy])
      rw [hx] at ends
      rw [ends]
      refine ⟨fun h => if_pos ?_, fun unheard notUnavailable => if_neg ?_⟩
      · rwa [Bool.or_eq_true, isAny, isUnavailable]
      · rw [Bool.or_eq_true, isAny, isUnavailable]
        exact not_or_intro unheard notUnavailable
    · have ends := endFetchLookup_of_above held (aboveRequested_of_above above)
      rw [hx] at ends
      rw [ends]
      refine ⟨fun h => if_pos ?_, fun notAbove notUnavailable => if_neg ?_⟩
      · rwa [Bool.or_eq_true, isData, isUnavailable]
      · rw [Bool.or_eq_true, isData, isUnavailable]
        exact not_or_intro notAbove notUnavailable
    · have ends := endFetchLookup_of_reached (s := s) (e := e) fun v held => by
        rcases reached with unheld | ⟨w, r, held', known, le⟩
        · simp [unheld] at held
        · exact aboveRequested_of_reached known (Option.some.inj (held.symm.trans held') ▸ le)
      rw [hx] at ends
      rw [ends]
      refine ⟨fun h => if_pos (isHeard.2 h), fun unheard notCurrent notUnavailable => if_neg ?_⟩
      rw [isHeard]
      exact not_or_intro unheard (not_or_intro notCurrent notUnavailable)
  · intro w u
    have list : slotWait s (answeringList s e) = w := by rw [answeringList_eq]
    have begun : waitBegun s t e = u := by
      show updateEntry s t _ = updateEntry s t _
      rw [list]
    have holds : findEntry (waitBegun s t e) t = some { e with
        state := .slotWait, wait := some (s.clock + slotWait s (answeringList s e)) } :=
      findEntry_updateEntry (fun _ => rfl) found
    have begins := beginWait_of_found found
    refine ⟨fun waits => ?_, fun noSlots released => ?_⟩
    · rw [begins, list, if_neg waits.ne', begun]
    · have noWait := list.trans noSlots
      rw [begins, if_pos noWait, ← begun]
      refine ⟨fun read => ?_, fun fetch => ?_⟩
      · rw [exec_readSlotWaitExpiry (s := waitBegun s t e) released holds read rfl, reach_waitBegun t noWait]
      · rw [exec_fetchSlotWaitExpiry (s := waitBegun s t e) released holds fetch rfl, reach_waitBegun t noWait]

end Sys2Proof.Machine
end

section
/-! What withdrawn answers leave behind (R48, R187): no DATA recorded as sent, and nothing changed where none waits. -/

namespace Sys2Proof.Machine

/-! ### DATA recorded as sent (R48) -/

/-- The entry found under a tag after any change of entries that keeps tags. -/
theorem findEntry_updateEntry_any (s : State) (t u : Tag) {f : Entry → Entry} (hf : ∀ x, (f x).tag = x.tag) :
    findEntry (updateEntry s u f) t = (findEntry s t).map fun x => if x.tag = u then f x else x := by
  have same : (fun e : Entry => decide (e.tag = t)) ∘ (fun e => if e.tag = u then f e else e)
      = fun e => decide (e.tag = t) := by
    funext x
    by_cases hx : x.tag = u <;> simp [hx, hf]
  unfold findEntry updateEntry
  rw [List.find?_map, same]

/-- No DATA is recorded as sent in the entry with this tag. -/
def NoDataSent (s : State) (t : Tag) : Prop := ∀ x, findEntry s t = some x → x.sentData = false

theorem noDataSent_of_found {s : State} {t : Tag} {e : Entry} (found : findEntry s t = some e)
    (unsent : e.sentData = false) : NoDataSent s t := fun x hx => by
  rw [found] at hx
  exact Option.some.inj hx ▸ unsent

/-- A change of entries that records no DATA as sent. -/
theorem NoDataSent.updateEntry {s : State} {t : Tag} (h : NoDataSent s t) (u : Tag) {f : Entry → Entry}
    (hf : ∀ x, (f x).tag = x.tag) (hs : ∀ x, (f x).sent = x.sent ∨ (f x).sent = none) :
    NoDataSent (updateEntry s u f) t := by
  intro y hy
  rw [findEntry_updateEntry_any s t u hf, Option.map_eq_some_iff] at hy
  obtain ⟨x, hx, rfl⟩ := hy
  have unsent := h x hx
  split
  · unfold Entry.sentData at *
    rcases hs x with same | gone
    · rwa [same]
    · rw [gone]
  · exact unsent

theorem NoDataSent.recordAnswer {s : State} {t : Tag} (h : NoDataSent s t) (u : Tag) (n : StationNo) (k : Kind)
    (v : Version) : NoDataSent (recordAnswer s u n k v) t := h.updateEntry u (fun _ => rfl) fun _ => .inl rfl

theorem NoDataSent.finishEntry {s : State} {t : Tag} (h : NoDataSent s t) (u : Tag) (st : EntryState) :
    NoDataSent (finishEntry s u st) t := h.updateEntry u (fun _ => rfl) fun _ => .inl rfl

theorem NoDataSent.expireEntry {s : State} {t : Tag} (h : NoDataSent s t) (u : Tag) :
    NoDataSent (expireEntry s u) t := h.finishEntry u .expired

/-- What a withdrawn frame leaves as such, before the entry it answered enters another state (R48, R137). -/
def unrecorded (s : State) (f : TxFrame) : State :=
  match f.purpose with
  | .replayDone p true => { s with replay := { s.replay with overflow := s.replay.overflow ||| markOf p } }
  | .readAnswer | .fetchAnswer =>
    if f.frame.kind = .data then updateEntry s f.frame.tag fun e => { e with sent := none } else s
  | _ => s

/-- What the withdrawal asks of the entry besides (R49, R56, R151). -/
def entryLeft (s : State) (t : Tag) : Withdrawal → State
  | .plain => s
  | .entryBecomes st =>
    match findEntry s t with
    | none => s
    | some e => if e.entersOnWithdrawal st then (if st = .expired then expireEntry s t else finishEntry s t st) else s

theorem afterWithdrawal_eq (s : State) (f : TxFrame) (w : Withdrawal) :
    afterWithdrawal s f w = entryLeft (unrecorded s f) f.frame.tag w := by
  cases w <;> rfl

theorem NoDataSent.entryLeft {s : State} {t : Tag} (h : NoDataSent s t) (u : Tag) (w : Withdrawal) :
    NoDataSent (entryLeft s u w) t := by
  cases w with
  | plain => exact h
  | entryBecomes st =>
    unfold Machine.entryLeft
    dsimp only
    split
    · exact h
    · split
      · split
        · exact h.expireEntry u
        · exact h.finishEntry u st
      · exact h

theorem NoDataSent.unrecorded {s : State} {t : Tag} (h : NoDataSent s t) (f : TxFrame) :
    NoDataSent (unrecorded s f) t := by
  have taken : NoDataSent (if f.frame.kind = .data then
      Machine.updateEntry s f.frame.tag fun e => { e with sent := none } else s) t := by
    split
    · exact h.updateEntry _ (fun _ => rfl) fun _ => .inr rfl
    · exact h
  unfold Machine.unrecorded
  split
  · exact h
  · exact taken
  · exact taken
  · exact h

theorem NoDataSent.afterWithdrawal {s : State} {t : Tag} (h : NoDataSent s t) (f : TxFrame) (w : Withdrawal) :
    NoDataSent (afterWithdrawal s f w) t := by
  rw [afterWithdrawal_eq]
  exact (h.unrecorded f).entryLeft _ w

theorem NoDataSent.foldl {t : Tag} (w : Withdrawal) (l : List TxFrame) :
    ∀ {s : State}, NoDataSent s t → NoDataSent (l.foldl (fun s f => Machine.afterWithdrawal s f w) s) t := by
  induction l with
  | nil => exact fun h => h
  | cons f l ih => exact fun h => ih (h.afterWithdrawal f w)

/-- A withdrawal records no DATA as sent. -/
theorem NoDataSent.withdraw {s : State} {t : Tag} (h : NoDataSent s t) (sel : TxFrame → Bool) (w : Withdrawal) :
    NoDataSent (withdraw s sel w) t := by
  unfold Machine.withdraw
  dsimp only
  split
  · exact h
  · exact NoDataSent.foldl w _ h

/-- A frame is the DATA of the answer to a READ or a FETCH under this tag. -/
def IsDataFor (t : Tag) (f : TxFrame) : Prop :=
  (f.purpose = .readAnswer ∨ f.purpose = .fetchAnswer) ∧ f.frame.kind = .data ∧ f.frame.tag = t

theorem afterWithdrawal_noDataSent {s : State} {t : Tag} {f : TxFrame} (w : Withdrawal) (data : IsDataFor t f) :
    NoDataSent (afterWithdrawal s f w) t := by
  obtain ⟨purpose, kind, rfl⟩ := data
  have taken : unrecorded s f = updateEntry s f.frame.tag fun e => { e with sent := none } := by
    unfold unrecorded
    rcases purpose with purpose | purpose <;> simp only [purpose, kind, if_true]
  rw [afterWithdrawal_eq, taken]
  refine NoDataSent.entryLeft (fun y hy => ?_) _ w
  rw [findEntry_updateEntry_any s _ _ (f := fun e => { e with sent := none }) fun _ => rfl,
    Option.map_eq_some_iff] at hy
  obtain ⟨x, hx, rfl⟩ := hy
  rw [if_pos (findEntry_some hx).2]
  rfl

/-- Once a queued DATA is withdrawn it is no longer recorded as sent (R48). -/
theorem withdraw_noDataSent {s : State} {t : Tag} {f : TxFrame} {sel : TxFrame → Bool} (w : Withdrawal)
    (mem : f ∈ s.bus.queue) (selected : sel f = true) (queued : f.phase = .queued) (data : IsDataFor t f) :
    NoDataSent (withdraw s sel w) t := by
  have gone : f ∈ s.bus.queue.filter fun f => sel f && decide (f.phase = .queued) :=
    List.mem_filter.2 ⟨mem, by simp [selected, queued]⟩
  obtain ⟨before, after, split⟩ := List.append_of_mem gone
  unfold withdraw
  dsimp only
  rw [split, if_neg (by simp), List.foldl_append, List.foldl_cons]
  exact NoDataSent.foldl w after (afterWithdrawal_noDataSent w data)

/-! ### The answer that waits -/

/-- The answer that waits is in the transmit queue, not yet in transmission. -/
theorem waitingFrame_some {s : State} {p : Purpose} {t : Tag} {f : TxFrame} (h : waitingFrame s p t = some f) :
    f ∈ s.bus.queue ∧ f.purpose = p ∧ f.frame.tag = t ∧ f.phase ≠ .inTransmission := by
  obtain ⟨mem, selected⟩ := List.mem_filter.1 (List.mem_of_getLast? h)
  simp only [forTag, Bool.and_eq_true, decide_eq_true_eq] at selected
  obtain ⟨⟨purpose, tag⟩, phase⟩ := selected
  exact ⟨mem, purpose, tag, phase⟩

/-- Where no answer waits there is none to withdraw. -/
theorem withdraw_of_none {s : State} {p : Purpose} {t : Tag} (w : Withdrawal) (h : waitingFrame s p t = none) :
    withdraw s (forTag p t) w = s := by
  have sent : ∀ f ∈ s.bus.queue, forTag p t f = true → f.phase = .inTransmission := by
    unfold waitingFrame at h
    rw [List.getLast?_eq_none_iff, List.filter_eq_nil_iff] at h
    exact fun f mem selected => by simpa [selected] using h f mem
  have unselected (ph : FramePhase) (other : ph ≠ .inTransmission) (f : TxFrame) (mem : f ∈ s.bus.queue) :
      (forTag p t f && decide (f.phase = ph)) = false := by
    by_cases selected : forTag p t f = true
    · rw [sent f mem selected]
      simp [Ne.symm other]
    · simp [selected]
  have gone : s.bus.queue.filter (fun f => forTag p t f && decide (f.phase = .queued)) = [] :=
    List.filter_eq_nil_iff.2 fun f mem => by simp [unselected .queued (by decide) f mem]
  have kept : s.bus.queue.filter (fun f => !(forTag p t f && decide (f.phase = .queued))) = s.bus.queue :=
    List.filter_eq_self.2 fun f mem => by simp [unselected .queued (by decide) f mem]
  have same : (s.bus.queue.map fun f =>
      if forTag p t f && decide (f.phase = .contending) then { f with withdrawal := some w } else f) = s.bus.queue :=
    (List.map_congr_left fun f mem => if_neg (by simp [unselected .contending (by decide) f mem])).trans
      (List.map_id _)
  unfold withdraw
  dsimp only
  rw [gone, kept, same]
  rfl

end Sys2Proof.Machine
end

section
/-! An answer heard at a READ or a FETCH (R42, R49 to R53, R149 to R151): when it suppresses, and what follows. -/

namespace Sys2Proof.Machine

theorem exec_dataHeard {s : State} {src : Source} {t : Tag} {b : Block} {v : Version} {d : Data}
    (h : takesFrame s (dataFrame src t b v d) = true) :
    exec (.dataHeard src t b v d) s
      = .next (settle (deliverData (signOfLife (afterEcho s) src) src t b v d)) :=
  hear_of_takes (fun u => deliverData (signOfLife u src) src t b v d) h

theorem exec_unavailableHeard {s : State} {src : Source} {t : Tag} {b : Block} {r : BitVec 8}
    (h : takesFrame s (unavailableFrame src t b r) = true) :
    exec (.unavailableHeard src t b r) s
      = .next (settle (deliverUnavailable (signOfLife (afterEcho s) src) src t b)) :=
  hear_of_takes (fun u => deliverUnavailable (signOfLife u src) src t b) h

theorem exec_currentHeard {s : State} {src : Source} {t : Tag} {b : Block} {v : Version}
    (h : takesFrame s (currentFrame src t b v) = true) :
    exec (.currentHeard src t b v) s
      = .next (settle (deliverCurrent (signOfLife (afterEcho s) src) src t b v)) :=
  hear_of_takes (fun u => deliverCurrent (signOfLife u src) src t b v) h

/-! ### What an answer is measured against (R49, R150) -/

section
variable {s : State} {e : Entry}

theorem measuredVersion_of_held {w : Version} (held : heldVersion s e.blk = some w) :
    measuredVersion s e = some w := by
  unfold measuredVersion
  simp only [held]

/-- The version measured against is the held one, or with no current slot that of an answer that waits (log 56). -/
theorem measuredVersion_cases {w : Version} (measured : measuredVersion s e = some w) :
    heldVersion s e.blk = some w ∨ (heldVersion s e.blk = none
      ∧ ∃ f, waitingAnswer s e = some f ∧ f.frame.kind ≠ .unavailable ∧ f.frame.version = w) := by
  unfold measuredVersion at measured
  cases held : heldVersion s e.blk with
  | some x => exact .inl (by simpa [held] using measured)
  | none =>
    simp only [held] at measured
    split at measured
    next f waits =>
      split at measured
      · cases measured
      next versioned => exact .inr ⟨rfl, f, waits, versioned, Option.some.inj measured⟩
    · cases measured

/-- Where no answer with a version waits, only the held version is measured against. -/
theorem held_of_measured {w : Version} (noAnswer : ∀ f, waitingAnswer s e = some f → f.frame.kind = .unavailable)
    (measured : measuredVersion s e = some w) : heldVersion s e.blk = some w := by
  rcases measuredVersion_cases measured with held | ⟨-, f, waits, versioned, -⟩
  · exact held
  · exact absurd (noAnswer f waits) versioned

theorem hasData_of_slotWait (waiting : e.state = .slotWait) : hasData s e = e.slot.isSome := by
  unfold hasData
  simp only [waiting]

theorem hasData_of_answer {f : TxFrame} (answered : e.state ≠ .slotWait) (waits : waitingAnswer s e = some f) :
    hasData s e = decide (f.frame.kind ≠ .unavailable) := by
  unfold hasData
  split
  next waiting => exact absurd waiting answered
  · rw [waits]

theorem hasData_of_none (answered : e.state ≠ .slotWait)
    (waits : ∀ f, waitingAnswer s e = some f → f.frame.kind = .unavailable) : hasData s e = false := by
  cases found : waitingAnswer s e with
  | none =>
    unfold hasData
    split
    next waiting => exact absurd waiting answered
    · rw [found]
  | some f => rw [hasData_of_answer answered found, waits f found]; rfl

/-! ### When a READ is suppressed (R42, R49) -/

theorem suppressesRead_of_idle (v : Option Version) (idle : e.reason ≠ none ∨ hasData s e = false) :
    suppressesRead s e v = true := by
  have noData : (e.reason.isNone && hasData s e) = false := by rcases idle with h | h <;> simp [h]
  unfold suppressesRead
  cases v with
  | none => rfl
  | some d => exact if_neg (by simp [noData])

theorem suppressesRead_of_reached {d : Version} (reached : ∀ w, measuredVersion s e = some w → w ≤ d) :
    suppressesRead s e (some d) = true := by
  unfold suppressesRead
  dsimp only
  split
  · cases measured : measuredVersion s e with
    | none => rfl
    | some w => exact decide_eq_true (reached w measured)
  · rfl

theorem suppressesRead_of_below {d w : Version} (taken : e.reason = none) (data : hasData s e = true)
    (measured : measuredVersion s e = some w) (below : d < w) : suppressesRead s e (some d) = false := by
  unfold suppressesRead
  simp only [taken, data, measured]
  exact decide_eq_false (BitVec.not_le.2 below)

/-! ### When a FETCH is suppressed (R149, R150) -/

theorem suppressesFetch_of_refused (k : Kind) (v : Version) (refused : e.reason ≠ none) :
    suppressesFetch s e k v = decide (k ≠ .current) := by
  unfold suppressesFetch
  exact if_pos (Option.isSome_iff_ne_none.2 refused)

theorem suppressesFetch_of_above {w : Version} (k : Kind) (v : Version) (taken : e.reason = none)
    (measured : measuredVersion s e = some w) (above : aboveRequested e w = true) :
    suppressesFetch s e k v = (decide (k = .unavailable) || (decide (k = .data) && decide (w ≤ v))) := by
  unfold suppressesFetch
  simp [taken, measured, above]

theorem suppressesFetch_of_reached (k : Kind) (v : Version) (taken : e.reason = none)
    (reached : ∀ w, measuredVersion s e = some w → aboveRequested e w = false) : suppressesFetch s e k v = true := by
  unfold suppressesFetch
  rw [if_neg (by simp [taken])]
  cases measured : measuredVersion s e with
  | none => rfl
  | some w => simp [reached w measured]

theorem suppressesFetch_unavailable (s : State) (e : Entry) (v : Version) :
    suppressesFetch s e .unavailable v = true := by
  unfold suppressesFetch
  split
  · rfl
  · split
    · split <;> rfl
    · rfl

/-! ### How an entry is suppressed -/

theorem queuedIt_iff (s : State) (e : Entry) (src : Source) :
    e.queuedIt s src = false ↔ e.sent = none ∨ src.sender ≠ ownNumber s := by
  unfold Entry.queuedIt
  cases e.sent <;> simp

theorem suppress_of_slotWait {p : Purpose} (purpose : answerPurpose e.kind = p) (waiting : e.state = .slotWait) :
    suppress s e = withdraw (finishEntry s e.tag .suppressed) (forTag p e.tag) .plain := by
  unfold suppress
  rw [if_pos waiting, purpose]

theorem suppress_of_finished {p : Purpose} (purpose : answerPurpose e.kind = p) (finished : e.state.finished = true) :
    suppress s e = withdraw s (forTag p e.tag) (.entryBecomes .suppressed) := by
  unfold suppress
  rw [if_neg fun waiting => by simp [waiting, EntryState.finished] at finished, if_pos finished, purpose]

theorem suppress_of_unanswered (finished : e.state.finished = true) (noneWaits : waitingAnswer s e = none) :
    suppress s e = s := by
  rw [suppress_of_finished rfl finished, withdraw_of_none _ noneWaits]

/-- Suppression records no DATA as sent. -/
theorem NoDataSent.suppress {t : Tag} (h : NoDataSent s t) : NoDataSent (suppress s e) t := by
  unfold Machine.suppress
  dsimp only
  split
  · exact (h.finishEntry _ _).withdraw _ _
  · split
    · exact h.withdraw _ _
    · exact h

/-- A queued DATA that an ANSWERED entry has waiting is no longer recorded as sent once the entry is suppressed. -/
theorem suppress_noDataSent {f : TxFrame} (finished : e.state.finished = true) (waits : waitingAnswer s e = some f)
    (data : f.frame.kind = .data)
    (queued : ∀ g ∈ s.bus.queue, g.purpose = answerPurpose e.kind → g.frame.tag = e.tag → g.phase = .queued) :
    NoDataSent (suppress s e) e.tag := by
  obtain ⟨mem, purpose, tag, -⟩ := waitingFrame_some waits
  have answers : f.purpose = .readAnswer ∨ f.purpose = .fetchAnswer := by
    rw [purpose]
    unfold answerPurpose
    split
    · exact .inr rfl
    · exact .inl rfl
  rw [suppress_of_finished rfl finished]
  exact withdraw_noDataSent _ mem (by simp [forTag, purpose, tag]) (queued f mem purpose tag) ⟨answers, data, tag⟩

end

/-! ### When a correction answer is due (R51) -/

theorem correctionDue_iff (s : State) (e : Entry) (v : Version) :
    correctionDue s e v = true ↔ s.member.state = .serving ∧ isListed s e.blk = false
      ∧ (e.state = .slotWait ∨ e.state = .suppressed) ∧ e.sentData = false
      ∧ ∃ w, heldVersion s e.blk = some w ∧ v < w ∧ (e.heardData fun d => decide (w ≤ d)) = false := by
  unfold correctionDue
  cases heldVersion s e.blk <;> simp [and_assoc]

section
variable {s : State} {e : Entry} {v : Version}

theorem not_correctionDue_of_reached (reached : ∀ w, heldVersion s e.blk = some w → w ≤ v) :
    correctionDue s e v = false := by
  refine Bool.eq_false_iff.2 fun due => ?_
  obtain ⟨-, -, -, -, w, held, below, -⟩ := (correctionDue_iff s e v).1 due
  exact BitVec.not_le.2 below (reached w held)

theorem not_correctionDue_of_state (notWaiting : e.state ≠ .slotWait) (notSuppressed : e.state ≠ .suppressed) :
    correctionDue s e v = false := by
  refine Bool.eq_false_iff.2 fun due => ?_
  obtain ⟨-, -, state, -⟩ := (correctionDue_iff s e v).1 due
  exact state.elim notWaiting notSuppressed

theorem not_correctionDue_of_sent (sent : e.sentData = true) : correctionDue s e v = false := by
  refine Bool.eq_false_iff.2 fun due => ?_
  obtain ⟨-, -, -, unsent, -⟩ := (correctionDue_iff s e v).1 due
  exact Bool.noConfusion (sent.symm.trans unsent)

end

/-! ### Stale self-detection (R53, R151) -/

theorem staleIf_of_unsent {s : State} {t : Tag} {v : Version} (unsent : NoDataSent s t) : staleIf s t v = s := by
  unfold staleIf
  split
  · rfl
  next e found =>
    unfold staleDetect
    exact if_neg (by simp [unsent e found])

theorem staleIf_of_held {s : State} {t : Tag} {e : Entry} {v w : Version} (found : findEntry s t = some e)
    (held : heldVersion s e.blk = some w) (notAbove : v ≤ w) : staleIf s t v = s := by
  unfold staleIf
  simp only [found]
  unfold staleDetect
  split
  · simp only [compareLookup_of_held _ held, staleTest]
    exact if_neg (BitVec.not_lt.2 notAbove)
  · rfl

section
variable {s : State} {t : Tag} {e : Entry} (v : Version) (found : findEntry s t = some e) (sent : e.sentData = true)
  (serves : inService s = true) (range : inRange s e.blk = true)
include found sent serves range

theorem staleIf_of_sent_held {w : Version} (held : heldVersion s e.blk = some w) :
    staleIf s t v = if w < v then listBlock s e.blk else s := by
  unfold staleIf
  simp only [found]
  unfold staleDetect
  rw [if_pos (by simp [sent, serves, range])]
  simp only [compareLookup_of_held _ held, staleTest]

theorem staleIf_of_sent_unheld (unheld : heldVersion s e.blk = none) (up : s.port.down = false) :
    staleIf s t v =
      if isFilling s e.blk then addWaiter s e.blk .record (.stale v)
      else if headerInFlight s e.blk then addWaiter s e.blk .header (.stale v)
      else issue (addWaiter s e.blk .header (.stale v)) (.readHeader e.blk) := by
  unfold staleIf
  simp only [found]
  unfold staleDetect
  rw [if_pos (by simp [sent, serves, range])]
  unfold compareLookup versionLookup
  simp only [unheld, currentCopy_of_unheld unheld, up]
  by_cases filling : isFilling s e.blk = true
  · simp [filling]
  · by_cases header : headerInFlight s e.blk = true <;> simp [filling, header]

end

/-! ### What the entry of the tag does with the answer -/

/-- An answer of this kind and version suppresses the entry, be it a READ's or a FETCH's. -/
def suppresses (s : State) (e : Entry) (k : Kind) (v : Version) : Bool :=
  if e.kind = .peerFetch then suppressesFetch s e k v
  else suppressesRead s e (if k = .data then some v else none)

theorem suppresses_data_of_read {e : Entry} (s : State) (v : Version) (read : e.kind = .clientRead) :
    suppresses s e .data v = suppressesRead s e (some v) := by
  unfold suppresses
  rw [if_neg (by simp [read])]
  rfl

theorem suppresses_of_fetch {e : Entry} (s : State) (k : Kind) (v : Version) (fetch : e.kind = .peerFetch) :
    suppresses s e k v = suppressesFetch s e k v := by
  unfold suppresses
  exact if_pos fetch

/-- The answer recorded in the entry, which is suppressed where the answer does so (R49, R50, R150; log 48). -/
def answerTaken (s : State) (src : Source) (e : Entry) (k : Kind) (v : Version) : State :=
  if suppresses s e k v && !e.queuedIt s src then suppress (recordAnswer s e.tag src.sender k v) e
  else recordAnswer s e.tag src.sender k v

section
variable {s : State} {src : Source} {e : Entry} {k : Kind} {v : Version}

theorem answerTaken_of_suppresses (takes : suppresses s e k v = true)
    (others : e.sent = none ∨ src.sender ≠ ownNumber s) :
    answerTaken s src e k v = suppress (recordAnswer s e.tag src.sender k v) e :=
  if_pos (by simp [takes, (queuedIt_iff s e src).2 others])

theorem answerTaken_of_passes (passes : suppresses s e k v = false) :
    answerTaken s src e k v = recordAnswer s e.tag src.sender k v := if_neg (by simp [passes])

theorem answerTaken_of_own (own : ¬(e.sent = none ∨ src.sender ≠ ownNumber s)) :
    answerTaken s src e k v = recordAnswer s e.tag src.sender k v := by
  have queued : e.queuedIt s src = true := by
    simpa using (queuedIt_iff s e src).not.2 own
  exact if_neg (by simp [queued])

/-- Where the entry is finished and none of its answers waits, nothing is left to suppress. -/
theorem answerTaken_of_unanswered (finished : e.state.finished = true) (noneWaits : waitingAnswer s e = none) :
    answerTaken s src e k v = recordAnswer s e.tag src.sender k v := by
  unfold answerTaken
  split
  · exact suppress_of_unanswered (s := recordAnswer s e.tag src.sender k v) finished noneWaits
  · rfl

theorem NoDataSent.answerTaken {t : Tag} (h : NoDataSent s t) : NoDataSent (answerTaken s src e k v) t := by
  unfold Machine.answerTaken
  split
  · exact (h.recordAnswer _ _ _ _).suppress
  · exact h.recordAnswer _ _ _ _

theorem findEntry_recordAnswer (n : StationNo) (found : findEntry s e.tag = some e) :
    findEntry (recordAnswer s e.tag n k v) e.tag = some { e with heard := addAnswer e.heard n k v } :=
  findEntry_updateEntry (fun _ => rfl) found

/-- Whether the answer suppresses the entry does not depend on its being recorded there. -/
theorem suppressIf_recorded (n : StationNo) {test : Entry → Bool} (found : findEntry s e.tag = some e)
    (same : ∀ l, test { e with heard := l } = test e) :
    suppressIf (recordAnswer s e.tag n k v) e.tag test =
      if test e then suppress (recordAnswer s e.tag n k v) e else recordAnswer s e.tag n k v := by
  unfold suppressIf
  simp only [findEntry_recordAnswer n found, same]
  rfl

end

theorem countsFor_iff (s : State) (e : Entry) (src : Source) (b : Block) :
    countsFor s e src b = true ↔ e.block = some b ∧ src.mark = s.member.mark := by
  simp [countsFor, markMatches_iff]

section
variable {s : State} {src : Source} {e : Entry} {b : Block} (found : findEntry s e.tag = some e)
include found

/-- An answer of another block or mark does nothing (R50, R150). -/
theorem deliver_of_uncounted (v : Version) (d : Data) (passed : countsFor s e src b = false) :
    deliverUnavailable s src e.tag b = s ∧ deliverData s src e.tag b v d = s
      ∧ deliverCurrent s src e.tag b v = s := by
  refine ⟨?_, ?_, ?_⟩
  · unfold deliverUnavailable
    simp only [found, passed, Bool.false_eq_true, if_false]
  · unfold deliverData
    simp only [found, passed, Bool.false_eq_true, if_false]
  · unfold deliverCurrent
    simp only [found, passed, Bool.false_and, Bool.false_eq_true, if_false]

/-- A READ takes no CURRENT. -/
theorem deliverCurrent_of_read (v : Version) (read : e.kind = .clientRead) : deliverCurrent s src e.tag b v = s := by
  unfold deliverCurrent
  simp only [found, read]
  split <;> rfl

variable (counts : countsFor s e src b = true)
include counts

theorem deliverUnavailable_of_counts (kind : e.kind = .clientRead ∨ e.kind = .peerFetch) :
    deliverUnavailable s src e.tag b = answerTaken s src e .unavailable 0 := by
  unfold deliverUnavailable answerTaken suppresses
  simp only [found, counts, if_true]
  rcases kind with kind | kind <;> simp only [kind]
  · exact suppressIf_recorded _ found fun _ => rfl
  · exact suppressIf_recorded _ found fun _ => rfl

theorem deliverCurrent_of_counts (v : Version) (fetch : e.kind = .peerFetch) (range : inRange s b = true) :
    deliverCurrent s src e.tag b v = answerTaken s src e .current v := by
  unfold deliverCurrent answerTaken suppresses
  simp only [found, counts, range, fetch, Bool.and_true, if_true]
  exact suppressIf_recorded _ found fun _ => rfl

theorem deliverData_of_read (v : Version) (d : Data) (read : e.kind = .clientRead) :
    deliverData s src e.tag b v d =
      staleIf (if correctionDue s e v then correct (answerTaken s src e .data v) e.tag
        else answerTaken s src e .data v) e.tag v := by
  have taken : suppressIf (recordAnswer s e.tag src.sender .data v) e.tag (fun x =>
      suppressesRead (recordAnswer s e.tag src.sender .data v) x (some v)
        && !x.queuedIt (recordAnswer s e.tag src.sender .data v) src) = answerTaken s src e .data v := by
    unfold answerTaken suppresses
    simp only [read]
    exact suppressIf_recorded _ found fun _ => rfl
  unfold deliverData
  simp only [found, counts, read, if_true, taken]

theorem deliverData_of_fetch (v : Version) (d : Data) (fetch : e.kind = .peerFetch) :
    deliverData s src e.tag b v d = staleIf (answerTaken s src e .data v) e.tag v := by
  have taken : suppressIf (recordAnswer s e.tag src.sender .data v) e.tag (fun x =>
      suppressesFetch (recordAnswer s e.tag src.sender .data v) x .data v
        && !x.queuedIt (recordAnswer s e.tag src.sender .data v) src) = answerTaken s src e .data v := by
    unfold answerTaken suppresses
    simp only [fetch, if_true]
    exact suppressIf_recorded _ found fun _ => rfl
  unfold deliverData
  simp only [found, counts, fetch, if_true, taken]

/-- Where no correction is due a DATA is taken by the entry, and then compared (R53, R151). -/
theorem deliverData_of_settled (v : Version) (d : Data) (kind : e.kind = .clientRead ∨ e.kind = .peerFetch)
    (settled : e.kind = .clientRead → correctionDue s e v = false) :
    deliverData s src e.tag b v d = staleIf (answerTaken s src e .data v) e.tag v := by
  rcases kind with read | fetch
  · rw [deliverData_of_read found counts v d read, if_neg (by simp [settled read])]
  · exact deliverData_of_fetch found counts v d fetch

end

end Sys2Proof.Machine
end

section
/-! Correction answers (R51), and the statement about the answers heard at a READ or a FETCH. -/

namespace Sys2Proof.Machine

/-! ### The correction answer (R51) -/

/-- A slot put in the place of one current for the same block with the same copy leaves every current copy. -/
theorem currentCopy_setSlot_alike {s : State} {i : Nat} {x y : Slot} (b : Block) (hy : s.cache.slots[i]? = some y)
    (current : ∀ c, x.isCurrentOf c = y.isCurrentOf c) (copy : x.copy = y.copy) :
    currentCopy (setSlot s i x) b = currentCopy s b := by
  obtain ⟨hi, rfl⟩ := List.getElem?_eq_some_iff.1 hy
  have kept {α : Type} (g : Slot → α) (h : g x = g s.cache.slots[i]) :
      (s.cache.slots.set i x).map g = s.cache.slots.map g := by
    rw [List.map_set, h, ← List.getElem_map g (h := by simpa using hi)]
    exact List.set_getElem_self _
  have place : currentSlot (setSlot s i x) b = currentSlot s b := by
    have byMap (l : List Slot) : l.findIdx? (Slot.isCurrentOf b) = (l.map (Slot.isCurrentOf b)).findIdx? id := by
      rw [List.findIdx?_map]
      rfl
    unfold currentSlot
    rw [setSlot_slots, byMap, kept _ (current b), ← byMap]
  have copies (j : Nat) : (slotAt (setSlot s i x) j).copy = (slotAt s j).copy := by
    have byMap (l : List Slot) : (l.getD j .free).copy = (l.map Slot.copy).getD j none := by
      rw [List.getD_eq_getElem?_getD, List.getD_eq_getElem?_getD, List.getElem?_map]
      cases l[j]? <;> rfl
    unfold slotAt
    rw [setSlot_slots, byMap, kept _ copy, ← byMap]
  unfold currentCopy
  rw [place]
  simp only [copies]

/-- A slot becoming the most recently used leaves every current copy. -/
theorem currentCopy_touchSlot (s : State) (i : Nat) (b : Block) : currentCopy (touchSlot s i) b = currentCopy s b := by
  unfold touchSlot
  split
  next c v d r clean =>
    have atSlot : s.cache.slots[i]? = some (.clean c v d r) := by
      unfold slotAt at clean
      rw [List.getD_eq_getElem?_getD] at clean
      cases h : s.cache.slots[i]? with
      | none => simp [h] at clean
      | some x => simpa [h] using clean
    exact currentCopy_setSlot_alike (s := nextRecency s) b atSlot (fun _ => rfl) rfl
  all_goals rfl

theorem touchSlot_table (s : State) (i : Nat) : (touchSlot s i).table = s.table := by
  unfold touchSlot
  split <;> rfl

theorem correct_of_read {s : State} {t : Tag} {e : Entry} {i : Nat} {v : Version} {d : Data}
    (found : findEntry s t = some e) (read : e.kind = .clientRead) (copy : currentCopy s e.blk = some (i, v, d))
    (room : accepts s .data = true) :
    correct s t = touchSlot (readAnswered s t (dataFrame (self s) t e.blk v d)) i := by
  obtain rfl : e.tag = t := (findEntry_some found).2
  unfold correct
  simp only [found]
  exact answerData_of_read read copy room

theorem findEntry_finishEntry {s : State} {t : Tag} {e : Entry} (st : EntryState) (found : findEntry s t = some e) :
    findEntry (finishEntry s t st) t
      = some { e with state := st, finished := e.finishTime st s.clock, wait := none, slot := none } :=
  findEntry_updateEntry (fun _ => rfl) found

/-- A correction answer is not itself put in doubt by the lower DATA that drew it (R51, R53). -/
theorem staleIf_of_corrected {s : State} {t : Tag} {e : Entry} {i : Nat} {v w : Version} {d : Data} (f : Frame)
    (found : findEntry s t = some e) (copy : currentCopy s e.blk = some (i, w, d)) (below : v ≤ w) :
    staleIf (touchSlot (readAnswered s t f) i) t v = touchSlot (readAnswered s t f) i := by
  have sent : findEntry (recordSent
      { s with bus := { s.bus with queue := s.bus.queue ++ [queuedFrame f .readAnswer] } } t f.kind f.version) t
      = some { e with sent := some { kind := f.kind, version := f.version } } :=
    findEntry_updateEntry (fun _ => rfl) found
  have touched : findEntry (touchSlot (readAnswered s t f) i) t = findEntry (readAnswered s t f) t := by
    unfold findEntry
    rw [touchSlot_table]
  have copied : currentCopy (touchSlot (readAnswered s t f) i) e.blk = some (i, w, d) :=
    (currentCopy_touchSlot _ _ _).trans copy
  have held : heldVersion (touchSlot (readAnswered s t f) i) e.blk = some w := by
    unfold heldVersion
    rw [copied]
    rfl
  exact staleIf_of_held (touched.trans (findEntry_finishEntry .answered sent)) held below

/-- An entry that was SUPPRESSED out of its slot wait is ANSWERED as it would have been out of it. -/
theorem readAnswered_of_suppressed {s : State} {t : Tag} (f : Frame)
    (waiting : ∀ x ∈ s.table, x.tag = t → x.state = .slotWait) :
    readAnswered (finishEntry s t .suppressed) t f = readAnswered s t f := by
  have entries : (readAnswered (finishEntry s t .suppressed) t f).table = (readAnswered s t f).table := by
    simp only [readAnswered, finishEntry, dropWaiters, recordSent, updateEntry, List.map_map]
    refine List.map_congr_left fun x hx => ?_
    by_cases tag : x.tag = t
    · simp [tag, Entry.finishTime, waiting x hx tag]
    · simp [tag]
  have waiters : (readAnswered (finishEntry s t .suppressed) t f).cache = (readAnswered s t f).cache := by
    simp [readAnswered, finishEntry, dropWaiters, recordSent, updateEntry, List.filter_filter]
  have same : readAnswered (finishEntry s t .suppressed) t f = { readAnswered s t f with
      table := (readAnswered (finishEntry s t .suppressed) t f).table
      cache := (readAnswered (finishEntry s t .suppressed) t f).cache } := rfl
  rw [same, entries, waiters]

/-- With unique tags the entry found is the only one of its tag. -/
theorem entry_of_tag {s : State} {t : Tag} {e x : Entry} (unique : tagsUnique s = true)
    (found : findEntry s t = some e) (mem : x ∈ s.table) (tag : x.tag = t) : x = e := by
  have nodup : (s.table.map Entry.tag).Nodup := by simpa [tagsUnique] using unique
  obtain ⟨mem', tag'⟩ := findEntry_some found
  exact List.inj_on_of_nodup_map nodup mem mem' (tag.trans tag'.symm)

section
variable {s : State} {src : Source} {e : Entry} {b : Block} {i : Nat} {v w : Version} {c : Data}
  (found : findEntry s e.tag = some e) (counts : countsFor s e src b = true) (read : e.kind = .clientRead)
  (due : correctionDue s e v = true) (copy : currentCopy s e.blk = some (i, w, c)) (below : v ≤ w)
  (room : accepts s .data = true)
include found counts read due copy below room

/-- A correction answer of an entry that the DATA leaves as it was (R51). -/
theorem deliverData_of_corrected (d : Data)
    (kept : answerTaken s src e .data v = recordAnswer s e.tag src.sender .data v) :
    deliverData s src e.tag b v d = touchSlot (readAnswered (recordAnswer s e.tag src.sender .data v) e.tag
      (dataFrame (self s) e.tag e.blk w c)) i := by
  rw [deliverData_of_read found counts v d read, if_pos due, kept]
  have recorded := findEntry_recordAnswer (k := .data) (v := v) src.sender found
  rw [correct_of_read (s := recordAnswer s e.tag src.sender .data v) recorded read copy room]
  exact staleIf_of_corrected _ recorded copy below

/-- A refused READ, suppressed by the DATA it corrects, is ANSWERED out of its slot wait (R51; log 22). -/
theorem deliverData_of_corrected_refused (d : Data) (unique : tagsUnique s = true) (waiting : e.state = .slotWait)
    (noneWaits : waitingAnswer s e = none)
    (suppressed : answerTaken s src e .data v = suppress (recordAnswer s e.tag src.sender .data v) e) :
    deliverData s src e.tag b v d = touchSlot (readAnswered (recordAnswer s e.tag src.sender .data v) e.tag
      (dataFrame (self s) e.tag e.blk w c)) i := by
  have recorded := findEntry_recordAnswer (k := .data) (v := v) src.sender found
  have alone : ∀ x ∈ (recordAnswer s e.tag src.sender .data v).table, x.tag = e.tag → x.state = .slotWait := by
    intro x mem tag
    have unique' : tagsUnique (recordAnswer s e.tag src.sender .data v) = true := by
      have tags := (recordAnswer_keeps s e.tag src.sender .data v).tags
      unfold tagsOf at tags
      unfold tagsUnique at *
      rwa [tags]
    rw [entry_of_tag unique' recorded mem tag]
    exact waiting
  have ended : suppress (recordAnswer s e.tag src.sender .data v) e
      = finishEntry (recordAnswer s e.tag src.sender .data v) e.tag .suppressed := by
    rw [suppress_of_slotWait rfl waiting]
    exact withdraw_of_none _ noneWaits
  have finished := findEntry_finishEntry .suppressed recorded
  rw [deliverData_of_read found counts v d read, if_pos due, suppressed, ended,
    correct_of_read (s := finishEntry (recordAnswer s e.tag src.sender .data v) e.tag .suppressed) finished read
      copy room]
  refine (staleIf_of_corrected _ finished copy below).trans ?_
  exact congrArg (fun u => touchSlot u i) (readAnswered_of_suppressed _ alone)

end

/-! ### What a DATA leaves that draws no correction -/

section
variable {s : State} {src : Source} {e : Entry} {b : Block} {v : Version}
  (found : findEntry s e.tag = some e) (counts : countsFor s e src b = true)
  (kind : e.kind = .clientRead ∨ e.kind = .peerFetch)
  (settled : e.kind = .clientRead → correctionDue s e v = false)
include found counts kind settled

/-- A DATA that suppresses an entry, no DATA of its own recorded as sent then, leaves it so. -/
theorem deliverData_of_suppresses (d : Data) (takes : suppresses s e .data v = true)
    (others : e.sent = none ∨ src.sender ≠ ownNumber s)
    (unsent : NoDataSent (suppress (recordAnswer s e.tag src.sender .data v) e) e.tag) :
    deliverData s src e.tag b v d = suppress (recordAnswer s e.tag src.sender .data v) e := by
  rw [deliverData_of_settled found counts v d kind settled, answerTaken_of_suppresses takes others,
    staleIf_of_unsent unsent]

/-- A DATA that does not suppress the entry and is not above the version held is recorded. -/
theorem deliverData_of_passes (d : Data) {w : Version} (passes : suppresses s e .data v = false)
    (held : heldVersion s e.blk = some w) (notAbove : v ≤ w) :
    deliverData s src e.tag b v d = recordAnswer s e.tag src.sender .data v := by
  rw [deliverData_of_settled found counts v d kind settled, answerTaken_of_passes passes]
  exact staleIf_of_held (s := recordAnswer s e.tag src.sender .data v) (findEntry_recordAnswer _ found) held notAbove

end

end Sys2Proof.Machine
end

section
/-! The statement about the answers heard at a READ or a FETCH, case by case (R42, R49 to R53, R149 to R151). -/

namespace Sys2Proof.Machine

section
variable {s : State} {src : Source} {e : Entry} {b : Block}
  (found : findEntry s e.tag = some e) (counts : countsFor s e src b = true)
include found

theorem noDataSent_of_suppressed (k : Kind) (v : Version) (unsent : e.sentData = false) :
    NoDataSent (suppress (recordAnswer s e.tag src.sender k v) e) e.tag :=
  ((noDataSent_of_found found unsent).recordAnswer _ _ _ _).suppress

include counts

/-- An UNAVAILABLE of another station suppresses every entry; one of the station's own is recorded (R49, R50, R150;
log 48). -/
theorem deliverUnavailable_of_others (kind : e.kind = .clientRead ∨ e.kind = .peerFetch)
    (others : e.sent = none ∨ src.sender ≠ ownNumber s) :
    deliverUnavailable s src e.tag b = suppress (recordAnswer s e.tag src.sender .unavailable 0) e := by
  rw [deliverUnavailable_of_counts found counts kind]
  refine answerTaken_of_suppresses ?_ others
  unfold suppresses
  split
  · exact suppressesFetch_unavailable s e 0
  · rfl

theorem deliverUnavailable_of_own (kind : e.kind = .clientRead ∨ e.kind = .peerFetch)
    (own : ¬(e.sent = none ∨ src.sender ≠ ownNumber s)) :
    deliverUnavailable s src e.tag b = recordAnswer s e.tag src.sender .unavailable 0 := by
  rw [deliverUnavailable_of_counts found counts kind, answerTaken_of_own own]

/-! ### DATA at a READ -/

section
variable (read : e.kind = .clientRead) (v : Version) (d : Data)
include read

variable (others : e.sent = none ∨ src.sender ≠ ownNumber s)

section
include others

/-- In its slot wait a READ is suppressed by a DATA not below the version in hand (R49). -/
theorem deliverData_of_waiting (unsent : e.sentData = false)
    (reached : ∀ w, heldVersion s e.blk = some w → w ≤ v)
    (noAnswer : ∀ f, waitingAnswer s e = some f → f.frame.kind = .unavailable) :
    deliverData s src e.tag b v d = suppress (recordAnswer s e.tag src.sender .data v) e := by
  refine deliverData_of_suppresses found counts (.inl read) (fun _ => not_correctionDue_of_reached reached) d ?_
    others (noDataSent_of_suppressed found _ _ unsent)
  rw [suppresses_data_of_read s v read]
  exact suppressesRead_of_reached fun w measured => reached w (held_of_measured noAnswer measured)

/-- A READ finished with no data queued is suppressed by any DATA (R49; log 55). -/
theorem deliverData_of_unanswered (unsent : e.sentData = false) (notWaiting : e.state ≠ .slotWait)
    (notSuppressed : e.state ≠ .suppressed)
    (noAnswer : ∀ f, waitingAnswer s e = some f → f.frame.kind = .unavailable) :
    deliverData s src e.tag b v d = suppress (recordAnswer s e.tag src.sender .data v) e := by
  refine deliverData_of_suppresses found counts (.inl read)
    (fun _ => not_correctionDue_of_state notWaiting notSuppressed) d ?_ others
    (noDataSent_of_suppressed found _ _ unsent)
  rw [suppresses_data_of_read s v read]
  exact suppressesRead_of_idle _ (.inr (hasData_of_none notWaiting noAnswer))

/-- An ANSWERED READ whose DATA is still queued is suppressed by one not below it (R49, R52; logs 23 and 56). -/
theorem deliverData_of_answered {f : TxFrame} (answered : e.state = .answered) (waits : waitingAnswer s e = some f)
    (data : f.frame.kind = .data)
    (queued : ∀ g ∈ s.bus.queue, g.purpose = answerPurpose e.kind → g.frame.tag = e.tag → g.phase = .queued)
    (reached : (∃ w, heldVersion s e.blk = some w ∧ w ≤ v) ∨ (heldVersion s e.blk = none ∧ f.frame.version ≤ v)) :
    deliverData s src e.tag b v d = suppress (recordAnswer s e.tag src.sender .data v) e := by
  refine deliverData_of_suppresses found counts (.inl read)
    (fun _ => not_correctionDue_of_state (by simp [answered]) (by simp [answered])) d ?_ others
    (suppress_noDataSent (s := recordAnswer s e.tag src.sender .data v) (by rw [answered]; rfl) waits data queued)
  rw [suppresses_data_of_read s v read]
  refine suppressesRead_of_reached fun w measured => ?_
  rcases measuredVersion_cases measured with held | ⟨unheld, g, waits', -, rfl⟩
  · rcases reached with ⟨w', held', le⟩ | ⟨unheld, -⟩
    · exact Option.some.inj (held'.symm.trans held) ▸ le
    · simp [unheld] at held
  · rcases reached with ⟨w', held', -⟩ | ⟨-, le⟩
    · simp [unheld] at held'
    · exact Option.some.inj (waits.symm.trans waits') ▸ le

end

/-- A DATA below the answer that an ANSWERED READ has queued is recorded and nothing more (R52). -/
theorem deliverData_of_lower {f : TxFrame} {w : Version} (answered : e.state = .answered) (taken : e.reason = none)
    (waits : waitingAnswer s e = some f) (data : f.frame.kind = .data) (held : heldVersion s e.blk = some w)
    (below : v < w) : deliverData s src e.tag b v d = recordAnswer s e.tag src.sender .data v := by
  refine deliverData_of_passes found counts (.inl read)
    (fun _ => not_correctionDue_of_state (by simp [answered]) (by simp [answered])) d ?_ held (BitVec.le_of_lt below)
  rw [suppresses_data_of_read s v read]
  refine suppressesRead_of_below taken ?_ (measuredVersion_of_held held) below
  rw [hasData_of_answer (by simp [answered]) waits, data]
  rfl

/-- A lower DATA draws a correction answer, from a READ that is SUPPRESSED, one with data in hand in its slot wait, and
one refused there (R51; log 22). -/
theorem deliverData_of_correctable {i : Nat} {w : Version} {c : Data} (unsent : e.sentData = false)
    (serving : s.member.state = .serving) (unlisted : isListed s e.blk = false)
    (copy : currentCopy s e.blk = some (i, w, c)) (below : v < w)
    (lower : ∀ x ∈ e.heard, ∀ y, x.data = some y → y < w) (room : accepts s .data = true)
    (state : (e.state = .suppressed ∧ waitingAnswer s e = none)
      ∨ (e.state = .slotWait ∧ e.reason = none ∧ e.slot ≠ none)
      ∨ (e.state = .slotWait ∧ e.reason ≠ none ∧ waitingAnswer s e = none ∧ tagsUnique s = true)) :
    deliverData s src e.tag b v d = touchSlot (readAnswered (recordAnswer s e.tag src.sender .data v) e.tag
      (dataFrame (self s) e.tag e.blk w c)) i := by
  have held : heldVersion s e.blk = some w := by simp [heldVersion, copy]
  have noneHigher : (e.heardData fun y => decide (w ≤ y)) = false := by
    refine Bool.eq_false_iff.2 fun heard => ?_
    obtain ⟨x, mem, y, data, le⟩ := (heardData_iff e fun y => w ≤ y).1 heard
    exact BitVec.not_le.2 (lower x mem y data) le
  have waitsOrNot : e.state = .slotWait ∨ e.state = .suppressed := by
    rcases state with ⟨h, -⟩ | ⟨h, -⟩ | ⟨h, -⟩
    · exact .inr h
    · exact .inl h
    · exact .inl h
  have due : correctionDue s e v = true :=
    (correctionDue_iff s e v).2 ⟨serving, unlisted, waitsOrNot, unsent, w, held, below, noneHigher⟩
  have corrected := deliverData_of_corrected found counts read due copy (BitVec.le_of_lt below) room d
  rcases state with ⟨suppressed, noneWaits⟩ | ⟨waiting, taken, slot⟩ | ⟨waiting, refused, noneWaits, unique⟩
  · exact corrected (answerTaken_of_unanswered (by rw [suppressed]; rfl) noneWaits)
  · refine corrected (answerTaken_of_passes ?_)
    rw [suppresses_data_of_read s v read]
    refine suppressesRead_of_below taken ?_ (measuredVersion_of_held held) below
    rw [hasData_of_slotWait waiting, Option.isSome_iff_ne_none]
    exact slot
  · by_cases others : e.sent = none ∨ src.sender ≠ ownNumber s
    · refine deliverData_of_corrected_refused found counts read due copy (BitVec.le_of_lt below) room d unique waiting
        noneWaits (answerTaken_of_suppresses ?_ others)
      rw [suppresses_data_of_read s v read]
      exact suppressesRead_of_idle _ (.inl refused)
    · exact corrected (answerTaken_of_own others)

end

/-! ### DATA and CURRENT at a FETCH -/

section
variable (fetch : e.kind = .peerFetch) (v : Version)
include fetch

/-- A DATA that suppresses a FETCH (R149, R150). -/
theorem deliverData_of_fetch_suppressed (d : Data) (takes : suppressesFetch s e .data v = true)
    (others : e.sent = none ∨ src.sender ≠ ownNumber s)
    (unsent : NoDataSent (suppress (recordAnswer s e.tag src.sender .data v) e) e.tag) :
    deliverData s src e.tag b v d = suppress (recordAnswer s e.tag src.sender .data v) e :=
  deliverData_of_suppresses found counts (.inr fetch) (fun read => by simp [fetch] at read) d
    ((suppresses_of_fetch s .data v fetch).trans takes) others unsent

/-- A DATA below the held version, which is above the one asked about, is recorded (R150). -/
theorem deliverData_of_fetch_lower (d : Data) {w : Version} (taken : e.reason = none)
    (held : heldVersion s e.blk = some w) (above : aboveRequested e w = true) (below : v < w) :
    deliverData s src e.tag b v d = recordAnswer s e.tag src.sender .data v := by
  refine deliverData_of_passes found counts (.inr fetch) (fun read => by simp [fetch] at read) d ?_ held
    (BitVec.le_of_lt below)
  rw [suppresses_of_fetch s .data v fetch,
    suppressesFetch_of_above .data v taken (measuredVersion_of_held held) above]
  simp [below]

theorem deliverCurrent_of_fetch_suppressed (range : inRange s b = true)
    (takes : suppressesFetch s e .current v = true) (others : e.sent = none ∨ src.sender ≠ ownNumber s) :
    deliverCurrent s src e.tag b v = suppress (recordAnswer s e.tag src.sender .current v) e := by
  rw [deliverCurrent_of_counts found counts v fetch range]
  exact answerTaken_of_suppresses ((suppresses_of_fetch s .current v fetch).trans takes) others

theorem deliverCurrent_of_fetch_passed (range : inRange s b = true)
    (passes : suppressesFetch s e .current v = false) :
    deliverCurrent s src e.tag b v = recordAnswer s e.tag src.sender .current v := by
  rw [deliverCurrent_of_counts found counts v fetch range]
  exact answerTaken_of_passes ((suppresses_of_fetch s .current v fetch).trans passes)

section
variable (d : Data) (taken : e.reason = none) (others : e.sent = none ∨ src.sender ≠ ownNumber s)
  (unsent : NoDataSent (suppress (recordAnswer s e.tag src.sender .data v) e) e.tag)
include taken others unsent

/-- A FETCH whose answer would be DATA: a DATA not below the held version suppresses it, a CURRENT does not (R150). -/
theorem deliver_of_fetch_above {w : Version} (held : heldVersion s e.blk = some w)
    (asked : e.requested = some .unknown ∨ ∃ r, e.requested = some (.known r) ∧ r < w) :
    (w ≤ v → deliverData s src e.tag b v d = suppress (recordAnswer s e.tag src.sender .data v) e)
      ∧ (v < w → deliverData s src e.tag b v d = recordAnswer s e.tag src.sender .data v)
      ∧ (inRange s b = true → deliverCurrent s src e.tag b v = recordAnswer s e.tag src.sender .current v) := by
  have above := aboveRequested_of_above asked
  have measured (k : Kind) := suppressesFetch_of_above k v taken (measuredVersion_of_held held) above
  refine ⟨fun le => ?_, fun below => ?_, fun range => ?_⟩
  · exact deliverData_of_fetch_suppressed found counts fetch v d ((measured _).trans (by simp [le])) others unsent
  · exact deliverData_of_fetch_lower found counts fetch v d taken held above below
  · exact deliverCurrent_of_fetch_passed found counts fetch v range (measured _)

/-- A FETCH whose answer would be no DATA is suppressed by a DATA and by a CURRENT (R150). -/
theorem deliver_of_fetch_reached
    (reached : ∀ w, measuredVersion s e = some w → aboveRequested e w = false) :
    deliverData s src e.tag b v d = suppress (recordAnswer s e.tag src.sender .data v) e
      ∧ (inRange s b = true →
        deliverCurrent s src e.tag b v = suppress (recordAnswer s e.tag src.sender .current v) e) := by
  have takes (k : Kind) := suppressesFetch_of_reached k v taken reached
  exact ⟨deliverData_of_fetch_suppressed found counts fetch v d (takes _) others unsent,
    fun range => deliverCurrent_of_fetch_suppressed found counts fetch v range (takes _) others⟩

end

end

/-! ### DATA heard after DATA was sent (R53, R151) -/

section
variable (v : Version) (d : Data) (kind : e.kind = .clientRead ∨ e.kind = .peerFetch)
  (finished : e.state.finished = true) (sent : e.sentData = true) (noneWaits : waitingAnswer s e = none)
  (serves : inService s = true) (range : inRange s e.blk = true)
include kind finished sent noneWaits serves range

theorem deliverData_of_sent_held {w : Version} (held : heldVersion s e.blk = some w) :
    deliverData s src e.tag b v d =
      if w < v then listBlock (recordAnswer s e.tag src.sender .data v) e.blk
      else recordAnswer s e.tag src.sender .data v := by
  rw [deliverData_of_settled found counts v d kind fun _ => not_correctionDue_of_sent sent,
    answerTaken_of_unanswered finished noneWaits]
  exact staleIf_of_sent_held (s := recordAnswer s e.tag src.sender .data v) v (findEntry_recordAnswer _ found) sent
    serves range held

theorem deliverData_of_sent_unheld (unheld : heldVersion s e.blk = none) (up : s.port.down = false) :
    let u := recordAnswer s e.tag src.sender .data v
    deliverData s src e.tag b v d =
      if isFilling s e.blk then addWaiter u e.blk .record (.stale v)
      else if headerInFlight s e.blk then addWaiter u e.blk .header (.stale v)
      else issue (addWaiter u e.blk .header (.stale v)) (.readHeader e.blk) := by
  rw [deliverData_of_settled found counts v d kind fun _ => not_correctionDue_of_sent sent,
    answerTaken_of_unanswered finished noneWaits]
  exact staleIf_of_sent_unheld (s := recordAnswer s e.tag src.sender .data v)
    (e := { e with heard := addAnswer e.heard src.sender .data v }) v (findEntry_recordAnswer _ found) sent serves
    range unheld up

end

end

end Sys2Proof.Machine
end

section
/-! The statement about the answers heard at a READ or a FETCH: each case with the Peer Table before it. -/

namespace Sys2Proof.Machine

theorem AtPeers.table {s t : State} (a : AtPeers s t) : t.table = s.table := by
  obtain ⟨_, _, _, rfl⟩ := a
  rfl

/-- Settles O41: by what each answer does at the entry of its tag, on the state that the Peer Table leaves. -/
theorem answersSuppressRead : Obligations.AnswersSuppressRead := by
  unfold Obligations.AnswersSuppressRead
  intro s src tag b v d reason e h heard unavailable data current others found kind
  obtain rfl : e.tag = tag := (findEntry_some found).2
  have aside : AtPeers (afterEcho s) h := signOfLife_atPeers (afterEcho s) src
  have member : h.member = s.member := aside.member
  have ofUnavailable {t : State} (eq : deliverUnavailable h src e.tag b = t) : unavailable t := fun takes => by
    rw [exec_unavailableHeard takes, eq]
  have ofData {t : State} (eq : deliverData h src e.tag b v d = t) : data t := fun takes => by
    rw [exec_dataHeard takes, eq]
  have ofCurrent {t : State} (eq : deliverCurrent h src e.tag b v = t) : current t := fun takes => by
    rw [exec_currentHeard takes, eq]
  have counted (block : e.block = some b) (mark : src.mark = h.member.mark) : countsFor h e src b = true :=
    (countsFor_iff h e src b).2 ⟨block, mark⟩
  have blk (block : e.block = some b) : e.blk = b := by simp [Entry.blk, block]
  have others_iff : others ↔ e.sent = none ∨ src.sender ≠ ownNumber h := by
    unfold ownNumber
    rw [member]
    rfl
  have ofRead (read : e.kind = .clientRead) : answerPurpose e.kind = .readAnswer := by rw [read]; rfl
  have ofFetch (fetch : e.kind = .peerFetch) : answerPurpose e.kind = .fetchAnswer := by rw [fetch]; rfl
  refine ⟨fun passed => ?_, fun block mark => ⟨fun read => ?_, fun own => ?_⟩,
    fun block mark read other => ?_, fun f w block mark read answered taken waits kindOf held below => ?_,
    fun block mark read unsent serving unlisted i w c copy below lower room state => ?_,
    fun block mark fetch waiting taken other unsent => ?_,
    fun block mark fetch answered taken other queued f waits kindOf => ?_,
    fun block mark fetch refused other unsent => ?_, fun block mark finished sent noneWaits serves range => ?_⟩
  · have uncounted : countsFor h e src b = false := by
      rw [Bool.eq_false_iff, ne_eq, countsFor_iff]
      exact fun ⟨block, mark⟩ => passed.elim (· block) (· mark)
    obtain ⟨u, t, c⟩ := deliver_of_uncounted found v d uncounted
    exact ⟨ofUnavailable u, ofData t, ofCurrent c⟩
  · exact ofCurrent (deliverCurrent_of_read found v read)
  · exact ofUnavailable (deliverUnavailable_of_own found (counted block mark) kind (others_iff.not.1 own))
  all_goals
    have counts := counted block mark
    obtain rfl := blk block
  · have other := others_iff.1 other
    have purpose := ofRead read
    have answer : waitingAnswer h e = waitingFrame h .readAnswer e.tag := by rw [← purpose]; rfl
    rw [← answer]
    intro suppressed withdrawn
    have waitEnds (k : Kind) (w : Version) (waiting : e.state = .slotWait) :
        suppress (heard k w) e = suppressed (heard k w) := suppress_of_slotWait purpose waiting
    have answerGoes (k : Kind) (w : Version) (finished : e.state.finished = true) :
        suppress (heard k w) e = withdrawn (heard k w) := suppress_of_finished purpose finished
    have gone := deliverUnavailable_of_others found counts kind other
    refine ⟨fun waiting => ofUnavailable (gone.trans (waitEnds _ _ waiting)),
      fun finished => ofUnavailable (gone.trans (answerGoes _ _ finished)),
      fun waiting unsent reached noAnswer => ofData ?_, fun ended unsent noAnswer => ofData ?_,
      fun f answered taken waits kindOf queued reached => ofData ?_⟩
    · exact (deliverData_of_waiting found counts read v d other unsent reached noAnswer).trans (waitEnds _ _ waiting)
    · rcases ended with state | state | state
      all_goals exact (deliverData_of_unanswered found counts read v d other unsent (by simp [state])
        (by simp [state]) noAnswer).trans (answerGoes _ _ (by rw [state]; rfl))
    · exact (deliverData_of_answered found counts read v d other answered waits kindOf (purpose ▸ queued)
        reached).trans (answerGoes _ _ (by rw [answered]; rfl))
  · exact ofData (deliverData_of_lower found counts read v d answered taken (by rw [← waits, ← ofRead read]; rfl)
      kindOf held below)
  · have answer : waitingAnswer h e = waitingFrame h .readAnswer e.tag := by rw [← ofRead read]; rfl
    have unique (same : tagsUnique s = true) : tagsUnique h = true := by
      unfold tagsUnique
      rw [aside.table]
      exact same
    have sameSelf : self h = self s := by
      unfold self ownNumber
      rw [member]
    rw [← answer] at state
    refine ofData ((deliverData_of_correctable found counts read v d unsent (member ▸ serving) unlisted copy below
      lower room ?_).trans ?_)
    · exact state.imp_right (Or.imp_right fun ⟨waiting, refused, noneWaits, same⟩ =>
        ⟨waiting, refused, noneWaits, unique same⟩)
    · rw [sameSelf]
      rfl
  · have other := others_iff.1 other
    have purpose := ofFetch fetch
    have answer : waitingAnswer h e = waitingFrame h .fetchAnswer e.tag := by rw [← purpose]; rfl
    intro suppressed
    have waitEnds (k : Kind) (w : Version) : suppress (heard k w) e = suppressed (heard k w) :=
      suppress_of_slotWait purpose waiting
    have stays := noDataSent_of_suppressed (src := src) found .data v unsent
    refine ⟨ofUnavailable ((deliverUnavailable_of_others found counts kind other).trans (waitEnds _ _)),
      fun w held asked => ?_, fun reached => ?_⟩
    · obtain ⟨notBelow, lower, passed⟩ := deliver_of_fetch_above found counts fetch v d taken other stays held asked
      exact ⟨fun le => ofData ((notBelow le).trans (waitEnds _ _)), fun below => ofData (lower below),
        fun range => ofCurrent (passed range)⟩
    · have atMost : ∀ w, measuredVersion h e = some w → aboveRequested e w = false := by
        intro w measured
        rcases reached with ⟨unheld, noneWaits⟩ | ⟨w', r, held', known, le⟩
        · have held := held_of_measured (fun f waits => by simp [answer, noneWaits] at waits) measured
          simp [unheld] at held
        · have same := (measuredVersion_of_held held').symm.trans measured
          exact aboveRequested_of_reached known (Option.some.inj same ▸ le)
      obtain ⟨byData, byCurrent⟩ := deliver_of_fetch_reached found counts fetch v d taken other stays atMost
      exact ⟨ofData (byData.trans (waitEnds _ _)), fun range => ofCurrent ((byCurrent range).trans (waitEnds _ _))⟩
  · have other := others_iff.1 other
    have purpose := ofFetch fetch
    have waits : waitingAnswer h e = some f := by rw [← waits, ← purpose]; rfl
    have finished : e.state.finished = true := by rw [answered]; rfl
    intro withdrawn
    have answerGoes (k : Kind) (w : Version) : suppress (heard k w) e = withdrawn (heard k w) :=
      suppress_of_finished purpose finished
    have stays : NoDataSent (suppress (recordAnswer h e.tag src.sender .data v) e) e.tag := by
      cases sent : e.sentData with
      | false => exact noDataSent_of_suppressed found _ _ sent
      | true =>
        exact suppress_noDataSent (s := recordAnswer h e.tag src.sender .data v) finished waits (kindOf sent)
          (purpose ▸ queued)
    refine ⟨ofUnavailable ((deliverUnavailable_of_others found counts kind other).trans (answerGoes _ _)),
      fun w held => ⟨fun asked => ?_, fun ⟨r, known, le⟩ => ?_⟩⟩
    · obtain ⟨notBelow, lower, passed⟩ := deliver_of_fetch_above found counts fetch v d taken other stays held asked
      exact ⟨fun le => ofData ((notBelow le).trans (answerGoes _ _)), fun below => ofData (lower below),
        fun range => ofCurrent (passed range)⟩
    · have atMost : ∀ x, measuredVersion h e = some x → aboveRequested e x = false := fun x measured =>
        Option.some.inj ((measuredVersion_of_held held).symm.trans measured) ▸ aboveRequested_of_reached known le
      obtain ⟨byData, byCurrent⟩ := deliver_of_fetch_reached found counts fetch v d taken other stays atMost
      exact ⟨ofData (byData.trans (answerGoes _ _)), fun range => ofCurrent ((byCurrent range).trans (answerGoes _ _))⟩
  · have other := others_iff.1 other
    have purpose := ofFetch fetch
    intro suppressed withdrawn
    have gone := deliverUnavailable_of_others found counts kind other
    have outdone := deliverData_of_fetch_suppressed found counts fetch v d
      (suppressesFetch_of_refused _ _ refused) other (noDataSent_of_suppressed found _ _ unsent)
    refine ⟨fun range => ofCurrent ?_, fun waiting => ?_, fun answered => ?_⟩
    · exact deliverCurrent_of_fetch_passed found counts fetch v range (suppressesFetch_of_refused _ _ refused)
    · exact ⟨ofUnavailable (gone.trans (suppress_of_slotWait purpose waiting)),
        ofData (outdone.trans (suppress_of_slotWait purpose waiting))⟩
    · have finished : e.state.finished = true := by rw [answered]; rfl
      exact ⟨ofUnavailable (gone.trans (suppress_of_finished purpose finished)),
        ofData (outdone.trans (suppress_of_finished purpose finished))⟩
  · have serves : inService h = true := aside.inService.trans serves
    have up : s.port.down = false → h.port.down = false := fun up => (congrArg Port.down aside.port).trans up
    refine ⟨fun w held => ofData ?_, fun unheld down => ofData ?_⟩
    · exact deliverData_of_sent_held found counts v d kind finished sent noneWaits serves range held
    · exact deliverData_of_sent_unheld found counts v d kind finished sent noneWaits serves range unheld (up down)

end Sys2Proof.Machine
end

section
/-! Resets (R164, R165): the state after a power-on reset, and what a write broken off leaves in the record memory (R96). -/

namespace Sys2Proof.Machine

/-! ### The reset state -/

/-- Settles O2: every field as its block's reset value has it. -/
theorem resetState : Obligations.ResetState := by
  unfold Obligations.ResetState
  and_intros <;> rfl

/-- At reset every collection but the 48 slots is empty, and a FREE slot is current for no block. -/
theorem reset_sound : Sound State.reset where
  roomy := ⟨Nat.zero_le _, Nat.zero_le _, Nat.zero_le _, Nat.zero_le _, Nat.zero_le _⟩
  table := ⟨Nat.zero_le _, List.nodup_nil⟩
  slots := List.length_replicate
  current := by
    rw [singleCurrent_iff]
    have noneCurrent : State.reset.cache.slots.filterMap Slot.currentBlock = [] :=
      List.filterMap_replicate_of_none rfl
    rw [noneCurrent]
    exact List.nodup_nil
  pushes := Nat.zero_le _
  fetches := Nat.zero_le _

/-- Settles O3: the empty station is sound, and no record is listed. -/
theorem resetIsSound : Obligations.ResetIsSound := by
  unfold Obligations.ResetIsSound
  obtain ⟨within, unique, once⟩ := (sound_iff _).1 reset_sound
  exact ⟨within, unique, once, reset_mediaWf⟩

/-! ### A power-on reset (R96, R164) -/

/-- A power-on reset of a station whose operation broken off leaves this memory, with so many free values used. -/
def poweredOn (s : State) (media : List (Nat × Record)) (used : Nat) : State :=
  { State.reset with
    pins := s.pins, clock := s.clock, freeCount := used, nextId := s.nextId, media := media,
    member := { State.reset.member with straps := s.member.straps },
    port := { State.reset.port with op := s.port.op }, pending := s.pending }

theorem exec_powerOnReset {s : State} {media : List (Nat × Record)} {used : Nat}
    (left : breakOff s = { s with media := media, freeCount := used }) :
    exec .powerOnReset s = .next (poweredOn s media used) := by
  refine Eq.trans (b := execPowerOnReset s) rfl ?_
  unfold execPowerOnReset
  rw [left]
  rfl

theorem breakOff_of_noWrite {s : State} (h : s.port.phase = .idle ∨ s.port.phase = .reading ∨ s.port.phase = .probing) :
    breakOff s = s := by
  unfold breakOff
  rcases h with phase | phase | phase <;> simp only [phase]

section
variable {s : State} {b : Block} {v : Version} {d : Data} {i : Nat} {rest : List MediaCmd}
  (head : s.port.queue = .writeRecord b v d i :: rest)
include head

theorem breakOff_of_writing (phase : s.port.phase = .writing) : breakOff s = breakWrite s b v d := by
  unfold breakOff
  simp only [phase, head]

theorem breakOff_of_readingBack (phase : s.port.phase = .readingBack) : breakOff s = breakReadBack s b := by
  unfold breakOff
  simp only [phase, head]

end

/-- What a write ended by fault or timeout can leave (R96). -/
theorem failedWriteRecord_cases (r : Record) (v : Version) (d : Data) (c : BitVec 2) :
    failedWriteRecord r v d c = r ∨ failedWriteRecord r v d c = newRecord v d
      ∨ failedWriteRecord r v d c = damage (newRecord v d) := by
  unfold failedWriteRecord
  split_ifs <;> simp

/-- Settles O18: by what the reset leaves of the memory where no write is under way, where one is, and where its
read-back is. -/
theorem powerOnReset : Obligations.PowerOnReset := by
  unfold Obligations.PowerOnReset
  intro s after
  refine ⟨fun noWrite => exec_powerOnReset (breakOff_of_noWrite noWrite), fun b v d i rest head phase => ?_,
    fun b v d i rest head phase => ?_⟩
  · exact ⟨_, exec_powerOnReset (breakOff_of_writing head phase), failedWriteRecord_cases _ v d _⟩
  · refine ⟨_, exec_powerOnReset (breakOff_of_readingBack head phase), ?_⟩
    split
    · exact .inr rfl
    · exact .inl rfl

end Sys2Proof.Machine
end

section
/-! Every step keeps the capacities (R58, R72, R97, R124, R128, R139, R143, R186), the uniqueness of tags (R58) and the
one current slot of a block (R73). -/

namespace Sys2Proof.Machine

/-- Soundness looks at the collections alone; an emptied transmit queue does no harm to it. -/
theorem Sound.of_parts {s t : State} (ok : Sound s) (queue : t.bus.queue = s.bus.queue ∨ t.bus.queue = [])
    (table : t.table = s.table) (slots : t.cache.slots = s.cache.slots) (media : t.port.queue = s.port.queue)
    (replay : t.replay = s.replay) (repair : t.repair = s.repair) : Sound t where
  roomy := by
    obtain ⟨hq, hl, hm, hp, hr⟩ := ok.roomy
    rw [← media] at hm
    rw [← replay] at hp
    rw [← repair] at hr
    rcases queue with same | empty
    · exact ⟨same ▸ hq, same ▸ hl, hm, hp, hr⟩
    · exact ⟨empty ▸ Nat.zero_le _, empty ▸ Nat.zero_le _, hm, hp, hr⟩
  table := by
    have tags : tagsOf t = tagsOf s := congrArg (List.map Entry.tag) table
    exact ⟨table ▸ ok.table.1, tags ▸ ok.table.2⟩
  slots := slots ▸ ok.slots
  current := slots ▸ ok.current
  pushes := replay ▸ ok.pushes
  fetches := repair ▸ ok.fetches

theorem Sound.withPins {s : State} (ok : Sound s) (p : Straps) : Sound { s with pins := p } :=
  ok.of_parts (.inl rfl) rfl rfl rfl rfl rfl

theorem execPowerOnReset_sound {s t : State} (ok : Sound s) (h : execPowerOnReset s = .next t) : Sound t := by
  cases h
  have emptied : Sound (resetBlocks (breakOff s) false) :=
    (resetBlocks_stays _ _).holds.sound ((breakOff_tends s).sound ok)
  exact emptied.of_parts (.inr rfl) rfl rfl rfl rfl rfl

theorem execResetRelease_sound {straps : Straps} {s t : State} (ok : Sound s)
    (h : execResetRelease straps s = .next t) : Sound t := by
  unfold execResetRelease at h
  split at h
  · cases h
    have emptied : Sound (resetBlocks { s with pins := straps } straps.writeBack) :=
      (resetBlocks_stays _ _).holds.sound (ok.withPins straps)
    exact (enterStarting_keeps _).holds.sound (emptied.of_parts (.inr rfl) rfl rfl rfl rfl rfl)
  · cases h
    exact ok

/-- Every command keeps a sound state sound: the resets by what they empty, every other by what its effects and the
engines' work keep. -/
theorem exec_sound {c : Instr} {s t : State} (ok : Sound s) (h : exec c s = .next t) : Sound t := by
  cases c with
  | powerOnReset => exact execPowerOnReset_sound ok h
  | resetRelease => exact execResetRelease_sound ok h
  | mediaReady => exact (execMediaReady_tends _ _ _ h).sound (ok.withPins _)
  | mediaFault => exact (execMediaFault_tends _ h).sound ok
  | attemptTimeout => exact (execAttemptTimeout_tends h).sound ok
  | probeLimitExpiry => exact (execProbeLimitExpiry_holds h).sound ok
  | lineIdle => exact (execLineIdle_holds h).sound ok
  | arbitrationEnd => exact (execArbitrationEnd_holds _ h).sound ok
  | frameSent => exact (execFrameSent_holds h).sound ok
  | attemptFailed => exact (execAttemptFailed_holds h).sound ok
  | receiveCheckFail => exact (execReceiveCheckFail_holds h).sound ok
  | presentHeard => exact (execPresentHeard_holds _ _ _ h).sound ok
  | rosterHeard => exact (execRosterHeard_holds _ _ h).sound ok
  | rosterQueryHeard => exact (execRosterQueryHeard_holds _ h).sound ok
  | peerDownHeard => exact (execPeerDownHeard_holds _ _ h).sound ok
  | rejoinHeard => exact (execRejoinHeard_holds _ h).sound ok
  | caughtUpHeard => exact (execCaughtUpHeard_holds _ h).sound ok
  | replayDoneHeard => exact (execReplayDoneHeard_holds _ _ _ h).sound ok
  | stationResetHeard =>
    obtain ⟨p, held⟩ := execStationResetHeard_holds _ _ h
    exact held.sound (ok.withPins p)
  | orderHeard => exact (execOrderHeard_holds _ _ _ _ h).sound ok
  | ackHeard => exact (execAckHeard_holds _ _ _ _ h).sound ok
  | nackHeard => exact (execNackHeard_holds _ _ _ _ _ h).sound ok
  | dataHeard => exact (execDataHeard_holds _ _ _ _ _ h).sound ok
  | unavailableHeard => exact (execUnavailableHeard_holds _ _ _ _ h).sound ok
  | currentHeard => exact (execCurrentHeard_holds _ _ _ _ h).sound ok
  | readHeard => exact (execReadHeard_holds _ _ _ h).sound ok
  | writeHeard => exact (execWriteHeard_holds _ _ _ _ h).sound ok
  | flushHeard => exact (execFlushHeard_holds _ _ h).sound ok
  | fetchHeard => exact (execFetchHeard_holds _ _ _ _ _ h).sound ok
  | replayHeard => exact (execReplayHeard_holds _ _ _ _ _ _ h).sound ok
  | statusQueryHeard => exact (execStatusQueryHeard_holds _ _ _ h).sound ok
  | statusReportHeard => exact (execStatusReportHeard_holds _ _ _ _ h).sound ok
  | leadWaitExpiry => exact (execLeadWaitExpiry_holds _ h).sound ok
  | readSlotWaitExpiry => exact (execReadSlotWaitExpiry_holds _ h).sound ok
  | fetchSlotWaitExpiry => exact (execFetchSlotWaitExpiry_holds _ h).sound ok
  | rosterAnswerWaitExpiry => exact (execRosterAnswerWaitExpiry_holds h).sound ok
  | ackWindowExpiry => exact (execAckWindowExpiry_holds _ h).sound ok
  | requestLifetimeExpiry => exact (execRequestLifetimeExpiry_holds _ h).sound ok
  | retireHoldEnd => exact (execRetireHoldEnd_holds _ h).sound ok
  | replayRetryTimeExpiry => exact (execReplayRetryTimeExpiry_holds _ _ h).sound ok
  | replayAnswerWaitExpiry => exact (execReplayAnswerWaitExpiry_holds _ h).sound ok
  | replayDoneReoffer => exact (execReplayDoneReoffer_holds _ h).sound ok
  | fetchWindowClose => exact (execFetchWindowClose_holds _ h).sound ok
  | parkEnd => exact (execParkEnd_holds _ h).sound ok
  | sweepBlockRetake => exact (execSweepBlockRetake_holds _ h).sound ok
  | rejoinRequeue => exact (execRejoinRequeue_holds h).sound ok
  | catchUpLimitExpiry => exact (execCatchUpLimitExpiry_holds h).sound ok
  | caughtUpRequeue => exact (execCaughtUpRequeue_holds h).sound ok
  | listeningWindowExpiry => exact (execListeningWindowExpiry_holds h).sound ok
  | quietTimerExpiry => exact (execQuietTimerExpiry_holds h).sound ok
  | presentReoffer => exact (execPresentReoffer_holds h).sound ok
  | rosterQueryRepeat => exact (execRosterQueryRepeat_holds h).sound ok
  | ownPeerDownReoffer => exact (execOwnPeerDownReoffer_holds h).sound ok

theorem step_sound {s t : State} (ok : Sound s) (h : step s = .next t) : Sound t := by
  unfold step at h
  split at h
  · cases h
    exact ok.of_parts (.inl rfl) rfl rfl rfl rfl rfl
  · next rest _ =>
    exact exec_sound (s := { s with pending := rest }) (ok.of_parts (.inl rfl) rfl rfl rfl rfl rfl) h

/-- Settles O4: the statement's three checks are soundness, which every step keeps. -/
theorem stepKeepsSoundState : Obligations.StepKeepsSoundState := by
  unfold Obligations.StepKeepsSoundState
  intro s t ok h
  exact (sound_iff t).1 (step_sound ((sound_iff s).2 ok) h)

end Sys2Proof.Machine
end

section
/-! The request table: a FLUSH taken up with its drain set (R63, R64, R66, R88), and an entry that expires (R60, R67). -/

namespace Sys2Proof.Machine

/-! ### A FLUSH heard (R66, R88) -/

theorem exec_flushHeard {s : State} {src : Source} {t : Tag} (h : takesFrame s (flushFrame src t) = true) :
    exec (.flushHeard src t) s = .next (settle (takeFlush (afterEcho s) src t)) :=
  hear_of_takes (fun u => takeFlush u src t) h

/-- The drain set holds every slot in DIRTY or WRITING with its block and version, and nothing else (R88). -/
theorem mem_drainSet (s : State) (m : DrainMember) :
    m ∈ drainSet s ↔ (∃ d o, s.cache.slots[m.slot]? = some (.dirty m.block m.version d o))
      ∨ ∃ d, s.cache.slots[m.slot]? = some (.writing m.block m.version d) := by
  unfold drainSet
  rw [List.mem_filterMap]
  constructor
  · rintro ⟨⟨x, i⟩, at_, made⟩
    rw [List.mem_zipIdx_iff_getElem?] at at_
    cases x with
    | dirty b v d o =>
      obtain rfl := Option.some.inj made
      exact .inl ⟨d, o, at_⟩
    | writing b v d =>
      obtain rfl := Option.some.inj made
      exact .inr ⟨d, at_⟩
    | free | held | filling | clean | retiring => cases made
  · rintro (⟨d, o, at_⟩ | ⟨d, at_⟩)
    · exact ⟨(_, m.slot), List.mem_zipIdx_iff_getElem?.2 at_, rfl⟩
    · exact ⟨(_, m.slot), List.mem_zipIdx_iff_getElem?.2 at_, rfl⟩

section
variable {s : State} {src : Source} {t : Tag}

theorem takeFlush_of_aside (h : inService s = false ∨ src.mark ≠ s.member.mark ∨ findEntry s t ≠ none) :
    takeFlush s src t = s := by
  unfold takeFlush
  refine if_neg ?_
  rcases h with away | other | known
  · simp [away]
  · simp [markMatches, other]
  · simp [known]

variable (serves : inService s = true) (mark : src.mark = s.member.mark) (new : findEntry s t = none)
include serves mark new

theorem takeFlush_of_full (full : giveEntry s = none) : takeFlush s src t = s := by
  unfold takeFlush
  rw [if_pos (by simp [serves, markMatches, mark, new])]
  simp only [full]

theorem takeFlush_of_given {g : State} (given : giveEntry s = some g) :
    takeFlush s src t
      = addEntry g { newEntry g t .clientFlush none .draining with drain := drainSet g } := by
  unfold takeFlush
  rw [if_pos (by simp [serves, markMatches, mark, new])]
  simp only [given]

end

/-- Settles O45: by whether the FLUSH is taken up and whether the table gives it an entry; a table with room gives one
as it stands. -/
theorem flushTakenUp : Obligations.FlushTakenUp := by
  unfold Obligations.FlushTakenUp
  intro s src tag takes h
  rw [exec_flushHeard takes]
  refine ⟨fun aside => ?_, fun serves mark new full => ?_, fun serves mark new g given => ?_,
    fun serves mark new room => ?_⟩
  · rw [takeFlush_of_aside (s := h) aside]
  · rw [takeFlush_of_full (s := h) serves mark new full]
  · rw [takeFlush_of_given (s := h) serves mark new given]
    exact ⟨drainSet g, rfl, mem_drainSet g⟩
  · rw [takeFlush_of_given (s := h) serves mark new (giveEntry_of_room (s := h) room)]
    exact ⟨drainSet s, rfl, mem_drainSet s⟩

/-! ### An entry that expires (R60, R67) -/

theorem findEntry_updateEntry_other {t u : Tag} (s : State) {f : Entry → Entry} (hf : ∀ x, (f x).tag = x.tag)
    (other : u ≠ t) : findEntry (updateEntry s t f) u = findEntry s u := by
  rw [findEntry_updateEntry_any s u t hf]
  cases found : findEntry s u with
  | none => rfl
  | some x =>
    have same : x.tag = u := (findEntry_some found).2
    exact congrArg some (if_neg (same ▸ other))

/-- A counter stands still at its greatest value and counts one on below it (R195). -/
theorem advance_eq (c : BitVec 16) : advance c = if c = 65535 then 65535 else c + 1 := by
  unfold advance
  split
  next top => exact top
  next => rfl

/-- Settles O54: by the entry found after the change and the counter that it advances; the other blocks are left alone
(the laws of `expireEntry`). -/
theorem expiredEntry : Obligations.ExpiredEntry := by
  unfold Obligations.ExpiredEntry
  intro s tag e found t
  have counted : t.counters = { s.counters with entriesExpired := advance s.counters.entriesExpired } := rfl
  rw [counted, advance_eq]
  exact ⟨findEntry_finishEntry .expired found, fun u other => findEntry_updateEntry_other s (fun _ => rfl) other, rfl,
    expireEntry_bus s tag, rfl, expireEntry_port s tag, expireEntry_member s tag, expireEntry_peers s tag,
    expireEntry_replay s tag, expireEntry_repair s tag⟩

end Sys2Proof.Machine
end

section
/-! The Block Cache: which slot it gives (R74, R75), and which one the flusher takes (R84). -/

namespace Sys2Proof.Machine

/-! ### The least recent of several -/

theorem leastRecent_some {l : List (Nat × Nat)} {x : Nat × Nat} (h : leastRecent l = some x) :
    x ∈ l ∧ ∀ y ∈ l, x.2 ≤ y.2 := by
  induction l generalizing x with
  | nil => cases h
  | cons z l ih =>
    unfold leastRecent at h
    cases rest : leastRecent l with
    | none =>
      obtain rfl := leastRecent_none rest
      rw [rest] at h
      cases h
      simp
    | some w =>
      obtain ⟨mem, least⟩ := ih rest
      rw [rest] at h
      dsimp only at h
      split at h <;> cases h
      next below => exact ⟨List.mem_cons_of_mem _ mem, List.forall_mem_cons.2 ⟨below.le, least⟩⟩
      next above =>
        exact ⟨List.mem_cons_self, List.forall_mem_cons.2
          ⟨le_refl _, fun y hy => (Nat.not_lt.1 above).trans (least y hy)⟩⟩

/-- A pair that is alone below all others is the one given. -/
theorem leastRecent_of_lowest {l : List (Nat × Nat)} {x : Nat × Nat} (mem : x ∈ l)
    (lowest : ∀ y ∈ l, y ≠ x → x.2 < y.2) : leastRecent l = some x := by
  cases given : leastRecent l with
  | none =>
    rw [leastRecent_none given] at mem
    cases mem
  | some y =>
    obtain ⟨memY, least⟩ := leastRecent_some given
    by_contra other
    have below := lowest y memY fun same => other (congrArg some same)
    exact absurd (least x mem) (Nat.not_le.2 below)

/-! ### Allocation (R74, R75) -/

theorem mem_replaceable (s : State) (i r : Nat) :
    (i, r) ∈ replaceable s ↔ ∃ b v d, s.cache.slots[i]? = some (.clean b v d r) ∧ pinned s i b = false := by
  unfold replaceable
  rw [List.mem_filterMap]
  constructor
  · rintro ⟨⟨x, j⟩, at_, made⟩
    rw [List.mem_zipIdx_iff_getElem?] at at_
    cases x with
    | clean b v d r' =>
      dsimp only at made at_
      split at made <;> cases made
      next unpinned => exact ⟨b, v, d, at_, by simpa using unpinned⟩
    | free | held | filling | dirty | writing | retiring => cases made
  · rintro ⟨b, v, d, at_, unpinned⟩
    exact ⟨(_, i), List.mem_zipIdx_iff_getElem?.2 at_, if_neg (by simp [unpinned])⟩

theorem Slot.isFree_iff (x : Slot) : x.isFree = true ↔ x = .free := by
  cases x <;> simp [Slot.isFree]

theorem noneFree {s : State} (h : s.cache.slots.findIdx? Slot.isFree = none) (j : Nat) :
    s.cache.slots[j]? ≠ some .free := fun at_ => by
  rw [List.findIdx?_eq_none_iff] at h
  simpa [Slot.isFree] using h .free (List.mem_of_getElem? at_)

/-- A slot given is FREE, or with no FREE one it is of lowest recency among those open to replacement (R74). -/
theorem allocate_some {s : State} {i : Nat} (h : allocate s = some i) :
    s.cache.slots[i]? = some .free
      ∨ ((∀ j : Nat, s.cache.slots[j]? ≠ some .free)
        ∧ ∃ r, (i, r) ∈ replaceable s ∧ ∀ y ∈ replaceable s, r ≤ y.2) := by
  unfold allocate at h
  cases free : s.cache.slots.findIdx? Slot.isFree with
  | some j =>
    rw [free] at h
    cases h
    obtain ⟨lt, isFree, -⟩ := List.findIdx?_eq_some_iff_getElem.1 free
    rw [List.getElem?_eq_getElem lt, (Slot.isFree_iff _).1 isFree]
    exact .inl rfl
  | none =>
    rw [free] at h
    obtain ⟨⟨k, r⟩, given, rfl⟩ := Option.map_eq_some_iff.1 h
    obtain ⟨mem, least⟩ := leastRecent_some given
    exact .inr ⟨noneFree free, r, mem, least⟩

/-- A slot that is given is one of the cache, FREE or CLEAN (R74). -/
theorem allocate_free_or_clean {s : State} {i : Nat} (h : allocate s = some i) :
    ∃ x, s.cache.slots[i]? = some x ∧ (x = .free ∨ ∃ b v d r, x = .clean b v d r) := by
  rcases allocate_some h with free | ⟨-, r, mem, -⟩
  · exact ⟨_, free, .inl rfl⟩
  · obtain ⟨b, v, d, at_, -⟩ := (mem_replaceable s i r).1 mem
    exact ⟨_, at_, .inr ⟨b, v, d, r, rfl⟩⟩

theorem allocate_lt {s : State} {i : Nat} (h : allocate s = some i) : i < s.cache.slots.length := by
  obtain ⟨x, at_, -⟩ := allocate_free_or_clean h
  exact (List.getElem?_eq_some_iff.1 at_).1

/-- A WRITING slot is not given. -/
theorem ne_of_allocate {s : State} {i j : Nat} {b : Block} {v : Version} {d : Data} (h : allocate s = some j)
    (writing : s.cache.slots[i]? = some (.writing b v d)) : i ≠ j := by
  rintro rfl
  obtain ⟨x, at_, kind⟩ := allocate_free_or_clean h
  rw [writing] at at_
  rcases kind with rfl | ⟨_, _, _, _, rfl⟩ <;> cases at_

/-- No slot is given where none is FREE and none open to replacement (R74). -/
theorem allocate_none {s : State} (h : allocate s = none) :
    (∀ j : Nat, s.cache.slots[j]? ≠ some .free) ∧ replaceable s = [] := by
  unfold allocate at h
  cases free : s.cache.slots.findIdx? Slot.isFree with
  | some j =>
    rw [free] at h
    cases h
  | none =>
    rw [free] at h
    exact ⟨noneFree free, leastRecent_none (Option.map_eq_none_iff.1 h)⟩

/-- Settles O10: by the two ways in which a slot is given and the one in which none is, the slots open to replacement
being the CLEAN ones not pinned. -/
theorem allocationOrder : Obligations.AllocationOrder := by
  unfold Obligations.AllocationOrder
  refine fun s => ⟨fun i given => ?_, fun full => ?_⟩
  · rcases allocate_some given with free | ⟨noFree, r, mem, least⟩
    · exact .inl free
    · obtain ⟨b, v, d, at_, unpinned⟩ := (mem_replaceable s i r).1 mem
      refine .inr ⟨noFree, b, v, d, r, at_, unpinned, fun j b' v' d' r' other open_ => ?_⟩
      exact least (j, r') ((mem_replaceable s j r').2 ⟨b', v', d', other, open_⟩)
  · obtain ⟨noFree, none_⟩ := allocate_none full
    refine ⟨noFree, fun j b v d r at_ => ?_⟩
    by_contra unpinned
    have mem := (mem_replaceable s j r).2 ⟨b, v, d, at_, by simpa using unpinned⟩
    rw [none_] at mem
    cases mem

/-! ### The flusher (R84) -/

theorem mem_dirtyOrders (s : State) (i o : Nat) :
    (i, o) ∈ dirtyOrders s ↔ ∃ b v d, s.cache.slots[i]? = some (.dirty b v d o) := by
  unfold dirtyOrders
  rw [List.mem_filterMap]
  constructor
  · rintro ⟨⟨x, j⟩, at_, made⟩
    rw [List.mem_zipIdx_iff_getElem?] at at_
    cases x with
    | dirty b v d o' =>
      cases made
      exact ⟨b, v, d, at_⟩
    | free | held | filling | clean | writing | retiring => cases made
  · rintro ⟨b, v, d, at_⟩
    exact ⟨(_, i), List.mem_zipIdx_iff_getElem?.2 at_, rfl⟩

theorem flushSlot_of_dirty {s : State} {i : Nat} {b : Block} {v : Version} {d : Data} {o : Nat}
    (h : s.cache.slots[i]? = some (.dirty b v d o)) :
    flushSlot s i = issue (setSlot s i (.writing b v d)) (.writeRecord b v d i) := by
  unfold flushSlot
  rw [slotAt_of_getElem h]

/-- A place free and the flusher at work, it flushes the slot of lowest commit order (R84). -/
theorem flusherStep_of_place {s : State} (works : s.member.state ≠ .out .mediaDown) (up : s.port.down = false)
    (place : writesInFlight s < 2) :
    flusherStep s = (leastRecent (dirtyOrders s)).map fun x => flushSlot s x.1 := by
  unfold flusherStep
  refine if_pos ?_
  simp [flusherRuns, works, up, Config.flushLimit, place]

/-- Settles O13: the DIRTY slot of lowest commit order is the least of the flusher's list, and is issued. -/
theorem flusherTakesLowestOrder : Obligations.FlusherTakesLowestOrder := by
  unfold Obligations.FlusherTakesLowestOrder
  intro s i b v d o works up place at_ lowest
  have least : leastRecent (dirtyOrders s) = some (i, o) := by
    refine leastRecent_of_lowest ((mem_dirtyOrders s i o).2 ⟨b, v, d, at_⟩) ?_
    rintro ⟨j, o'⟩ mem other
    obtain ⟨b', v', d', atJ⟩ := (mem_dirtyOrders s j o').1 mem
    refine lowest j b' v' d' o' atJ ?_
    rintro rfl
    rw [at_] at atJ
    cases atJ
    exact other rfl
  rw [flusherStep_of_place works up place, least, Option.map_some, flushSlot_of_dirty at_]
  rfl

end Sys2Proof.Machine
end

section
/-! Drain sets and the FLUSH answers (R89): which members leave, and what an empty drain set draws. -/

namespace Sys2Proof.Machine

/-! ### Members of a drain set -/

/-- A member stays while its slot holds its block at its version in DIRTY or WRITING (R89). -/
theorem stillDrains_iff (s : State) (m : DrainMember) :
    stillDrains s m = true ↔ (∃ d o, s.cache.slots[m.slot]? = some (.dirty m.block m.version d o))
      ∨ ∃ d, s.cache.slots[m.slot]? = some (.writing m.block m.version d) := by
  unfold stillDrains slotAt
  rw [List.getD_eq_getElem?_getD]
  cases at_ : s.cache.slots[m.slot]? with
  | none => simp
  | some x => cases x <;> simp

theorem drainStep_of_left {s : State}
    (h : ∃ e ∈ s.table, e.state = .draining ∧ ∃ m ∈ e.drain, stillDrains s m = false) :
    drainStep s = some { s with table := s.table.map (pruneDrain s) } := by
  obtain ⟨e, mem, drains, m, member, left⟩ := h
  unfold drainStep
  refine if_pos (List.any_eq_true.2 ⟨e, mem, ?_⟩)
  rw [Bool.and_eq_true, Bool.not_eq_true', List.all_eq_false]
  exact ⟨decide_eq_true drains, m, member, by simp [left]⟩

theorem drainStep_of_stays {s : State}
    (h : ∀ e ∈ s.table, e.state = .draining → ∀ m ∈ e.drain, stillDrains s m = true) : drainStep s = none := by
  unfold drainStep
  refine if_neg fun left => ?_
  obtain ⟨e, mem, found⟩ := List.any_eq_true.1 left
  obtain ⟨drains, gone⟩ := Bool.and_eq_true_iff.1 found
  rw [List.all_eq_true.2 (h e mem (of_decide_eq_true drains))] at gone
  cases gone

/-! ### The ACK of a client's request (R34, R35, R89) -/

theorem offer_table (s : State) (f : Frame) (p : Purpose) : (offer s f p).table = s.table := by
  obtain ⟨bus, counters, same⟩ := offer_spec s f p
  rw [same]

/-- Two changes of the entry with a tag are one. -/
theorem updateEntry_twice (s : State) (t : Tag) {f : Entry → Entry} (g : Entry → Entry) (hf : ∀ x, (f x).tag = x.tag) :
    updateEntry (updateEntry s t f) t g = updateEntry s t fun x => g (f x) := by
  unfold updateEntry
  simp only [List.map_map]
  congr 2
  funext x
  by_cases h : x.tag = t <;> simp [h, hf]

/-- An entry as its ACK of version `v` leaves it at this moment. -/
def Entry.ackedAt (e : Entry) (v : Version) (now : Nat) : Entry :=
  { e with
    state := .acked, sent := some { kind := .ack, version := v }, finished := e.finishTime .acked now,
    wait := none, slot := none }

theorem ackWrite_table (s : State) (t : Tag) (b : Block) (v : Version) :
    (ackWrite s t b v).table = (updateEntry s t fun x => x.ackedAt v s.clock).table := by
  have clock := (offer_aside s (ackFrame (self s) t b v) .acknowledgement).clock
  have both := updateEntry_twice (offer s (ackFrame (self s) t b v) .acknowledgement) t
    (f := fun x => { x with sent := some { kind := .ack, version := v } })
    (fun x => { x with state := .acked, finished := x.finishTime .acked s.clock, wait := none, slot := none })
    fun _ => rfl
  unfold ackWrite finishEntry recordSent
  rw [dropWaiters_table, updateEntry_clock, clock, both]
  exact congrArg (List.map _) (offer_table s _ _)

/-- Beside the entry, an ACK touches the transmit queue, the count of answers dropped and the lookups that wait. -/
theorem ackWrite_spec (s : State) (t : Tag) (b : Block) (v : Version) :
    ∃ (bus : Bus) (counters : Counters) (table : List Entry) (waiters : List Waiter),
      bus = (offer s (ackFrame (self s) t b v) .acknowledgement).bus
      ∧ ackWrite s t b v = { s with
          bus := bus, counters := counters, table := table, cache := { s.cache with waiters := waiters } } := by
  obtain ⟨bus, counters, offered⟩ := offer_spec s (ackFrame (self s) t b v) .acknowledgement
  unfold ackWrite
  rw [offered]
  exact ⟨_, _, _, _, rfl, rfl⟩

/-- A change of the entry with a tag, in a table where no other carries it. -/
theorem updateEntry_at {s : State} {pre post : List Entry} {e : Entry} (f : Entry → Entry)
    (table : s.table = pre ++ e :: post) (before : ∀ x ∈ pre, x.tag ≠ e.tag) (after : ∀ x ∈ post, x.tag ≠ e.tag) :
    (updateEntry s e.tag f).table = pre ++ f e :: post := by
  have same {l : List Entry} (h : ∀ x ∈ l, x.tag ≠ e.tag) : (l.map fun x => if x.tag = e.tag then f x else x) = l :=
    (List.map_congr_left fun x hx => if_neg (h x hx)).trans (List.map_id l)
  show s.table.map _ = _
  rw [table, List.map_append, List.map_cons, same before, same after, if_pos rfl]

/-! ### The answer to a FLUSH -/

theorem flushAnswerStep_of_drained {s : State} {pre post : List Entry} {e : Entry} (table : s.table = pre ++ e :: post)
    (before : ∀ x ∈ pre, drained s x = false) (empty : drained s e = true) :
    flushAnswerStep s = some (ackWrite s e.tag 0 0) := by
  have first : s.table.find? (drained s) = some e := by
    rw [table, List.find?_append, List.find?_eq_none.2 fun x hx => by simp [before x hx],
      List.find?_cons_of_pos empty]
    rfl
  unfold flushAnswerStep
  rw [first]
  rfl

/-- Settles O14: by the pruning of the drain sets, what keeps a member in its set, and the answer to the first FLUSH
whose set is empty. -/
theorem flushAnsweredWhenDrained : Obligations.FlushAnsweredWhenDrained := by
  unfold Obligations.FlushAnsweredWhenDrained
  refine ⟨fun s => ⟨drainStep_of_left, drainStep_of_stays⟩, stillDrains_iff,
    fun s pre post e table before after flush drains gone => ?_⟩
  have empty : drained s e = true := by
    simpa [drained, flush, drains] using gone
  have others : ∀ x ∈ pre, drained s x = false := fun x hx => by
    rcases (before x hx).2 with kind | state
    · simp [drained, kind]
    · simp [drained, state]
  have answered : (ackWrite s e.tag 0 0).table = pre ++ e.ackedAt 0 s.clock :: post :=
    (ackWrite_table s e.tag 0 0).trans (updateEntry_at _ table (fun x hx => (before x hx).1) after)
  have finished : e.finishTime .acked s.clock = some s.clock := if_neg (by simp [drains])
  unfold Entry.ackedAt at answered
  rw [finished] at answered
  obtain ⟨bus, counters, entries, waiters, offered, same⟩ := ackWrite_spec s e.tag 0 0
  refine ⟨ackWrite s e.tag 0 0, flushAnswerStep_of_drained table others empty, ?_, answered, ?_⟩
  · rw [same]
    exact offered
  · rw [same]
    exact ⟨rfl, rfl, rfl, rfl, rfl, rfl, rfl⟩

end Sys2Proof.Machine
end

section
/-! The engines at the end of a happening (R84, R89, R128, R143, R156, R157, R159, R161): their order and their bound
(log 13), the fetch begun next, and the sweep's progress (logs 28, 53). -/

namespace Sys2Proof.Machine

/-! ### The order, and the rest (log 13) -/

/-- An engine before a list of others acts where it can, and otherwise the first of them that can. -/
theorem orElse_findSome (o : Option State) (l : List (Option State)) :
    (o.orElse fun _ => l.findSome? id) = (o :: l).findSome? id := by
  cases o <;> rfl

theorem engineStep_eq (s : State) :
    engineStep s =
      [drainStep s, flushAnswerStep s, flusherStep s, groupStep s, fetchStep s, pushStep s, catchUpStep s].findSome?
        id := by
  simp only [engineStep, ← orElse_findSome, List.findSome?_nil]
  cases catchUpStep s <;> rfl

/-- The step of the engines, from a state or from none. -/
abbrev engineNext (o : Option State) : Option State := o.bind engineStep

theorem settleWithin_of_step {s t : State} (n : Nat) (h : engineStep s = some t) :
    settleWithin (n + 1) s = settleWithin n t := by
  simp only [settleWithin, h]

theorem settleWithin_of_rest {s : State} (n : Nat) (h : engineStep s = none) : settleWithin n s = s := by
  cases n with
  | zero => rfl
  | succ n => simp only [settleWithin, h]

/-- The engines work step by step, and stop where none can or where the bound is reached. -/
theorem settleWithin_iterates (n : Nat) (s : State) :
    ∃ k ≤ n, engineNext^[k] (some s) = some (settleWithin n s)
      ∧ (engineStep (settleWithin n s) = none ∨ k = n) := by
  induction n generalizing s with
  | zero => exact ⟨0, le_refl 0, rfl, .inr rfl⟩
  | succ n ih =>
    cases h : engineStep s with
    | none =>
      rw [settleWithin_of_rest _ h]
      exact ⟨0, Nat.zero_le _, rfl, .inl h⟩
    | some t =>
      obtain ⟨k, le, reached, rest⟩ := ih t
      rw [settleWithin_of_step n h]
      refine ⟨k + 1, Nat.succ_le_succ le, ?_, rest.imp_right (congrArg Nat.succ)⟩
      rw [Function.iterate_succ_apply]
      show engineNext^[k] (engineStep s) = _
      rw [h, reached]

/-! ### The fetch begun next (R143) -/

theorem fetchStep_of_barred {s : State} (h : inService s = false ∨ 4 ≤ s.repair.fetches.length) :
    fetchStep s = none := by
  unfold fetchStep
  refine if_neg ?_
  rcases h with away | full
  · simp [away]
  · simp [Config.fetchLimit, Nat.not_lt.2 full]

theorem fetchStep_of_place {s : State} (serves : inService s = true) (place : s.repair.fetches.length < 4) :
    fetchStep s = match nextRepair s with
      | some e => some (beginFetch (setRepairState s e.block .fetching) e.block false)
      | none => sweepStep s := by
  unfold fetchStep
  exact if_pos (by simp [serves, Config.fetchLimit, place])

/-- The oldest READY entry whose group has a live co-replica comes next (R143). -/
theorem nextRepair_of_oldest {s : State} {pre post : List RepairEntry} {e : RepairEntry}
    (list : s.repair.list = pre ++ e :: post) (ready : e.state = .ready) (live : groupLive s (groupOf e.block) = true)
    (older : ∀ x ∈ pre, x.state = .ready → groupLive s (groupOf x.block) = false) : nextRepair s = some e := by
  have first : pre.find? (fun x => decide (x.state = .ready) && groupLive s (groupOf x.block)) = none :=
    List.find?_eq_none.2 fun x hx => by
      rw [Bool.and_eq_true, decide_eq_true_eq]
      rintro ⟨isReady, isLive⟩
      rw [older x hx isReady] at isLive
      cases isLive
  unfold nextRepair
  rw [list, List.find?_append, first, List.find?_cons_of_pos (by simp [ready, live])]
  rfl

theorem nextRepair_none {s : State}
    (h : ∀ x ∈ s.repair.list, x.state = .ready → groupLive s (groupOf x.block) = false) : nextRepair s = none := by
  unfold nextRepair
  rw [List.find?_eq_none]
  intro x hx
  rw [Bool.and_eq_true, decide_eq_true_eq]
  rintro ⟨isReady, isLive⟩
  rw [h x hx isReady] at isLive
  cases isLive

/-! ### The sweep (R156, R157, R159) -/

theorem sweeping_iff (s : State) :
    sweeping s = true ↔ s.member.state = .catchingUp ∧ s.repair.active = true := by
  simp [sweeping]

/-- The sweep runs and no block waits for room (R159). -/
def sweepsOn (s : State) : Prop :=
  s.member.state = .catchingUp ∧ s.repair.active = true ∧ s.repair.waitingRoom = []

theorem sweepStep_of_paused {s : State} (h : ¬sweepsOn s) : sweepStep s = none := by
  unfold sweepStep
  refine if_neg fun on => h ?_
  rw [Bool.and_eq_true, sweeping_iff, List.isEmpty_iff] at on
  exact ⟨on.1.1, on.1.2, on.2⟩

theorem sweepStep_of_on {s : State} (h : sweepsOn s) :
    sweepStep s = match s.repair.retakes.find? fun r => r.due.isNone with
      | some r => some (takeAgain s r)
      | none => s.repair.group.map (takeCursor s) := by
  obtain ⟨state, active, room⟩ := h
  unfold sweepStep
  exact if_pos (by simp [(sweeping_iff s).2 ⟨state, active⟩, room])

/-- The group skipped: out of the set, no group current, its blocks from the cursor on counted unverified (R156). -/
theorem skipGroup_eq (s : State) (g : Nat) :
    skipGroup s g = { s with repair := { s.repair with
      group := none, sweepSet := s.repair.sweepSet.filter fun h => decide (h ≠ g),
      unverified := min (volume s) (s.repair.unverified + (volume s - s.repair.cursor + 63) / 64) } } := rfl

theorem groupStep_of_lowest {s : State} {g : Nat} {rest : List Nat} (on : sweeping s = true)
    (noGroup : s.repair.group = none) (set : s.repair.sweepSet = g :: rest) :
    groupStep s = some
      (if groupLive s g then { s with repair := { s.repair with group := some g, cursor := g } }
      else skipGroup { s with repair := { s.repair with group := some g, cursor := g } } g) := by
  unfold groupStep
  rw [if_pos (by simp [on, noGroup]), set]
  rfl

/-- The cursor 64 further; past the group's last block the group leaves the set (R157). -/
theorem advanceCursor_eq {s : State} {g : Nat} (group : s.repair.group = some g) :
    advanceCursor s g = { s with repair := { s.repair with
      cursor := s.repair.cursor + 64,
      group := if s.repair.cursor + 64 < volume s then some g else none,
      sweepSet := if s.repair.cursor + 64 < volume s then s.repair.sweepSet
        else s.repair.sweepSet.filter fun h => decide (h ≠ g) } } := by
  unfold advanceCursor
  by_cases more : s.repair.cursor + 64 < volume s
  · rw [if_pos more, if_pos more]
    refine (if_pos more).trans ?_
    rw [← group]
    rfl
  · rw [if_neg more, if_neg more]
    exact if_neg more

theorem takeCursor_of_dead {s : State} {g : Nat} (dead : groupLive s g = false) :
    takeCursor s g = skipGroup s g := by
  unfold takeCursor
  exact if_neg (by simp [dead])

theorem takeCursor_of_live {s : State} {g : Nat} (live : groupLive s g = true) :
    takeCursor s g = if isListed s (BitVec.ofNat 24 s.repair.cursor) then advanceCursor s g
      else beginFetch (advanceCursor s g) (BitVec.ofNat 24 s.repair.cursor) true := by
  unfold takeCursor
  exact if_pos live

/-- Settles O12: the engines in their order and their work as an iteration; then the fetch begun next and the sweep's
steps, each by what the engine finds. -/
theorem enginesRest : Obligations.EnginesRest := by
  unfold Obligations.EnginesRest
  refine ⟨fun s idle => ?_, engineStep_eq, fun s => settle_of_none, fun s t => settleWithin_of_step 4095,
    settleWithin_iterates 4096, fun s pre post e serves place list ready live older => ?_,
    fun s => fetchStep_of_barred, fun s serves place none_ => ?_, fun s g rest state active noGroup set => ?_,
    fun s barred => ?_, fun s g state active room retakes group => ?_, fun s r state active room due => ?_⟩
  · rcases idle with idle | taken
    · exact settle_of_none (engineStep_of_idle idle)
    · exact settle_of_none (engineStep_of_taken taken)
  · rw [fetchStep_of_place serves place, nextRepair_of_oldest list ready live older]
    rfl
  · rw [fetchStep_of_place serves place, nextRepair_none none_]
  · rw [groupStep_of_lowest ((sweeping_iff s).2 ⟨state, active⟩) noGroup set]
    rfl
  · refine sweepStep_of_paused fun ⟨state, active, room⟩ => ?_
    rcases barred with other | ended | waits
    · exact other state
    · rw [ended] at active
      cases active
    · exact waits room
  · have none_ : (s.repair.retakes.find? fun r => r.due.isNone) = none :=
      List.find?_eq_none.2 fun r hr => by simpa using retakes r hr
    have step : sweepStep s = some (takeCursor s g) := by
      rw [sweepStep_of_on ⟨state, active, room⟩, none_, group]
      rfl
    refine ⟨fun dead => ?_, fun live => ?_⟩
    · rw [step, takeCursor_of_dead dead, skipGroup_eq]
    · intro t
      rw [step, takeCursor_of_live live, advanceCursor_eq group]
  · intro t
    rw [sweepStep_of_on ⟨state, active, room⟩, due]
    rfl

end Sys2Proof.Machine
end

section
/-! What ends work beside a commit acknowledges no write: an entry ACKED afterwards was ACKED before. -/

namespace Sys2Proof.Machine

/-- `t` comes from `s` by an operation that makes no entry ACKED. -/
def AcksNone (s t : State) : Prop :=
  ∀ e ∈ t.table, e.state = .acked → ∃ x ∈ s.table, x.tag = e.tag ∧ x.state = .acked

theorem AcksNone.of_table {s t : State} (h : t.table = s.table) : AcksNone s t :=
  fun e mem acked => ⟨e, h ▸ mem, rfl, acked⟩

theorem AcksNone.trans {s t u : State} (a : AcksNone s t) (b : AcksNone t u) : AcksNone s u := fun e mem acked => by
  obtain ⟨x, memX, tag, was⟩ := b e mem acked
  obtain ⟨y, memY, tag', was'⟩ := a x memX was
  exact ⟨y, memY, tag'.trans tag, was'⟩

/-- `AcksNone.trans` from the end: the last operation is taken off. -/
theorem AcksNone.after {s t u : State} (b : AcksNone t u) (a : AcksNone s t) : AcksNone s u := a.trans b

theorem acksNone_foldl {α : Type} (f : State → α → State) (hf : ∀ u x, AcksNone u (f u x)) (l : List α) :
    ∀ u : State, AcksNone u (l.foldl f u) := by
  induction l with
  | nil => exact fun u => .of_table rfl
  | cons x l ih => exact fun u => (hf u x).trans (ih (f u x))

/-- A change of every entry, by one that keeps tags and makes none ACKED. -/
theorem AcksNone.of_map {s t : State} (f : Entry → Entry) (table : t.table = s.table.map f)
    (tag : ∀ x, (f x).tag = x.tag) (state : ∀ x, (f x).state = .acked → x.state = .acked) : AcksNone s t := by
  intro e mem acked
  rw [table] at mem
  obtain ⟨x, memX, rfl⟩ := List.mem_map.1 mem
  exact ⟨x, memX, (tag x).symm, state x acked⟩

theorem updateEntry_acksNone (s : State) (t : Tag) {f : Entry → Entry} (tag : ∀ x, (f x).tag = x.tag)
    (state : ∀ x, (f x).state = .acked → x.state = .acked) : AcksNone s (updateEntry s t f) := by
  refine .of_map (fun x => if x.tag = t then f x else x) rfl (fun x => ?_) fun x acked => ?_
  · split
    · exact tag x
    · rfl
  · split at acked
    · exact state x acked
    · exact acked

theorem finishEntry_acksNone (s : State) (t : Tag) {st : EntryState} (h : st ≠ .acked) :
    AcksNone s (finishEntry s t st) :=
  updateEntry_acksNone s t (fun _ => rfl) fun _ acked => absurd acked h

theorem expireEntry_acksNone (s : State) (t : Tag) : AcksNone s (expireEntry s t) :=
  finishEntry_acksNone s t (by decide)

theorem unrecorded_acksNone (s : State) (f : TxFrame) : AcksNone s (unrecorded s f) := by
  have taken : AcksNone s
      (if f.frame.kind = .data then updateEntry s f.frame.tag fun e => { e with sent := none } else s) := by
    split
    · exact updateEntry_acksNone s _ (fun _ => rfl) fun _ => id
    · exact .of_table rfl
  unfold unrecorded
  split
  · exact .of_table rfl
  · exact taken
  · exact taken
  · exact .of_table rfl

theorem entryLeft_acksNone (s : State) (t : Tag) {w : Withdrawal} (h : w ≠ .entryBecomes .acked) :
    AcksNone s (entryLeft s t w) := by
  cases w with
  | plain => exact .of_table rfl
  | entryBecomes st =>
    unfold entryLeft
    dsimp only
    split
    · exact .of_table rfl
    · split
      · split
        · exact expireEntry_acksNone s t
        · exact finishEntry_acksNone s t fun same => h (congrArg _ same)
      · exact .of_table rfl

theorem withdraw_acksNone (s : State) (sel : TxFrame → Bool) {w : Withdrawal} (h : w ≠ .entryBecomes .acked) :
    AcksNone s (withdraw s sel w) := by
  have each (u : State) (f : TxFrame) : AcksNone u (afterWithdrawal u f w) := by
    rw [afterWithdrawal_eq]
    exact (unrecorded_acksNone u f).trans (entryLeft_acksNone _ _ h)
  unfold withdraw
  dsimp only
  split
  · exact .of_table rfl
  · exact (acksNone_foldl (fun u f => afterWithdrawal u f w) each _ _).after (.of_table rfl)

theorem closeOwn_acksNone (s : State) (t : Tag) {st : EntryState} (h : st ≠ .acked) :
    AcksNone s (closeOwn s t st) := by
  unfold closeOwn
  split
  · exact .of_table rfl
  · split
    · split
      · exact expireEntry_acksNone s t
      · exact finishEntry_acksNone s t h
    · exact .of_table rfl

theorem endPush_acksNone (s : State) (p : Push) (retry : Option Nat) {st : EntryState} (h : st ≠ .acked) :
    AcksNone s (endPush s p retry st) := by
  unfold endPush
  dsimp only
  split
  · exact .of_table rfl
  · exact (withdraw_acksNone _ _ (by decide)).after ((closeOwn_acksNone _ _ h).after (.of_table rfl))

theorem endFetch_acksNone (s : State) (f : Fetch) {st : EntryState} (h : st ≠ .acked) :
    AcksNone s (endFetch s f st) := by
  unfold endFetch
  dsimp only
  split
  · exact .of_table rfl
  · exact (withdraw_acksNone _ _ (by decide)).after ((closeOwn_acksNone _ _ h).after (.of_table rfl))

theorem holdBack_acksNone (s : State) (b : Block) : AcksNone s (holdBack s b) := by
  unfold holdBack
  dsimp only
  exact ((withdraw_acksNone _ _ (by decide)).trans (withdraw_acksNone _ _ (by decide))).trans
    (acksNone_foldl _ (fun u p => endPush_acksNone u p none (by decide)) _ _)

theorem placeReady_acksNone (s : State) (b : Block) : AcksNone s (placeReady s b) :=
  (holdBack_acksNone _ b).after (.of_table rfl)

theorem fillRoom_acksNone (s : State) : AcksNone s (fillRoom s) := by
  unfold fillRoom
  dsimp only
  split
  · exact .of_table rfl
  · split
    · exact (placeReady_acksNone _ _).after (.of_table rfl)
    · exact .of_table rfl

theorem unlistBlock_acksNone (s : State) (b : Block) : AcksNone s (unlistBlock s b) := by
  unfold unlistBlock
  split
  · refine (fillRoom_acksNone _).after (AcksNone.after ?_ (.of_table rfl))
    exact acksNone_foldl _ (fun u f => endFetch_acksNone u f (by decide)) _ _
  · exact .of_table rfl

theorem holdNewSlot_acksNone (s : State) (b : Block) (i : Nat) : AcksNone s (holdNewSlot s b i) := by
  refine .of_map _ rfl (fun x => ?_) fun x acked => ?_
  · split <;> rfl
  · split at acked <;> exact acked

theorem commitSettles_acksNone (s : State) (b : Block) (i : Nat) : AcksNone s (commitSettles s b i) :=
  (unlistBlock_acksNone _ b).after (AcksNone.after (.of_table rfl) (holdNewSlot_acksNone s b i))

theorem makeCurrent_table (s : State) (i : Nat) (b : Block) (v : Version) (d : Data) :
    (makeCurrent s i b v d).table = s.table := by
  unfold makeCurrent
  split
  · rfl
  · obtain ⟨-, -, -, table, -⟩ := issue_spec (setSlot s i (.writing b v d)) (.writeRecord b v d i)
    exact table

theorem acceptCommit_acksNone (s : State) (i : Nat) (b : Block) (v : Version) (d : Data) :
    AcksNone s (acceptCommit s i b v d) := by
  refine (commitSettles_acksNone _ b i).after (.of_table ?_)
  rw [makeCurrent_table, retireFormer_eq]

end Sys2Proof.Machine
end

section
/-! What following an ORDER decides (R28, R30, R31, R33), the NACK of a write (R21), and a DIRTY slot committed again
(R30, R81). -/

namespace Sys2Proof.Machine

/-! ### The NACK of a write (R21) -/

/-- An entry as the NACK of its write, naming version `v`, leaves it at this moment. -/
def Entry.refusedAt (e : Entry) (v : Version) (r : Reason) (now : Nat) : Entry :=
  { e with
    state := .refused, finished := e.finishTime .refused now, wait := none, slot := none, reason := some r,
    sent := some { kind := .nack, version := v } }

/-- A slot once the write of this tag holds none: its HELD slot is FREE. -/
def Slot.unheldBy (t : Tag) : Slot → Slot
  | .held b d o v => if o = .clientWrite t then .free else .held b d o v
  | x => x

theorem freeHeld_of_write (s : State) (t : Tag) :
    freeHeld s (fun o => decide (o = .clientWrite t))
      = { s with cache := { s.cache with slots := s.cache.slots.map (Slot.unheldBy t) } } := by
  have each : ∀ x : Slot, (match x with
      | .held _ _ o _ => if decide (o = .clientWrite t) = true then .free else x
      | .free | .filling .. | .clean .. | .dirty .. | .writing .. | .retiring .. => x) = x.unheldBy t := fun x => by
    cases x with
    | held b d o v => simp only [Slot.unheldBy, decide_eq_true_eq]
    | free | filling | clean | dirty | writing | retiring => rfl
  rw [← funext each]
  rfl

/-- The entry REFUSED, its lookups waiting no more and its HELD slot freed, in one change of the state (R21). -/
theorem refuseEntry_eq (s : State) (t : Tag) (v : Version) (r : Reason) :
    refuseEntry s t v r = { s with
      table := (updateEntry s t fun x => x.refusedAt v r s.clock).table,
      cache := { s.cache with
        waiters := s.cache.waiters.filter fun w => !w.user.isFor t,
        slots := s.cache.slots.map (Slot.unheldBy t) } } := by
  have both := updateEntry_twice s t
    (f := fun x => { x with
      state := .refused, finished := x.finishTime .refused s.clock, wait := none, slot := none })
    (fun x => { x with reason := some r, sent := some { kind := .nack, version := v } }) fun _ => rfl
  unfold refuseEntry
  rw [freeHeld_of_write]
  exact congrArg (fun u : State => { s with
      table := u.table,
      cache := { s.cache with
        waiters := s.cache.waiters.filter fun w => !w.user.isFor t,
        slots := s.cache.slots.map (Slot.unheldBy t) } }) both

/-- The refusal after the NACK was offered: the offer touches the transmit queue and a counter alone. -/
theorem refuseEntry_offered (s : State) (t : Tag) (b : Block) (v : Version) (r : Reason) :
    refuseEntry (offerNack s t b v r) t v r = { offerNack s t b v r with
      table := (updateEntry s t fun x => x.refusedAt v r s.clock).table,
      cache := { s.cache with
        waiters := s.cache.waiters.filter fun w => !w.user.isFor t,
        slots := s.cache.slots.map (Slot.unheldBy t) } } := by
  obtain ⟨bus, counters, offered⟩ := offer_spec s (nackFrame (self s) t b v (reasonCode r)) .acknowledgement
  have offered' : offerNack s t b v r = _ := offered
  rw [refuseEntry_eq, offered']
  rfl

/-- The version a NACK names: the current slot's, or with none the one the write's own lookup delivered (log 42). -/
theorem nackVersion_eq (s : State) (b : Block) (own : Option HeldVersion) :
    nackVersion s b own = match heldVersion s b, own with
      | some v, _ => v
      | none, some (.known v) => v
      | none, _ => 0 := by
  unfold nackVersion
  cases heldVersion s b with
  | some v => rfl
  | none => rcases own with _ | _ | _ <;> rfl

theorem nackWrite_eq (s : State) (e : Entry) (r : Reason) :
    nackWrite s e r =
      let n := nackVersion s e.blk e.ownVersion
      let refused := refuseEntry (offerNack s e.tag e.blk n r) e.tag n r
      if r = .outOfRange ∨ r = .resetting then refused else listBlock refused e.blk :=
  listRefused_eq _ _ _

/-! ### What the decision turns on (R28) -/

section
variable {s : State} {t : Tag} {e : Entry} {v : Version} (found : findEntry s t = some e)
  (open_ : e.state = .waitOrder ∨ e.state = .committing ∨ e.state = .acked) (followed : e.followed = some v)
  (filling : isFilling s e.blk = false) (noCommit : ∀ p ∈ s.cache.pendings, p.block ≠ e.blk)
include found open_ followed filling noCommit

/-- With the block's slot not FILLING and no commit of the block pending, the decision is taken at once (R28). -/
theorem decideFollow_at_once :
    (e.committed = none → decideFollow s t = decideFirst s e v)
      ∧ ∀ c, e.committed = some c → decideFollow s t = decideAgain s e c v := by
  have nonePending : pendingOn s e.blk = none := by
    unfold pendingOn
    rw [Option.map_eq_none_iff, List.find?_eq_none]
    intro p hp
    simpa using noCommit p hp
  have noDefer : deferTo s e.blk = none := by
    unfold deferTo
    rw [if_neg (by simp [filling]), nonePending]
  unfold decideFollow
  simp only [found, followed, noDefer]
  rw [if_pos open_]
  exact ⟨fun none_ => by rw [none_], fun c some_ => by rw [some_]⟩

end

theorem decideFirst_of_below {s : State} {e : Entry} {v : Version}
    (h : heldForWrite s e = .unknown ∨ ∃ w, heldForWrite s e = .known w ∧ w < v) :
    decideFirst s e v = commitHeld s e v := by
  unfold decideFirst
  rcases h with unknown | ⟨w, known, below⟩
  · rw [unknown]
  · rw [known]
    exact if_pos below

theorem decideFirst_of_above {s : State} {e : Entry} {v w : Version} (known : heldForWrite s e = .known w)
    (above : v ≤ w) : decideFirst s e v = if isListed s e.blk then s else supersede s e w := by
  unfold decideFirst
  rw [known]
  exact if_neg (BitVec.not_lt.2 above)

/-- An ORDER one above the held version supersedes, or at the maximum the write is refused (R5, R31). -/
theorem supersede_eq (s : State) (e : Entry) (w : Version) :
    supersede s e w = if w = 4294967295 then nackWrite s e .versionLimit else
      { offer s (orderFrame (self s) e.tag e.blk (w + 1)) .supersedeOrder with
        table := s.table.map fun x => if x.tag = e.tag then { x with superseded := some (w + 1) } else x } := by
  have order := offer_table s (orderFrame (self s) e.tag e.blk (w + 1)) .supersedeOrder
  rw [← order]
  rfl

/-- The data of the tag is not, or no more, the block's current copy (R33; log 18). -/
theorem decideAgain_of_replaced {s : State} {e : Entry} {c v : Version}
    (h : ∀ w, heldVersion s e.blk = some w → w ≠ c) : decideAgain s e c v = nackWrite s e .noData := by
  unfold decideAgain
  cases copy : currentCopy s e.blk with
  | none => rfl
  | some x => exact if_neg (h x.2.1 (by simp [heldVersion, copy]))

theorem decideAgain_of_held {s : State} {e : Entry} {c v : Version} {i : Nat} {d : Data}
    (h : currentCopy s e.blk = some (i, c, d)) : decideAgain s e c v = if c < v then recommit s e v i else s := by
  unfold decideAgain
  rw [h]
  exact if_pos rfl

/-! ### Committing again from the tag's own slot (R30, R81) -/

section
variable {s : State} {e : Entry} {c v : Version} {d : Data} {i : Nat}

theorem recommit_of_dirty {n : Nat} (h : s.cache.slots[i]? = some (.dirty e.blk c d n)) :
    recommit s e v i = writeCommitted (commitSettles (makeDirty s i e.blk v d) e.blk i) e v := by
  unfold recommit
  rw [slotAt_of_getElem h]

/-- From a CLEAN slot the data is committed as if it were offered in that slot. -/
theorem recommit_of_clean {n : Nat} (current : currentSlot s e.blk = some i)
    (h : s.cache.slots[i]? = some (.clean e.blk c d n)) :
    recommit s e v i = writeCommitted (acceptCommit s i e.blk v d) e v := by
  have stays : retireFormer s e.blk i = s := by
    unfold retireFormer
    rw [current]
    exact if_pos rfl
  unfold recommit acceptCommit
  rw [slotAt_of_getElem h, stays]

theorem recommit_of_writing (h : s.cache.slots[i]? = some (.writing e.blk c d)) :
    (allocate s = none → recommit s e v i = nackWrite s e .cacheFull)
      ∧ ∀ j, allocate s = some j → recommit s e v i = writeCommitted (acceptCommit s j e.blk v d) e v := by
  unfold recommit
  rw [slotAt_of_getElem h]
  exact ⟨fun full => by rw [full], fun j given => by rw [given]⟩

theorem commitHeld_of_held {o : HeldOwner} {x : Option Version} (slot : e.slot = some i)
    (h : s.cache.slots[i]? = some (.held e.blk d o x)) :
    commitHeld s e v = writeCommitted (acceptCommit s i e.blk v d) e v := by
  unfold commitHeld
  simp only [slot, slotAt_of_getElem h]

end

/-- A former current slot once it has given way: RETIRING if it was WRITING, FREE otherwise (R79). -/
def Slot.gaveWay : Slot → Slot
  | .writing b v d => .retiring b v d
  | .free | .held .. | .filling .. | .clean .. | .dirty .. | .retiring .. => .free

theorem givenWay_of_other {s : State} {b : Block} {i j : Nat} (current : currentSlot s b = some j) (other : j ≠ i) :
    givenWay s b i = s.cache.slots.set j (slotAt s j).gaveWay := by
  unfold givenWay
  rw [current]
  exact if_neg other

/-- What a commit again in a DIRTY slot leaves: the slot DIRTY with a new commit order, the port as it was (R30, R81;
log 45). -/
theorem dirtyAgain_spec {s : State} {i : Nat} {b : Block} {w v : Version} {c d : Data} {n : Nat}
    (at_ : s.cache.slots[i]? = some (.dirty b w c n)) (single : SingleCurrent s.cache.slots) :
    let t := commitSettles (makeDirty s i b v d) b i
    Aside (makeDirty s i b v d) t ∧ isListed t b = false ∧ currentCopy t b = some (i, v, d) ∧ tagsOf t = tagsOf s
      ∧ t.cache.slots[i]? = some (.dirty b v d (s.cache.commitOrder + 1)) := by
  intro t
  have aside : Aside (makeDirty s i b v d) t := commitSettles_aside _ b i
  have slots : t.cache.slots = s.cache.slots.set i (.dirty b v d (s.cache.commitOrder + 1)) := aside.slots
  have atI : t.cache.slots[i]? = some (.dirty b v d (s.cache.commitOrder + 1)) := by
    rw [slots, List.getElem?_set_self (List.getElem?_eq_some_iff.1 at_).1]
  have still : SingleCurrent t.cache.slots := by
    rw [slots]
    refine single.set i _ fun b' hb => .inl ?_
    rw [at_]
    exact hb
  exact ⟨aside, unlistBlock_unlisted (by simp), currentCopy_at still atI rfl rfl,
    (commitSettles_keeps (makeDirty s i b v d) b i).tags, atI⟩

end Sys2Proof.Machine
end

section
/-! A write committed on a followed ORDER (R28 to R30, R34, R35, R79, R81, R83, R85): what it leaves at the entry, in
the cache and at the port, and the statement about what following an ORDER leads to. -/

namespace Sys2Proof.Machine

/-! ### The entry of a committed write (R34, R35, R67) -/

theorem findEntry_of_table {s t : State} (h : t.table = s.table) (u : Tag) : findEntry t u = findEntry s u := by
  unfold findEntry
  rw [h]

theorem findEntry_of_tags {s t : State} {u : Tag} {e : Entry} (tags : tagsOf t = tagsOf s)
    (found : findEntry s u = some e) : ∃ x, findEntry t u = some x := by
  obtain ⟨mem, tag⟩ := findEntry_some found
  rw [← Option.isSome_iff_exists, Option.isSome_iff_ne_none]
  refine fun none_ => findEntry_none none_ ?_
  rw [tags, ← tag]
  exact List.mem_map_of_mem mem

/-- What a commit of version `v` from `s`, where the entry was `e`, leaves at the entry found as `x`: ACKED under
write-back, and otherwise in COMMITTING, or EXPIRED where its lifetime had passed (R34, R35, R67). -/
structure CommittedEntry (s : State) (e : Entry) (v : Version) (x : Entry) : Prop where
  committed : x.committed = some v
  slot : x.slot = none
  writeBack : s.member.straps.writeBack = true → x.state = .acked ∧ x.sent = some { kind := .ack, version := v }
    ∧ (e.state ≠ .acked → x.finished = some s.clock)
  writeThrough : ¬s.member.straps.writeBack = true → x.state = .committing
    ∨ (x.state = .expired ∧ e.state = .acked ∧ e.created + 100000 ≤ s.clock)

/-- The entry with the committed version recorded and its HELD slot given up. -/
def versionRecorded (s : State) (t : Tag) (v : Version) : State :=
  updateEntry s t fun x => { x with committed := some v, slot := none }

/-- The entry back in COMMITTING, to await its record (R35). -/
def awaitingRecord (s : State) (t : Tag) (v : Version) : State :=
  updateEntry (versionRecorded s t v) t fun x => { x with state := .committing, finished := none }

theorem writeCommitted_of_writeBack {s : State} (e : Entry) (v : Version)
    (h : s.member.straps.writeBack = true) :
    writeCommitted s e v = ackWrite (versionRecorded s e.tag v) e.tag e.blk v :=
  if_pos h

theorem writeCommitted_of_writeThrough {s : State} (e : Entry) (v : Version)
    (h : ¬s.member.straps.writeBack = true) :
    writeCommitted s e v = if e.state = .acked ∧ lifetimePassed s e = true then
      expireEntry (awaitingRecord s e.tag v) e.tag else awaitingRecord s e.tag v :=
  if_neg h

theorem ackWrite_aside (s : State) (t : Tag) (b : Block) (v : Version) : Aside s (ackWrite s t b v) := by
  obtain ⟨_, _, _, _, -, same⟩ := ackWrite_spec s t b v
  rw [same]
  exact ⟨rfl, rfl, rfl, rfl⟩

theorem ackWrite_repair (s : State) (t : Tag) (b : Block) (v : Version) : (ackWrite s t b v).repair = s.repair := by
  obtain ⟨_, _, _, _, -, same⟩ := ackWrite_spec s t b v
  rw [same]

/-- The commit's record at the entry leaves the cache, the port and the repair list alone. -/
theorem writeCommitted_aside (s : State) (e : Entry) (v : Version) :
    Aside s (writeCommitted s e v) ∧ (writeCommitted s e v).repair = s.repair := by
  by_cases writeBack : s.member.straps.writeBack = true
  · rw [writeCommitted_of_writeBack e v writeBack]
    exact ⟨(ackWrite_aside _ _ _ _).after ⟨rfl, rfl, rfl, rfl⟩, ackWrite_repair _ _ _ _⟩
  · rw [writeCommitted_of_writeThrough e v writeBack]
    split <;> exact ⟨⟨rfl, rfl, rfl, rfl⟩, rfl⟩

theorem writeCommitted_entry {s : State} {e x : Entry} (v : Version) (found : findEntry s e.tag = some x)
    (acked : x.state = .acked → e.state = .acked) :
    ∃ y, findEntry (writeCommitted s e v) e.tag = some y ∧ CommittedEntry s e v y := by
  have recorded := findEntry_updateEntry (f := fun x => { x with committed := some v, slot := none }) (fun _ => rfl)
    found
  by_cases writeBack : s.member.straps.writeBack = true
  · rw [writeCommitted_of_writeBack e v writeBack]
    refine ⟨_, (findEntry_of_table (ackWrite_table _ _ _ _) _).trans
      (findEntry_updateEntry (fun _ => rfl) recorded), rfl, rfl, fun _ => ⟨rfl, rfl, fun other => ?_⟩,
      fun off => absurd writeBack off⟩
    exact if_neg fun was => other (acked was)
  · have awaiting := findEntry_updateEntry (f := fun x => { x with state := .committing, finished := none })
      (fun _ => rfl) recorded
    rw [writeCommitted_of_writeThrough e v writeBack]
    split
    next passed =>
      exact ⟨_, findEntry_finishEntry .expired awaiting, rfl, rfl, fun on => absurd on writeBack,
        fun _ => .inr ⟨rfl, passed.1, of_decide_eq_true passed.2⟩⟩
    next => exact ⟨_, awaiting, rfl, rfl, fun on => absurd on writeBack, fun _ => .inl rfl⟩

/-! ### What a commit on an ORDER leaves -/

/-- `t` is `s` with version `v` of the entry's block committed for it in slot `i`: the block's current copy, off the
repair list, and recorded at the entry (R29, R30, R79). -/
structure Committed (s t : State) (e : Entry) (i : Nat) (v : Version) (d : Data) : Prop where
  copy : currentCopy t e.blk = some (i, v, d)
  unlisted : isListed t e.blk = false
  entry : ∃ x, findEntry t e.tag = some x ∧ CommittedEntry s e v x

/-- Once the copy is in place, its record at the entry completes the commit. -/
theorem committed_of_settled {s u : State} {e : Entry} {i : Nat} {v : Version} {d : Data}
    (found : findEntry s e.tag = some e) (unique : tagsUnique s = true) (tags : tagsOf u = tagsOf s)
    (acks : AcksNone s u) (member : u.member = s.member) (clock : u.clock = s.clock)
    (copy : currentCopy u e.blk = some (i, v, d)) (unlisted : isListed u e.blk = false) :
    Committed s (writeCommitted u e v) e i v d := by
  obtain ⟨aside, repair⟩ := writeCommitted_aside u e v
  obtain ⟨x, foundX⟩ := findEntry_of_tags tags found
  obtain ⟨memX, tagX⟩ := findEntry_some foundX
  have acked : x.state = .acked → e.state = .acked := fun acked => by
    obtain ⟨y, memY, tagY, was⟩ := acks x memX acked
    rwa [entry_of_tag unique found memY (tagY.trans tagX)] at was
  obtain ⟨y, foundY, committed, slot, writeBack, writeThrough⟩ := writeCommitted_entry v foundX acked
  rw [member, clock] at writeBack
  rw [member, clock] at writeThrough
  refine ⟨(aside.currentCopy _).trans copy, ?_, y, foundY, committed, slot, writeBack, writeThrough⟩
  unfold isListed
  rw [repair]
  exact unlisted

/-- These commands were issued between `s` and `t`: into the media queue while it had room and none waited, and
otherwise behind those that waited (R83). -/
def Issued (s t : State) (c : List MediaCmd) : Prop :=
  if s.cache.waiting = [] ∧ s.port.queue.length < 8 then
    t.port.queue = s.port.queue ++ c ∧ t.cache.waiting = []
  else t.port.queue = s.port.queue ∧ t.cache.waiting = s.cache.waiting ++ c

theorem Issued.none {s t : State} (port : t.port = s.port) (waiting : t.cache.waiting = s.cache.waiting) :
    Issued s t [] := by
  unfold Issued
  rw [port, waiting, List.append_nil, List.append_nil]
  split
  next room => exact ⟨rfl, room.1⟩
  next => exact ⟨rfl, rfl⟩

theorem Issued.aside {s t u : State} {c : List MediaCmd} (h : Issued s t c) (a : Aside t u) : Issued s u c := by
  unfold Issued at *
  rwa [a.port, a.waiting]

/-- What the write committed in slot `i` leaves in the slots and at the port: the former slot given way, its own DIRTY
under write-back, and otherwise WRITING with its record issued at once (R79, R85). -/
structure PutInPlace (s t : State) (b : Block) (i : Nat) (v : Version) (d : Data) : Prop where
  slots : t.cache.slots = (givenWay s b i).set i
    (if s.member.straps.writeBack then .dirty b v d (s.cache.commitOrder + 1) else .writing b v d)
  writeBack : s.member.straps.writeBack = true → Issued s t []
  writeThrough : ¬s.member.straps.writeBack = true → s.port.down = false → Issued s t [.writeRecord b v d i]

section
variable {s : State} {e : Entry} {i : Nat} (v : Version) (d : Data) (found : findEntry s e.tag = some e)
  (unique : tagsUnique s = true) (single : SingleCurrent s.cache.slots)
include found unique single

/-- An accepted commit, recorded at its entry. -/
theorem committed_of_accepted (place : i < s.cache.slots.length) :
    Committed s (writeCommitted (acceptCommit s i e.blk v d) e v) e i v d
      ∧ PutInPlace s (writeCommitted (acceptCommit s i e.blk v d) e v) e.blk i v d := by
  obtain ⟨member, clock, unlisted, copy, tags, -, -, -, slots, kept, issued⟩ :=
    acceptCommit_spec s i e.blk v d place single
  obtain ⟨aside, -⟩ := writeCommitted_aside (acceptCommit s i e.blk v d) e v
  refine ⟨committed_of_settled found unique tags (acceptCommit_acksNone s i e.blk v d) member clock copy unlisted,
    aside.slots.trans slots, fun writeBack => ?_, fun writeThrough up => ?_⟩
  · obtain ⟨port, waiting⟩ := kept writeBack
    exact (Issued.none port waiting).aside aside
  · refine Issued.aside ?_ aside
    have made := issued (by simpa using writeThrough) up
    unfold Issued
    split
    next room => rwa [if_pos room] at made
    next full =>
      rw [if_neg full] at made
      exact ⟨congrArg _ made.1, made.2⟩

end

/-- The slot put in place, under write-back and without. -/
theorem PutInPlace.slot {s t : State} {b : Block} {i : Nat} {v : Version} {d : Data} (h : PutInPlace s t b i v d)
    (place : i < s.cache.slots.length) :
    (s.member.straps.writeBack = true → t.cache.slots[i]? = some (.dirty b v d (s.cache.commitOrder + 1)))
      ∧ (¬s.member.straps.writeBack = true → t.cache.slots[i]? = some (.writing b v d)) := by
  have atI := congrArg (fun l : List Slot => l[i]?) h.slots
  rw [List.getElem?_set_self (by rwa [givenWay_length])] at atI
  exact ⟨fun on => by rwa [if_pos on] at atI, fun off => by rwa [if_neg off] at atI⟩

/-- The former current slot after the commit: RETIRING if it was WRITING, FREE otherwise (R79). -/
theorem PutInPlace.former {s t : State} {b : Block} {i j : Nat} {v : Version} {d : Data} {x : Slot}
    (h : PutInPlace s t b i v d) (current : currentSlot s b = some j) (other : j ≠ i)
    (was : s.cache.slots[j]? = some x) :
    t.cache.slots[j]? = some x.gaveWay := by
  rw [h.slots, List.getElem?_set_ne (Ne.symm other), givenWay_of_other current other,
    List.getElem?_set_self (List.getElem?_eq_some_iff.1 was).1, slotAt_of_getElem was]

theorem singleCurrent_of_once {s : State} (h : currentOnce s = true) : SingleCurrent s.cache.slots :=
  (singleCurrent_iff _).2 (by simpa [currentOnce] using h)

/-! ### The commits: of the held data, and again of the tag's own -/

section
variable {s : State} {e : Entry} {i : Nat} {c : Version} (v : Version) {d : Data}
  (found : findEntry s e.tag = some e) (unique : tagsUnique s = true) (single : SingleCurrent s.cache.slots)
include found unique single

theorem commitHeld_commits {o : HeldOwner} {x : Option Version} (slot : e.slot = some i)
    (held : s.cache.slots[i]? = some (.held e.blk d o x)) :
    Committed s (commitHeld s e v) e i v d ∧ PutInPlace s (commitHeld s e v) e.blk i v d := by
  rw [commitHeld_of_held slot held]
  exact committed_of_accepted v d found unique single (List.getElem?_eq_some_iff.1 held).1

/-- In a DIRTY slot, which stays DIRTY with no record issued (log 45). -/
theorem recommit_dirty_commits {n : Nat} (dirty : s.cache.slots[i]? = some (.dirty e.blk c d n)) :
    Committed s (recommit s e v i) e i v d
      ∧ (recommit s e v i).cache.slots[i]? = some (.dirty e.blk v d (s.cache.commitOrder + 1))
      ∧ Issued s (recommit s e v i) [] := by
  obtain ⟨settled, unlisted, copy, tags, at_⟩ := dirtyAgain_spec (v := v) dirty single
  obtain ⟨aside, -⟩ := writeCommitted_aside (commitSettles (makeDirty s i e.blk v d) e.blk i) e v
  have acks : AcksNone s (commitSettles (makeDirty s i e.blk v d) e.blk i) :=
    (commitSettles_acksNone _ _ _).after (.of_table rfl)
  rw [recommit_of_dirty dirty]
  refine ⟨committed_of_settled found unique tags acks settled.member settled.clock copy unlisted, ?_,
    (Issued.none settled.port settled.waiting).aside aside⟩
  rw [aside.slots]
  exact at_

theorem recommit_clean_commits {n : Nat} (current : currentSlot s e.blk = some i)
    (clean : s.cache.slots[i]? = some (.clean e.blk c d n)) :
    Committed s (recommit s e v i) e i v d ∧ PutInPlace s (recommit s e v i) e.blk i v d := by
  rw [recommit_of_clean current clean]
  exact committed_of_accepted v d found unique single (List.getElem?_eq_some_iff.1 clean).1

/-- From a WRITING slot, in the slot that the cache gives, the former one RETIRING. -/
theorem recommit_writing_commits {j : Nat} (current : currentSlot s e.blk = some i)
    (writing : s.cache.slots[i]? = some (.writing e.blk c d)) (given : allocate s = some j) :
    Committed s (recommit s e v i) e j v d ∧ PutInPlace s (recommit s e v i) e.blk j v d
      ∧ (recommit s e v i).cache.slots[i]? = some (.retiring e.blk c d) := by
  rw [(recommit_of_writing writing).2 j given]
  obtain ⟨done, put⟩ := committed_of_accepted v d found unique single (allocate_lt given)
  exact ⟨done, put, put.former current (ne_of_allocate given writing) writing⟩

end

/-- Settles O39: first the NACK of a write; then the decision by what is held, superseded, refused or committed again
from the tag's own slot; then the first commit of the held data. -/
theorem commitOnFollowedOrder : Obligations.CommitOnFollowedOrder := by
  unfold Obligations.CommitOnFollowedOrder
  refine ⟨fun s e reason => ?_, fun s tag e v found open_ followed filling noCommit => ?_,
    fun s tag e i v d o x _ once unique found _ waits followed fresh slot at_ filling noCommit below => ?_⟩
  · intro n u refused
    have version : nackVersion s e.blk e.ownVersion = n := nackVersion_eq s e.blk e.ownVersion
    have same : refuseEntry (offerNack s e.tag e.blk n reason) e.tag n reason = refused :=
      refuseEntry_offered s e.tag e.blk n reason
    rw [nackWrite_eq, version]
    dsimp only
    rw [same]
  · obtain ⟨first, again'⟩ := decideFollow_at_once found open_ followed filling noCommit
    obtain rfl := (findEntry_some found).2
    refine ⟨fun w fresh known above => ?_, fun c committed replaced => ?_, fun c i d committed copy =>
      ⟨fun above => ?_, fun below writing full => ?_, fun below _ once unique _ => ?_⟩⟩
    · rw [first fresh, decideFirst_of_above known above, supersede_eq]
      exact ⟨fun listed => if_pos listed,
        fun unlisted limit => (if_neg (by simp [unlisted])).trans (if_pos limit),
        fun unlisted other => (if_neg (by simp [unlisted])).trans (if_neg other)⟩
    · rw [again' c committed, decideAgain_of_replaced replaced]
    · rw [again' c committed, decideAgain_of_held copy, if_neg (BitVec.not_lt.2 above)]
    · rw [again' c committed, decideAgain_of_held copy, if_pos below]
      exact (recommit_of_writing writing).1 full
    · intro t writeBack issued again
      have single := singleCurrent_of_once once
      have current := currentSlot_of_copy copy
      have decided : t = recommit s e v i :=
        (again' c committed).trans ((decideAgain_of_held copy).trans (if_pos below))
      have whole : ∀ j, Committed s t e j v d → again j := fun j h => by
        obtain ⟨x, foundX, entry⟩ := h.entry
        exact ⟨h.copy, h.unlisted, x, foundX, entry.committed, entry.slot,
          fun on => ⟨(entry.writeBack on).1, (entry.writeBack on).2.1⟩, entry.writeThrough⟩
      refine ⟨fun n dirty => ?_, fun n clean => ?_, fun j writing given => ?_⟩
      · have commits := recommit_dirty_commits v found unique single dirty
        rw [← decided] at commits
        exact ⟨whole i commits.1, commits.2⟩
      · have commits := recommit_clean_commits v found unique single current clean
        rw [← decided] at commits
        obtain ⟨done, put⟩ := commits
        obtain ⟨slotOn, slotOff⟩ := put.slot (List.getElem?_eq_some_iff.1 clean).1
        exact ⟨whole i done, fun on => ⟨slotOn on, put.writeBack on⟩, fun off => ⟨slotOff off, put.writeThrough off⟩⟩
      · have commits := recommit_writing_commits v found unique single current writing given
        rw [← decided] at commits
        obtain ⟨done, put, former⟩ := commits
        obtain ⟨slotOn, slotOff⟩ := put.slot (allocate_lt given)
        exact ⟨whole j done, former, fun on => ⟨slotOn on, put.writeBack on⟩,
          fun off => ⟨slotOff off, put.writeThrough off⟩⟩
  · intro t
    obtain ⟨first, -⟩ := decideFollow_at_once found (.inl waits) followed filling noCommit
    obtain rfl := (findEntry_some found).2
    have single := singleCurrent_of_once once
    have place := (List.getElem?_eq_some_iff.1 at_).1
    have decided : t = commitHeld s e v := (first fresh).trans (decideFirst_of_below below)
    obtain ⟨done, put⟩ := commitHeld_commits v found unique single slot at_
    rw [← decided] at done put
    obtain ⟨y, foundY, entry⟩ := done.entry
    refine ⟨fun j w c current => ?_, done.copy, ?_, done.unlisted, y, foundY, entry.committed, entry.slot,
      fun on => ?_, fun off => ?_⟩
    · have other : j ≠ i := by
        rintro rfl
        exact not_current_of_held at_ current
      refine ⟨fun writing => put.former current other writing, ?_⟩
      rintro (⟨n, dirty⟩ | ⟨n, clean⟩)
      · exact put.former current other dirty
      · exact put.former current other clean
    · exact ⟨fun on => ⟨(put.slot place).1 on, put.writeBack on⟩,
        fun off => ⟨(put.slot place).2 (by simp [off]), put.writeThrough (by simp [off])⟩⟩
    · obtain ⟨acked, sent, finished⟩ := entry.writeBack on
      exact ⟨acked, sent, finished (by simp [waits])⟩
    · rcases entry.writeThrough (by simp [off]) with committing | ⟨-, acked, -⟩
      · exact committing
      · simp [waits] at acked

end Sys2Proof.Machine
end

section
/-! Every command (R92, R163, R164): it answers a next state, and what it leaves alone. -/

namespace Sys2Proof.Machine

/-! ### Every command is taken -/

/-- The meaning answers a next state, and while the reset pin is held the state as it is (R164). -/
def Taken (s : State) (r : Result) : Prop := (∃ t, r = .next t) ∧ (s.resetHeld = true → r = .next s)

theorem atPort_taken (s : State) (act : State → State) : Taken s (atPort s act) := by
  unfold Taken atPort
  split
  · exact ⟨⟨s, rfl⟩, fun _ => rfl⟩
  · next free => exact ⟨⟨_, rfl⟩, fun held => absurd held free⟩

theorem happening_taken (s : State) (act : State → State) : Taken s (happening s act) := by
  unfold Taken happening
  split
  · exact ⟨⟨s, rfl⟩, fun _ => rfl⟩
  · next free => exact ⟨⟨_, rfl⟩, fun held => absurd held free⟩

/-- A command that is none of the reset pin's is a happening at the media port, on the line or of a timer. -/
theorem exec_taken {c : Instr} (s : State) (noReset : c ≠ .powerOnReset) (noRelease : ∀ p, c ≠ .resetRelease p) :
    Taken s (exec c s) := by
  cases c with
  | powerOnReset => exact absurd rfl noReset
  | resetRelease p => exact absurd rfl (noRelease p)
  | mediaReady | mediaFault | attemptTimeout | probeLimitExpiry => apply atPort_taken
  | _ => apply happening_taken

theorem execResetRelease_answers (p : Straps) (s : State) : ∃ t, execResetRelease p s = .next t := by
  unfold execResetRelease
  split <;> exact ⟨_, rfl⟩

theorem exec_answers (c : Instr) (s : State) : ∃ t, exec c s = .next t := by
  by_cases reset : c = .powerOnReset
  · subst reset
    exact ⟨_, rfl⟩
  by_cases release : ∃ p, c = .resetRelease p
  · obtain ⟨p, rfl⟩ := release
    exact execResetRelease_answers p s
  exact (exec_taken s reset (not_exists.1 release)).1

/-! ### What a command leaves alone -/

/-- What the command leaves of the waiting commands, the strap pins, the reset pin and the records. -/
structure Leaves (c : Instr) (s t : State) : Prop where
  pending : t.pending = s.pending
  pins : (∀ p, c ≠ .resetRelease p) → (∀ order p, c ≠ .stationResetHeard order p) →
    (∀ op changes p, c ≠ .mediaReady op changes p) → t.pins = s.pins
  levels : ∀ op changes p, c = .mediaReady op changes p → s.resetHeld = false → t.pins = p
  held : (∀ p, c ≠ .resetRelease p) → c ≠ .powerOnReset → t.resetHeld = s.resetHeld
  media : touchesMedia c = false → t.media = s.media

/-- A command that leaves the pins, the memory and the waiting commands alone. -/
theorem Holds.leaves {c : Instr} {s t : State} (a : Holds s t)
    (notReady : ∀ op changes p, c ≠ .mediaReady op changes p := by nofun) : Leaves c s t where
  pending := a.pending
  pins _ _ _ := a.pins
  levels op changes p ready := absurd ready (notReady op changes p)
  held _ _ := a.held
  media _ := a.media

/-- A happening of the memory's own, other than its ready. -/
theorem Tends.leaves {c : Instr} {s t : State} (a : Tends s t) (touches : touchesMedia c = true := by rfl)
    (notReady : ∀ op changes p, c ≠ .mediaReady op changes p := by nofun) : Leaves c s t where
  pending := a.pending
  pins _ _ _ := a.pins
  levels op changes p ready := absurd ready (notReady op changes p)
  held _ _ := a.held
  media untouched := by simp [touches] at untouched

theorem execPowerOnReset_leaves {s t : State} (h : execPowerOnReset s = .next t) : Leaves .powerOnReset s t := by
  cases h
  have kept := breakOff_tends s
  exact ⟨kept.pending, fun _ _ _ => kept.pins, nofun, fun _ same => absurd rfl same, nofun⟩

theorem execResetRelease_leaves {straps : Straps} {s t : State} (h : execResetRelease straps s = .next t) :
    Leaves (.resetRelease straps) s t := by
  have media := execResetRelease_media h
  unfold execResetRelease at h
  split at h
  · cases h
    exact ⟨(enterStarting_keeps _).pending, fun other => absurd rfl (other straps), nofun,
      fun other => absurd rfl (other straps), fun _ => media⟩
  · cases h
    exact (Holds.refl s).leaves

theorem execMediaReady_leaves {op : Nat} {changes : BitChanges} {straps : Straps} {s t : State}
    (h : execMediaReady op changes straps s = .next t) : Leaves (.mediaReady op changes straps) s t := by
  have kept := execMediaReady_tends op changes straps h
  refine ⟨kept.pending, fun _ _ other => absurd rfl (other op changes straps), fun _ _ _ same released => ?_,
    fun _ _ => kept.held, nofun⟩
  cases same
  exact kept.pins.trans (by simp [released])

theorem execStationResetHeard_leaves {order : ResetOrder} {straps : Straps} {s t : State}
    (h : execStationResetHeard order straps s = .next t) : Leaves (.stationResetHeard order straps) s t := by
  obtain ⟨_, kept⟩ := execStationResetHeard_holds order straps h
  exact ⟨kept.pending, fun _ other => absurd rfl (other order straps), nofun, fun _ _ => kept.held,
    fun _ => kept.media⟩

/-- Every command, by what its meaning keeps. -/
theorem exec_leaves {c : Instr} {s t : State} (h : exec c s = .next t) : Leaves c s t := by
  cases c with
  | powerOnReset => exact execPowerOnReset_leaves h
  | resetRelease => exact execResetRelease_leaves h
  | mediaReady => exact execMediaReady_leaves h
  | mediaFault => exact (execMediaFault_tends _ h).leaves
  | attemptTimeout => exact (execAttemptTimeout_tends h).leaves
  | probeLimitExpiry => exact (execProbeLimitExpiry_holds h).leaves
  | stationResetHeard => exact execStationResetHeard_leaves h
  | lineIdle => exact (execLineIdle_holds h).leaves
  | arbitrationEnd => exact (execArbitrationEnd_holds _ h).leaves
  | frameSent => exact (execFrameSent_holds h).leaves
  | attemptFailed => exact (execAttemptFailed_holds h).leaves
  | receiveCheckFail => exact (execReceiveCheckFail_holds h).leaves
  | presentHeard => exact (execPresentHeard_holds _ _ _ h).leaves
  | rosterHeard => exact (execRosterHeard_holds _ _ h).leaves
  | rosterQueryHeard => exact (execRosterQueryHeard_holds _ h).leaves
  | peerDownHeard => exact (execPeerDownHeard_holds _ _ h).leaves
  | rejoinHeard => exact (execRejoinHeard_holds _ h).leaves
  | caughtUpHeard => exact (execCaughtUpHeard_holds _ h).leaves
  | replayDoneHeard => exact (execReplayDoneHeard_holds _ _ _ h).leaves
  | orderHeard => exact (execOrderHeard_holds _ _ _ _ h).leaves
  | ackHeard => exact (execAckHeard_holds _ _ _ _ h).leaves
  | nackHeard => exact (execNackHeard_holds _ _ _ _ _ h).leaves
  | dataHeard => exact (execDataHeard_holds _ _ _ _ _ h).leaves
  | unavailableHeard => exact (execUnavailableHeard_holds _ _ _ _ h).leaves
  | currentHeard => exact (execCurrentHeard_holds _ _ _ _ h).leaves
  | readHeard => exact (execReadHeard_holds _ _ _ h).leaves
  | writeHeard => exact (execWriteHeard_holds _ _ _ _ h).leaves
  | flushHeard => exact (execFlushHeard_holds _ _ h).leaves
  | fetchHeard => exact (execFetchHeard_holds _ _ _ _ _ h).leaves
  | replayHeard => exact (execReplayHeard_holds _ _ _ _ _ _ h).leaves
  | statusQueryHeard => exact (execStatusQueryHeard_holds _ _ _ h).leaves
  | statusReportHeard => exact (execStatusReportHeard_holds _ _ _ _ h).leaves
  | leadWaitExpiry => exact (execLeadWaitExpiry_holds _ h).leaves
  | readSlotWaitExpiry => exact (execReadSlotWaitExpiry_holds _ h).leaves
  | fetchSlotWaitExpiry => exact (execFetchSlotWaitExpiry_holds _ h).leaves
  | rosterAnswerWaitExpiry => exact (execRosterAnswerWaitExpiry_holds h).leaves
  | ackWindowExpiry => exact (execAckWindowExpiry_holds _ h).leaves
  | requestLifetimeExpiry => exact (execRequestLifetimeExpiry_holds _ h).leaves
  | retireHoldEnd => exact (execRetireHoldEnd_holds _ h).leaves
  | replayRetryTimeExpiry => exact (execReplayRetryTimeExpiry_holds _ _ h).leaves
  | replayAnswerWaitExpiry => exact (execReplayAnswerWaitExpiry_holds _ h).leaves
  | replayDoneReoffer => exact (execReplayDoneReoffer_holds _ h).leaves
  | fetchWindowClose => exact (execFetchWindowClose_holds _ h).leaves
  | parkEnd => exact (execParkEnd_holds _ h).leaves
  | sweepBlockRetake => exact (execSweepBlockRetake_holds _ h).leaves
  | rejoinRequeue => exact (execRejoinRequeue_holds h).leaves
  | catchUpLimitExpiry => exact (execCatchUpLimitExpiry_holds h).leaves
  | caughtUpRequeue => exact (execCaughtUpRequeue_holds h).leaves
  | listeningWindowExpiry => exact (execListeningWindowExpiry_holds h).leaves
  | quietTimerExpiry => exact (execQuietTimerExpiry_holds h).leaves
  | presentReoffer => exact (execPresentReoffer_holds h).leaves
  | rosterQueryRepeat => exact (execRosterQueryRepeat_holds h).leaves
  | ownPeerDownReoffer => exact (execOwnPeerDownReoffer_holds h).leaves

/-- Settles O8: each command's meaning answers, and none but the reset pin's acts while that pin is held; what a command
leaves alone is told by its meaning. -/
theorem everyCommandAnswersNext : Obligations.EveryCommandAnswersNext := by
  unfold Obligations.EveryCommandAnswersNext
  refine ⟨fun c s => ?_, fun c s held noReset noRelease => (exec_taken s noReset noRelease).2 held⟩
  obtain ⟨t, answer⟩ := exec_answers c s
  obtain ⟨pending, pins, levels, held, media⟩ := exec_leaves answer
  exact ⟨t, answer, pending, pins, levels, held, fun untouched a => by rw [media untouched]⟩

end Sys2Proof.Machine
end

section
/-! The release of the reset pin (R163, R165, R166) and the start-up probe (R104 to R106, R168). -/

namespace Sys2Proof.Machine

/-! ### The release (R163, R166) -/

theorem enterStarting_of_invalid {s : State} (h : validStraps s.member.straps = false) :
    enterStarting s = { s with member := { s.member with state := .out .badStrap } } := by
  unfold enterStarting
  rw [if_neg (by simp [h])]

theorem enterStarting_of_valid {s : State} (h : validStraps s.member.straps = true) :
    enterStarting s = { s with port := { s.port with
      op := s.port.op + 1, phase := .probing,
      timer := some (s.clock + 50000), probeLimit := some (s.clock + 2000000) } } := by
  unfold enterStarting
  rw [if_pos h]
  rfl

theorem validStraps_eq_false_iff (p : Straps) : validStraps p = false ↔ p.copiesCode = 0 ∨ p.volumeCode = 7 := by
  simp [validStraps, imp_iff_not_or]

/-- Settles O19: by what the straps read lead to, and by the pin not held. -/
theorem releaseRestarts : Obligations.ReleaseRestarts := by
  unfold Obligations.ReleaseRestarts
  refine fun s p => ⟨fun held => ?_, fun free => ?_⟩
  · refine Eq.trans (b := execResetRelease p s) rfl ?_
    unfold execResetRelease
    rw [if_pos held]
    by_cases invalid : p.copiesCode = 0 ∨ p.volumeCode = 7
    · rw [if_pos invalid, if_pos invalid, enterStarting_of_invalid ((validStraps_eq_false_iff p).2 invalid)]
      rfl
    · have valid : validStraps p = true := by simpa using (validStraps_eq_false_iff p).not.2 invalid
      rw [if_neg invalid, if_neg invalid, enterStarting_of_valid valid]
      rfl
  · exact if_neg (by simp [free])

/-! ### What the memory and its timers bring to the port -/

section
variable {s : State} (released : s.resetHeld = false)
include released

/-- An answer for the operation presented is taken, one for another is discarded (R98, R105, R108; log 7). -/
theorem exec_mediaReady (op : Nat) (x : BitChanges) (p : Straps) :
    exec (.mediaReady op x p) s = .next (drainCheck (settle
      (if answers s op then takeReady { s with pins := p } x else { s with pins := p }))) := by
  refine Eq.trans (b := execMediaReady op x p s) rfl ?_
  unfold execMediaReady
  rw [atPort_of_released _ released]
  rfl

theorem exec_mediaFault (op : Nat) :
    exec (.mediaFault op) s = .next (drainCheck (settle (if answers s op then takeFault s else s))) :=
  atPort_of_released _ released

theorem exec_attemptTimeout {due : Nat} (timer : s.port.timer = some due) :
    exec .attemptTimeout s = .next (drainCheck (settle (takeTimeout (reach s due)))) := by
  refine Eq.trans (b := execAttemptTimeout s) rfl ?_
  unfold execAttemptTimeout
  rw [atPort_of_released _ released, timer]

theorem exec_probeLimitExpiry {due : Nat} (limit : s.port.probeLimit = some due) :
    exec .probeLimitExpiry s = .next (drainCheck (settle (declareMediaDown (reach s due)))) := by
  refine Eq.trans (b := execProbeLimitExpiry s) rfl ?_
  unfold execProbeLimitExpiry
  rw [atPort_of_released _ released, limit]

end

theorem answers_iff (s : State) (op : Nat) : answers s op = true ↔ s.port.op = op ∧ s.port.phase ≠ .idle := by
  simp [answers]

/-! ### The probe (R104 to R106) -/

section
variable {s : State} (probing : s.port.phase = .probing)
include probing

theorem takeReady_of_probing (x : BitChanges) : takeReady s x = probeAnswered s := by
  unfold takeReady
  rw [probing]

theorem takeFault_of_probing : takeFault s = probeAnswered s := by
  unfold takeFault
  rw [probing]

theorem takeTimeout_of_probing : takeTimeout s = startAttempt s .probing := by
  unfold takeTimeout
  rw [probing]

end

/-- With no command behind the failed one none is ended by the declaration. -/
theorem declareMediaDown_of_empty {s : State} (empty : s.port.queue = []) :
    declareMediaDown s = enterOut
      { s with
        port := { s.port with
          retry := 0, phase := .idle, timer := none, probeLimit := none, down := true },
        cache := { s.cache with waiting := [] } }
      .mediaDown := by
  unfold declareMediaDown
  simp only [empty, List.drop_nil, List.foldl_nil]

/-- Settles O20: by the answer taken or discarded, the probe that times out and the limit that is over. -/
theorem probeOutcomes : Obligations.ProbeOutcomes := by
  unfold Obligations.ProbeOutcomes
  refine ⟨fun s op x p released => ⟨fun probing same => ?_, fun other => ?_⟩,
    fun s due released probing => ⟨fun timer => ?_, fun limit empty => ?_⟩⟩
  · intro t
    have answered : answers s op = true := (answers_iff s op).2 ⟨same.symm, by simp [probing]⟩
    rw [exec_mediaReady released, exec_mediaFault released, if_pos answered, if_pos answered,
      takeReady_of_probing (s := { s with pins := p }) probing, takeFault_of_probing probing]
    exact ⟨rfl, rfl⟩
  · have discarded : ¬answers s op = true := by
      rw [answers_iff]
      rintro ⟨same, busy⟩
      exact other.elim (fun h => h same.symm) busy
    rw [exec_mediaReady released, exec_mediaFault released, if_neg discarded, if_neg discarded]
    exact ⟨rfl, rfl⟩
  · rw [exec_attemptTimeout released timer, takeTimeout_of_probing (s := reach s due) probing, ← probing]
    rfl
  · rw [exec_probeLimitExpiry released limit, declareMediaDown_of_empty (s := reach s due) empty]
    rfl

end Sys2Proof.Machine
end

section
/-! A record written and read back (R86, R92, R96, R102), and the attempts of a write (R98, R99, R101). -/

namespace Sys2Proof.Machine

/-! ### The memory's answer to a write and to its read-back -/

section
variable {s : State} {b : Block} {v : Version} {d : Data} {i : Nat} {rest : List MediaCmd}

/-- The answer to the operation presented is taken. -/
theorem exec_mediaReady_taken (released : s.resetHeld = false) (busy : s.port.phase ≠ .idle) (x : BitChanges)
    (p : Straps) :
    exec (.mediaReady s.port.op x p) s = .next (drainCheck (settle (takeReady { s with pins := p } x))) := by
  rw [exec_mediaReady released, if_pos ((answers_iff s _).2 ⟨rfl, busy⟩)]

variable (head : s.port.queue = .writeRecord b v d i :: rest)
include head

theorem takeReady_of_writing (phase : s.port.phase = .writing) (x : BitChanges) :
    takeReady s x = present (storeRecord s b (newRecord v d)) .readingBack := by
  unfold takeReady
  simp only [phase, head]

theorem takeReady_of_readingBack (phase : s.port.phase = .readingBack) (x : BitChanges) :
    takeReady s x = readBackReady s b v i x := by
  unfold takeReady
  simp only [phase, head]

end

theorem readBackReady_of_right {s : State} {b : Block} {x : BitChanges} (v : Version) (i : Nat) {n : Nat}
    (right : (((readMedia s.media b.toNat).flip x.lasting).flip x.passing).check = some n) :
    readBackReady s b v i x
      = finishWrite (storeRecord s b ((readMedia s.media b.toNat).flip x.lasting)) b v i n := by
  unfold readBackReady
  dsimp only
  rw [right]

/-! ### The record is on the media (R35, R86) -/

/-- Every write entry that waits for the record is acknowledged, in the order of the table (R35). -/
def acknowledgeRecord (s : State) (b : Block) (v : Version) : State :=
  (s.table.filter fun e => e.awaitsRecord b v).foldl (fun u e => ackWrite u e.tag b v) s

theorem recordWritten_of_writing {s : State} {b c : Block} {v w : Version} {e : Data} {i : Nat}
    (writing : s.cache.slots[i]? = some (.writing c w e)) :
    recordWritten s b v i = acknowledgeRecord (makeClean s i c w e) b v := by
  unfold recordWritten
  rw [slotAt_of_getElem writing]
  rfl

theorem recordWritten_of_retiring {s : State} {b c : Block} {v w : Version} {e : Data} {i : Nat}
    (retiring : s.cache.slots[i]? = some (.retiring c w e)) :
    recordWritten s b v i = acknowledgeRecord (setSlot s i .free) b v := by
  unfold recordWritten
  rw [slotAt_of_getElem retiring]
  rfl

/-! ### An attempt that fails (R98, R99) -/

theorem attemptEndsFailed_again {s : State} {c : MediaCmd} {rest : List MediaCmd} (queue : s.port.queue = c :: rest)
    (few : s.port.retry + 1 < 4) :
    attemptEndsFailed s
      = startAttempt { s with port := { s.port with retry := s.port.retry + 1 } } (firstPhase c) := by
  unfold attemptEndsFailed
  rw [queue]
  exact if_pos few

section
variable {s : State} (phase : s.port.phase = .reading ∨ s.port.phase = .writing ∨ s.port.phase = .readingBack)
include phase

theorem takeFault_of_attempt : takeFault s = attemptEndsFailed (breakOff s) := by
  unfold takeFault
  rcases phase with h | h | h <;> rw [h]

theorem takeTimeout_of_attempt : takeTimeout s = attemptEndsFailed (breakOff s) := by
  unfold takeTimeout
  rcases phase with h | h | h <;> rw [h]

theorem exec_mediaFault_attempt (released : s.resetHeld = false) :
    exec (.mediaFault s.port.op) s = .next (drainCheck (settle (attemptEndsFailed (breakOff s)))) := by
  have answered : answers s s.port.op = true :=
    (answers_iff s _).2 ⟨rfl, by rcases phase with h | h | h <;> simp [h]⟩
  rw [exec_mediaFault released, if_pos answered, takeFault_of_attempt phase]

theorem exec_attemptTimeout_attempt (released : s.resetHeld = false) {due : Nat} (timer : s.port.timer = some due) :
    exec .attemptTimeout s = .next (drainCheck (settle (attemptEndsFailed (breakOff (reach s due))))) := by
  rw [exec_attemptTimeout released timer, takeTimeout_of_attempt (s := reach s due) phase]

end

section
variable {s : State} {b : Block} {v : Version} {d : Data} {i : Nat} {rest : List MediaCmd}
  (head : s.port.queue = .writeRecord b v d i :: rest) (few : s.port.retry + 1 < 4)
include head few

/-- A read-back beyond correction leaves the record damaged, and the write is attempted again (R96, R101). -/
theorem readBackReady_of_beyond {x : BitChanges}
    (beyond : (((readMedia s.media b.toNat).flip x.lasting).flip x.passing).check = none) :
    readBackReady s b v i x =
      { s with
        media := writeMedia s.media b.toNat { (readMedia s.media b.toNat).flip x.lasting with damaged := true },
        port := { s.port with
          retry := s.port.retry + 1, phase := .writing, op := s.port.op + 1, timer := some (s.clock + 50000) } } := by
  unfold readBackReady
  dsimp only
  rw [beyond]
  exact attemptEndsFailed_again (s := storeRecord s b (damage ((readMedia s.media b.toNat).flip x.lasting))) head few

/-- A write whose attempt has left this record in the memory is attempted again. -/
theorem attemptEndsFailed_of_broken {r : Record}
    (left : breakOff s = storeRecord { s with freeCount := s.freeCount + 1 } b r) :
    attemptEndsFailed (breakOff s) =
      { s with
        media := writeMedia s.media b.toNat r, freeCount := s.freeCount + 1,
        port := { s.port with
          retry := s.port.retry + 1, phase := .writing, op := s.port.op + 1, timer := some (s.clock + 50000) } } := by
  rw [left]
  exact attemptEndsFailed_again (s := storeRecord { s with freeCount := s.freeCount + 1 } b r) head few

end

/-- Settles O21: by the write stored, the read-back that is right, the one beyond correction, and the attempts broken
off. -/
theorem writeIsReadBack : Obligations.WriteIsReadBack := by
  unfold Obligations.WriteIsReadBack
  refine ⟨fun s x p b v d i rest released phase head => ?_, fun s x p b v d i rest released phase head => ?_,
    fun s b v d i rest released head few => ?_⟩
  · rw [exec_mediaReady_taken released (by simp [phase]),
      takeReady_of_writing (s := { s with pins := p }) head phase]
    rfl
  · intro kept
    rw [exec_mediaReady_taken released (by simp [phase]),
      takeReady_of_readingBack (s := { s with pins := p }) head phase]
    refine ⟨fun n right => ?_, fun beyond few => ?_⟩
    · intro s1 s2
      have finished : readBackReady { s with pins := p } b v i x = recordWritten s2 b v i :=
        readBackReady_of_right v i right
      rw [finished]
      refine ⟨fun w e writing => ?_, fun w e retiring => ?_⟩
      · rw [recordWritten_of_writing writing]
        rfl
      · rw [recordWritten_of_retiring retiring]
        rfl
    · rw [readBackReady_of_beyond (s := { s with pins := p }) head few beyond]
  · intro former again
    refine ⟨fun phase => ?_, fun phase => ?_⟩
    · refine ⟨_, failedWriteRecord_cases former v d (Config.failedWriteLeaves s.freeCount), ?_,
        fun due timer => ?_⟩
      · rw [exec_mediaFault_attempt (.inr (.inl phase)) released,
          attemptEndsFailed_of_broken head few (breakOff_of_writing head phase)]
      · rw [exec_attemptTimeout_attempt (.inr (.inl phase)) released timer,
          attemptEndsFailed_of_broken (s := reach s due) head few (breakOff_of_writing (s := reach s due) head phase)]
        rfl
    · refine ⟨if Config.failedReadBackDamages s.freeCount then damage former else former, ?_, ?_,
        fun due timer => ?_⟩
      · split
        · exact .inr rfl
        · exact .inl rfl
      · rw [exec_mediaFault_attempt (.inr (.inr phase)) released,
          attemptEndsFailed_of_broken head few (breakOff_of_readingBack head phase)]
      · rw [exec_attemptTimeout_attempt (.inr (.inr phase)) released timer,
          attemptEndsFailed_of_broken (s := reach s due) head few
            (breakOff_of_readingBack (s := reach s due) head phase)]
        rfl

end Sys2Proof.Machine
end

section
/-! The lookups answered after a failed read (R78, R129): the statement about them leaves open which block the push that
waits is of. -/

namespace Sys2Proof.Machine

/-- A push of block 1 to peer 2 in its copy lookup. -/
def lookingUp : Push := { id := 3, peer := 2, block := 1, tag := none, phase := .lookup }

/-- Station 1 in SERVING with peer 2 PRESENT, a CLEAN copy of block 1, and that push. -/
def pushesCopy : State :=
  { State.reset with
    resetHeld := false
    member := { State.reset.member with
      state := .serving, mark := 6, member := true
      straps := { number := 1, copiesCode := 2, volumeCode := 0, writeBack := true } }
    cache := { State.reset.cache with slots := [.clean 1 4 0 1] }
    peers := [{ peer := 2, state := .present, misses := 0, lastNotice := none }]
    replay := { State.reset.replay with
      pool := [{ peer := 2, block := 1, recorded := 0, retry := none, push := true }], pushes := [lookingUp] } }

/-- Answered with the failed read of block 0, the push has the copy of its own block 1 in hand and goes on: its REPLAY
is queued (R129). -/
theorem pushesCopy_goes_on :
    ((answerWaiters pushesCopy 0 [.push 3] .unknown).replay.pushes.map (·.phase)) = [.queued] := by decide

theorem pushesCopy_ended : (endPush pushesCopy lookingUp none .done).replay.pushes = [] := by decide

/-- Refutes O23: its clause about the lookup of a push has the push end whatever block it is of, while for the READ and
FETCH entries beside it the statement says `e.blk = b`. Answered with the failed read of block 0, a push of block 1,
whose copy is in the cache, does not end: its REPLAY is queued. -/
theorem not_failedMediaAttempts : ¬Obligations.FailedMediaAttempts := by
  unfold Obligations.FailedMediaAttempts
  rintro ⟨-, -, -, -, answers⟩
  obtain ⟨-, -, push, -⟩ := answers pushesCopy 0 (by decide)
  have ended : answerWaiters pushesCopy 0 [.push 3] .unknown = endPush pushesCopy lookingUp none .done :=
    push 3 lookingUp rfl rfl
  have goesOn := pushesCopy_goes_on
  rw [ended, pushesCopy_ended] at goesOn
  cases goesOn

end Sys2Proof.Machine
end

section
/-! The end of the catch-up limit (R113, R155): each peer awaited is declared down and leaves the awaited set, its
shared groups added to the sweep (R160), one after another. -/

namespace Sys2Proof.Machine

/-! ### Sets of stations and of groups -/

/-- A station taken out of a set, and no other. -/
theorem inMark_without (m : Mark) (p n : StationNo) :
    inMark (m &&& ~~~ markOf p) n = (inMark m n && decide (n ≠ p)) := by
  by_cases store : n.toNat < 16
  · simp only [inMark, markOf, BitVec.getLsbD_and, BitVec.getLsbD_not, BitVec.getLsbD_ofNat, store, decide_true,
      Bool.true_and, Nat.testBit_two_pow, BitVec.toNat_inj, ne_eq, decide_not, eq_comm]
  · simp [inMark, BitVec.getLsbD_of_ge _ _ (Nat.not_lt.1 store)]

theorem mem_markMembers {m : Mark} {n : StationNo} : n ∈ markMembers m ↔ inMark m n = true := by
  unfold markMembers
  rw [List.mem_filter, and_iff_right_iff_imp]
  intro member
  exact List.mem_map.2 ⟨n.toNat, List.mem_range.2 (BitVec.lt_of_getLsbD member),
    BitVec.ofNat_toNat 5 n ▸ BitVec.setWidth_eq n⟩

theorem mark_eq_zero_of {m : Mark} (h : ∀ n, inMark m n = false) : m = 0 := by
  refine BitVec.eq_of_getLsbD_eq fun i lt => ?_
  have bit := h (BitVec.ofNat 5 i)
  rw [inMark, BitVec.toNat_ofNat, Nat.mod_eq_of_lt (by omega)] at bit
  simp [bit]

theorem mem_insertGroup {g x : Nat} {l : List Nat} : x ∈ insertGroup g l ↔ x = g ∨ x ∈ l := by
  induction l with
  | nil => simp [insertGroup]
  | cons h l ih =>
    unfold insertGroup
    split
    · exact List.mem_cons
    · split
      next same => simp [same]
      · rw [List.mem_cons, ih, List.mem_cons]
        exact or_left_comm

/-- Groups added to the sweep change its set and its cursor, and nothing else (R160). -/
theorem addGroups_spec (s : State) (gs : List Nat) :
    ∃ (set : List Nat) (cursor : Nat),
      addGroups s gs = { s with repair := { s.repair with sweepSet := set, cursor := cursor } } := by
  induction gs generalizing s with
  | nil => exact ⟨_, _, rfl⟩
  | cons g gs ih =>
    unfold addGroups at ih ⊢
    rw [List.foldl_cons]
    split
    · obtain ⟨set, cursor, added⟩ := ih _
      exact ⟨set, cursor, added⟩
    · exact ih s

/-- Of the groups added, the sweep has those the station holds (R160). -/
theorem mem_addGroups {s : State} {gs : List Nat} {x : Nat} :
    x ∈ (addGroups s gs).repair.sweepSet ↔ x ∈ s.repair.sweepSet ∨ (x ∈ gs ∧ holdsGroup s x = true) := by
  induction gs generalizing s with
  | nil => simp [addGroups]
  | cons g gs ih =>
    unfold addGroups at ih ⊢
    rw [List.foldl_cons, ih]
    split
    next held =>
      have same (y : Nat) (set : List Nat) (cursor : Nat) :
          holdsGroup { s with repair := { s.repair with sweepSet := set, cursor := cursor } } y = holdsGroup s y := rfl
      rw [same, mem_insertGroup, List.mem_cons]
      constructor
      · rintro ((rfl | old) | ⟨new, holds⟩)
        · exact .inr ⟨.inl rfl, held⟩
        · exact .inl old
        · exact .inr ⟨.inr new, holds⟩
      · rintro (old | ⟨rfl | new, holds⟩)
        · exact .inl (.inr old)
        · exact .inl (.inl rfl)
        · exact .inr ⟨new, holds⟩
    next other =>
      rw [List.mem_cons]
      refine or_congr_right ⟨fun ⟨new, holds⟩ => ⟨.inr new, holds⟩, ?_⟩
      rintro ⟨rfl | new, holds⟩
      · exact absurd holds other
      · exact ⟨new, holds⟩

theorem holdsGroup_of_shared {s : State} {p : StationNo} {g : Nat} (h : g ∈ sharedGroups s p) :
    holdsGroup s g = true := (List.mem_filter.1 (List.mem_filter.1 h).1).2

theorem sharedGroups_congr {s t : State} (h : t.member = s.member) (p : StationNo) :
    sharedGroups t p = sharedGroups s p := by
  have held : holdsGroup t = holdsGroup s := by
    funext g
    simp only [holdsGroup, replicas, ownNumber, h]
  simp only [sharedGroups, heldGroups, replicas, held, h]

/-! ### A peer leaves the awaited set (R155) -/

/-- The peer out of the awaited set and its shared groups in the sweep, where it was awaited (R155). -/
def awaitedLeft (s : State) (p : StationNo) : State :=
  if inMark s.repair.awaited p then addGroups (unawait s p) (sharedGroups s p) else s

theorem dropAwaited_eq (s : State) (p : StationNo) : dropAwaited s p = awaitedLeft (declareDown s p) p := rfl

/-- From `s` to `t` no peer but `p` leaves the awaited set, and `p` only with its shared groups added to the sweep; no
limit starts, and the sweep loses no group. -/
structure GivesUp (p : StationNo) (s t : State) : Prop where
  member : t.member = s.member
  clock : t.clock = s.clock
  limit : s.repair.limit = none → t.repair.limit = none
  swept : ∀ g ∈ s.repair.sweepSet, g ∈ t.repair.sweepSet
  others : ∀ n, n ≠ p → inMark t.repair.awaited n = inMark s.repair.awaited n
  shared : inMark s.repair.awaited p = true → inMark t.repair.awaited p = false →
    ∀ g ∈ sharedGroups s p, g ∈ t.repair.sweepSet

theorem givesUp_of_repair {p : StationNo} {s t : State} (member : t.member = s.member) (clock : t.clock = s.clock)
    (repair : t.repair = s.repair) : GivesUp p s t := by
  refine ⟨member, clock, fun stopped => repair ▸ stopped, fun _ h => repair ▸ h, fun _ _ => by rw [repair],
    fun awaited gone => ?_⟩
  rw [repair, awaited] at gone
  cases gone

theorem GivesUp.trans {p : StationNo} {s t u : State} (a : GivesUp p s t) (b : GivesUp p t u) : GivesUp p s u := by
  refine ⟨b.member.trans a.member, b.clock.trans a.clock, b.limit ∘ a.limit, fun g h => b.swept g (a.swept g h),
    fun n other => (b.others n other).trans (a.others n other), fun awaited gone g shared => ?_⟩
  cases still : inMark t.repair.awaited p with
  | true => exact b.shared still gone g (sharedGroups_congr a.member p ▸ shared)
  | false => exact b.swept g (a.shared awaited still g shared)

theorem awaitedLeft_of_gone {s : State} {p : StationNo} (h : inMark s.repair.awaited p = false) :
    awaitedLeft s p = s := if_neg (by simp [h])

/-- The peer leaves the set, the limit stopping with the last, and the sweep's set and cursor take its groups. -/
theorem awaitedLeft_of_awaited {s : State} {p : StationNo} (h : inMark s.repair.awaited p = true) :
    ∃ (set : List Nat) (cursor : Nat),
      awaitedLeft s p = { s with repair := { (unawait s p).repair with sweepSet := set, cursor := cursor } }
      ∧ ∀ g, g ∈ set ↔ g ∈ s.repair.sweepSet ∨ g ∈ sharedGroups s p := by
  have left : awaitedLeft s p = addGroups (unawait s p) (sharedGroups s p) := if_pos h
  obtain ⟨set, cursor, added⟩ := addGroups_spec (unawait s p) (sharedGroups s p)
  refine ⟨set, cursor, left.trans added, fun g => ?_⟩
  have member : g ∈ (addGroups (unawait s p) (sharedGroups s p)).repair.sweepSet ↔ _ := mem_addGroups
  rw [added] at member
  exact member.trans (or_congr_right (and_iff_left_of_imp holdsGroup_of_shared))

theorem awaitedLeft_gone (s : State) (p : StationNo) : inMark (awaitedLeft s p).repair.awaited p = false := by
  cases h : inMark s.repair.awaited p with
  | false => rwa [awaitedLeft_of_gone h]
  | true =>
    obtain ⟨_, _, left, -⟩ := awaitedLeft_of_awaited h
    rw [left]
    exact (inMark_without _ p p).trans (by simp)

theorem awaitedLeft_givesUp (s : State) (p : StationNo) : GivesUp p s (awaitedLeft s p) := by
  cases h : inMark s.repair.awaited p with
  | false =>
    rw [awaitedLeft_of_gone h]
    exact givesUp_of_repair rfl rfl rfl
  | true =>
    obtain ⟨_, _, left, groups⟩ := awaitedLeft_of_awaited h
    rw [left]
    refine ⟨rfl, rfl, fun stopped => by simp [unawait, stopped], fun g old => (groups g).2 (.inl old),
      fun n other => (inMark_without _ p n).trans (by simp [other]), fun _ _ g shared => (groups g).2 (.inr shared)⟩

/-! ### What a change to ABSENT hands on (R120) -/

/-- Its pushes ended and a REPLAY_DONE to it withdrawn (R130, R137). -/
def sendingEnded (s : State) (p : StationNo) : State :=
  withdraw (endPushes s (fun q => decide (q.peer = p)) .done) (isReplayDoneTo p) .plain

theorem sendingEnded_ends (s : State) (p : StationNo) : Ends s (sendingEnded s p) :=
  (endPushes_ends s _ rfl).trans (withdraw_plain_ends _ _)

theorem sendingEnded_repair (s : State) (p : StationNo) : (sendingEnded s p).repair = s.repair := by
  unfold sendingEnded
  rw [withdraw_repair, endPushes_repair]

theorem handOnAbsent_eq (s : State) (p : StationNo) :
    handOnAbsent s p = dropDeadRoom
      (if s.repair.active = true ∧ inMark s.repair.awaited p = true then awaitedLeft (sendingEnded s p) p
        else sendingEnded s p) := by
  have handed : handOnAbsent s p = dropDeadRoom
      (if (sendingEnded s p).repair.active && inMark (sendingEnded s p).repair.awaited p then
        addGroups (unawait (sendingEnded s p) p) (sharedGroups (sendingEnded s p) p) else sendingEnded s p) := rfl
  rw [handed, sendingEnded_repair]
  congr 1
  by_cases h : s.repair.active = true ∧ inMark s.repair.awaited p = true
  · unfold awaitedLeft
    rw [if_pos (by simpa using h), if_pos h, sendingEnded_repair, if_pos h.2]
  · rw [if_neg (by simpa using h), if_neg h]

theorem handOnAbsent_sends (s : State) (p : StationNo) :
    (handOnAbsent s p).bus = (sendingEnded s p).bus ∧ (handOnAbsent s p).replay = (sendingEnded s p).replay := by
  obtain ⟨_, _, added⟩ := addGroups_spec (unawait (sendingEnded s p) p) (sharedGroups (sendingEnded s p) p)
  rw [handOnAbsent_eq]
  unfold awaitedLeft
  rw [added]
  split
  · split <;> exact ⟨rfl, rfl⟩
  · exact ⟨rfl, rfl⟩

/-- No frame is queued that was not so before, and no REPLAY_DONE to the peer (R137). -/
theorem handOnAbsent_queued {s : State} {p : StationNo} {f : TxFrame} (h : f ∈ (handOnAbsent s p).bus.queue)
    (q : f.phase = .queued) : f ∈ s.bus.queue ∧ isReplayDoneTo p f = false := by
  rw [(handOnAbsent_sends s p).1] at h
  obtain ⟨kept, other⟩ := withdraw_gone h q
  obtain ⟨old, -⟩ := (endPushes_ends _ _ rfl).frames f kept
  exact ⟨old q, other⟩

/-- No push to the peer is left, and none is begun (R130). -/
theorem handOnAbsent_pushes {s : State} {p : StationNo} {q : Push} (h : q ∈ (handOnAbsent s p).replay.pushes) :
    q ∈ s.replay.pushes ∧ q.peer ≠ p := by
  rw [(handOnAbsent_sends s p).2, sendingEnded, withdraw_plain_pushes] at h
  obtain ⟨old, other⟩ := endPushes_gone h
  exact ⟨old, by simpa using other⟩

theorem handOnAbsent_givesUp (s : State) (p : StationNo) : GivesUp p s (handOnAbsent s p) := by
  have ended : GivesUp p s (sendingEnded s p) :=
    givesUp_of_repair (sendingEnded_ends s p).member (sendingEnded_ends s p).clock (sendingEnded_repair s p)
  have room (u : State) : GivesUp p u (dropDeadRoom u) :=
    ⟨rfl, rfl, id, fun _ => id, fun _ _ => rfl, fun awaited gone => by cases awaited.symm.trans gone⟩
  rw [handOnAbsent_eq]
  refine GivesUp.trans ?_ (room _)
  split
  · exact ended.trans (awaitedLeft_givesUp _ p)
  · exact ended

/-- During a catch-up an awaited peer that becomes ABSENT is awaited no more and its groups are swept (R155). -/
theorem handOnAbsent_awaited {s : State} {p : StationNo} (active : s.repair.active = true)
    (awaited : inMark s.repair.awaited p = true) :
    inMark (handOnAbsent s p).repair.awaited p = false
      ∧ ∀ g ∈ sharedGroups s p, g ∈ (handOnAbsent s p).repair.sweepSet := by
  have gone : inMark (handOnAbsent s p).repair.awaited p = false := by
    rw [handOnAbsent_eq, if_pos ⟨active, awaited⟩]
    exact awaitedLeft_gone (sendingEnded s p) p
  exact ⟨gone, (handOnAbsent_givesUp s p).shared awaited gone⟩

/-! ### An awaited peer is declared down (R113, R155) -/

/-- A peer's entry declared down at moment `now`: ABSENT, its miss count cleared, its last notice set (R113). -/
def PeerEntry.downAt (e : PeerEntry) (now : Nat) : PeerEntry :=
  { e with state := .absent, misses := 0, lastNotice := some now }

theorem noticedAbsent_spec (s : State) (p : StationNo) :
    ∃ (bus : Bus) (counters : Counters), noticedAbsent s p =
      { s with
        peers := s.peers.map fun e => if e.peer = p then e.downAt s.clock else e
        bus := bus, counters := counters } := by
  rw [noticedAbsent_eq]
  obtain ⟨bus, counters, offered⟩ := offer_spec (updatePeer s p fun e => e.downAt s.clock) (peerDownFrame (self s) p)
    (.peerNotice p)
  exact ⟨bus, counters, offered⟩

theorem declareDown_givesUp (s : State) (p : StationNo) : GivesUp p s (declareDown s p) := by
  unfold declareDown
  split
  · obtain ⟨_, _, noticed⟩ := noticedAbsent_spec s p
    have absent : GivesUp p s (noticedAbsent s p) := by
      rw [noticed]
      exact givesUp_of_repair rfl rfl rfl
    exact absent.trans (handOnAbsent_givesUp _ p)
  · exact givesUp_of_repair rfl rfl rfl

theorem inService_congr {s t : State} (h : t.member = s.member) : inService t = inService s := by
  unfold inService
  rw [h]

/-- The Peer Table with the stations of `l` declared down, a live one's entry alone being changed (R113). -/
def peersDown (s : State) (l : List StationNo) : List PeerEntry :=
  s.peers.map fun e => if e.peer ∈ l ∧ isLive s e.peer = true then e.downAt s.clock else e

/-- The stations of `l` are dropped from the awaited set: none is awaited any more, the shared groups of each that was
are in the sweep, and where the station serves each is declared down (R113, R155). -/
structure Drops (l : List StationNo) (s t : State) : Prop where
  member : t.member = s.member
  clock : t.clock = s.clock
  limit : s.repair.limit = none → t.repair.limit = none
  swept : ∀ g ∈ s.repair.sweepSet, g ∈ t.repair.sweepSet
  gone : ∀ n ∈ l, inMark t.repair.awaited n = false
  others : ∀ n, n ∉ l → inMark t.repair.awaited n = inMark s.repair.awaited n
  shared : ∀ p ∈ l, inMark s.repair.awaited p = true → ∀ g ∈ sharedGroups s p, g ∈ t.repair.sweepSet
  peers : inService s = true → t.peers = peersDown s l

theorem awaitedLeft_peers (s : State) (p : StationNo) : (awaitedLeft s p).peers = s.peers := by
  cases h : inMark s.repair.awaited p with
  | false => rw [awaitedLeft_of_gone h]
  | true =>
    obtain ⟨_, _, left, -⟩ := awaitedLeft_of_awaited h
    rw [left]

theorem declareDown_peers {s : State} (p : StationNo) (serves : inService s = true) :
    (declareDown s p).peers = peersDown s [p] := by
  unfold peersDown
  cases live : isLive s p with
  | false =>
    rw [declareDown_of_dead live]
    refine ((List.map_congr_left fun e _ => if_neg ?_).trans (List.map_id _)).symm
    rintro ⟨one, alive⟩
    rw [List.mem_singleton.1 one, live] at alive
    cases alive
  | true =>
    obtain ⟨_, _, noticed⟩ := noticedAbsent_spec s p
    rw [declareDown_of_live serves live, (handOnAbsent_leavesPeers _ _).peers, noticed]
    refine List.map_congr_left fun e _ => if_congr ?_ rfl rfl
    rw [List.mem_singleton]
    exact ⟨fun same => ⟨same, same ▸ live⟩, And.left⟩

theorem dropAwaited_drops (s : State) (p : StationNo) : Drops [p] s (dropAwaited s p) := by
  have gives := (declareDown_givesUp s p).trans (awaitedLeft_givesUp _ p)
  have gone := awaitedLeft_gone (declareDown s p) p
  refine ⟨gives.member, gives.clock, gives.limit, gives.swept, fun n one => ?_,
    fun n other => gives.others n (by simpa using other), fun q one awaited => ?_,
    fun serves => (awaitedLeft_peers _ p).trans (declareDown_peers p serves)⟩
  · rw [List.mem_singleton.1 one]
    exact gone
  · rw [List.mem_singleton.1 one] at awaited ⊢
    exact gives.shared awaited gone

theorem peersDown_nil (s : State) : peersDown s [] = s.peers := by
  simp [peersDown]

theorem peerState_of_peersDown {s t : State} {l : List StationNo} (h : t.peers = peersDown s l) (n : StationNo) :
    peerState t n = if n ∈ l ∧ isLive s n = true then (peerState s n).map fun _ => .absent else peerState s n := by
  have same : (fun e : PeerEntry => decide (e.peer = n)) ∘
      (fun e => if e.peer ∈ l ∧ isLive s e.peer = true then e.downAt s.clock else e)
        = fun e => decide (e.peer = n) := by
    funext e
    by_cases down : e.peer ∈ l ∧ isLive s e.peer = true <;> simp [down, PeerEntry.downAt]
  unfold peerState peerEntry
  rw [h, peersDown, List.find?_map, same]
  cases found : s.peers.find? fun e => decide (e.peer = n) with
  | none => simp
  | some e =>
    have peer : e.peer = n := by simpa using List.find?_some found
    simp only [Option.map_some, peer, ← apply_ite some, apply_ite PeerEntry.state]
    rfl

/-- Of the stations declared down none is live, and every other is as it was (R113). -/
theorem isLive_of_peersDown {s t : State} {l : List StationNo} (h : t.peers = peersDown s l) (n : StationNo) :
    isLive t n = (isLive s n && decide (n ∉ l)) := by
  have state := peerState_of_peersDown h n
  by_cases down : n ∈ l ∧ isLive s n = true
  · rw [if_pos down] at state
    have dead : isLive t n = false := by
      unfold isLive isPresent isCatchingUp
      rw [state]
      cases peerState s n <;> rfl
    simp [dead, down.1]
  · rw [if_neg down] at state
    have kept : isLive t n = isLive s n := by
      unfold isLive isPresent isCatchingUp
      rw [state]
    rw [kept]
    cases live : isLive s n with
    | false => rfl
    | true => simp [show n ∉ l from fun one => down ⟨one, live⟩]

theorem Drops.trans {k l : List StationNo} {s t u : State} (a : Drops k s t) (b : Drops l t u) :
    Drops (k ++ l) s u := by
  refine ⟨b.member.trans a.member, b.clock.trans a.clock, b.limit ∘ a.limit, fun g h => b.swept g (a.swept g h),
    fun n hn => ?_, fun n hn => ?_, fun p hp awaited g shared => ?_, fun serves => ?_⟩
  · by_cases late : n ∈ l
    · exact b.gone n late
    · rw [b.others n late, a.gone n ((List.mem_append.1 hn).resolve_right late)]
  · rw [List.mem_append, not_or] at hn
    rw [b.others n hn.2, a.others n hn.1]
  · by_cases early : p ∈ k
    · exact b.swept g (a.shared p early awaited g shared)
    · refine b.shared p ((List.mem_append.1 hp).resolve_left early) ?_ g (sharedGroups_congr a.member p ▸ shared)
      rw [a.others p early, awaited]
  · have first := a.peers serves
    rw [b.peers ((inService_congr a.member).trans serves), peersDown, first, peersDown, List.map_map, peersDown]
    refine List.map_congr_left fun e _ => ?_
    simp only [Function.comp_apply, isLive_of_peersDown first, a.clock, List.mem_append]
    by_cases early : e.peer ∈ k <;> by_cases live : isLive s e.peer = true <;> simp [early, live, PeerEntry.downAt]

theorem drops_foldl (l : List StationNo) (s : State) : Drops l s (l.foldl dropAwaited s) := by
  induction l generalizing s with
  | nil =>
    exact ⟨rfl, rfl, id, fun _ => id, (fun _ h => nomatch h), fun _ _ => rfl, (fun _ h => nomatch h),
      fun _ => (peersDown_nil s).symm⟩
  | cons p l ih => exact (dropAwaited_drops s p).trans (ih _)

/-! ### The limit expires (R155) -/

/-- The limit has run out, and no peer awaited is yet declared down. -/
def limitPassed (s : State) (due : Nat) : State :=
  { s with clock := max s.clock due, repair := { s.repair with limit := none } }

theorem exec_catchUpLimitExpiry {s : State} {due : Nat} (released : s.resetHeld = false)
    (running : s.repair.limit = some due) :
    exec .catchUpLimitExpiry s =
      .next (settle ((markMembers s.repair.awaited).foldl dropAwaited (limitPassed s due))) := by
  refine Eq.trans (b := execCatchUpLimitExpiry s) rfl ?_
  unfold execCatchUpLimitExpiry
  rw [happening_of_released _ released]
  simp only [running]
  rfl

theorem dropAwaited_of_live {s : State} {p : StationNo} (serves : inService s = true) (live : isLive s p = true) :
    dropAwaited s p = awaitedLeft (handOnAbsent (noticedAbsent s p) p) p := by
  rw [dropAwaited_eq, declareDown_of_live serves live]

theorem dropAwaited_of_dead {s : State} {p : StationNo} (dead : isLive s p = false) :
    dropAwaited s p = awaitedLeft s p := by
  rw [dropAwaited_eq, declareDown_of_dead dead]

/-- Settles O58: by what dropping the awaited peers one after another leaves, by the declaring of one of them down, and
by what its change to ABSENT hands on. -/
theorem catchUpLimitExpires : Obligations.CatchUpLimitExpires := by
  unfold Obligations.CatchUpLimitExpires
  refine ⟨fun s due released running => ?_, fun s p => ⟨fun serves live => ?_, fun dead => dropAwaited_of_dead dead⟩,
    fun s p => ⟨fun f => handOnAbsent_queued, fun q => handOnAbsent_pushes, fun active awaited _ =>
      handOnAbsent_awaited active awaited⟩⟩
  · have drops := drops_foldl (markMembers s.repair.awaited) (limitPassed s due)
    refine ⟨exec_catchUpLimitExpiry released running, mark_eq_zero_of fun n => ?_, drops.limit rfl, fun serves => ?_⟩
    · cases awaited : inMark s.repair.awaited n with
      | true => exact drops.gone n (mem_markMembers.2 awaited)
      | false => exact (drops.others n (by simp [mem_markMembers, awaited])).trans awaited
    · have peers := drops.peers serves
      refine ⟨peers.trans (List.map_congr_left fun e _ => if_congr ?_ rfl rfl), fun p _ awaited => ?_⟩
      · rw [mem_markMembers]
        rfl
      · have member : p ∈ markMembers s.repair.awaited := mem_markMembers.2 awaited
        exact ⟨(isLive_of_peersDown peers p).trans (by simp [member]), drops.shared p member awaited⟩
  · rw [dropAwaited_of_live serves live, noticedAbsent_eq]
    rfl

end Sys2Proof.Machine
end

section
/-! What the Peer Table takes of PEER_DOWN, REJOIN and CAUGHT_UP (R110, R114 to R119). -/

namespace Sys2Proof.Machine

/-! ### PEER_DOWN (R114 to R116) -/

theorem exec_peerDownHeard {s : State} {src : Source} {named : StationNo}
    (h : takesFrame s (peerDownFrame src named) = true) :
    exec (.peerDownHeard src named) s = .next (settle (takePeerDown (afterEcho s) src named)) :=
  hear_of_takes (fun u => takePeerDown u src named) h

/-- The Peer Table takes a PEER_DOWN of this source: in service, with the station's mark, from a member (R110). -/
def takesDown (s : State) (src : Source) : Prop :=
  inService s = true ∧ src.mark = s.member.mark ∧ isMember s src.sender = true

theorem takePeerDown_of_passed {s : State} {src : Source} (named : StationNo) (h : ¬takesDown s src) :
    takePeerDown s src named = s :=
  if_neg fun takes => h (by simpa [takesDown, markMatches_iff, and_assoc] using takes)

theorem takePeerDown_of_taken {s : State} {src : Source} (named : StationNo) (h : takesDown s src) :
    takePeerDown s src named =
      if named = ownNumber s then (if src.sender = ownNumber s then s else beginCatchUp s)
      else if isMember s named then
        markAbsent (if src.sender = ownNumber s then s else withdraw s (forPurpose (.peerNotice named)) .plain) named
      else s :=
  if_pos (by simpa [takesDown, markMatches_iff, and_assoc] using h)

theorem markAbsent_of_live {s : State} {p : StationNo} (h : isLive s p = true) :
    markAbsent s p = handOnAbsent (updatePeer s p fun e => { e with state := .absent, misses := 0 }) p := if_pos h

theorem isLive_of_absent {s : State} {p : StationNo} (h : isAbsent s p = true) : isLive s p = false := by
  unfold isLive isPresent isCatchingUp
  rw [of_decide_eq_true h]
  rfl

theorem markAbsent_of_absent {s : State} {p : StationNo} (h : isAbsent s p = true) : markAbsent s p = s :=
  if_neg (by simp [isLive_of_absent h])

/-- Settles O34: by who the frame is from and whom it names. -/
theorem peerDownHeard : Obligations.PeerDownHeard := by
  unfold Obligations.PeerDownHeard
  intro s src named takes h
  rw [exec_peerDownHeard takes]
  have passes : ¬takesDown s src → takePeerDown h src named = h := takePeerDown_of_passed (s := h) named
  have taken : takesDown s src → takePeerDown h src named = _ := takePeerDown_of_taken (s := h) named
  refine ⟨fun aside => by rw [passes aside], fun serves mark member => ?_⟩
  rw [taken ⟨serves, mark, member⟩]
  have number : ownNumber h = ownNumber s := rfl
  have members : isMember h named = isMember s named := rfl
  rw [number, members]
  refine ⟨fun own other => by rw [if_pos own, if_neg other], fun own ours => by rw [if_pos own, if_pos ours],
    fun other stranger => by rw [if_neg other, stranger]; rfl, fun other inside foreign => ?_,
    fun other inside ours => ?_⟩
  · rw [if_neg other, if_pos inside, if_neg foreign]
    intro u
    have peers : peerState u named = peerState s named := by
      unfold peerState peerEntry
      rw [withdraw_plain_peers]
      rfl
    refine ⟨fun live => ?_, fun absent => ?_⟩
    · rw [markAbsent_of_live (by rwa [isLive, isPresent, isCatchingUp, peers])]
      rfl
    · rw [markAbsent_of_absent (by rwa [isAbsent, peers])]
  · rw [if_neg other, if_pos inside, if_pos ours]
    refine ⟨fun live => ?_, fun absent => ?_⟩
    · rw [markAbsent_of_live (s := h) live]
      rfl
    · rw [markAbsent_of_absent (s := h) absent]

/-! ### REJOIN (R118, R134, R137) and CAUGHT_UP (R119) -/

theorem exec_rejoinHeard {s : State} {src : Source} (h : takesFrame s (rejoinFrame src) = true) :
    exec (.rejoinHeard src) s = .next (settle (takeRejoin (afterEcho s) src)) :=
  hear_of_takes (fun u => takeRejoin u src) h

theorem exec_caughtUpHeard {s : State} {src : Source} (h : takesFrame s (caughtUpFrame src) = true) :
    exec (.caughtUpHeard src) s = .next (settle (takeCaughtUp (afterEcho s) src)) :=
  hear_of_takes (fun u => takeCaughtUp u src) h

/-- The peer CATCHING_UP with its miss count cleared, and the retry times of its list removed (R118, R134). -/
def rejoined (s : State) (p : StationNo) : State :=
  { s with
    peers := s.peers.map fun e => if e.peer = p then { e with state := .catchingUp, misses := 0 } else e
    replay := { s.replay with pool := s.replay.pool.map fun m => if m.peer = p then { m with retry := none } else m } }

/-- A REJOIN leaves what is on the lists. -/
theorem missedList_rejoined (s : State) (p : StationNo) :
    missedList (rejoined s p) p = [] ↔ ∀ m ∈ s.replay.pool, m.peer ≠ p := by
  have same (m : Missed) : (if m.peer = p then { m with retry := none } else m).peer = m.peer := by
    split <;> rfl
  simp [missedList, rejoined, List.filter_eq_nil_iff, same]

theorem takeRejoin_of_passed {s : State} {src : Source} (h : peerTakes s src = false) : takeRejoin s src = s :=
  if_neg (by simp [h])

theorem takeRejoin_of_taken {s : State} {src : Source} (h : peerTakes s src = true) :
    takeRejoin s src =
      if (missedList (rejoined s src.sender) src.sender).isEmpty then
        queueReplayDone (rejoined s src.sender) src.sender
      else rejoined s src.sender := if_pos h

theorem takeRejoin_of_listed {s : State} {src : Source} (h : peerTakes s src = true)
    (listed : ∃ m ∈ s.replay.pool, m.peer = src.sender) : takeRejoin s src = rejoined s src.sender := by
  rw [takeRejoin_of_taken h, if_neg]
  rw [List.isEmpty_iff, missedList_rejoined]
  push Not
  exact listed

/-- An empty list draws REPLAY_DONE with the overflow flag of this moment (R134, R137). -/
theorem takeRejoin_of_empty {s : State} {src : Source} (h : peerTakes s src = true)
    (empty : ∀ m ∈ s.replay.pool, m.peer ≠ src.sender) :
    takeRejoin s src =
      offerReplayDone (rejoined s src.sender) src.sender (inMark s.replay.overflow src.sender) := by
  rw [takeRejoin_of_taken h, if_pos (List.isEmpty_iff.2 ((missedList_rejoined s _).2 empty))]
  exact if_pos ((peerTakes_iff s src).1 h).1

/-- A CAUGHT_UP by the state of its sender's entry (R119). -/
theorem takeCaughtUp_of_taken {s : State} {src : Source} {e : PeerEntry} (h : peerTakes s src = true)
    (found : peerEntry s src.sender = some e) :
    takeCaughtUp s src =
      if e.state = .catchingUp then updatePeer s src.sender fun x => { x with state := .present }
      else renotice s src.sender := by
  unfold takeCaughtUp
  rw [if_pos h]
  exact if_congr (by simp [isCatchingUp, peerState, found]) rfl rfl

theorem takeCaughtUp_of_passed {s : State} {src : Source} (h : peerTakes s src = false) : takeCaughtUp s src = s :=
  if_neg (by simp [h])

theorem offerReplayDone_of_refused {s : State} {p : StationNo} (sweep : Bool) (h : accepts s .replayDone = false) :
    offerReplayDone s p sweep =
      { s with replay := { s.replay with
          overflow := if sweep then s.replay.overflow ||| markOf p else s.replay.overflow
          reoffers := s.replay.reoffers ++ [{ peer := p, sweep := sweep, due := s.clock + 5000 }] } } :=
  if_neg (by simp [h])

/-- Settles O35: by whether the Peer Table takes the frame, by the list of the peer for a REJOIN, and by the state of
its entry for a CAUGHT_UP. -/
theorem rejoinAndCaughtUpHeard : Obligations.RejoinAndCaughtUpHeard := by
  unfold Obligations.RejoinAndCaughtUpHeard
  refine ⟨fun s src takes serves mark member other => ?_, fun s src e takes serves mark member other found => ?_,
    fun s src aside => ?_⟩
  · have taken : peerTakes (afterEcho s) src = true := (peerTakes_iff s src).2 ⟨serves, mark, member, other⟩
    rw [exec_rejoinHeard takes]
    refine ⟨fun listed => ?_, fun empty room => ?_, fun empty full => ?_⟩
    · rw [takeRejoin_of_listed taken listed]
      rfl
    · rw [takeRejoin_of_empty taken empty, offerReplayDone_of_accepts (s := rejoined (afterEcho s) _) _ room]
      rfl
    · rw [takeRejoin_of_empty taken empty, offerReplayDone_of_refused (s := rejoined (afterEcho s) _) _ full]
      rfl
  · have taken : peerTakes (afterEcho s) src = true := (peerTakes_iff s src).2 ⟨serves, mark, member, other⟩
    have entry : peerEntry (afterEcho s) src.sender = some e := found
    rw [exec_caughtUpHeard takes, takeCaughtUp_of_taken taken entry]
    refine ⟨fun state => ?_, fun state => ?_, fun state due => ?_, fun state ⟨n, last, recent⟩ => ?_⟩
    · rw [if_pos state]
      rfl
    · rw [if_neg (by simp [state]), renotice_of_here entry (by simp [state])]
    · rw [if_neg (by simp [state]), renotice_of_due entry state due]
      rfl
    · rw [if_neg (by simp [state]), renotice_of_recent entry last recent]
  · have passed : peerTakes (afterEcho s) src = false :=
      Bool.eq_false_iff.2 fun taken => aside ((peerTakes_iff s src).1 taken)
    refine ⟨fun takes => ?_, fun takes => ?_⟩
    · rw [exec_rejoinHeard takes, takeRejoin_of_passed passed]
    · rw [exec_caughtUpHeard takes, takeCaughtUp_of_passed passed]

end Sys2Proof.Machine
end

section
/-! The end of a push's answer wait (R133), and what the end of a push leaves (R129, R130). -/

namespace Sys2Proof.Machine

/-! ### The end of a push (R129, R130) -/

/-- The push gone, its list entry no longer being pushed and with the retry time given, and its lookup waiting no
more. -/
def pushLeft (s : State) (p : Push) (retry : Option Nat) : State :=
  { s with
    replay := { s.replay with
      pushes := s.replay.pushes.filter fun q => decide (q.id ≠ p.id)
      pool := s.replay.pool.map fun m =>
        if m.peer = p.peer ∧ m.block = p.block then { m with push := false, retry := retry } else m }
    cache := { s.cache with waiters := s.cache.waiters.filter fun w => decide (w.user ≠ .push p.id) } }

theorem endPush_eq (s : State) (p : Push) (retry : Option Nat) (st : EntryState) :
    endPush s p retry st = match p.tag with
      | none => pushLeft s p retry
      | some t => withdraw (closeOwn (pushLeft s p retry) t st) (forTag .ownReplay t) .plain := by
  have waiters : (fun w : Waiter => !decide (w.user = .push p.id)) = fun w => decide (w.user ≠ .push p.id) :=
    funext fun _ => (decide_not).symm
  unfold endPush dropWaiters
  dsimp only
  rw [waiters]
  rfl

theorem endPush_untagged {s : State} {p : Push} (retry : Option Nat) (st : EntryState) (h : p.tag = none) :
    endPush s p retry st = pushLeft s p retry := by
  rw [endPush_eq, h]

theorem endPush_tagged {s : State} {p : Push} {t : Tag} (retry : Option Nat) (st : EntryState) (h : p.tag = some t) :
    endPush s p retry st = withdraw (closeOwn (pushLeft s p retry) t st) (forTag .ownReplay t) .plain := by
  rw [endPush_eq, h]

/-! ### The answer wait ends (R133) -/

theorem exec_replayAnswerWaitExpiry {s : State} {tag : Tag} {p : Push} {due : Nat} (released : s.resetHeld = false)
    (found : pushOfTag s tag = some p) (awaiting : p.phase = .awaiting due) :
    exec (.replayAnswerWaitExpiry tag) s = .next (settle (endAnswerWait (reach s due) p)) := by
  refine Eq.trans (b := execReplayAnswerWaitExpiry tag s) rfl ?_
  unfold execReplayAnswerWaitExpiry
  rw [happening_of_released _ released]
  simp only [found, awaiting]

/-- The miss itself ended the push (R111, R130). -/
theorem endAnswerWait_of_gone {s : State} {p : Push} (h : findPush (reportMiss s p.peer) p.id = none) :
    endAnswerWait s p = reportMiss s p.peer := by
  unfold endAnswerWait
  simp only [h]

/-- A push that the miss left goes on by the peer's state and by the attempts made. -/
theorem endAnswerWait_of_found {s : State} {p q : Push} (h : findPush (reportMiss s p.peer) p.id = some q) :
    endAnswerWait s p =
      if isLive (reportMiss s p.peer) q.peer then
        if attemptsOf (reportMiss s p.peer) q.tag < 3 then lookupPush (reportMiss s p.peer) q
        else endPush (reportMiss s p.peer) q (some ((reportMiss s p.peer).clock + 5000)) .done
      else endPush (reportMiss s p.peer) q none .done := by
  unfold endAnswerWait
  simp only [h]
  rfl

/-- Settles O56: by what the end of a push leaves, and by what follows the miss at the end of its answer wait. -/
theorem replayAnswerWaitEnds : Obligations.ReplayAnswerWaitEnds := by
  unfold Obligations.ReplayAnswerWaitEnds
  refine ⟨fun s p retry st => ⟨endPush_untagged retry st, fun t tagged => ?_⟩,
    fun s tag p due released found awaiting => ?_⟩
  · rw [endPush_tagged retry st tagged]
    congr 1
    unfold closeOwn
    have table : findEntry (pushLeft s p retry) t = findEntry s t := rfl
    rw [table]
    cases findEntry s t with
    | none => rfl
    | some e =>
      dsimp only
      rw [ite_not]
      rfl
  · rw [exec_replayAnswerWaitExpiry released found awaiting]
    intro t
    have missed : reportMiss (reach s due) p.peer = t := rfl
    refine ⟨fun gone => by rw [endAnswerWait_of_gone (s := reach s due) gone, missed], fun q kept => ?_⟩
    rw [endAnswerWait_of_found (s := reach s due) kept, missed]
    refine ⟨fun live few => ?_, fun live many => ?_, fun dead => ?_⟩
    · rw [if_pos live, if_pos few]
    · rw [if_pos live, if_neg (Nat.not_lt.2 many)]
    · rw [if_neg (by simp [dead])]

end Sys2Proof.Machine
end

section
/-! The push begun next (R128): whose turn it is, which entry it takes, and that it is begun. -/

namespace Sys2Proof.Machine

/-! ### The turn of the peers (R128) -/

/-- The first index a search over the first numbers stops at: it finds nothing at any index before. -/
theorem findSome?_range_first {α : Type} {f : Nat → Option α} {n : Nat} {a : α}
    (h : (List.range n).findSome? f = some a) : ∃ k < n, f k = some a ∧ ∀ j < k, f j = none := by
  induction n with
  | zero => simp at h
  | succ n ih =>
    rw [List.range_succ, List.findSome?_append] at h
    cases first : (List.range n).findSome? f with
    | some b =>
      rw [first] at h
      obtain ⟨k, hk, found, before⟩ := ih (first.trans h)
      exact ⟨k, hk.trans (Nat.lt_succ_self n), found, before⟩
    | none =>
      rw [first] at h
      refine ⟨n, Nat.lt_succ_self n, by simpa using h, fun j hj => ?_⟩
      exact List.findSome?_eq_none_iff.1 first j (List.mem_range.2 hj)

/-- The station whose turn comes first (R128; log 65). -/
def turnStart (last : Option StationNo) : Nat :=
  match last with
  | none => 0
  | some p => p.toNat + 1

/-- The station `k` places behind the first in turn. -/
def inTurn (start k : Nat) : StationNo := BitVec.ofNat 5 ((start + k) % 16)

/-- How many places behind the first in turn a station stands. -/
def turnPlace (start : Nat) (p : StationNo) : Nat := (p.toNat + 32 - start) % 16

theorem turnStart_le (last : Option StationNo) : turnStart last ≤ 32 := by
  cases last with
  | none => exact Nat.zero_le _
  | some p => exact p.isLt

theorem turnPlace_inTurn {start k : Nat} (hs : start ≤ 32) (hk : k < 16) : turnPlace start (inTurn start k) = k := by
  unfold turnPlace inTurn
  rw [BitVec.toNat_ofNat]
  omega

theorem inTurn_turnPlace {start : Nat} {p : StationNo} (hs : start ≤ 32) (store : p.isStore = true) :
    inTurn start (turnPlace start p) = p := by
  have number : p.toNat < 16 := of_decide_eq_true store
  refine BitVec.eq_of_toNat_eq ?_
  unfold turnPlace inTurn
  rw [BitVec.toNat_ofNat]
  omega

/-! ### The entry the next push takes (R128) -/

/-- The oldest eligible entry of a peer. -/
def oldestEligible (s : State) (p : StationNo) : Option Missed :=
  s.replay.pool.find? fun m => decide (m.peer = p) && eligible s m

theorem nextPush_eq (s : State) :
    nextPush s = (List.range 16).findSome? fun k => oldestEligible s (inTurn (turnStart s.replay.lastServed) k) :=
  List.findSome?_map

theorem oldestEligible_some {s : State} {p : StationNo} {m : Missed} (h : oldestEligible s p = some m) :
    m.peer = p ∧ eligible s m = true ∧ ∃ pre post, s.replay.pool = pre ++ m :: post
      ∧ ∀ x ∈ pre, x.peer = p → eligible s x = false := by
  obtain ⟨takes, pre, post, pool, before⟩ := List.find?_eq_some_iff_append.1 h
  obtain ⟨peer, able⟩ := Bool.and_eq_true_iff.1 takes
  refine ⟨of_decide_eq_true peer, able, pre, post, pool, fun x mem same => ?_⟩
  simpa [same] using before x mem

theorem not_eligible_of_none {s : State} {x : Missed} (h : oldestEligible s x.peer = none) (mem : x ∈ s.replay.pool) :
    eligible s x = false := by
  simpa using List.find?_eq_none.1 h x mem

/-- The next push is for the first peer in turn with an eligible entry: no other stands before it. -/
theorem nextPush_some {s : State} {m : Missed} (stores : (s.replay.pool.all fun x => x.peer.isStore) = true)
    (h : nextPush s = some m) :
    oldestEligible s m.peer = some m
      ∧ ∀ x ∈ s.replay.pool, eligible s x = true →
        turnPlace (turnStart s.replay.lastServed) m.peer ≤ turnPlace (turnStart s.replay.lastServed) x.peer := by
  have start := turnStart_le s.replay.lastServed
  rw [nextPush_eq] at h
  obtain ⟨k, hk, found, before⟩ := findSome?_range_first h
  have peer := (oldestEligible_some found).1
  refine ⟨peer ▸ found, fun x mem able => ?_⟩
  rw [peer, turnPlace_inTurn start hk]
  refine Nat.le_of_not_lt fun earlier => ?_
  have nothing := before _ earlier
  rw [inTurn_turnPlace start (List.all_eq_true.1 stores x mem)] at nothing
  exact Bool.false_ne_true ((not_eligible_of_none nothing mem).symm.trans able)

/-! ### The push is begun (R128) -/

theorem pushStep_of_place {s : State} {m : Missed} (serves : inService s = true) (few : s.replay.pushes.length < 2)
    (next : nextPush s = some m) : pushStep s = some (beginPush s m) := by
  unfold pushStep
  rw [if_pos (by simp [serves, Config.pushLimit, few]), next]
  rfl

theorem pushStep_of_none {s : State} (h : inService s = false ∨ 2 ≤ s.replay.pushes.length ∨ nextPush s = none) :
    pushStep s = none := by
  unfold pushStep
  rcases h with out | busy | nobody
  · rw [out]
    rfl
  · exact if_neg (by simp [Config.pushLimit, Nat.lt_of_succ_le busy])
  · rw [nobody]
    exact ite_self _

end Sys2Proof.Machine
end

section
/-! A push with its block's data in hand (R62, R129, R133): its entry under a fresh tag, and its REPLAY. -/

namespace Sys2Proof.Machine

/-! ### A slot becomes the most recently used (R74) -/

/-- The Block Cache once the slot, if CLEAN, is the most recently used. -/
def Cache.touched (c : Cache) (i : Nat) : Cache :=
  match c.slots.getD i .free with
  | .clean b v d _ => { c with slots := c.slots.set i (.clean b v d (c.recency + 1)), recency := c.recency + 1 }
  | .free | .held .. | .filling .. | .dirty .. | .writing .. | .retiring .. => c

theorem touchSlot_eq (s : State) (i : Nat) : touchSlot s i = { s with cache := s.cache.touched i } := by
  unfold touchSlot Cache.touched slotAt
  cases s.cache.slots.getD i .free <;> rfl

/-! ### Two changes of a push -/

theorem updatePush_twice (s : State) (id : Nat) {f : Push → Push} (g : Push → Push) (hf : ∀ q, (f q).id = q.id) :
    updatePush (updatePush s id f) id g = updatePush s id fun q => g (f q) := by
  unfold updatePush
  simp only [List.map_map]
  congr 2
  refine List.map_congr_left fun q _ => ?_
  by_cases h : q.id = id <;> simp [h, hf]

/-! ### From the lookup to the REPLAY -/

/-- A full table with no entry finished gives none (R63). -/
theorem giveEntry_of_running {s : State} (full : 24 ≤ s.table.length)
    (running : ∀ e ∈ s.table, e.state.finished = false) : giveEntry s = none := by
  rw [giveEntry_of_full full, oldestFinished_none running]
  rfl

section

variable {s : State} {p : Push}

/-- The push in its lookup, and the slot that answers it the most recently used. -/
def lookedUp (s : State) (p : Push) (i : Nat) : State :=
  touchSlot (updatePush s p.id fun q => { q with phase := .lookup }) i

theorem lookupPush_of_copy {i : Nat} {v : Version} {d : Data} (copy : currentCopy s p.block = some (i, v, d)) :
    lookupPush s p = pushInHand (lookedUp s p i) p := by
  have same : currentCopy (updatePush s p.id fun q => { q with phase := .lookup }) p.block = some (i, v, d) := copy
  unfold lookupPush copyLookup
  rw [same]
  rfl

theorem pushInHand_of_barred (barred : mayPush s p = false) : pushInHand s p = endPush s p none .done :=
  if_neg (by simp [barred])

theorem pushInHand_of_full (may : mayPush s p = true) (first : p.tag = none) (full : giveEntry s = none) :
    pushInHand s p = endPush s p (some (s.clock + 5000)) .done := by
  unfold pushInHand
  rw [if_pos may, first, full]
  rfl

/-- The push under the station's next tag, with this request table (R62). -/
def pushTagged (s : State) (p : Push) (table : List Entry) : State :=
  updatePush { s with sequence := (ownTag s).seq + 1, table := table } p.id fun q => { q with tag := some (ownTag s) }

theorem tagPush_first (first : p.tag = none) :
    tagPush s p = pushTagged s p (s.table ++
      [{ newEntry s (ownTag s) .ownReplay (some p.block) .outstanding with target := some p.peer }]) := by
  unfold tagPush
  rw [first]
  rfl

theorem tagPush_again {old : Tag} (again : p.tag = some old) :
    tagPush s p = pushTagged s p (s.table.map fun e =>
      if e.tag = old then { e with tag := ownTag s, attempts := e.attempts + 1 } else e) := by
  unfold tagPush
  rw [again]
  rfl

theorem findPush_tagPush (found : findPush s p.id = some p) :
    findPush (tagPush s p) p.id = some { p with tag := some (ownTag s) } := by
  have tagged (table : List Entry) : findPush (pushTagged s p table) p.id = some { p with tag := some (ownTag s) } := by
    refine (findPush_update _ p.id (fun q => { q with tag := some (ownTag s) }) fun _ => rfl).trans ?_
    exact congrArg (Option.map _) found
  cases tag : p.tag with
  | none => exact tagPush_first tag ▸ tagged _
  | some old => exact tagPush_again tag ▸ tagged _

/-- A push that has its place in the table goes on under a fresh tag. -/
theorem pushInHand_of_given {q : Push} (may : mayPush s p = true) (given : p.tag = none → giveEntry s = some s)
    (found : findPush s p.id = some q) (mayStill : mayPush s q = true) :
    pushInHand s p = queueReplay (tagPush s q) { q with tag := some (ownTag s) } := by
  have entry : (if p.tag.isNone then giveEntry s else some s) = some s := by
    split
    next untagged => exact given (Option.isNone_iff_eq_none.1 untagged)
    next => rfl
  obtain same : q.id = p.id := findPush_id found
  unfold pushInHand
  rw [if_pos may, entry]
  simp only [found, mayStill, if_true]
  rw [← same] at found ⊢
  rw [findPush_tagPush found]

/-- A push with its REPLAY to be queued. -/
theorem queueReplay_of_copy {i : Nat} {v : Version} {d : Data} {t : Tag}
    (copy : currentCopy s p.block = some (i, v, d)) (tag : p.tag = some t) :
    queueReplay s p =
      if accepts s .replay then
        updatePush (touchSlot { s with bus := { s.bus with queue := s.bus.queue ++
          [queuedFrame (replayFrame (self s) t p.peer p.block v d) .ownReplay] } } i) p.id
          fun q => { q with phase := .queued }
      else endPush s p (some (s.clock + 5000)) .done := by
  unfold queueReplay
  rw [copy, tag]
  dsimp only
  split
  next room => rw [offer_of_accepts (f := replayFrame (self s) t p.peer p.block v d) _ room]
  next => rfl

/-! ### The push under its fresh tag -/

/-- The push in its lookup under a fresh tag, with this request table. -/
def retagged (s : State) (p : Push) (i : Nat) (table : List Entry) : State :=
  { lookedUp s p i with
    sequence := (ownTag s).seq + 1
    table := table
    replay := { s.replay with pushes := s.replay.pushes.map fun q =>
      if q.id = p.id then { q with tag := some (ownTag s), phase := .lookup } else q } }

/-- The push with its REPLAY queued, or ended with its retry time 5 ms ahead where the queue refuses it (R129). -/
def replayOffered (s : State) (p : Push) (i : Nat) (v : Version) (d : Data) (table : List Entry) : State :=
  if accepts s .replay then touchSlot
    { retagged s p i table with
      bus := { s.bus with queue := s.bus.queue ++
        [queuedFrame (replayFrame (self s) (ownTag s) p.peer p.block v d) .ownReplay] }
      replay := { s.replay with pushes := s.replay.pushes.map fun q =>
        if q.id = p.id then { q with tag := some (ownTag s), phase := .queued } else q } } i
  else endPush (retagged s p i table) { p with tag := some (ownTag s) } (some (s.clock + 5000)) .done

theorem lookedUp_eq (s : State) (p : Push) (i : Nat) :
    lookedUp s p i = { updatePush s p.id fun q => { q with phase := .lookup } with cache := s.cache.touched i } :=
  touchSlot_eq _ i

theorem ownTag_lookedUp (s : State) (p : Push) (i : Nat) : ownTag (lookedUp s p i) = ownTag s := by
  rw [lookedUp_eq]
  rfl

theorem mayPush_lookedUp (s : State) (p : Push) (i : Nat) : mayPush (lookedUp s p i) p = mayPush s p := by
  rw [lookedUp_eq]
  rfl

theorem findPush_lookedUp (i : Nat) (found : findPush s p.id = some p) :
    findPush (lookedUp s p i) p.id = some { p with phase := .lookup } := by
  rw [lookedUp_eq]
  refine (findPush_update s p.id (fun q => { q with phase := .lookup }) fun _ => rfl).trans ?_
  rw [found]
  rfl

theorem pushTagged_lookedUp (s : State) (p : Push) (i : Nat) (table : List Entry) :
    pushTagged (lookedUp s p i) { p with phase := .lookup } table = retagged s p i table := by
  unfold pushTagged retagged
  rw [ownTag_lookedUp, lookedUp_eq]
  exact updatePush_twice
    { s with sequence := (ownTag s).seq + 1, table := table, cache := s.cache.touched i } p.id
    (fun q => { q with tag := some (ownTag s) }) fun _ => rfl

theorem currentCopy_lookedUp (s : State) (p : Push) (i : Nat) (b : Block) :
    currentCopy (lookedUp s p i) b = currentCopy s b := currentCopy_touchSlot _ i b

theorem queueReplay_retagged {i : Nat} {v : Version} {d : Data} (table : List Entry)
    (copy : currentCopy s p.block = some (i, v, d)) :
    queueReplay (retagged s p i table) { p with phase := .lookup, tag := some (ownTag s) } =
      replayOffered s p i v d table := by
  have held : currentCopy (retagged s p i table) p.block = some (i, v, d) := (currentCopy_lookedUp s p i _).trans copy
  have room : accepts (retagged s p i table) .replay = accepts s .replay := by
    unfold retagged
    rw [lookedUp_eq]
    rfl
  rw [queueReplay_of_copy (p := { p with phase := .lookup, tag := some (ownTag s) }) held rfl, room]
  refine if_congr Iff.rfl ?_ ?_
  · unfold retagged
    rw [touchSlot_eq, touchSlot_eq, lookedUp_eq]
    exact updatePush_twice (f := fun q => { q with tag := some (ownTag s), phase := .lookup })
      { s with
        bus := { s.bus with queue := s.bus.queue ++
          [queuedFrame (replayFrame (self s) (ownTag s) p.peer p.block v d) .ownReplay] }
        sequence := (ownTag s).seq + 1
        table := table
        cache := (s.cache.touched i).touched i } p.id (fun q => { q with phase := .queued }) fun _ => rfl
  · unfold retagged
    rw [lookedUp_eq]
    rfl

/-! ### A push whose lookup is answered at once (R129) -/

section

variable {i : Nat} {v : Version} {d : Data} (copy : currentCopy s p.block = some (i, v, d))
include copy

theorem lookupPush_of_barred (barred : mayPush s p = false) :
    lookupPush s p = endPush (lookedUp s p i) p none .done := by
  rw [lookupPush_of_copy copy, pushInHand_of_barred ((mayPush_lookedUp s p i).trans barred)]

theorem lookupPush_of_full (may : mayPush s p = true) (first : p.tag = none) (full : giveEntry (lookedUp s p i) = none) :
    lookupPush s p = endPush (lookedUp s p i) p (some (s.clock + 5000)) .done := by
  rw [lookupPush_of_copy copy, pushInHand_of_full ((mayPush_lookedUp s p i).trans may) first full, lookedUp_eq]
  rfl

/-- A push that has its place in the table has its REPLAY offered under its fresh tag. -/
theorem lookupPush_of_tagged (found : findPush s p.id = some p) (may : mayPush s p = true)
    (given : p.tag = none → giveEntry (lookedUp s p i) = some (lookedUp s p i)) {table : List Entry}
    (tagged : tagPush (lookedUp s p i) { p with phase := .lookup } = retagged s p i table) :
    lookupPush s p = replayOffered s p i v d table := by
  have mayStill := (mayPush_lookedUp s p i).trans may
  rw [lookupPush_of_copy copy, pushInHand_of_given mayStill given (findPush_lookedUp i found) mayStill, tagged,
    ownTag_lookedUp]
  exact queueReplay_retagged table copy

theorem lookupPush_of_first (found : findPush s p.id = some p) (may : mayPush s p = true) (first : p.tag = none)
    (room : s.table.length < 24) :
    lookupPush s p = replayOffered s p i v d (s.table ++
      [{ newEntry s (ownTag s) .ownReplay (some p.block) .outstanding with target := some p.peer }]) := by
  refine lookupPush_of_tagged copy found may (fun _ => giveEntry_of_room (by rw [lookedUp_eq]; exact room)) ?_
  rw [tagPush_first (s := lookedUp s p i) (p := { p with phase := .lookup }) first, ownTag_lookedUp, pushTagged_lookedUp,
    lookedUp_eq]
  rfl

theorem lookupPush_of_again (found : findPush s p.id = some p) (may : mayPush s p = true) {old : Tag}
    (again : p.tag = some old) :
    lookupPush s p = replayOffered s p i v d (s.table.map fun e =>
      if e.tag = old then { e with tag := ownTag s, attempts := e.attempts + 1 } else e) := by
  refine lookupPush_of_tagged copy found may (fun first => absurd (first.symm.trans again) nofun) ?_
  rw [tagPush_again (s := lookedUp s p i) (p := { p with phase := .lookup }) again, ownTag_lookedUp, pushTagged_lookedUp,
    lookedUp_eq]
  rfl

end

end

/-- Settles O15: by the turn of the peers, and for a push with its block's data in hand by whether it may still be made
and by its place in the table. -/
theorem pushesTakeTurns : Obligations.PushesTakeTurns := by
  unfold Obligations.PushesTakeTurns
  refine ⟨fun s m serves few next => pushStep_of_place serves few next, fun s => pushStep_of_none,
    fun s p i v d found copy => ?_, fun s m stores next => ?_⟩
  · intro looked tagged offered
    have isLooked : lookedUp s p i = looked := rfl
    refine ⟨fun serves live unlisted => ?_, fun barred => ?_⟩
    · have may : mayPush s p = true := by simp [mayPush, serves, live, unlisted]
      refine ⟨fun first room => lookupPush_of_first copy found may first room, fun first full running => ?_,
        fun old again => lookupPush_of_again copy found may again⟩
      refine lookupPush_of_full copy may first ?_
      rw [lookedUp_eq]
      exact giveEntry_of_running full running
    · refine lookupPush_of_barred copy ?_
      rcases barred with out | dead | listed
      · simp [mayPush, out]
      · simp [mayPush, dead]
      · simp [mayPush, listed]
  · obtain ⟨oldest, earliest⟩ := nextPush_some stores next
    obtain ⟨-, able, pre, post, pool, before⟩ := oldestEligible_some oldest
    have mem : m ∈ s.replay.pool := by simp [pool]
    exact ⟨mem, able, ⟨pre, post, pool, before⟩, earliest⟩

end Sys2Proof.Machine
end

section
/-! A failed attempt (R182): the frame stays in transmission, or is dropped and counted, and its owner's rule follows. -/

namespace Sys2Proof.Machine

/-! ### The frame being sent -/

section

variable {s : State} {i : Nat} {f : TxFrame}

/-- The frame contending or in transmission is the first that is no longer merely queued. -/
theorem activeIndex_of_first {q : List TxFrame} (place : q[i]? = some f) (active : f.phase ≠ .queued)
    (before : ∀ (j : Nat) (g : TxFrame), j < i → q[j]? = some g → g.phase = .queued) : activeIndex q = some i := by
  obtain ⟨inside, rfl⟩ := List.getElem?_eq_some_iff.1 place
  refine List.findIdx?_eq_some_iff_getElem.2 ⟨inside, by simpa using active, fun j hj => ?_⟩
  simpa using before j _ hj (List.getElem?_eq_getElem (hj.trans inside))

theorem whileDriving_of_active (act : State → Nat → TxFrame → State) (driving : s.bus.line = .driving)
    (active : activeIndex s.bus.queue = some i) (place : s.bus.queue[i]? = some f) : whileDriving s act = act s i f := by
  unfold whileDriving
  rw [if_pos driving]
  simp only [active, place]

theorem exec_attemptFailed (released : s.resetHeld = false) (driving : s.bus.line = .driving)
    (active : activeIndex s.bus.queue = some i) (place : s.bus.queue[i]? = some f) :
    exec .attemptFailed s = .next (settle (attemptLost s i f)) := by
  change execAttemptFailed s = _
  unfold execAttemptFailed
  rw [happening_of_released _ released, whileDriving_of_active _ driving active place]

/-! ### The attempt is lost (R182) -/

theorem attemptLost_again (place : s.bus.queue[i]? = some f) (few : f.attempts + 1 < 4) :
    attemptLost s i f = { s with bus := { s.bus with
      queue := s.bus.queue.set i { f with attempts := f.attempts + 1 }, line := .quiet } } := by
  unfold attemptLost atIndex
  simp only [place]
  exact if_pos few

/-- The station with the frame at a place dropped and the drop counted. -/
def frameDropped (s : State) (i : Nat) : State :=
  { s with
    bus := { s.bus with
      queue := s.bus.queue.eraseIdx i, line := .quiet,
      accepting := s.bus.accepting || (s.bus.queue.eraseIdx i).isEmpty }
    counters := { s.counters with droppedOnTransmit :=
      if s.counters.droppedOnTransmit = 65535 then 65535 else s.counters.droppedOnTransmit + 1 } }

theorem attemptLost_dropped (many : 4 ≤ f.attempts + 1) : attemptLost s i f = onDropped (frameDropped s i) f := by
  have counted : frameDropped s i =
      countDropped (setQueue { s with bus := { s.bus with line := .quiet } } (s.bus.queue.eraseIdx i)) := by
    unfold countDropped
    rw [advance_eq]
    rfl
  rw [counted]
  exact if_neg (Nat.not_lt.2 many)

/-! ### What the drop of a frame calls for, by its purpose -/

/-- The frames whose drop calls for nothing, whatever the state of the station. -/
def Purpose.endsWithDrop : Purpose → Bool
  | .leadOrder | .supersedeOrder | .acknowledgement | .readAnswer | .fetchAnswer | .statusReport | .roster | .orphan
  | .overflowNotice | .peerNotice _ => true
  | .present | .rosterQuery | .mediaDownNotice | .rejoin _ | .caughtUp | .replayDone _ _ | .ownFetch | .ownReplay => false

theorem onDropped_of_endsWithDrop (h : f.purpose.endsWithDrop = true) : onDropped s f = s := by
  unfold onDropped
  cases hp : f.purpose <;> simp [hp, Purpose.endsWithDrop] at h ⊢

theorem onDropped_present (h : f.purpose = .present) :
    onDropped s f = if s.member.state = .forming then presentAgain s else s := by
  unfold onDropped
  simp only [h]

theorem onDropped_rosterQuery (h : f.purpose = .rosterQuery) :
    onDropped s f = if s.member.checkPending then
      { s with member := { s.member with queryTimer := some (s.clock + 25000) } } else s := by
  unfold onDropped
  simp only [h]
  rfl

theorem onDropped_mediaDownNotice (h : f.purpose = .mediaDownNotice) :
    onDropped s f = { s with member := { s.member with ownDownReoffer := some (s.clock + 5000) } } := by
  unfold onDropped
  simp only [h]
  rfl

theorem onDropped_rejoin {n : Nat} (h : f.purpose = .rejoin n) :
    onDropped s f =
      if s.member.state = .catchingUp ∧ s.repair.active = true ∧ s.repair.serial = n then
        { s with repair := { s.repair with rejoinRequeue := some (s.clock + 5000) } } else s := by
  unfold onDropped
  simp only [h]
  exact if_congr (by simp [sweeping, and_assoc]) rfl rfl

theorem onDropped_caughtUp (h : f.purpose = .caughtUp) :
    onDropped s f = if s.member.state = .serving then
      { s with repair := { s.repair with caughtUpRequeue := some (s.clock + 5000) } } else s := by
  unfold onDropped
  simp only [h]
  rfl

theorem onDropped_replayDone {p : StationNo} {sweep : Bool} (h : f.purpose = .replayDone p sweep)
    (serves : inService s = true) :
    onDropped s f = { s with replay := { s.replay with
      overflow := if sweep then s.replay.overflow ||| markOf p else s.replay.overflow
      reoffers := s.replay.reoffers ++ [{ peer := p, sweep := sweep, due := s.clock + 5000 }] } } := by
  unfold onDropped
  simp only [h]
  unfold replayDoneDropped
  rw [if_pos serves]
  rfl

theorem onDropped_ownFetch_none (h : f.purpose = .ownFetch) (gone : fetchOfTag s f.frame.tag = none) :
    onDropped s f = s := by
  unfold onDropped
  simp only [h, gone]

theorem onDropped_ownFetch {g : Fetch} (h : f.purpose = .ownFetch) (found : fetchOfTag s f.frame.tag = some g)
    (queued : g.phase = .queued) : onDropped s f = endNoAttempt s g := by
  unfold onDropped
  simp only [h, found]
  exact if_pos queued

theorem onDropped_ownReplay_none (h : f.purpose = .ownReplay) (gone : pushOfTag s f.frame.tag = none) :
    onDropped s f = s := by
  unfold onDropped
  simp only [h, gone]

theorem onDropped_ownReplay {q : Push} (h : f.purpose = .ownReplay) (found : pushOfTag s f.frame.tag = some q) :
    onDropped s f = endPush s q (some (s.clock + 5000)) .done := by
  unfold onDropped
  simp only [h, found]
  rfl

end

/-- Settles O27: by the attempts made, and for a dropped frame by its purpose and by what its owner waits for. -/
theorem failedAttempt : Obligations.FailedAttempt := by
  unfold Obligations.FailedAttempt
  intro s i f released driving place active before
  rw [exec_attemptFailed released driving (activeIndex_of_first place active before) place]
  refine ⟨fun few => by rw [attemptLost_again place few], fun many => ?_⟩
  rw [attemptLost_dropped many]
  intro t
  have dropped : frameDropped s i = t := rfl
  rw [dropped]
  refine ⟨fun plain => ?_, fun present forming => ?_, fun query pending => ?_, fun rejoin state inProgress => ?_,
    fun p sweep done serves => ?_, fun fetch g found queued => ?_, fun replay q found => ?_, fun notice => ?_,
    fun caughtUp serving => ?_⟩
  · have nothing : onDropped t f = t := by
      rcases plain with h | h | h | h | h | h | h | h | h | ⟨p, h⟩ | ⟨present, idle⟩ | ⟨caughtUp, away⟩
        | ⟨query, settled⟩ | ⟨n, rejoin, other⟩ | ⟨fetch, gone⟩ | ⟨replay, gone⟩
      iterate 10 exact onDropped_of_endsWithDrop (by rw [h]; rfl)
      · rw [onDropped_present present, if_neg idle]
      · rw [onDropped_caughtUp caughtUp, if_neg away]
      · rw [onDropped_rosterQuery query, if_neg (Bool.eq_false_iff.1 settled)]
      · rw [onDropped_rejoin rejoin, if_neg]
        rintro ⟨state, inProgress, serial⟩
        rcases other with h | h | h
        · exact h state
        · exact Bool.false_ne_true (h.symm.trans inProgress)
        · exact h serial
      · exact onDropped_ownFetch_none fetch gone
      · exact onDropped_ownReplay_none replay gone
    rw [nothing]
  · rw [onDropped_present present, if_pos forming]
    rfl
  · rw [onDropped_rosterQuery query, if_pos pending]
  · rw [onDropped_rejoin rejoin, if_pos ⟨state, inProgress, rfl⟩]
  · rw [onDropped_replayDone (s := t) done serves]
  · rw [onDropped_ownFetch (s := t) fetch found queued]
    rfl
  · rw [onDropped_ownReplay (s := t) replay found]
  · rw [onDropped_mediaDownNotice notice]
  · rw [onDropped_caughtUp caughtUp, if_pos serving]

end Sys2Proof.Machine
end

section
/-! A REPLAY taken by its target (R80, R135, R136), what an accepted commit leaves (R45, R79, R85), and the issue of a
media command (R83, R97). -/

namespace Sys2Proof.Machine

/-! ### A REPLAY heard (R135, R136) -/

section

variable {s : State} {src : Source} {t : Tag} {b : Block} {v : Version} {d : Data}

theorem exec_replayHeard {target : StationNo} (h : takesFrame s (replayFrame src t target b v d) = true) :
    exec (.replayHeard src t target b v d) s = .next (settle (takeReplay (afterEcho s) src t b v d)) :=
  hear_of_takes (fun u => takeReplay u src t b v d) h

/-- The station acts on a REPLAY of this source for the block: in service, with its mark, and a replica (R135). -/
def actsOnReplay (s : State) (src : Source) (b : Block) : Prop :=
  inService s = true ∧ src.mark = s.member.mark ∧ isReplica s b = true

theorem actsOnReplay_iff (s : State) (src : Source) (b : Block) :
    (inService s && markMatches s src && isReplica s b) = true ↔ actsOnReplay s src b := by
  rw [Bool.and_eq_true, Bool.and_eq_true, markMatches_iff, and_assoc]
  rfl

theorem takeReplay_of_passed (h : ¬actsOnReplay s src b) : takeReplay s src t b v d = s :=
  if_neg (mt (actsOnReplay_iff s src b).1 h)

theorem takeReplay_of_outside (h : actsOnReplay s src b) (outside : volume s ≤ b.toNat) :
    takeReplay s src t b v d =
      offer s (nackFrame (self s) t b ((heldVersion s b).getD 0) 2) .acknowledgement := by
  have range : inRange s b = false := decide_eq_false (Nat.not_lt.2 outside)
  unfold takeReplay
  rw [if_pos ((actsOnReplay_iff s src b).2 h), range, nackVersion_none]
  rfl

theorem takeReplay_of_full (h : actsOnReplay s src b) (inside : b.toNat < volume s) (full : allocate s = none) :
    takeReplay s src t b v d =
      listBlock (offer s (nackFrame (self s) t b ((heldVersion s b).getD 0) 3) .acknowledgement) b := by
  have range : inRange s b = true := decide_eq_true inside
  unfold takeReplay
  rw [if_pos ((actsOnReplay_iff s src b).2 h), range, full, nackVersion_none]
  rfl

/-- The slot held for the data of a REPLAY (R135). -/
def replayHeld (s : State) (t : Tag) (i : Nat) (b : Block) (v : Version) (d : Data) : State :=
  { s with cache := { s.cache with slots := s.cache.slots.set i (.held b d (.replayTarget t) (some v)) } }

theorem takeReplay_of_room {i : Nat} (h : actsOnReplay s src b) (inside : b.toNat < volume s)
    (given : allocate s = some i) :
    takeReplay s src t b v d = offerCommit (replayHeld s t i b v d) i b v d (.replay t) := by
  have range : inRange s b = true := decide_eq_true inside
  unfold takeReplay
  rw [if_pos ((actsOnReplay_iff s src b).2 h), range, given]
  rfl

/-! ### The commit offered (R80, R136) -/

theorem offerCommit_of_above {i : Nat} {w : Version} (held : heldVersion s b = some w) (above : w < v) :
    offerCommit s i b v d (.replay t) =
      offer (acceptCommit s i b v d) (ackFrame (self (acceptCommit s i b v d)) t b v) .acknowledgement := by
  unfold offerCommit
  rw [held]
  exact if_pos above

theorem offerCommit_of_reached {i : Nat} {w : Version} (held : heldVersion s b = some w) (reached : v ≤ w) :
    offerCommit s i b v d (.replay t) =
      offer (setSlot s i .free) (ackFrame (self s) t b w) .acknowledgement := by
  unfold offerCommit
  rw [held]
  exact if_neg (BitVec.not_lt.2 reached)

theorem offerCommit_of_unheld {i : Nat} (src : CommitSource) (unheld : heldVersion s b = none)
    (up : s.port.down = false) :
    let waits (k : ReadKind) : State :=
      addPending s { block := b, on := k, slot := i, version := v, data := d, source := src }
    offerCommit s i b v d src =
      if isFilling s b then waits .record
      else if headerInFlight s b then waits .header
      else issue (waits .header) (.readHeader b) := by
  unfold offerCommit
  rw [unheld]
  exact if_neg (by simp [up])

end

/-! ### An accepted commit (R45, R79, R85) -/

/-- The slots once slot `i` is current for the block, its record not yet issued. -/
def slotTaken (s : State) (b : Block) (i : Nat) (x : Slot) : State :=
  { s with cache := { s.cache with slots := (givenWay s b i).set i x } }

/-- The slot made current: DIRTY in the next commit order under write-back, otherwise WRITING with its record issued
(R79, R85). -/
def madeCurrent (s : State) (i : Nat) (b : Block) (v : Version) (d : Data) : State :=
  if s.member.straps.writeBack then
    let u := slotTaken s b i (.dirty b v d (s.cache.commitOrder + 1))
    { u with cache := { u.cache with commitOrder := s.cache.commitOrder + 1 } }
  else issue (slotTaken s b i (.writing b v d)) (.writeRecord b v d i)

theorem makeCurrent_eq (s : State) (i : Nat) (b : Block) (v : Version) (d : Data) :
    makeCurrent (retireFormer s b i) i b v d = madeCurrent s i b v d := by
  rw [retireFormer_eq]
  rfl

theorem madeCurrent_aside (s : State) (i : Nat) (b : Block) (v : Version) (d : Data) :
    (madeCurrent s i b v d).table = s.table ∧ (madeCurrent s i b v d).repair = s.repair := by
  unfold madeCurrent
  split
  · exact ⟨rfl, rfl⟩
  · obtain ⟨-, -, -, table, repair, -⟩ := issue_spec (slotTaken s b i (.writing b v d)) (.writeRecord b v d i)
    exact ⟨table, repair⟩

/-- An accepted commit: its slot current, the reads that wait holding it, and the block waiting for room no more and
off the repair list. -/
theorem acceptCommit_eq (s : State) (i : Nat) (b : Block) (v : Version) (d : Data) :
    acceptCommit s i b v d = unlistBlock
      { madeCurrent s i b v d with
        table := s.table.map fun e =>
          if (e.kind = .clientRead ∨ e.kind = .peerFetch) ∧ e.state = .slotWait ∧ e.reason = none
              ∧ e.block = some b then
            { e with slot := some i, failure := none } else e
        repair := { s.repair with waitingRoom := s.repair.waitingRoom.filter fun c => decide (c ≠ b) } } b := by
  obtain ⟨table, repair⟩ := madeCurrent_aside s i b v d
  unfold acceptCommit commitSettles holdNewSlot
  rw [makeCurrent_eq, table, repair]

theorem acceptCommit_unlisted (s : State) (i : Nat) (b : Block) (v : Version) (d : Data) :
    isListed (acceptCommit s i b v d) b = false := unlistBlock_unlisted (by simp)

/-! ### The issue of a media command (R83, R97) -/

section

variable {s : State} {c : MediaCmd}

theorem issue_of_down (down : s.port.down = true) : issue s c = s := if_pos down

theorem issue_of_full (up : s.port.down = false) (full : s.cache.waiting ≠ [] ∨ 8 ≤ s.port.queue.length) :
    issue s c = { s with cache := { s.cache with waiting := s.cache.waiting ++ [c] } } := by
  unfold issue
  rw [if_neg (by simp [up])]
  refine if_neg ?_
  rintro ⟨empty, room⟩
  exact full.elim (· empty) (Nat.not_le.2 room)

theorem issue_of_room (up : s.port.down = false) (noneWaits : s.cache.waiting = []) (room : s.port.queue.length < 8) :
    issue s c = serveHead { s with port := { s.port with queue := s.port.queue ++ [c] } } := by
  unfold issue
  rw [if_neg (by simp [up])]
  exact if_pos ⟨noneWaits, room⟩

theorem serveHead_of_busy (busy : s.port.phase ≠ .idle) : serveHead s = s := by
  unfold serveHead
  split
  · rfl
  · exact if_neg fun idle => busy idle.1

theorem serveHead_of_idle {rest : List MediaCmd} (queue : s.port.queue = c :: rest) (idle : s.port.phase = .idle)
    (up : s.port.down = false) :
    serveHead s = { s with port := { s.port with
      retry := 0, phase := if c.isWrite then .writing else .reading, op := s.port.op + 1
      timer := some (s.clock + 50000) } } := by
  have phase : firstPhase c = if c.isWrite then .writing else .reading := by cases c <;> rfl
  unfold serveHead
  simp only [queue, if_pos (And.intro idle up), phase]
  rfl

end

/-- Settles O46: by what the target finds before it and at its commit, by the parts of an accepted commit, and by the
room in the media queue. -/
theorem replayTaken : Obligations.ReplayTaken := by
  unfold Obligations.ReplayTaken
  refine ⟨fun s src t target b v d takes => ?_, fun s b t w => rfl, fun s i b v d => ?_, fun s c => ?_⟩
  · rw [exec_replayHeard takes]
    intro h
    refine ⟨fun passed => ?_, fun serves mark replica => ?_⟩
    · rw [takeReplay_of_passed (s := afterEcho s)]
      rintro ⟨serves, mark, replica⟩
      rcases passed with out | other | stranger
      · exact Bool.false_ne_true (out.symm.trans serves)
      · exact other mark
      · exact Bool.false_ne_true (stranger.symm.trans replica)
    have acts : actsOnReplay h src b := ⟨serves, mark, replica⟩
    refine ⟨fun outside => ?_, fun inside full => ?_, fun i w inside given known => ?_, fun i inside given up => ?_⟩
    · rw [takeReplay_of_outside acts outside]
      rfl
    · rw [takeReplay_of_full (s := h) acts inside full]
      rfl
    · intro held
      have isHeld : replayHeld h t i b v d = held := rfl
      rw [takeReplay_of_room (s := h) acts inside given, isHeld]
      refine ⟨fun above => ?_, fun reached => ?_⟩
      · rw [offerCommit_of_above (s := held) known above]
      · rw [offerCommit_of_reached (s := held) known reached]
        rfl
    · intro held unheld waits
      have isHeld : replayHeld h t i b v d = held := rfl
      rw [takeReplay_of_room (s := h) acts inside given, isHeld, offerCommit_of_unheld (s := held) _ unheld up]
      rfl
  · intro former slotted made settled
    have gaveWay : former s.cache.slots = givenWay s b i := by
      unfold former givenWay
      cases currentSlot s b with
      | none => rfl
      | some j =>
        refine if_congr Iff.rfl rfl (congrArg _ ?_)
        cases slotAt s j <;> rfl
    have isMade : made = madeCurrent s i b v d := by
      unfold made slotted
      rw [gaveWay]
      rfl
    refine ⟨?_, acceptCommit_unlisted s i b v d⟩
    unfold settled
    rw [acceptCommit_eq, isMade]
  · refine ⟨issue_of_down, issue_of_full, fun up noneWaits room => ?_⟩
    rw [issue_of_room up noneWaits room]
    refine ⟨fun busy => serveHead_of_busy busy, fun idle empty => ?_⟩
    rw [empty]
    exact serveHead_of_idle rfl idle up

end Sys2Proof.Machine
end

section
/-! The recovery side's hold-back timers (R128, R137, R139, R144): each sets its object free again. -/

namespace Sys2Proof.Machine

section

variable {s : State}

/-! ### A list entry, a repair entry and a sweep block (R128, R139, R144) -/

theorem exec_replayRetryTimeExpiry {p : StationNo} {b : Block} {m : Missed} {due : Nat} (released : s.resetHeld = false)
    (found : (s.replay.pool.find? fun x => decide (x.peer = p) && decide (x.block = b)) = some m)
    (retry : m.retry = some due) :
    exec (.replayRetryTimeExpiry p b) s = .next (settle
      { reach s due with replay := { s.replay with pool := s.replay.pool.map fun x =>
          if x.peer = p ∧ x.block = b then { x with retry := none } else x } }) := by
  change execReplayRetryTimeExpiry p b s = _
  unfold execReplayRetryTimeExpiry
  rw [happening_of_released _ released]
  simp only [found, retry, reach_replay]

theorem exec_parkEnd {b : Block} {e : RepairEntry} {due : Nat} (released : s.resetHeld = false)
    (found : (s.repair.list.find? fun x => decide (x.block = b)) = some e) (parked : e.state = .parked due) :
    exec (.parkEnd b) s = .next (settle (setRepairState (reach s due) b .ready)) := by
  change execParkEnd b s = _
  unfold execParkEnd
  rw [happening_of_released _ released]
  simp only [found, parked]

theorem exec_sweepBlockRetake {b : Block} {r : Retake} {due : Nat} (released : s.resetHeld = false)
    (found : (s.repair.retakes.find? fun x => decide (x.block = b) && x.due.isSome) = some r)
    (waits : r.due = some due) :
    exec (.sweepBlockRetake b) s = .next (settle
      { reach s due with repair := { s.repair with retakes := s.repair.retakes.map fun x =>
          if x = r then { x with due := none } else x } }) := by
  change execSweepBlockRetake b s = _
  unfold execSweepBlockRetake
  rw [happening_of_released _ released]
  simp only [found, waits, reach_repair]

/-! ### A REPLAY_DONE held back (R137) -/

/-- The REPLAY_DONE is held back no longer. -/
def reofferTaken (s : State) (r : Reoffer) : State :=
  { reach s r.due with replay := { s.replay with reoffers := s.replay.reoffers.erase r } }

theorem exec_replayDoneReoffer {p : StationNo} {r : Reoffer} (released : s.resetHeld = false)
    (found : (s.replay.reoffers.find? fun x => decide (x.peer = p)) = some r) :
    exec (.replayDoneReoffer p) s = .next (settle (reofferReplayDone (reofferTaken s r) r)) := by
  change execReplayDoneReoffer p s = _
  unfold execReplayDoneReoffer
  rw [happening_of_released _ released]
  simp only [found]
  rfl

theorem missedList_isEmpty_iff (s : State) (p : StationNo) :
    (missedList s p).isEmpty = true ↔ ∀ m ∈ s.replay.pool, m.peer ≠ p := by
  simp [missedList, List.filter_eq_nil_iff]

/-- The peer still waits for its REPLAY_DONE: it is CATCHING_UP, its list empty, and the station in service. -/
def awaitsReplayDone (s : State) (p : StationNo) : Prop :=
  inService s = true ∧ isCatchingUp s p = true ∧ ∀ m ∈ s.replay.pool, m.peer ≠ p

theorem reofferReplayDone_of_awaited {r : Reoffer} (h : awaitsReplayDone s r.peer) :
    reofferReplayDone s r = offerReplayDone s r.peer r.sweep := by
  obtain ⟨serves, catchingUp, empty⟩ := h
  exact if_pos (by simp only [serves, catchingUp, (missedList_isEmpty_iff s _).2 empty, Bool.and_self])

theorem reofferReplayDone_of_passed {r : Reoffer} (h : ¬awaitsReplayDone s r.peer) : reofferReplayDone s r = s := by
  refine if_neg fun awaited => h ?_
  simp only [Bool.and_eq_true, missedList_isEmpty_iff] at awaited
  exact ⟨awaited.1.1, awaited.1.2, awaited.2⟩

end

/-- Settles O55: by the timer, and for a REPLAY_DONE held back by whether the peer still waits for it. -/
theorem heldBackWorkIsFreed : Obligations.HeldBackWorkIsFreed := by
  unfold Obligations.HeldBackWorkIsFreed
  refine ⟨fun s released => ⟨fun p b m due found retry => exec_replayRetryTimeExpiry released found retry,
    fun b e due found parked => exec_parkEnd released found parked,
    fun b r due found waits => exec_sweepBlockRetake released found waits⟩, fun s p r released found => ?_⟩
  obtain rfl : r.peer = p := by simpa using List.find?_some found
  rw [exec_replayDoneReoffer released found]
  refine ⟨fun serves catchingUp empty room => ?_, fun passed => ?_⟩
  · rw [reofferReplayDone_of_awaited (s := reofferTaken s r) ⟨serves, catchingUp, empty⟩,
      offerReplayDone_of_accepts (s := reofferTaken s r) _ room]
    rfl
  · rw [reofferReplayDone_of_passed (s := reofferTaken s r)]
    · rfl
    · rintro ⟨serves, catchingUp, empty⟩
      rcases passed with out | settled | ⟨m, mem, peer⟩
      · exact Bool.false_ne_true (out.symm.trans serves)
      · exact Bool.false_ne_true (settled.symm.trans catchingUp)
      · exact empty m mem peer

end Sys2Proof.Machine
end

section
/-! The READs that fall silent as a catch-up begins (R56), those ANSWERED whose answer is withdrawn with it among them
(log 44). -/

namespace Sys2Proof.Machine

/-! ### READs in progress -/

theorem findEntry_of_mem {s : State} {e : Entry} (unique : tagsUnique s = true) (mem : e ∈ s.table) :
    findEntry s e.tag = some e := by
  cases found : findEntry s e.tag with
  | none => exact absurd (List.mem_map_of_mem mem) (findEntry_none found)
  | some x => rw [entry_of_tag unique found mem rfl]

theorem findEntry_finishEntry_other {t u : Tag} (s : State) (st : EntryState) (other : t ≠ u) :
    findEntry (finishEntry s u st) t = findEntry s t := findEntry_updateEntry_other s (fun _ => rfl) other

/-- The entry found under the tag stands in one of these states. -/
def StandsIn (P : EntryState → Prop) (s : State) (t : Tag) : Prop := ∃ x, findEntry s t = some x ∧ P x.state

/-- SILENT, by its answer withdrawn or its wait ended (R56). -/
def isSilent (st : EntryState) : Prop := st = .silent

theorem isSilent_silent : isSilent .silent := rfl

/-- SILENT, or ANSWERED and made SILENT by a withdrawal of the answer (log 44). -/
def answeredOrSilent (st : EntryState) : Prop := st = .answered ∨ st = .silent

section
variable {P : EntryState → Prop} {s : State} {t : Tag} (silent : P .silent)
include silent

theorem standsIn_finishEntry {x : Entry} (found : findEntry s t = some x) :
    StandsIn P (finishEntry s t .silent) t := ⟨_, findEntry_finishEntry .silent found, silent⟩

theorem StandsIn.finishEntry (h : StandsIn P s t) (u : Tag) : StandsIn P (finishEntry s u .silent) t := by
  obtain ⟨x, found, stands⟩ := h
  by_cases same : t = u
  · exact same ▸ standsIn_finishEntry silent found
  · exact ⟨x, (findEntry_finishEntry_other s .silent same).trans found, stands⟩

theorem StandsIn.finishAll (l : List Entry) (h : StandsIn P s t) :
    StandsIn P (l.foldl (fun u e => Machine.finishEntry u e.tag .silent) s) t := by
  induction l generalizing s with
  | nil => exact h
  | cons a l ih => exact ih (h.finishEntry silent a.tag)

end

theorem findEntry_finishAll_other {t : Tag} {l : List Entry} (s : State) (others : ∀ a ∈ l, t ≠ a.tag) :
    findEntry (l.foldl (fun u e => finishEntry u e.tag .silent) s) t = findEntry s t := by
  induction l generalizing s with
  | nil => rfl
  | cons a l ih =>
    exact (ih _ fun b hb => others b (List.mem_cons_of_mem _ hb)).trans
      (findEntry_finishEntry_other s .silent (others a List.mem_cons_self))

/-- One of the entries finished bears the tag. -/
theorem finishAll_silent {s : State} {t : Tag} {x : Entry} {l : List Entry} (found : findEntry s t = some x)
    (taken : ∃ a ∈ l, t = a.tag) :
    StandsIn isSilent (l.foldl (fun u e => finishEntry u e.tag .silent) s) t := by
  induction l generalizing s with
  | nil => simp at taken
  | cons a l ih =>
    by_cases same : t = a.tag
    · subst same
      exact StandsIn.finishAll isSilent_silent l (standsIn_finishEntry isSilent_silent found)
    · refine ih ((findEntry_finishEntry_other s .silent same).trans found) ?_
      simpa [same] using taken

/-- The READs in progress SILENT. -/
def readsSilenced (s : State) : State :=
  (s.table.filter fun e => decide (e.kind = .clientRead) && !e.state.finished).foldl
    (fun u e => finishEntry u e.tag .silent) s

theorem closeAnswers_reads (s : State) :
    closeAnswers s .clientRead .readAnswer .silent =
      withdraw (readsSilenced s) (forPurpose .readAnswer) (.entryBecomes .silent) := rfl

theorem readsSilenced_bus (s : State) : (readsSilenced s).bus = s.bus := by
  have fold (l : List Entry) (u : State) : (l.foldl (fun u e => finishEntry u e.tag .silent) u).bus = u.bus := by
    induction l generalizing u with
    | nil => rfl
    | cons a l ih => exact ih _
  exact fold _ s

theorem readsSilenced_of_running {s : State} {e : Entry} (found : findEntry s e.tag = some e)
    (read : e.kind = .clientRead) (running : e.state.finished = false) :
    StandsIn isSilent (readsSilenced s) e.tag :=
  finishAll_silent found ⟨e, List.mem_filter.2 ⟨(findEntry_some found).1, by simp [read, running]⟩, rfl⟩

theorem readsSilenced_of_finished {s : State} {e : Entry} (unique : tagsUnique s = true) (mem : e ∈ s.table)
    (finished : e.state.finished = true) : findEntry (readsSilenced s) e.tag = some e := by
  have found := findEntry_of_mem unique mem
  refine (findEntry_finishAll_other s fun a ha same => ?_).trans found
  obtain ⟨ha, running⟩ := List.mem_filter.1 ha
  rw [entry_of_tag unique found ha same.symm, finished] at running
  simp at running

/-! ### Answers withdrawn -/

theorem findEntry_unrecorded_other {s : State} {t : Tag} {f : TxFrame} (other : t ≠ f.frame.tag) :
    findEntry (unrecorded s f) t = findEntry s t := by
  have unsent : findEntry (if f.frame.kind = .data then
      updateEntry s f.frame.tag fun e => { e with sent := none } else s) t = findEntry s t := by
    split
    · exact findEntry_updateEntry_other s (fun _ => rfl) other
    · rfl
  unfold unrecorded
  split
  · rfl
  · exact unsent
  · exact unsent
  · rfl

theorem StandsIn.unrecorded {P : EntryState → Prop} {s : State} {t : Tag} (h : StandsIn P s t) (f : TxFrame) :
    StandsIn P (unrecorded s f) t := by
  have unsent : StandsIn P (if f.frame.kind = .data then
      updateEntry s f.frame.tag fun e => { e with sent := none } else s) t := by
    split
    · obtain ⟨x, found, stands⟩ := h
      by_cases same : t = f.frame.tag
      · subst same
        exact ⟨_, findEntry_updateEntry (fun _ => rfl) found, stands⟩
      · exact ⟨x, (findEntry_updateEntry_other s (f := fun e => { e with sent := none }) (fun _ => rfl) same).trans found,
          stands⟩
    · exact h
  unfold Machine.unrecorded
  split
  · exact h
  · exact unsent
  · exact unsent
  · exact h

/-- A withdrawal that makes entries SILENT makes the entry of the frame's tag so, or leaves it. -/
theorem entryLeft_silent (s : State) (t : Tag) :
    entryLeft s t (.entryBecomes .silent) = s ∨ entryLeft s t (.entryBecomes .silent) = finishEntry s t .silent := by
  unfold entryLeft
  dsimp only
  split
  · exact .inl rfl
  · split
    · exact .inr rfl
    · exact .inl rfl

theorem findEntry_afterWithdrawal_other {s : State} {t : Tag} {f : TxFrame} (other : t ≠ f.frame.tag) :
    findEntry (afterWithdrawal s f (.entryBecomes .silent)) t = findEntry s t := by
  rw [afterWithdrawal_eq]
  refine Eq.trans ?_ (findEntry_unrecorded_other other)
  rcases entryLeft_silent (unrecorded s f) f.frame.tag with same | finished
  · rw [same]
  · rw [finished, findEntry_finishEntry_other _ _ other]

theorem StandsIn.afterWithdrawal {P : EntryState → Prop} {s : State} {t : Tag} (silent : P .silent)
    (h : StandsIn P s t) (f : TxFrame) : StandsIn P (afterWithdrawal s f (.entryBecomes .silent)) t := by
  rw [afterWithdrawal_eq]
  rcases entryLeft_silent (Machine.unrecorded s f) f.frame.tag with same | finished
  · rw [same]
    exact h.unrecorded f
  · rw [finished]
    exact (h.unrecorded f).finishEntry silent _

theorem StandsIn.withdrawAll {P : EntryState → Prop} {t : Tag} (silent : P .silent) (l : List TxFrame) {s : State}
    (h : StandsIn P s t) : StandsIn P (l.foldl (fun u f => Machine.afterWithdrawal u f (.entryBecomes .silent)) s) t := by
  induction l generalizing s with
  | nil => exact h
  | cons f l ih => exact ih (h.afterWithdrawal silent f)

/-- The entry whose answer is withdrawn is SILENT (R56; log 44). -/
theorem afterWithdrawal_silent {s : State} {f : TxFrame} (h : StandsIn answeredOrSilent s f.frame.tag) :
    StandsIn isSilent (afterWithdrawal s f (.entryBecomes .silent)) f.frame.tag := by
  obtain ⟨x, found, answered | silent⟩ := h.unrecorded f
  · have enters : x.entersOnWithdrawal .silent = true := by simp [Entry.entersOnWithdrawal, answered]
    have left : entryLeft (unrecorded s f) f.frame.tag (.entryBecomes .silent) =
        finishEntry (unrecorded s f) f.frame.tag .silent := by
      unfold entryLeft
      simp only [found, enters, if_true]
      rfl
    rw [afterWithdrawal_eq, left]
    exact standsIn_finishEntry isSilent_silent found
  · have stands : StandsIn isSilent (unrecorded s f) f.frame.tag := ⟨x, found, silent⟩
    rw [afterWithdrawal_eq]
    rcases entryLeft_silent (unrecorded s f) f.frame.tag with same | finished
    · rwa [same]
    · rw [finished]
      exact stands.finishEntry isSilent_silent _

section
variable {s : State} {sel : TxFrame → Bool} {t : Tag}

/-- A withdrawal acts on the table through the frames that leave the queue, one after another. -/
theorem findEntry_withdraw (w : Withdrawal) :
    ∃ u : State, u.table = s.table ∧ findEntry (withdraw s sel w) t = findEntry
      ((s.bus.queue.filter fun f => sel f && decide (f.phase = .queued)).foldl (fun u f => afterWithdrawal u f w) u) t := by
  unfold withdraw
  dsimp only
  split
  next none_ =>
    rw [List.isEmpty_iff.1 none_]
    exact ⟨s, rfl, rfl⟩
  next => exact ⟨setQueue s _, rfl, rfl⟩

theorem StandsIn.withdraw {P : EntryState → Prop} (silent : P .silent) (h : StandsIn P s t) :
    StandsIn P (withdraw s sel (.entryBecomes .silent)) t := by
  obtain ⟨u, table, found⟩ := findEntry_withdraw (s := s) (sel := sel) (t := t) (.entryBecomes .silent)
  have start : StandsIn P u t := by
    unfold StandsIn
    rwa [findEntry_of_table table]
  unfold StandsIn
  rw [found]
  exact start.withdrawAll silent _

/-- An answer that leaves the queue leaves its entry SILENT. -/
theorem withdraw_silent {f : TxFrame} (mem : f ∈ s.bus.queue) (selected : sel f = true) (queued : f.phase = .queued)
    (h : StandsIn answeredOrSilent s f.frame.tag) :
    StandsIn isSilent (withdraw s sel (.entryBecomes .silent)) f.frame.tag := by
  have gone : f ∈ s.bus.queue.filter fun f => sel f && decide (f.phase = .queued) :=
    List.mem_filter.2 ⟨mem, by simp [selected, queued]⟩
  obtain ⟨before, after, split⟩ := List.append_of_mem gone
  obtain ⟨u, table, found⟩ := findEntry_withdraw (s := s) (sel := sel) (t := f.frame.tag) (.entryBecomes .silent)
  have start : StandsIn answeredOrSilent u f.frame.tag := by
    unfold StandsIn
    rwa [findEntry_of_table table]
  unfold StandsIn
  rw [found, split, List.foldl_append, List.foldl_cons]
  exact StandsIn.withdrawAll isSilent_silent after (afterWithdrawal_silent (start.withdrawAll (.inr rfl) before))

/-- An entry none of whose answers leaves the queue stays as it is. -/
theorem findEntry_withdraw_other (others : ∀ f ∈ s.bus.queue, sel f = true → f.phase = .queued → t ≠ f.frame.tag) :
    findEntry (withdraw s sel (.entryBecomes .silent)) t = findEntry s t := by
  have fold (l : List TxFrame) (u : State) (hl : ∀ f ∈ l, t ≠ f.frame.tag) :
      findEntry (l.foldl (fun u f => afterWithdrawal u f (.entryBecomes .silent)) u) t = findEntry u t := by
    induction l generalizing u with
    | nil => rfl
    | cons f l ih =>
      exact (ih _ fun g hg => hl g (List.mem_cons_of_mem _ hg)).trans
        (findEntry_afterWithdrawal_other (hl f List.mem_cons_self))
  obtain ⟨u, table, found⟩ := findEntry_withdraw (s := s) (sel := sel) (t := t) (.entryBecomes .silent)
  rw [found, fold _ u fun f hf => ?_, findEntry_of_table table]
  obtain ⟨mem, selected⟩ := List.mem_filter.1 hf
  simp only [Bool.and_eq_true, decide_eq_true_eq] at selected
  exact others f mem selected.1 selected.2

/-- A frame that a withdrawal does not select stays in the queue (R187). -/
theorem mem_withdraw {f : TxFrame} (w : Withdrawal) (mem : f ∈ s.bus.queue) (unselected : sel f = false) :
    f ∈ (withdraw s sel w).bus.queue := by
  rw [withdraw_queue, List.mem_map]
  exact ⟨f, List.mem_filter.2 ⟨mem, by simp [unselected]⟩, if_neg (by simp [unselected])⟩

end

end Sys2Proof.Machine
end

section
/-! A catch-up begins (R26, R56, R152, R153): the READs silent, the one in progress forgotten, and REJOIN offered; and
its end (R161, R166). -/

namespace Sys2Proof.Machine

/-! ### Fetches ended leave other entries alone (R148) -/

section
variable {s : State} {t : Tag} {e : Entry} (found : findEntry s t = some e) (other : e.state ≠ .outstanding)
include found other

theorem findEntry_closeOwn (u : Tag) : findEntry (closeOwn s u .done) t = some e := by
  unfold closeOwn
  split
  · exact found
  next x foundAt =>
    split
    next outstanding =>
      by_cases same : t = u
      · subst same
        obtain rfl : e = x := Option.some.inj (found.symm.trans foundAt)
        exact absurd outstanding other
      · exact (findEntry_finishEntry_other s .done same).trans found
    · exact found

theorem findEntry_endFetch (f : Fetch) : findEntry (endFetch s f .done) t = some e := by
  unfold endFetch
  dsimp only
  split
  · exact found
  next u _ =>
    have own (g : TxFrame) (selected : forTag .ownFetch u g = true) :
        g.purpose ≠ .readAnswer ∧ g.purpose ≠ .fetchAnswer := by
      have purpose : g.purpose = .ownFetch := by
        simp only [forTag, Bool.and_eq_true, decide_eq_true_eq] at selected
        exact selected.1
      simp [purpose]
    rw [findEntry_of_table (withdraw_plain_table own)]
    refine findEntry_closeOwn ?_ other u
    exact found

theorem findEntry_endFetches (sel : Fetch → Bool) : findEntry (endFetches s sel .done) t = some e := by
  have fold (l : List Fetch) (u : State) (found : findEntry u t = some e) :
      findEntry (l.foldl (fun u f => endFetch u f .done) u) t = some e := by
    induction l generalizing u with
    | nil => exact found
    | cons f l ih => exact ih _ (findEntry_endFetch found other f)
  exact fold _ s found

end

/-! ### From SERVING to CATCHING_UP (R26, R39, R56) -/

/-- No lead ORDER queued any more (R26). -/
def leadsWithdrawn (s : State) : State := withdraw s (forPurpose .leadOrder) .plain

theorem stopServing_of_serving {s : State} (serving : s.member.state = .serving) :
    stopServing s = withdraw (readsSilenced (leadsWithdrawn s)) (forPurpose .readAnswer) (.entryBecomes .silent) := by
  unfold stopServing
  rw [if_pos serving]
  exact closeAnswers_reads _

theorem stopServing_of_other {s : State} (other : s.member.state ≠ .serving) : stopServing s = s := if_neg other

theorem stopServing_ends (s : State) : Ends s (stopServing s) := by
  unfold stopServing
  split
  · exact (withdraw_plain_ends _ _).trans (closeAnswers_ends _ _ _ rfl)
  · exact Ends.refl s

theorem stopServing_lists (s : State) :
    (stopServing s).replay.pool = s.replay.pool ∧ (stopServing s).replay.pushes = s.replay.pushes := by
  unfold stopServing
  split
  · obtain ⟨pool, pushes⟩ := closeAnswers_lists (leadsWithdrawn s) .clientRead .readAnswer .silent
    obtain ⟨pool', pushes'⟩ := withdraw_lists s (forPurpose .leadOrder) .plain
    exact ⟨pool.trans pool', pushes.trans pushes'⟩
  · exact ⟨rfl, rfl⟩

theorem leadsWithdrawn_table (s : State) : (leadsWithdrawn s).table = s.table := by
  refine withdraw_plain_table fun f selected => ?_
  have purpose : f.purpose = .leadOrder := by simpa [forPurpose] using selected
  simp [purpose]

section
variable {s : State} (serving : s.member.state = .serving)
include serving

/-- Every READ is finished then. -/
theorem stopServing_done : DoneKind .clientRead (stopServing s) := by
  unfold stopServing
  rw [if_pos serving]
  exact closeAnswers_done _ _ _ rfl

/-- No lead ORDER and no answer to a READ is queued then. -/
theorem stopServing_gone {f : TxFrame} (h : f ∈ (stopServing s).bus.queue) (queued : f.phase = .queued) :
    f.purpose ≠ .leadOrder ∧ f.purpose ≠ .readAnswer := by
  rw [stopServing_of_serving serving] at h
  obtain ⟨mem, noAnswer⟩ := withdraw_gone h queued
  rw [readsSilenced_bus] at mem
  obtain ⟨-, noLead⟩ := withdraw_gone mem queued
  exact ⟨by simpa [forPurpose] using noLead, by simpa [forPurpose] using noAnswer⟩

variable {e : Entry} (unique : tagsUnique s = true) (mem : e ∈ s.table)
include unique mem

theorem stopServing_running (read : e.kind = .clientRead) (running : e.state.finished = false) :
    StandsIn isSilent (stopServing s) e.tag := by
  have found : findEntry (leadsWithdrawn s) e.tag = some e :=
    (findEntry_of_table (leadsWithdrawn_table s) e.tag).trans (findEntry_of_mem unique mem)
  rw [stopServing_of_serving serving]
  exact (readsSilenced_of_running found read running).withdraw isSilent_silent

omit serving in
/-- An ANSWERED entry is found as it was once the READs in progress are SILENT. -/
theorem readsSilenced_answered (answered : e.state = .answered) :
    findEntry (readsSilenced (leadsWithdrawn s)) e.tag = some e := by
  have table := leadsWithdrawn_table s
  refine readsSilenced_of_finished ?_ (table ▸ mem) (by rw [answered]; rfl)
  unfold tagsUnique
  rwa [table]

theorem stopServing_withdrawn (answered : e.state = .answered) {f : TxFrame} (waits : f ∈ s.bus.queue)
    (purpose : f.purpose = .readAnswer) (tag : f.frame.tag = e.tag) (queued : f.phase = .queued) :
    StandsIn isSilent (stopServing s) e.tag := by
  have waits' : f ∈ (readsSilenced (leadsWithdrawn s)).bus.queue := by
    rw [readsSilenced_bus]
    exact mem_withdraw _ waits (by simp [forPurpose, purpose])
  rw [stopServing_of_serving serving, ← tag]
  refine withdraw_silent waits' (by simp [forPurpose, purpose]) queued ?_
  exact ⟨e, tag ▸ readsSilenced_answered unique mem answered, .inl answered⟩

theorem stopServing_answered (answered : e.state = .answered)
    (noneWaits : ∀ f ∈ s.bus.queue, f.purpose = .readAnswer → f.frame.tag = e.tag → f.phase ≠ .queued) :
    findEntry (stopServing s) e.tag = some e := by
  rw [stopServing_of_serving serving, findEntry_withdraw_other, readsSilenced_answered unique mem answered]
  intro f hf selected queued tag
  rw [readsSilenced_bus] at hf
  exact noneWaits f (withdraw_gone hf queued).1 (by simpa [forPurpose] using selected) tag.symm queued

end

/-! ### The catch-up in progress forgotten (R152) -/

/-- The station CATCHING_UP, no sweep fetch in progress and no REJOIN or CAUGHT_UP queued. -/
def catchUpLeft (s : State) : State :=
  withdraw (endFetches { stopServing s with member := { (stopServing s).member with state := .catchingUp } }
    (·.sweep) .done) isCatchUpFrame .plain

theorem catchUpLeft_ends (s : State) :
    Ends { s with member := { s.member with state := .catchingUp } } (catchUpLeft s) := by
  have E := stopServing_ends s
  have moved : Ends { s with member := { s.member with state := .catchingUp } }
      { stopServing s with member := { (stopServing s).member with state := .catchingUp } } :=
    ⟨by rw [E.member], E.clock, E.nextId, E.media, E.port, E.peers, E.slots, E.repair, E.entries, E.frames, E.pushes,
      E.fetches⟩
  exact (moved.trans (endFetches_ends _ _ rfl)).trans (withdraw_plain_ends _ _)

theorem catchUpLeft_done {s : State} (serving : s.member.state = .serving) : DoneKind .clientRead (catchUpLeft s) :=
  ((endFetches_ends _ _ rfl).trans (withdraw_plain_ends _ _)).done (stopServing_done serving)

theorem catchUpLeft_lists (s : State) :
    (catchUpLeft s).replay.pool = s.replay.pool ∧ (catchUpLeft s).replay.pushes = s.replay.pushes := by
  obtain ⟨pool, pushes⟩ := stopServing_lists s
  unfold catchUpLeft
  rw [withdraw_plain_pool, withdraw_plain_pushes, (endFetches_replay _ _ _).1, (endFetches_replay _ _ _).2]
  exact ⟨pool, pushes⟩

theorem catchUpLeft_fetches {s : State} {f : Fetch} (h : f ∈ (catchUpLeft s).repair.fetches) :
    f ∈ s.repair.fetches ∧ f.sweep = false := by
  unfold catchUpLeft at h
  rw [withdraw_plain_repair] at h
  obtain ⟨mem, repairs⟩ := endFetches_gone h
  exact ⟨(stopServing_ends s).fetches f mem, repairs⟩

theorem catchUpLeft_queued {s : State} {f : TxFrame} (h : f ∈ (catchUpLeft s).bus.queue) (queued : f.phase = .queued) :
    f ∈ s.bus.queue ∧ isCatchUpFrame f = false
      ∧ (s.member.state = .serving → f.purpose ≠ .leadOrder ∧ f.purpose ≠ .readAnswer) := by
  obtain ⟨mem, other⟩ := withdraw_gone h queued
  obtain ⟨here, -⟩ := (endFetches_ends _ _ rfl).frames f mem
  obtain ⟨before, -⟩ := (stopServing_ends s).frames f (here queued)
  exact ⟨before queued, other, fun serving => stopServing_gone serving (here queued) queued⟩

/-- An entry that no fetch made OUTSTANDING is found as the end of service left it. -/
theorem findEntry_catchUpLeft {s : State} {t : Tag} {e : Entry} (found : findEntry (stopServing s) t = some e)
    (other : e.state ≠ .outstanding) : findEntry (catchUpLeft s) t = some e := by
  have noAnswer (f : TxFrame) (selected : isCatchUpFrame f = true) :
      f.purpose ≠ .readAnswer ∧ f.purpose ≠ .fetchAnswer := by
    refine ⟨fun purpose => ?_, fun purpose => ?_⟩ <;> simp [isCatchUpFrame, purpose] at selected
  unfold catchUpLeft
  rw [findEntry_of_table (withdraw_plain_table noAnswer)]
  refine findEntry_endFetches ?_ other _
  exact found

/-! ### REJOIN (R153) -/

theorem accepts_rejoin (s : State) :
    accepts s .rejoin = true ↔ s.bus.accepting = true ∧ s.bus.queue.length < 16 := by
  have urgent : kindClass .rejoin = 0 := rfl
  simp only [accepts, urgent, decide_true, Bool.true_or, Bool.and_true, Bool.and_eq_true, decide_eq_true_eq]
  rfl

theorem queueRejoin_of_refused {s : State} (h : accepts s .rejoin = false) :
    queueRejoin s = { s with repair := { s.repair with rejoinRequeue := some (s.clock + 5000) } } := by
  unfold queueRejoin
  exact if_neg (by simp [h])

/-- REJOIN touches the transmit queue and its own re-offer, and nothing else. -/
theorem queueRejoin_spec (s : State) : ∃ (queue : List TxFrame) (requeue : Option Nat), queueRejoin s =
    { s with bus := { s.bus with queue := queue }, repair := { s.repair with rejoinRequeue := requeue } } := by
  by_cases h : accepts s .rejoin = true
  · exact ⟨_, _, queueRejoin_of_accepts h⟩
  · exact ⟨_, _, queueRejoin_of_refused (Bool.eq_false_iff.2 h)⟩

/-- REJOIN is the last frame queued, or set to be queued 5 ms later (R153). -/
theorem queueRejoin_queue (s : State) :
    ((queueRejoin s).bus.accepting = true → s.bus.queue.length < 16 →
      (queueRejoin s).bus.queue = s.bus.queue ++ [queuedFrame (rejoinFrame (self s)) (.rejoin s.repair.serial)]
      ∧ (queueRejoin s).repair.rejoinRequeue = none)
    ∧ (((queueRejoin s).bus.accepting = false ∨ 16 ≤ s.bus.queue.length) →
      (queueRejoin s).bus.queue = s.bus.queue ∧ (queueRejoin s).repair.rejoinRequeue = some (s.clock + 5000)) := by
  have accepting : (queueRejoin s).bus.accepting = s.bus.accepting := by
    obtain ⟨_, _, offered⟩ := queueRejoin_spec s
    rw [offered]
  rw [accepting]
  refine ⟨fun open_ few => ?_, fun refused => ?_⟩
  · rw [queueRejoin_of_accepts ((accepts_rejoin s).2 ⟨open_, few⟩)]
    exact ⟨rfl, rfl⟩
  · have full : accepts s .rejoin = false := by
      rw [Bool.eq_false_iff, ne_eq, accepts_rejoin]
      rintro ⟨open_, few⟩
      rcases refused with shut | many
      · exact Bool.false_ne_true (shut.symm.trans open_)
      · exact absurd few (Nat.not_lt.2 many)
    rw [queueRejoin_of_refused full]
    exact ⟨rfl, rfl⟩

/-- A new catch-up from the state that the former one has left, its REJOIN still to be queued (R152). -/
def catchUpFrom (s : State) (id : Nat) (groups : List Nat) : State :=
  { s with
    nextId := id + 1
    repair := { s.repair with
      awaited := 0, limit := none, rejoinSent := false, group := none, retakes := [], rejoinRequeue := none,
      caughtUpRequeue := none, active := true, serial := id, sweepSet := groups, unverified := 0 } }

theorem heldGroups_catchUpLeft (s : State) : heldGroups (catchUpLeft s) = heldGroups s := by
  have member := (catchUpLeft_ends s).member
  have held : holdsGroup (catchUpLeft s) = holdsGroup s := by
    funext g
    simp only [holdsGroup, replicas, ownNumber, member]
  unfold heldGroups
  rw [held]

theorem beginCatchUp_eq (s : State) : beginCatchUp s = queueRejoin (catchUpFrom (catchUpLeft s) s.nextId
    (if s.member.sweepNeeded then heldGroups s else s.repair.sweepSet)) := by
  have E := catchUpLeft_ends s
  have needed : (catchUpLeft s).member.sweepNeeded = s.member.sweepNeeded := by rw [E.member]
  have swept : (catchUpLeft s).repair.sweepSet = s.repair.sweepSet := by rw [E.repair]
  have begun : beginCatchUp s = queueRejoin (catchUpFrom (catchUpLeft s) (catchUpLeft s).nextId
    (if (catchUpLeft s).member.sweepNeeded then heldGroups (catchUpLeft s) else (catchUpLeft s).repair.sweepSet)) := rfl
  rw [begun, E.nextId, needed, heldGroups_catchUpLeft, swept]

/-! ### The end (R161, R166) -/

theorem queueCaughtUp_of_refused {s : State} (h : accepts s .caughtUp = false) :
    queueCaughtUp s = { s with repair := { s.repair with caughtUpRequeue := some (s.clock + 5000) } } := by
  unfold queueCaughtUp
  exact if_neg (by simp [h])

theorem catchUpStep_of_done {s : State} (done : catchUpDone s = true) : catchUpStep s = some (endCatchUp s) :=
  if_pos done

theorem endCatchUp_eq (s : State) : endCatchUp s =
    if accepts s .caughtUp then
      { s with
        bus := { s.bus with queue := s.bus.queue ++ [queuedFrame (caughtUpFrame (self s)) .caughtUp] }
        member := { s.member with state := .serving, sweepNeeded := false }
        repair := { s.repair with active := false, limit := none, retakes := [], caughtUpRequeue := none } }
    else
      { s with
        member := { s.member with state := .serving, sweepNeeded := false }
        repair := { s.repair with
          active := false, limit := none, retakes := [], caughtUpRequeue := some (s.clock + 5000) } } := by
  unfold endCatchUp
  split
  next room => rw [queueCaughtUp_of_accepts room]
  next full => rw [queueCaughtUp_of_refused (by simpa using full)]

/-- Settles O16: what the READs become and what the queue keeps as service ends, the catch-up forgotten, and REJOIN
offered to the queue that is left; the end by what a catch-up waits for. -/
theorem catchUpEnds : Obligations.CatchUpEnds := by
  unfold Obligations.CatchUpEnds
  refine ⟨fun s => ?_, fun s state active sent awaited swept fetches room => ?_⟩
  · have E := catchUpLeft_ends s
    obtain ⟨pool, pushes⟩ := catchUpLeft_lists s
    have fetches (f : Fetch) := catchUpLeft_fetches (s := s) (f := f)
    have kept (f : TxFrame) := catchUpLeft_queued (s := s) (f := f)
    have done := catchUpLeft_done (s := s)
    have found {u : Tag} {x : Entry} := findEntry_catchUpLeft (s := s) (t := u) (e := x)
    rw [beginCatchUp_eq]
    generalize (if s.member.sweepNeeded then heldGroups s else s.repair.sweepSet) = groups
    generalize catchUpLeft s = u at E pool pushes fetches kept done found ⊢
    obtain ⟨taken, refused⟩ := queueRejoin_queue (catchUpFrom u s.nextId groups)
    obtain ⟨queue, requeue, offered⟩ := queueRejoin_spec (catchUpFrom u s.nextId groups)
    rw [offered] at taken refused ⊢
    have source : self (catchUpFrom u s.nextId groups) = self s := by
      show self u = self s
      simp only [self, ownNumber, E.member]
    have clock : (catchUpFrom u s.nextId groups).clock = s.clock := E.clock
    rw [source] at taken
    rw [clock] at refused
    have inTable {t : Tag} {x : Entry} (h : findEntry (stopServing s) t = some x) (other : x.state ≠ .outstanding) :
        x ∈ u.table ∧ x.tag = t := findEntry_some (found h other)
    have silent {t : Tag} (h : StandsIn isSilent (stopServing s) t) : ∃ x ∈ u.table, x.tag = t ∧ x.state = .silent := by
      obtain ⟨x, at_, state⟩ := h
      have state : x.state = .silent := state
      obtain ⟨mem, tag⟩ := inTable at_ (by simp [state])
      exact ⟨x, mem, tag, state⟩
    refine ⟨E.member, fun serving e mem read => done serving e mem read,
      fun serving unique e mem read => ⟨fun running => ?_, fun answered =>
        ⟨fun ⟨f, waits, purpose, tag, queued⟩ => ?_, fun noneWaits => ?_⟩⟩,
      rfl, rfl, rfl, rfl, rfl, rfl, rfl, rfl, rfl, rfl, rfl, fetches, ?_, ?_, E.peers, pool, pushes, E.media, E.port,
      E.slots, E.clock, u.bus.queue, kept, taken, refused⟩
    · refine silent (stopServing_running serving unique mem read ?_)
      rcases running with state | state <;> rw [state] <;> rfl
    · exact silent (stopServing_withdrawn serving unique mem answered waits purpose tag queued)
    · exact (inTable (stopServing_answered serving unique mem answered noneWaits) (by simp [answered])).1
    · exact congrArg (·.list) E.repair
    · exact congrArg (·.waitingRoom) E.repair
  · have done : catchUpDone s = true := by
      simpa [catchUpDone, sweeping, state, active, sent, awaited, swept, room] using fetches
    rw [catchUpStep_of_done done, endCatchUp_eq]

end Sys2Proof.Machine
end

section
/-! A REPLAY_DONE heard (R154, R155), and groups added to the sweep, each once and in ascending order (R160). -/

namespace Sys2Proof.Machine

/-! ### Groups added to the sweep (R160) -/

theorem insertGroup_ascending {l : List Nat} (g : Nat) (ascending : l.Pairwise fun a b => a < b) :
    (insertGroup g l).Pairwise fun a b => a < b := by
  induction l with
  | nil => simp [insertGroup]
  | cons h l ih =>
    obtain ⟨above, rest⟩ := List.pairwise_cons.1 ascending
    unfold insertGroup
    split
    next below =>
      refine List.pairwise_cons.2 ⟨fun x mem => ?_, ascending⟩
      rcases List.mem_cons.1 mem with rfl | later
      · exact below
      · exact below.trans (above x later)
    next notBelow =>
      split
      · exact ascending
      next other =>
        refine List.pairwise_cons.2 ⟨fun x mem => ?_, ih rest⟩
        rcases mem_insertGroup.1 mem with rfl | old
        · omega
        · exact above x old

/-- The sweep with one group more, the current group restarted where it is that one. -/
def groupAdded (s : State) (g : Nat) : State :=
  { s with repair := { s.repair with
      sweepSet := insertGroup g s.repair.sweepSet
      cursor := if s.repair.group = some g then g else s.repair.cursor } }

theorem addGroups_cons (s : State) (g : Nat) (gs : List Nat) :
    addGroups s (g :: gs) = addGroups (if holdsGroup s g then groupAdded s g else s) gs := rfl

theorem holdsGroup_iff (s : State) (g : Nat) : holdsGroup s g = true ↔ ownNumber s ∈ replicas s g :=
  List.contains_iff_mem

theorem addGroups_ascending {s : State} (gs : List Nat) (ascending : s.repair.sweepSet.Pairwise fun a b => a < b) :
    (addGroups s gs).repair.sweepSet.Pairwise fun a b => a < b := by
  induction gs generalizing s with
  | nil => exact ascending
  | cons g gs ih =>
    rw [addGroups_cons]
    refine ih ?_
    split
    · exact insertGroup_ascending g ascending
    · exact ascending

theorem addGroups_cursor_of_none {s : State} (gs : List Nat) (noGroup : s.repair.group = none) :
    (addGroups s gs).repair.cursor = s.repair.cursor := by
  induction gs generalizing s with
  | nil => rfl
  | cons g gs ih =>
    rw [addGroups_cons]
    split
    · refine (ih (s := groupAdded s g) noGroup).trans (if_neg ?_)
      simp [noGroup]
    · exact ih noGroup

/-- The current group is restarted at its first block where it is added and held (R160). -/
theorem addGroups_cursor {s : State} {current : Nat} (gs : List Nat) (group : s.repair.group = some current) :
    (addGroups s gs).repair.cursor =
      if current ∈ gs ∧ holdsGroup s current = true then current else s.repair.cursor := by
  induction gs generalizing s with
  | nil => simp [addGroups]
  | cons g gs ih =>
    rw [addGroups_cons]
    by_cases held : holdsGroup s g = true
    · have same : holdsGroup (groupAdded s g) current = holdsGroup s current := rfl
      rw [if_pos held, ih (s := groupAdded s g) group, same]
      by_cases isCurrent : g = current
      · subst isCurrent
        simp [groupAdded, group, held]
      · have cursor : (groupAdded s g).repair.cursor = s.repair.cursor := if_neg (by simp [group, Ne.symm isCurrent])
        simp [cursor, Ne.symm isCurrent]
    · rw [if_neg held, ih group]
      refine if_congr ?_ rfl rfl
      rw [List.mem_cons]
      refine ⟨fun ⟨new, holds⟩ => ⟨.inr new, holds⟩, ?_⟩
      rintro ⟨rfl | new, holds⟩
      · exact absurd holds held
      · exact ⟨new, holds⟩

/-! ### The REPLAY_DONE (R154) -/

theorem exec_replayDoneHeard {s : State} {src : Source} {target : StationNo} {sweep : Bool}
    (h : takesFrame s (replayDoneFrame src target sweep) = true) :
    exec (.replayDoneHeard src target sweep) s = .next (settle (takeReplayDone (afterEcho s) src sweep)) :=
  hear_of_takes (fun u => takeReplayDone u src sweep) h

/-- The station acts on a REPLAY_DONE from another member with its mark while it is CATCHING_UP (R154). -/
def actsOnReplayDone (s : State) (src : Source) : Prop :=
  s.member.state = .catchingUp ∧ src.mark = s.member.mark ∧ isMember s src.sender = true ∧ src.sender ≠ ownNumber s

theorem actsOnReplayDone_iff (s : State) (src : Source) :
    (decide (s.member.state = .catchingUp) && markMatches s src && isMember s src.sender
      && decide (src.sender ≠ ownNumber s)) = true ↔ actsOnReplayDone s src := by
  simp only [Bool.and_eq_true, decide_eq_true_eq, markMatches_iff, and_assoc]
  rfl

/-- The sender out of the awaited set, where it was in it. -/
def senderHeard (s : State) (p : StationNo) : State := if inMark s.repair.awaited p then unawait s p else s

theorem takeReplayDone_of_acts {s : State} {src : Source} (sweep : Bool) (h : actsOnReplayDone s src) :
    takeReplayDone s src sweep =
      if sweep then addGroups (senderHeard s src.sender) (sharedGroups s src.sender) else senderHeard s src.sender := by
  have shared : sharedGroups (senderHeard s src.sender) src.sender = sharedGroups s src.sender := by
    refine sharedGroups_congr ?_ _
    unfold senderHeard
    split <;> rfl
  unfold takeReplayDone
  rw [if_pos ((actsOnReplayDone_iff s src).2 h), ← shared]
  rfl

theorem takeReplayDone_of_passed {s : State} {src : Source} (sweep : Bool) (h : ¬actsOnReplayDone s src) :
    takeReplayDone s src sweep = s := if_neg (mt (actsOnReplayDone_iff s src).1 h)

/-- Settles O36: by the sweep's set and cursor group by group, and by whether the station acts on the frame. -/
theorem replayDoneLeavesAwaited : Obligations.ReplayDoneLeavesAwaited := by
  unfold Obligations.ReplayDoneLeavesAwaited
  refine ⟨fun s gs => ⟨?_, fun g => ?_, addGroups_ascending gs, fun g group => ?_, addGroups_cursor_of_none gs⟩,
    fun s src target sweep takes => ⟨fun state mark member other => ?_, fun passed => ?_⟩⟩
  · obtain ⟨set, cursor, added⟩ := addGroups_spec s gs
    rw [added]
  · rw [mem_addGroups, holdsGroup_iff]
  · rw [addGroups_cursor gs group]
    simp only [holdsGroup_iff]
  · rw [exec_replayDoneHeard takes, takeReplayDone_of_acts (s := afterEcho s) sweep ⟨state, mark, member, other⟩]
    rfl
  · rw [exec_replayDoneHeard takes, takeReplayDone_of_passed]
    rintro ⟨state, mark, member, other⟩
    rcases passed with away | unmarked | stranger | own
    · exact away state
    · exact unmarked mark
    · exact Bool.false_ne_true (stranger.symm.trans member)
    · exact other own

end Sys2Proof.Machine
end

section
/-! What the open window of an own fetch takes of the answers heard (R145). -/

namespace Sys2Proof.Machine

/-- The fetch buffer holds the highest DATA taken (R145). -/
theorem takeData_eq (f : Fetch) (v : Version) (d : Data) :
    takeData f v d = { f with buffer :=
      match f.buffer with
      | none => some (v, d)
      | some (w, c) => if w < v then some (v, d) else some (w, c) } := by
  unfold takeData
  cases buffer : f.buffer with
  | none => rfl
  | some taken =>
    dsimp only
    split
    · rfl
    · rw [← buffer]

section
variable {s : State} {t : Tag} {f : Fetch} {due : Nat} (found : fetchOfTag s t = some f)
  (isOpen : f.phase = .window due)
include found isOpen

theorem fetchTakesData_of_open (v : Version) (d : Data) :
    fetchTakesData s t v d = updateFetch s f.id fun g => takeData g v d := by
  have window : windowOpen f = true := by simp [windowOpen, isOpen]
  unfold fetchTakesData
  simp only [found, window, if_true]

theorem fetchTakesCurrent_of_open :
    fetchTakesCurrent s t = updateFetch s f.id fun g => { g with currentTaken := true } := by
  have window : windowOpen f = true := by simp [windowOpen, isOpen]
  unfold fetchTakesCurrent
  simp only [found, window, if_true]

end

section
variable {s : State} {src : Source} {t : Tag} {e : Entry} {b : Block} (found : findEntry s t = some e)
  (counts : countsFor s e src b = true) (own : e.kind = .ownFetch)
include found counts own

theorem deliverData_of_ownFetch (v : Version) (d : Data) :
    deliverData s src t b v d = fetchTakesData (recordAnswer s t src.sender .data v) t v d := by
  unfold deliverData
  simp only [found, counts, own, if_true]

theorem deliverCurrent_of_ownFetch (v : Version) (range : inRange s b = true) :
    deliverCurrent s src t b v = fetchTakesCurrent (recordAnswer s t src.sender .current v) t := by
  unfold deliverCurrent
  simp only [found, counts, range, own, Bool.and_true, if_true]

theorem deliverUnavailable_of_ownFetch :
    deliverUnavailable s src t b = recordAnswer s t src.sender .unavailable 0 := by
  unfold deliverUnavailable
  simp only [found, counts, own, if_true]

end

/-- Settles O42: by the answer recorded in the fetch's entry, and by what the fetch with its window open takes of it. -/
theorem fetchTakesAnswers : Obligations.FetchTakesAnswers := by
  unfold Obligations.FetchTakesAnswers
  intro s src tag b v d reason e f due h found own block mark window isOpen heard
  have counts : countsFor h e src b = true := (countsFor_iff h e src b).2 ⟨block, mark⟩
  have windowNow (k : Kind) (w : Version) : fetchOfTag (recordAnswer h tag src.sender k w) tag = some f := window
  refine ⟨fun takes => ?_, fun takes range => ?_, fun takes => ?_⟩
  · rw [exec_dataHeard takes, deliverData_of_ownFetch found counts own,
      fetchTakesData_of_open (windowNow .data v) isOpen]
    simp only [takeData_eq]
    rfl
  · rw [exec_currentHeard takes, deliverCurrent_of_ownFetch found counts own v range,
      fetchTakesCurrent_of_open (windowNow .current v) isOpen]
    rfl
  · rw [exec_unavailableHeard takes, deliverUnavailable_of_ownFetch found counts own]
    rfl

end Sys2Proof.Machine
end

section
/-! The end of a FETCH's slot wait (R149, R151): DATA, CURRENT, UNAVAILABLE or silence. -/

namespace Sys2Proof.Machine

/-- The answer to a FETCH queued, recorded as sent, and the entry ANSWERED (R151, R58). -/
def answeredFetch (s : State) (t : Tag) (f : Frame) : State :=
  finishEntry
    (recordSent { s with bus := { s.bus with queue := s.bus.queue ++ [queuedFrame f .fetchAnswer] } }
      t f.kind f.version)
    t .answered

section
variable {s : State} {e : Entry} (fetch : e.kind = .peerFetch)
include fetch

theorem answer_of_fetch {f : Frame} (room : accepts s f.kind = true) : answer s e f = answeredFetch s e.tag f := by
  have purpose : answerPurpose e.kind = .fetchAnswer := by rw [fetch]; rfl
  unfold answer
  rw [if_pos room, purpose, offer_of_accepts _ room]
  rfl

theorem answerData_of_fetch {i : Nat} {v : Version} {d : Data} (copy : currentCopy s e.blk = some (i, v, d))
    (room : accepts s .data = true) :
    answerData s e = touchSlot (answeredFetch s e.tag (dataFrame (self s) e.tag e.blk v d)) i := by
  unfold answerData
  simp only [copy, room, if_true]
  rw [answer_of_fetch fetch (f := dataFrame (self s) e.tag e.blk v d) room]

theorem answeringList_of_fetch : answeringList s e =
    (replicas s (groupOf e.blk)).filter fun n => decide (some n ≠ e.requester) := if_pos fetch

theorem expireWait_of_fetch {t : Tag} (found : findEntry s t = some e) : expireWait s t = expireFetch s e := by
  unfold expireWait
  simp only [found]
  exact if_pos fetch

end

section
variable {s : State} {e : Entry}

theorem expireFetch_of_refused {r : Reason} (refused : e.reason = some r) :
    expireFetch s e = answerUnavailable s e r := by
  unfold expireFetch
  simp only [refused]

variable (taken : e.reason = none)
include taken

/-- A listed block, or one whose DATA was sent for the entry, is answered with silence (R151). -/
theorem expireFetch_of_barred (barred : isListed s e.blk = true ∨ e.sentData = true) :
    expireFetch s e = finishEntry s e.tag .silent := by
  unfold expireFetch
  simp only [taken]
  exact if_pos (by simpa using barred)

variable (unlisted : isListed s e.blk = false) (unsent : e.sentData = false)
include unlisted unsent

theorem expireFetch_of_held {v : Version} (held : heldVersion s e.blk = some v) :
    expireFetch s e = if aboveRequested e v then answerData s e
      else answer s e (currentFrame (self s) e.tag e.blk v) := by
  unfold expireFetch
  simp only [taken, unlisted, unsent, Bool.or_false, Bool.false_eq_true, if_false, held]

theorem expireFetch_of_unheld (unheld : heldVersion s e.blk = none) :
    expireFetch s e = if lastToAnswer s (answeringList s e) then answerUnavailable s e (unavailableReason e)
      else finishEntry s e.tag .silent := by
  unfold expireFetch
  simp only [taken, unlisted, unsent, Bool.or_false, Bool.false_eq_true, if_false, unheld]

end

theorem heldVersion_of_copy {s : State} {b : Block} {i : Nat} {v : Version} {d : Data}
    (copy : currentCopy s b = some (i, v, d)) : heldVersion s b = some v := by
  unfold heldVersion
  rw [copy]
  rfl

theorem heldVersion_of_noCopy {s : State} {b : Block} (noCopy : currentCopy s b = none) : heldVersion s b = none := by
  unfold heldVersion
  rw [noCopy]
  rfl

/-- Settles O50: a refused FETCH is answered with its reason, a barred one with silence, and any other by whether the
block has a current copy, its version against the requester's, and the stations that answer after this one. -/
theorem fetchSlotWaitEnds : Obligations.FetchSlotWaitEnds := by
  unfold Obligations.FetchSlotWaitEnds
  intro s tag e due released found fetch waits room t answered silent
  obtain rfl : e.tag = tag := (findEntry_some found).2
  have roomFor (k : Kind) (answers : kindClass k = 1) : accepts t k = true := room k answers
  have ends : exec (.fetchSlotWaitExpiry e.tag) s = .next (settle (expireFetch t e)) := by
    rw [exec_fetchSlotWaitExpiry released found fetch waits, expireWait_of_fetch (s := reach s due) fetch found]
    rfl
  have unavailable (r : Reason) : answerUnavailable t e r
      = answered (unavailableFrame (self s) e.tag e.blk (reasonCode r)) :=
    answer_of_fetch (s := t) fetch (roomFor .unavailable rfl)
  have silence (h : expireFetch t e = finishEntry t e.tag .silent) : silent := ends.trans (by rw [h])
  refine ⟨fun r refused => ?_, fun taken barred => silence (expireFetch_of_barred (s := t) taken barred),
    fun taken unlisted unsent => ⟨fun i v d copy => ?_, fun noCopy => ?_⟩⟩
  · rw [ends, expireFetch_of_refused refused, unavailable]
  · have held : heldVersion t e.blk = some v := heldVersion_of_copy (s := t) copy
    rw [ends, expireFetch_of_held (s := t) taken unlisted unsent held]
    refine ⟨fun below => ?_, fun ⟨r, known, reached⟩ => ?_⟩
    · rw [if_pos (aboveRequested_of_above below), answerData_of_fetch (s := t) fetch copy (roomFor .data rfl)]
      rfl
    · rw [if_neg (by simp [aboveRequested_of_reached known reached]),
        answer_of_fetch (s := t) (f := currentFrame (self t) e.tag e.blk v) fetch (roomFor .current rfl)]
      rfl
  · have unheld : heldVersion t e.blk = none := heldVersion_of_noCopy (s := t) noCopy
    have expired := expireFetch_of_unheld (s := t) taken unlisted unsent unheld
    intro after
    have last : lastToAnswer t (answeringList t e) = true ↔ ∀ n ∈ after, isAbsent s n = true := by
      rw [answeringList_of_fetch (s := t) fetch]
      exact List.all_eq_true
    refine ⟨fun ⟨n, later, here⟩ => silence (expired.trans (if_neg fun all => ?_)), fun absent => ?_⟩
    · exact Bool.noConfusion (here.symm.trans (last.1 all n later))
    · rw [ends, expired, if_pos (last.2 absent), unavailable, reasonCode_unavailableReason]

end Sys2Proof.Machine
end

section
/-! A fetch looks its block's version up and queues its FETCH under a fresh tag (R62, R143, R144, R146). -/

namespace Sys2Proof.Machine

/-! ### Changes of a fetch -/

theorem findFetch_id {s : State} {id : Nat} {f : Fetch} (h : findFetch s id = some f) : f.id = id := by
  simpa using List.find?_some h

theorem findFetch_update (s : State) (id : Nat) (f : Fetch → Fetch) (hf : ∀ g, (f g).id = g.id) :
    findFetch (updateFetch s id f) id = (findFetch s id).map f := by
  have same : (fun g : Fetch => decide (g.id = id)) ∘ (fun g => if g.id = id then f g else g)
      = fun g => decide (g.id = id) := by
    funext g
    by_cases h : g.id = id <;> simp [h, hf]
  unfold findFetch updateFetch
  rw [List.find?_map, same]
  cases found : s.repair.fetches.find? fun g => decide (g.id = id) with
  | none => rfl
  | some g => exact congrArg some (if_pos (findFetch_id found))

theorem updateFetch_twice (s : State) (id : Nat) {f : Fetch → Fetch} (g : Fetch → Fetch) (hf : ∀ x, (f x).id = x.id) :
    updateFetch (updateFetch s id f) id g = updateFetch s id fun x => g (f x) := by
  unfold updateFetch
  simp only [List.map_map]
  congr 2
  refine List.map_congr_left fun x _ => ?_
  by_cases h : x.id = id <;> simp [h, hf]

/-! ### The version lookup (R77, R144) -/

/-- The fetch in its version lookup. -/
def fetchLooksUp (s : State) (f : Fetch) : State := updateFetch s f.id fun g => { g with phase := .lookup }

theorem lookupFetch_of_copy {s : State} {f : Fetch} {i : Nat} {v : Version} {d : Data}
    (copy : currentCopy s f.block = some (i, v, d)) :
    lookupFetch s f = fetchAnswered (touchSlot (fetchLooksUp s f) i) f.id (.known v) := by
  have same : currentCopy (fetchLooksUp s f) f.block = some (i, v, d) := copy
  unfold lookupFetch versionLookup
  rw [show (updateFetch s f.id fun g => { g with phase := .lookup }) = fetchLooksUp s f from rfl, same]

theorem lookupFetch_of_noCopy {s : State} {f : Fetch} (noCopy : currentCopy s f.block = none)
    (up : s.port.down = false) :
    lookupFetch s f =
      if isFilling s f.block then addWaiter (fetchLooksUp s f) f.block .record (.fetch f.id)
      else if headerInFlight s f.block then addWaiter (fetchLooksUp s f) f.block .header (.fetch f.id)
      else issue (addWaiter (fetchLooksUp s f) f.block .header (.fetch f.id)) (.readHeader f.block) := by
  have lookup : versionLookup (fetchLooksUp s f) f.block (.fetch f.id) =
      if isFilling s f.block then (addWaiter (fetchLooksUp s f) f.block .record (.fetch f.id), none)
      else if headerInFlight s f.block then (addWaiter (fetchLooksUp s f) f.block .header (.fetch f.id), none)
      else (issue (addWaiter (fetchLooksUp s f) f.block .header (.fetch f.id)) (.readHeader f.block), none) := by
    unfold versionLookup
    rw [show currentCopy (fetchLooksUp s f) f.block = none from noCopy]
    exact if_neg (by simp [fetchLooksUp, updateFetch, up])
  unfold lookupFetch
  rw [show (updateFetch s f.id fun g => { g with phase := .lookup }) = fetchLooksUp s f from rfl, lookup]
  split_ifs <;> rfl

/-! ### The FETCH under a fresh tag (R62, R144) -/

section
variable {s : State} {f : Fetch}

/-- The fetch under the station's next tag, with this request table (R62). -/
def fetchTagged (s : State) (f : Fetch) (table : List Entry) : State :=
  updateFetch { s with sequence := (ownTag s).seq + 1, table := table } f.id fun g => { g with tag := some (ownTag s) }

theorem tagFetch_first (first : f.tag = none) :
    tagFetch s f = fetchTagged s f (s.table ++ [newEntry s (ownTag s) .ownFetch (some f.block) .outstanding]) := by
  unfold tagFetch
  rw [first]
  rfl

theorem tagFetch_again {old : Tag} (again : f.tag = some old) :
    tagFetch s f = fetchTagged s f (s.table.map fun e =>
      if e.tag = old then { e with tag := ownTag s, attempts := e.attempts + 1 } else e) := by
  unfold tagFetch
  rw [again]
  rfl

theorem findFetch_tagFetch (found : findFetch s f.id = some f) :
    findFetch (tagFetch s f) f.id = some { f with tag := some (ownTag s) } := by
  have tagged (table : List Entry) : findFetch (fetchTagged s f table) f.id = some { f with tag := some (ownTag s) } := by
    refine (findFetch_update _ f.id (fun g => { g with tag := some (ownTag s) }) fun _ => rfl).trans ?_
    exact congrArg (Option.map _) found
  cases tag : f.tag with
  | none => exact tagFetch_first tag ▸ tagged _
  | some old => exact tagFetch_again tag ▸ tagged _

theorem queueFetch_of_tag {t : Tag} (tag : f.tag = some t) (a : HeldVersion) :
    queueFetch s f a =
      if accepts s .fetch then
        updateFetch { s with bus := { s.bus with queue := s.bus.queue ++
          [queuedFrame (ownFetchFrame s t f.block (fetchVersion s f.block a)) .ownFetch] } } f.id
          fun g => { g with phase := .queued, buffer := none, currentTaken := false }
      else endNoAttempt s f := by
  have kind : (ownFetchFrame s t f.block (fetchVersion s f.block a)).kind = .fetch := by
    cases fetchVersion s f.block a <;> rfl
  unfold queueFetch
  rw [tag]
  dsimp only
  split
  next room => rw [offer_of_accepts _ (kind.symm ▸ room)]
  next => rfl

/-- The FETCH of the fetch queued under its fresh tag, with this request table, or the fetch ended without an attempt
where the queue refuses it (R144). -/
def fetchOffered (s : State) (f : Fetch) (a : HeldVersion) (table : List Entry) : State :=
  if accepts s .fetch then
    { fetchTagged s f table with
      bus := { s.bus with queue := s.bus.queue ++
        [queuedFrame (ownFetchFrame s (ownTag s) f.block (fetchVersion s f.block a)) .ownFetch] }
      repair := { s.repair with fetches := s.repair.fetches.map fun g =>
        if g.id = f.id then
          { g with tag := some (ownTag s), phase := .queued, buffer := none, currentTaken := false }
        else g } }
  else endNoAttempt (fetchTagged s f table) { f with tag := some (ownTag s) }

theorem queueFetch_fetchTagged (a : HeldVersion) (table : List Entry) :
    queueFetch (fetchTagged s f table) { f with tag := some (ownTag s) } a = fetchOffered s f a table := by
  rw [queueFetch_of_tag (f := { f with tag := some (ownTag s) }) rfl]
  have room : accepts (fetchTagged s f table) .fetch = accepts s .fetch := rfl
  rw [room]
  refine if_congr Iff.rfl ?_ rfl
  exact updateFetch_twice (f := fun g => { g with tag := some (ownTag s) })
    { s with
      bus := { s.bus with queue := s.bus.queue ++
        [queuedFrame (ownFetchFrame s (ownTag s) f.block (fetchVersion s f.block a)) .ownFetch] }
      sequence := (ownTag s).seq + 1
      table := table } f.id (fun g => { g with phase := .queued, buffer := none, currentTaken := false }) fun _ => rfl

section
variable (found : findFetch s f.id = some f) (lookup : f.phase = .lookup)
include found lookup

/-- A fetch that has its place in the table goes on under a fresh tag. -/
theorem fetchAnswered_of_given (a : HeldVersion) (given : f.tag = none → giveEntry s = some s) :
    fetchAnswered s f.id a = queueFetch (tagFetch s f) { f with tag := some (ownTag s) } a := by
  have entry : (if f.tag.isNone then giveEntry s else some s) = some s := by
    split
    next untagged => exact given (Option.isNone_iff_eq_none.1 untagged)
    next => rfl
  unfold fetchAnswered
  rw [found]
  dsimp only
  rw [if_pos lookup, entry]
  dsimp only
  rw [found]
  dsimp only
  rw [findFetch_tagFetch found]

theorem fetchAnswered_of_first (a : HeldVersion) (first : f.tag = none) (room : s.table.length < 24) :
    fetchAnswered s f.id a =
      fetchOffered s f a (s.table ++ [newEntry s (ownTag s) .ownFetch (some f.block) .outstanding]) := by
  rw [fetchAnswered_of_given found lookup a fun _ => giveEntry_of_room room, tagFetch_first first,
    queueFetch_fetchTagged]

theorem fetchAnswered_of_again (a : HeldVersion) {old : Tag} (again : f.tag = some old) :
    fetchAnswered s f.id a = fetchOffered s f a (s.table.map fun e =>
      if e.tag = old then { e with tag := ownTag s, attempts := e.attempts + 1 } else e) := by
  rw [fetchAnswered_of_given found lookup a fun first => absurd (first.symm.trans again) nofun, tagFetch_again again,
    queueFetch_fetchTagged]

/-- With no entry given the fetch ends without an attempt (R144). -/
theorem fetchAnswered_of_full (a : HeldVersion) (first : f.tag = none) (full : giveEntry s = none) :
    fetchAnswered s f.id a = endNoAttempt s f := by
  unfold fetchAnswered
  simp only [found, lookup, first, full, Option.isNone_none, if_true]

end

end

end Sys2Proof.Machine
end

section
/-! How a fetch ends: settled, without an attempt, unanswered (R141, R144, R146 to R148, R158, R159), and the close of
its window (R80, R146). -/

namespace Sys2Proof.Machine

/-! ### The end of a fetch (R148) -/

/-- The fetch gone, its lookup waiting no more. -/
def fetchLeft (s : State) (f : Fetch) : State :=
  { s with
    repair := { s.repair with fetches := s.repair.fetches.filter fun g => decide (g.id ≠ f.id) }
    cache := { s.cache with waiters := s.cache.waiters.filter fun w => decide (w.user ≠ .fetch f.id) } }

theorem endFetch_eq (s : State) (f : Fetch) (st : EntryState) :
    endFetch s f st = match f.tag with
      | none => fetchLeft s f
      | some t => withdraw (closeOwn (fetchLeft s f) t st) (forTag .ownFetch t) .plain := by
  have waiters : (fun w : Waiter => !decide (w.user = .fetch f.id)) = fun w => decide (w.user ≠ .fetch f.id) :=
    funext fun _ => (decide_not).symm
  unfold endFetch dropWaiters
  dsimp only
  rw [waiters]
  rfl

theorem endFetch_untagged {s : State} {f : Fetch} (st : EntryState) (h : f.tag = none) :
    endFetch s f st = fetchLeft s f := by
  rw [endFetch_eq, h]

theorem endFetch_tagged {s : State} {f : Fetch} {t : Tag} (st : EntryState) (h : f.tag = some t) :
    endFetch s f st = withdraw (closeOwn (fetchLeft s f) t st) (forTag .ownFetch t) .plain := by
  rw [endFetch_eq, h]

/-- An own entry enters the state where it is OUTSTANDING, and only there. -/
theorem closeOwn_eq (s : State) (t : Tag) (st : EntryState) :
    closeOwn s t st = match findEntry s t with
      | none => s
      | some e =>
        if e.state ≠ .outstanding then s
        else if st = .expired then expireEntry s t else finishEntry s t st := by
  unfold closeOwn
  cases findEntry s t with
  | none => rfl
  | some e =>
    dsimp only
    rw [ite_not]

/-! ### The repair entry of a fetch (R144, R146, R147) -/

section
variable {s : State} {f : Fetch}

/-- The repair entry is still the fetch's own: FETCHING, and no later fetch has taken it (R147). -/
theorem ownsEntry_iff (s : State) (f : Fetch) :
    ownsEntry s f = true ↔ f.sweep = false ∧ (∃ e ∈ s.repair.list, e.block = f.block ∧ e.state = .fetching)
      ∧ ∀ g ∈ s.repair.fetches, g.block = f.block → g.sweep = false → g.id ≤ f.id := by
  unfold ownsEntry
  simp only [Bool.and_eq_true, Bool.not_eq_true', List.any_eq_true, List.any_eq_false, decide_eq_true_eq, not_and,
    not_lt, and_assoc]

theorem ownsEntry_of_sweep (sweep : f.sweep = true) : ownsEntry s f = false := by simp [ownsEntry, sweep]

theorem endNoAttempt_of_sweep (sweep : f.sweep = true) :
    endNoAttempt s f = addRetake (endFetch s f .done) f.block (some (s.clock + 5000)) := by
  unfold endNoAttempt setAside
  exact if_pos sweep

theorem endNoAttempt_of_repair (repair : f.sweep = false) :
    endNoAttempt s f = if ownsEntry s f then setRepairState (endFetch s f .done) f.block (.parked (s.clock + 5000))
      else endFetch s f .done := by
  unfold endNoAttempt setAside
  exact if_neg (by simp [repair])

theorem endUnanswered_of_repair (repair : f.sweep = false) :
    endUnanswered s f = if ownsEntry s f then setRepairState (endFetch s f .done) f.block (.parked (s.clock + 50000))
      else endFetch s f .done := by
  unfold endUnanswered
  exact if_neg (by simp [repair])

/-- A sweep block goes on the repair list, or is counted unverified with no live co-replica (R158). -/
theorem endUnanswered_of_sweep (sweep : f.sweep = true) :
    endUnanswered s f = if groupLive (endFetch s f .done) (groupOf f.block) then
        listSweepBlock (endFetch s f .done) f.block
      else countUnverified (endFetch s f .done) 1 := by
  unfold endUnanswered
  exact if_pos sweep

end

/-! ### A sweep block on the repair list, and the room there (R141, R159) -/

theorem listSweepBlock_of_there {s : State} {b : Block} (there : isListed s b = true ∨ b ∈ s.repair.waitingRoom) :
    listSweepBlock s b = s := if_pos (by simpa using there)

theorem listSweepBlock_of_new {s : State} {b : Block} (unlisted : isListed s b = false)
    (notWaiting : b ∉ s.repair.waitingRoom) :
    listSweepBlock s b = if s.repair.list.length < 64 then placeReady s b
      else { s with repair := { s.repair with waitingRoom := s.repair.waitingRoom ++ [b] } } := by
  unfold listSweepBlock
  exact if_neg (by simp [unlisted, notWaiting])

/-- The oldest block that waits, none of those that wait being listed, takes a free place (R159). -/
theorem fillRoom_of_oldest {s : State} {b : Block} {rest : List Block} (waiting : s.repair.waitingRoom = b :: rest)
    (unlisted : ∀ c ∈ b :: rest, isListed s c = false) :
    fillRoom s = if s.repair.list.length < 64 then
        placeReady { s with repair := { s.repair with waitingRoom := rest } } b
      else s := by
  have allWait : s.repair.waitingRoom.filter (fun c => !isListed s c) = s.repair.waitingRoom :=
    List.filter_eq_self.2 fun c mem => by rw [unlisted c (waiting ▸ mem)]; rfl
  have same : dropListedRoom s = s := by
    unfold dropListedRoom
    rw [allWait]
  unfold fillRoom
  rw [same]
  dsimp only
  rw [waiting]
  rfl

theorem unlistBlock_of_listed {s : State} {b : Block} (listed : isListed s b = true) :
    unlistBlock s b = fillRoom (endFetches
      { s with repair := { s.repair with list := s.repair.list.filter fun e => decide (e.block ≠ b) } }
      (fun f => decide (f.block = b) && !f.sweep && decide (f.phase ≠ .committing)) .done) := if_pos listed

/-! ### The commit of the data taken (R80, R81) -/

section
variable {s : State} {b : Block} {v : Version} {d : Data} {i : Nat} {src : CommitSource}

theorem offerCommit_of_lower {w : Version} (held : heldVersion s b = some w) (above : w < v) :
    offerCommit s i b v d src = reportCommit (acceptCommit s i b v d) b src v := by
  unfold offerCommit
  rw [held]
  exact if_pos above

theorem offerCommit_of_notLower {w : Version} (held : heldVersion s b = some w) (reached : v ≤ w) :
    offerCommit s i b v d src = reportCommit (setSlot s i .free) b src w := by
  unfold offerCommit
  rw [held]
  exact if_neg (BitVec.not_lt.2 reached)

theorem offerCommit_of_down (unheld : heldVersion s b = none) (down : s.port.down = true) :
    offerCommit s i b v d src = reportCommit (acceptCommit s i b v d) b src v := by
  unfold offerCommit
  rw [unheld]
  exact if_pos down

end

/-! ### The window closes (R146) -/

theorem exec_fetchWindowClose {s : State} {tag : Tag} {f : Fetch} {due : Nat} (released : s.resetHeld = false)
    (found : fetchOfTag s tag = some f) (window : f.phase = .window due) :
    exec (.fetchWindowClose tag) s = .next (settle (closeWindow (reach s due) f)) := by
  refine Eq.trans (b := execFetchWindowClose tag s) rfl ?_
  unfold execFetchWindowClose
  rw [happening_of_released _ released]
  simp only [found, window]

section
variable {s : State} {f : Fetch}

/-- The data taken in a HELD slot, to be offered as a commit. -/
def dataHeld (s : State) (f : Fetch) (i : Nat) (v : Version) (d : Data) : State :=
  updateFetch (setSlot s i (.held f.block d (.ownFetch f.id) (some v))) f.id fun g => { g with phase := .committing }

theorem closeWindow_of_data {v : Version} {d : Data} (taken : f.buffer = some (v, d)) :
    closeWindow s f = match allocate s with
      | none => endNoAttempt s f
      | some i => offerCommit (dataHeld s f i v d) i f.block v d (.ownFetch f.id) := by
  unfold closeWindow
  rw [taken]
  rfl

theorem closeWindow_of_noData (empty : f.buffer = none) :
    closeWindow s f = if f.currentTaken then settleFetch s f
      else if attemptsOf s f.tag < 3 then lookupFetch s f
      else endUnanswered s f := by
  unfold closeWindow
  rw [empty]
  rfl

end

/-- Settles O57: the lookup and the FETCH of an attempt; then each end of a fetch, by the repair entry that is its own
or the sweep block that it was for; and last what the window closes with. -/
theorem fetchWindowCloses : Obligations.FetchWindowCloses := by
  unfold Obligations.FetchWindowCloses
  refine ⟨fun s b sweep => rfl, fun s f => ?_, fun s f a found lookup => ?_, fun s f st => ?_, fun s b => ?_,
    fun s b id w => ?_, fun s i b v d src => ?_, fun s f => ?_, fun s f => ?_, fun s b rest waiting unlisted => ?_,
    fun s tag f due released found window => ?_⟩
  · exact ⟨fun i v d copy => lookupFetch_of_copy copy, fun noCopy up => lookupFetch_of_noCopy noCopy up⟩
  · exact ⟨fun first room => fetchAnswered_of_first found lookup a first room,
      fun first full running => fetchAnswered_of_full found lookup a first (giveEntry_of_running full running),
      fun old again => fetchAnswered_of_again found lookup a again⟩
  · exact ⟨endFetch_untagged st, fun t tag => by rw [endFetch_tagged st tag, closeOwn_eq]; rfl⟩
  · exact ⟨fun unlisted => if_neg (by simp [unlisted]),
      fun listed => ⟨unlistBlock_of_listed listed, fun notWaiting => unlistBlock_unlisted notWaiting⟩⟩
  · refine ⟨fun gone => ?_, fun f found => ?_⟩
    · unfold reportCommit
      simp only [gone]
    · unfold reportCommit
      simp only [found]
  · exact ⟨fun w held => ⟨offerCommit_of_lower held, offerCommit_of_notLower held⟩,
      fun unheld => ⟨offerCommit_of_down unheld, offerCommit_of_unheld src unheld⟩⟩
  · intro own u parked
    have clock : u.clock = s.clock := (endFetch_ends s f rfl).clock
    refine ⟨fun owns => ?_, fun sweep => ?_, fun passed repair => ?_⟩
    · have owned := (ownsEntry_iff s f).2 owns
      rw [endNoAttempt_of_repair owns.1, endUnanswered_of_repair owns.1, if_pos owned, if_pos owned]
      exact ⟨if_pos owned, rfl, rfl⟩
    · exact ⟨if_neg (by simp [ownsEntry_of_sweep sweep]), endNoAttempt_of_sweep sweep⟩
    · have passed' := mt (ownsEntry_iff s f).1 passed
      rw [endNoAttempt_of_repair repair, endUnanswered_of_repair repair, if_neg passed', if_neg passed']
      exact ⟨if_neg passed', rfl, rfl⟩
  · intro u
    refine ⟨fun sweep dead => ?_, fun sweep live => ?_⟩
    · rw [endUnanswered_of_sweep sweep]
      exact if_neg (by simpa using dead)
    · rw [endUnanswered_of_sweep sweep, if_pos live]
      refine ⟨listSweepBlock_of_there, fun unlisted notWaiting => ?_⟩
      rw [listSweepBlock_of_new unlisted notWaiting]
      exact ⟨fun room => if_pos room, fun full => if_neg (Nat.not_lt.2 full)⟩
  · exact fillRoom_of_oldest waiting unlisted
  · intro t
    have closes : exec (.fetchWindowClose tag) s = .next (settle (closeWindow t f)) :=
      exec_fetchWindowClose released found window
    have attempts : attemptsOf t f.tag = attemptsOf s f.tag := rfl
    rw [closes]
    refine ⟨fun v d taken => ?_, fun empty current => ?_, fun empty noCurrent few => ?_, fun empty noCurrent many => ?_⟩
    · have given : allocate t = allocate s := rfl
      rw [closeWindow_of_data taken, given]
      exact ⟨fun i slot => by rw [slot]; rfl, fun full => by rw [full]⟩
    · rw [closeWindow_of_noData empty, if_pos current]
    · rw [closeWindow_of_noData empty, if_neg (by simp [noCurrent]), attempts, if_pos few]
    · rw [closeWindow_of_noData empty, if_neg (by simp [noCurrent]), attempts, if_neg (Nat.not_lt.2 many)]

end Sys2Proof.Machine
end

section
/-! What stands before the effects of a heard frame's kind (R167 to R170, R178, R184, R185): the checks that stop it,
and adoption. -/

namespace Sys2Proof.Machine

open Laws (frameHeard)

/-! ### The frame that a command is the hearing of (R189, R190) -/

theorem candidates_of_version (v : Version) : (v.extractLsb' 0 16).zeroExtend 32 = v &&& 0x0000FFFF := by
  apply BitVec.eq_of_toNat_eq
  simp only [BitVec.truncate_eq_setWidth, BitVec.toNat_setWidth, BitVec.extractLsb'_toNat, Nat.shiftRight_zero,
    BitVec.toNat_and]
  show _ = v.toNat &&& (2 ^ 16 - 1)
  rw [Nat.and_two_pow_sub_one_eq_mod]
  omega

theorem configurationAux_auxConfiguration : ∀ a : BitVec 8, configurationAux (auxConfiguration a) = a &&& 0x1F := by
  decide

theorem flag_of_aux : ∀ a : BitVec 8, (if a[0] = true then 1#8 else 0#8) = a &&& 1#8 := by decide

/-- What a heard frame makes is the hearing of as much of it as is examined (R189). -/
theorem frameHeard_hearingOf (pins : Straps) (f : Frame) : frameHeard (hearingOf pins f) = some (examined f) := by
  obtain ⟨kind, sender, mark, tag, target, block, version, aux, payload, report⟩ := f
  have wholeVersion : version &&& 4294967295#32 = version := Laws.version_kept version
  have wholeReason : aux &&& 255#8 = aux := Laws.reason_kept aux
  unfold hearingOf examined
  cases kind with
  | present =>
    simp only [frameHeard, presentFrame, candidates_of_version, configurationAux_auxConfiguration]
    rfl
  | _ =>
    simp [frameHeard, bareFrame, rosterFrame, rosterQueryFrame, peerDownFrame, rejoinFrame, caughtUpFrame,
      replayDoneFrame, stationResetFrame, orderFrame, ackFrame, nackFrame, dataFrame, unavailableFrame, currentFrame,
      readFrameOf, writeFrame, flushFrame, fetchFrame, replayFrame, statusQueryFrame, statusReportFrame, usesTag,
      usesTarget, usesBlock, hasPayload, hasReport, versionBits, auxBits, configurationAux_auxConfiguration,
      flag_of_aux, wholeVersion, wholeReason]

/-- Every heard frame passes the same checks, whatever the effects of its kind (R184). -/
theorem exec_of_frameHeard {i : Instr} {f : Frame} (heard : frameHeard i = some f) :
    ∃ act, ∀ s, exec i s = hear s f act := by
  cases i <;> cases heard <;> exact ⟨_, fun _ => rfl⟩

/-- A frame of which nothing but what is examined is set is heard as itself: it passes the checks, and what follows is
its kind's (R184, R189). -/
theorem exec_hearingOf (pins : Straps) {f : Frame} (whole : examined f = f) :
    ∃ act, ∀ s, exec (hearingOf pins f) s = hear s f act :=
  exec_of_frameHeard ((frameHeard_hearingOf pins f).trans (congrArg some whole))

/-! ### The checks (R167, R178, R185) -/

section
variable {s : State} {f : Frame} (act : State → State)

theorem receive_of_starting (starting : s.member.state = .starting) : receive s f act = afterEcho s := if_pos starting

theorem receive_of_duplicate (started : s.member.state ≠ .starting) (foreign : s.bus.echo ≠ some f)
    (same : f.sender = ownNumber s) : receive s f act = enterOut (afterEcho s) .duplicateNumber := by
  have duplicate : isDuplicate s f = true := by simp [isDuplicate, isOwn, foreign, same]
  unfold receive
  rw [if_neg started, if_pos duplicate]
  rfl

theorem isDuplicate_of_other (other : f.sender ≠ ownNumber s) : isDuplicate s f = false := by simp [isDuplicate, other]

theorem receive_of_elsewhere (started : s.member.state ≠ .starting) (other : f.sender ≠ ownNumber s)
    (filtered : isFiltered f.kind = true) (elsewhere : f.target ≠ ownNumber s) : receive s f act = afterEcho s := by
  have stopped : isElsewhere s f = true := by simp [isElsewhere, filtered, elsewhere]
  unfold receive
  rw [if_neg started, if_neg (by simp [isDuplicate_of_other other]), if_pos stopped]
  rfl

end

/-- Settles O29: by the three checks, whatever the effects of the frame's kind. -/
theorem frameStopsAtTheChecks : Obligations.FrameStopsAtTheChecks := by
  unfold Obligations.FrameStopsAtTheChecks
  intro s f pins whole released
  obtain ⟨act, heard⟩ := exec_hearingOf pins whole
  rw [heard, hear, happening_of_released _ released]
  refine ⟨fun starting => ?_, fun started foreign same => ?_, fun started other filtered elsewhere => ?_⟩
  · rw [receive_of_starting act starting]
  · rw [receive_of_duplicate act started foreign same]
  · rw [receive_of_elsewhere act started other filtered elsewhere]

/-! ### Adoption (R168 to R170, R172) -/

/-- Listening and formation over, with no timer of theirs and no PRESENT queued (R168, R169, R173). -/
theorem endFormation_member (s : State) : (endFormation s).member =
    { s.member with listeningWindow := none, quietTimer := none, presentReoffers := [] } := by
  unfold endFormation
  dsimp only
  rw [withdraw_plain_member]

theorem carriedConfiguration_of_carries {f : Frame} (carries : f.kind = .present ∨ f.kind = .roster) :
    carriedConfiguration f = some (auxConfiguration f.aux) := by
  unfold carriedConfiguration
  rcases carries with kind | kind <;> rw [kind]

theorem carriedConfiguration_of_bare {f : Frame} (bare : ¬(f.kind = .present ∨ f.kind = .roster)) :
    carriedConfiguration f = none := by
  unfold carriedConfiguration
  split
  next kind => exact absurd (.inl kind) bare
  next kind => exact absurd (.inr kind) bare
  all_goals rfl

theorem fixRoster_endFormation (s : State) (mark : Mark) : fixRoster (endFormation s) mark = { endFormation s with
    member := { (endFormation s).member with
      mark := mark, placement := buildPlacement mark (copies s), member := true }
    peers := makePeers s mark } := by
  have straps : (endFormation s).member.straps = s.member.straps := by rw [endFormation_member]
  unfold fixRoster makePeers copies ownNumber
  rw [straps]

/-- The heard roster is not one for the station: another configuration, no place for it, or too few members (R169). -/
def unfitRoster (s : State) (mark : Mark) (conf : Option Configuration) : Prop :=
  (∃ c, conf = some c ∧ c ≠ ownConfiguration s) ∨ inMark mark (ownNumber s) = false
    ∨ markSize mark < copies s

theorem adopt_of_unfit {s : State} {mark : Mark} {conf : Option Configuration} (unfit : unfitRoster s mark conf) :
    adopt s mark conf = { endFormation s with
      member := { (endFormation s).member with state := .spectator, mark := mark } } := by
  unfold adopt
  dsimp only
  rw [if_pos]
  unfold unfitRoster at unfit
  cases conf <;> simpa [or_assoc] using unfit

section
variable {s : State} {mark : Mark}

theorem adopt_of_carried {c : Configuration} (fit : ¬unfitRoster s mark (some c)) :
    adopt s mark (some c) = beginCatchUp (fixRoster (endFormation s) mark) := by
  refine if_neg fun unfit => fit ?_
  unfold unfitRoster
  simpa [or_assoc] using unfit

theorem adopt_of_bare (fit : ¬unfitRoster s mark none) :
    adopt s mark none = beginCatchUp (queueRosterQuery { fixRoster (endFormation s) mark with
      member := { (fixRoster (endFormation s) mark).member with checkPending := true } }) := by
  refine if_neg fun unfit => fit ?_
  unfold unfitRoster
  simpa using unfit

end

/-- A foreign frame of a store station with a nonzero mark, past the checks, has no effect but adoption (R168, R172). -/
theorem receive_of_adopts {s : State} {f : Frame} (act : State → State)
    (forms : s.member.state = .listening ∨ s.member.state = .forming) (foreign : s.bus.echo ≠ some f)
    (other : f.sender ≠ ownNumber s) (here : isFiltered f.kind = true → f.target = ownNumber s)
    (store : f.sender.isStore = true) (marked : f.mark ≠ 0) (examinedMark : markUnexamined f.kind = false) :
    receive s f act = adopt (afterEcho s) f.mark (carriedConfiguration f) := by
  have started : s.member.state ≠ .starting := by rcases forms with state | state <;> simp [state]
  have passed : isElsewhere s f = false := by simpa [isElsewhere] using here
  have leads : leadsToAdoption s (isOwn s f) f = true := by
    simpa [leadsToAdoption, isOwn, forms, foreign, store, examinedMark] using marked
  unfold receive
  rw [if_neg started, if_neg (by simp [isDuplicate_of_other other]), if_neg (by simp [passed]), if_pos leads]
  rfl

theorem markUnexamined_eq_false {k : Kind} (noReset : k ≠ .stationReset) (noQuery : k ≠ .statusQuery) :
    markUnexamined k = false := by
  unfold markUnexamined
  split
  · exact absurd rfl noReset
  · exact absurd rfl noQuery
  all_goals rfl

/-- Settles O30: the frame passes the checks and leads to adoption, which turns on whether the roster fits the
station and on the configuration carried. -/
theorem adoptionBegins : Obligations.AdoptionBegins := by
  unfold Obligations.AdoptionBegins
  intro s f pins whole released forms foreign other store marked noReset noQuery here h quiet carries
  obtain ⟨act, heard⟩ := exec_hearingOf pins whole
  rw [heard, hear, happening_of_released _ released, receive_of_adopts act forms foreign other here store marked
    (markUnexamined_eq_false noReset noQuery)]
  have ended : endFormation (afterEcho s) = quiet := rfl
  have unfit_iff : unfitRoster (afterEcho s) f.mark (carriedConfiguration f) ↔
      (carries ∧ auxConfiguration f.aux ≠ ownConfiguration s ∨ inMark f.mark (ownNumber s) = false
        ∨ (markMembers f.mark).length < copies s) := by
    refine or_congr ?_ Iff.rfl
    by_cases bears : carries
    · rw [carriedConfiguration_of_carries bears]
      simp only [Option.some.injEq, exists_eq_left', bears, true_and]
      exact Iff.rfl
    · rw [carriedConfiguration_of_bare bears]
      simp [bears]
  have roster : fixRoster (endFormation (afterEcho s)) f.mark = _ := fixRoster_endFormation (afterEcho s) f.mark
  rw [← unfit_iff]
  refine ⟨fun unfit => by rw [adopt_of_unfit unfit, ended], fun fit => ⟨fun bears => ?_, fun bare => ?_⟩⟩
  · rw [carriedConfiguration_of_carries bears] at fit ⊢
    rw [adopt_of_carried fit, roster]
    rfl
  · rw [carriedConfiguration_of_bare bare] at fit ⊢
    rw [adopt_of_bare fit, roster]
    rfl

end Sys2Proof.Machine
end

section
/-! The timers of formation (R168, R171, R173), and the frames that timers offer again (R153, R161, R170,
R171, R177). -/

namespace Sys2Proof.Machine

section
variable {s : State} {due : Nat} (released : s.resetHeld = false)
include released

/-! ### The listening window and the quiet timer -/

theorem exec_listeningWindowExpiry (running : s.member.listeningWindow = some due) :
    exec .listeningWindowExpiry s = .next (settle (enterForming (reach s due))) := by
  refine Eq.trans (b := execListeningWindowExpiry s) rfl ?_
  unfold execListeningWindowExpiry
  rw [happening_of_released _ released]
  simp only [running]

theorem exec_quietTimerExpiry (running : s.member.quietTimer = some due) :
    exec .quietTimerExpiry s = .next (settle (endQuiet (reach s due))) := by
  refine Eq.trans (b := execQuietTimerExpiry s) rfl ?_
  unfold execQuietTimerExpiry
  rw [happening_of_released _ released]
  simp only [running]

/-! ### The frames offered again -/

theorem exec_presentReoffer {rest : List Nat} (waits : s.member.presentReoffers = due :: rest) :
    exec .presentReoffer s = .next (settle (
      let t := { reach s due with member := { s.member with presentReoffers := rest } }
      if s.member.state = .forming ∧ presentQueued s = false then queuePresent t else t)) := by
  refine Eq.trans (b := execPresentReoffer s) rfl ?_
  unfold execPresentReoffer
  rw [happening_of_released _ released]
  simp only [waits]
  rfl

theorem exec_rosterQueryRepeat (running : s.member.queryTimer = some due) :
    exec .rosterQueryRepeat s = .next (settle (
      let t := { reach s due with member := { s.member with queryTimer := none } }
      if s.member.checkPending && inService s then queueRosterQuery t else t)) := by
  refine Eq.trans (b := execRosterQueryRepeat s) rfl ?_
  unfold execRosterQueryRepeat
  rw [happening_of_released _ released]
  simp only [running]
  rfl

theorem exec_ownPeerDownReoffer (running : s.member.ownDownReoffer = some due) :
    exec .ownPeerDownReoffer s = .next (settle (
      let t := { reach s due with member := { s.member with ownDownReoffer := none } }
      if s.member.state = .out .mediaDown ∧ s.member.member = true then queueOwnDown t else t)) := by
  refine Eq.trans (b := execOwnPeerDownReoffer s) rfl ?_
  unfold execOwnPeerDownReoffer
  rw [happening_of_released _ released]
  simp only [running]
  rfl

theorem exec_rejoinRequeue (running : s.repair.rejoinRequeue = some due) :
    exec .rejoinRequeue s = .next (settle (
      let t := { reach s due with repair := { s.repair with rejoinRequeue := none } }
      if sweeping s then queueRejoin t else t)) := by
  refine Eq.trans (b := execRejoinRequeue s) rfl ?_
  unfold execRejoinRequeue
  rw [happening_of_released _ released]
  simp only [running]
  rfl

theorem exec_caughtUpRequeue (running : s.repair.caughtUpRequeue = some due) :
    exec .caughtUpRequeue s = .next (settle (
      let t := { reach s due with repair := { s.repair with caughtUpRequeue := none } }
      if s.member.state = .serving then queueCaughtUp t else t)) := by
  refine Eq.trans (b := execCaughtUpRequeue s) rfl ?_
  unfold execCaughtUpRequeue
  rw [happening_of_released _ released]
  simp only [running]
  rfl

end

theorem enterForming_of_accepts {s : State} (room : accepts s .present = true) : enterForming s =
    { s with
      member := { s.member with
        state := .forming, listeningWindow := none, candidates := markOf (ownNumber s),
        quietTimer := some (s.clock + 15000) }
      bus := { s.bus with queue := s.bus.queue ++
        [queuedFrame (presentFrame (self s) (markOf (ownNumber s)) (ownConfiguration s)) .present] } } :=
  queuePresent_of_accepts room

theorem endQuiet_of_few {s : State} (few : (markMembers s.member.candidates).length < copies s) :
    endQuiet s = { s with member := { s.member with quietTimer := some (s.clock + 15000) } } := if_pos few

theorem endQuiet_of_enough {s : State} (enough : copies s ≤ (markMembers s.member.candidates).length) :
    endQuiet s = closeFormation s := if_neg (Nat.not_lt.2 enough)

/-- The roster formed, fixed (R173). -/
def rosterFormed (s : State) : State := fixRoster (endFormation s) s.member.candidates

theorem rosterFormed_sweepNeeded (s : State) : (rosterFormed s).member.sweepNeeded = s.member.sweepNeeded := by
  unfold rosterFormed
  rw [fixRoster_endFormation]
  dsimp only
  rw [endFormation_member]

theorem closeFormation_of_fresh {s : State} (fresh : s.member.sweepNeeded = false) :
    closeFormation s = { rosterFormed s with member := { (rosterFormed s).member with state := .serving } } :=
  if_neg fun needed => Bool.false_ne_true (fresh.symm.trans ((rosterFormed_sweepNeeded s).symm.trans needed))

theorem closeFormation_of_sweepNeeded {s : State} (needed : s.member.sweepNeeded = true) :
    closeFormation s = beginCatchUp (rosterFormed s) := if_pos ((rosterFormed_sweepNeeded s).trans needed)

/-- Settles O59: by the end of the window, and by what the quiet timer finds. -/
theorem formationTimersEnd : Obligations.FormationTimersEnd := by
  unfold Obligations.FormationTimersEnd
  refine fun s due released => ⟨fun running room => ?_, fun running => ⟨fun few => ?_, fun enough => ?_⟩⟩
  · rw [exec_listeningWindowExpiry released running, enterForming_of_accepts (s := reach s due) room]
    rfl
  · rw [exec_quietTimerExpiry released running, endQuiet_of_few (s := reach s due) few]
    rfl
  · intro u fixed
    have formed : rosterFormed (reach s due) = fixed := fixRoster_endFormation _ _
    rw [exec_quietTimerExpiry released running, endQuiet_of_enough (s := reach s due) enough]
    refine ⟨fun fresh => ?_, fun needed => ?_⟩
    · rw [closeFormation_of_fresh (s := reach s due) fresh, formed]
    · rw [closeFormation_of_sweepNeeded (s := reach s due) needed, formed]

/-- Settles O60: for each of the five timers by whether the state in which its frame is offered still holds. -/
theorem framesOfferedAgain : Obligations.FramesOfferedAgain := by
  unfold Obligations.FramesOfferedAgain
  refine fun s due released => ⟨fun rest waits => ?_, fun running => ?_, fun running => ?_, fun running => ?_,
    fun running => ?_⟩
  · intro t
    rw [exec_presentReoffer released waits]
    refine ⟨fun forms none_ room => ?_, fun left => by rw [if_neg fun h => left h.1]; rfl⟩
    rw [if_pos ⟨forms, none_⟩]
    exact congrArg _ (congrArg _ (queuePresent_of_accepts (s := t) room))
  · intro t
    rw [exec_rosterQueryRepeat released running]
    refine ⟨fun pending serves room => ?_, fun confirmed => by rw [if_neg (by simp [confirmed])]; rfl⟩
    rw [if_pos (by simp [pending, serves])]
    exact congrArg _ (congrArg _ (queueRosterQuery_of_accepts (s := t) room))
  · intro t
    rw [exec_ownPeerDownReoffer released running]
    refine ⟨fun down member room => ?_, fun left => by rw [if_neg fun h => left h.1]; rfl⟩
    rw [if_pos ⟨down, member⟩]
    exact congrArg _ (congrArg _ (queueOwnDown_of_accepts (s := t) room))
  · intro t
    rw [exec_rejoinRequeue released running]
    refine ⟨fun catching active room => ?_, fun left => by rw [if_neg fun h => left ((sweeping_iff s).1 h).1]; rfl⟩
    rw [if_pos ((sweeping_iff s).2 ⟨catching, active⟩)]
    exact congrArg _ (congrArg _ (queueRejoin_of_accepts (s := t) room))
  · intro t
    rw [exec_caughtUpRequeue released running]
    refine ⟨fun serves room => ?_, fun left => by rw [if_neg left]; rfl⟩
    rw [if_pos serves]
    exact congrArg _ (congrArg _ (queueCaughtUp_of_accepts (s := t) room))

end Sys2Proof.Machine
end

section
/-! Leaving service for SPECTATOR or RESETTING (R39, R56, R70, R80, R138, R148, R162): what stays of the station, and
what goes. -/

namespace Sys2Proof.Machine

/-! ### The writes refused (R39) -/

/-- No repair entry comes with a NACK RESETTING (R21). -/
theorem nackWrite_resetting (s : State) (e : Entry) : nackWrite s e .resetting =
    refuseEntry (offerNack s e.tag e.blk (nackVersion s e.blk e.ownVersion) .resetting) e.tag
      (nackVersion s e.blk e.ownVersion) .resetting := by
  rw [nackWrite_eq]
  exact if_pos (.inr rfl)

/-- The refusal touches the transmit queue, a counter, the table and the cache, and nothing else. -/
theorem nackWrite_resetting_spec (s : State) (e : Entry) :
    ∃ (bus : Bus) (counters : Counters) (table : List Entry) (cache : Cache), nackWrite s e .resetting =
      { s with bus := bus, counters := counters, table := table, cache := cache } := by
  rw [nackWrite_resetting, refuseEntry_offered]
  generalize nackVersion s e.blk e.ownVersion = v
  obtain ⟨bus, counters, offered⟩ := offer_spec s (nackFrame (self s) e.tag e.blk v (reasonCode .resetting))
    .acknowledgement
  have offered' : offerNack s e.tag e.blk v .resetting = _ := offered
  rw [offered']
  exact ⟨_, _, _, _, rfl⟩

theorem refuseAll_spec (l : List Entry) (s : State) :
    ∃ (bus : Bus) (counters : Counters) (table : List Entry) (cache : Cache),
      l.foldl (fun u e => nackWrite u e .resetting) s =
        { s with bus := bus, counters := counters, table := table, cache := cache } := by
  induction l generalizing s with
  | nil => exact ⟨_, _, _, _, rfl⟩
  | cons e l ih =>
    obtain ⟨_, _, _, _, one⟩ := nackWrite_resetting_spec s e
    obtain ⟨_, _, _, _, rest⟩ := ih (nackWrite s e .resetting)
    rw [List.foldl_cons, rest, one]
    exact ⟨_, _, _, _, rfl⟩

theorem refuseWrites_spec (s : State) :
    ∃ (bus : Bus) (counters : Counters) (table : List Entry) (cache : Cache), refuseWrites s =
      { s with bus := bus, counters := counters, table := table, cache := cache } := refuseAll_spec _ s

/-! ### The READs and FETCHes on the way to RESETTING (R56, R70) -/

/-- The READs and FETCHes in progress SILENT, and their answers withdrawn. -/
def answersSilenced (s : State) : State :=
  closeAnswers (closeAnswers s .clientRead .readAnswer .silent) .peerFetch .fetchAnswer .silent

theorem endRequests_resetting (s : State) : endRequests s true = answersSilenced (refuseWrites s) := rfl

theorem answersSilenced_ends (s : State) : Ends s (answersSilenced s) :=
  (closeAnswers_ends s .clientRead .readAnswer (st := .silent) rfl).trans (closeAnswers_ends _ _ _ rfl)

theorem answersSilenced_done (s : State) :
    DoneKind .clientRead (answersSilenced s) ∧ DoneKind .peerFetch (answersSilenced s) :=
  ⟨(closeAnswers_ends _ _ _ rfl).done (closeAnswers_done _ _ _ rfl), closeAnswers_done _ _ _ rfl⟩

/-! ### Leaving service -/

/-- The station in the state it leaves for, the frames that leave with service withdrawn. -/
def leftFor (s : State) (next : StationState) : State :=
  withdraw { s with member := { s.member with state := next } } (fun f => leavesWithService f.purpose) .plain

theorem leftFor_table (s : State) (next : StationState) : (leftFor s next).table = s.table := by
  refine withdraw_plain_table fun f leaves => ⟨fun purpose => ?_, fun purpose => ?_⟩ <;>
    exact absurd (purpose ▸ leaves) (by decide)

/-- All work in progress ended as the station leaves for `next`. -/
def workOver (s : State) (next : StationState) : State :=
  ownEntriesEnded (endRequests (leftFor s next) (decide (next = .resetting)))

theorem leaveService_eq (s : State) (next : StationState) : leaveService s next = serviceLeft (workOver s next) := by
  unfold workOver
  rw [serviceLeft_of_ownEntriesEnded]
  rfl

section
variable (u : State)

theorem serviceLeft_member : (serviceLeft u).member = { u.member with rosterWait := none, queryTimer := none } := rfl
theorem serviceLeft_media : (serviceLeft u).media = u.media := rfl
theorem serviceLeft_port : (serviceLeft u).port = u.port := rfl
theorem serviceLeft_peers : (serviceLeft u).peers = u.peers := rfl
theorem serviceLeft_table : (serviceLeft u).table = u.table := rfl
theorem serviceLeft_bus : (serviceLeft u).bus = u.bus := rfl
theorem serviceLeft_pushes : (serviceLeft u).replay.pushes = u.replay.pushes := rfl
theorem serviceLeft_fetches : (serviceLeft u).repair.fetches = u.repair.fetches := rfl
theorem serviceLeft_active : (serviceLeft u).repair.active = false := rfl
theorem serviceLeft_pendings : (serviceLeft u).cache.pendings = [] := rfl

/-- The blocks listed stay listed, those FETCHING as READY (R148). -/
theorem serviceLeft_blocks : (serviceLeft u).repair.list.map (·.block) = u.repair.list.map (·.block) := by
  have list : (serviceLeft u).repair.list =
    u.repair.list.map fun e => if e.state = .fetching then { e with state := .ready } else e := rfl
  rw [list, List.map_map]
  refine List.map_congr_left fun e _ => ?_
  dsimp only [Function.comp]
  split <;> rfl

end

/-- What the end of all work leaves alone: the station, its memory, its port, its peers and its repair list. -/
structure Steady (s t : State) : Prop where
  member : t.member = s.member
  media : t.media = s.media
  port : t.port = s.port
  peers : t.peers = s.peers
  list : t.repair.list = s.repair.list

theorem Steady.trans {s t u : State} (a : Steady s t) (b : Steady t u) : Steady s u :=
  ⟨b.member.trans a.member, b.media.trans a.media, b.port.trans a.port, b.peers.trans a.peers, b.list.trans a.list⟩

theorem Ends.steady {s t : State} (E : Ends s t) : Steady s t :=
  ⟨E.member, E.media, E.port, E.peers, by rw [E.repair]⟩

theorem endRequests_steady (s : State) (resetting : Bool) : Steady s (endRequests s resetting) := by
  cases resetting with
  | false => exact (endRequests_ends s).steady
  | true =>
    have refused : Steady s (refuseWrites s) := by
      obtain ⟨_, _, _, _, refused⟩ := refuseWrites_spec s
      rw [refused]
      exact ⟨rfl, rfl, rfl, rfl, rfl⟩
    exact refused.trans (answersSilenced_ends _).steady

section
variable (s : State) (next : StationState)

theorem workOver_steady : Steady { s with member := { s.member with state := next } } (workOver s next) :=
  ((withdraw_plain_ends _ _).steady.trans (endRequests_steady _ _)).trans (ownEntriesEnded_ends _).steady

theorem leaveService_member : (leaveService s next).member =
    { s.member with state := next, rosterWait := none, queryTimer := none } := by
  rw [leaveService_eq, serviceLeft_member, (workOver_steady s next).member]

theorem leaveService_media : (leaveService s next).media = s.media := by
  rw [leaveService_eq, serviceLeft_media, (workOver_steady s next).media]

theorem leaveService_port : (leaveService s next).port = s.port := by
  rw [leaveService_eq, serviceLeft_port, (workOver_steady s next).port]

theorem leaveService_peers : (leaveService s next).peers = s.peers := by
  rw [leaveService_eq, serviceLeft_peers, (workOver_steady s next).peers]

theorem leaveService_blocks :
    (leaveService s next).repair.list.map (·.block) = s.repair.list.map (·.block) := by
  rw [leaveService_eq, serviceLeft_blocks, (workOver_steady s next).list]

theorem leaveService_pushes : (leaveService s next).replay.pushes = [] := by
  rw [leaveService_eq, serviceLeft_pushes, workOver, ownEntriesEnded_pushes]

theorem leaveService_fetches : (leaveService s next).repair.fetches = [] := by
  rw [leaveService_eq, serviceLeft_fetches, workOver, ownEntriesEnded_fetches]

theorem leaveService_active : (leaveService s next).repair.active = false := by
  rw [leaveService_eq, serviceLeft_active]

theorem leaveService_pendings : (leaveService s next).cache.pendings = [] := by
  rw [leaveService_eq, serviceLeft_pendings]

/-- No slot is HELD any more (R80, R87). -/
theorem leaveService_unheld {x : Slot} (h : x ∈ (leaveService s next).cache.slots) (b : Block) (d : Data)
    (o : HeldOwner) (v : Option Version) : x ≠ .held b d o v := by
  rw [leaveService_eq] at h
  exact idled_unheld (u := workOver s next) h b d o v

end

end Sys2Proof.Machine
end

section
/-! PRESENT and ROSTER heard (R168, R170, R172, R174, R196): formation, the roster answer, and the configuration
check. -/

namespace Sys2Proof.Machine

/-! ### A PRESENT heard (R168, R172, R174) -/

theorem exec_presentHeard {s : State} {src : Source} {candidates : Mark} {conf : Configuration}
    (h : takesFrame s (presentFrame src candidates conf) = true) :
    exec (.presentHeard src candidates conf) s = .next (settle (takePresent (afterEcho s) src candidates conf)) :=
  hear_of_takes (fun u => takePresent u src candidates conf) h

section
variable {s : State} {src : Source} {candidates : Mark} {conf : Configuration}

theorem presentForming_of_mismatch (differs : conf ≠ ownConfiguration s) :
    presentForming s src candidates conf = countMismatched s := if_neg differs

theorem presentForming_of_match (agrees : conf = ownConfiguration s) :
    presentForming s src candidates conf =
      let grown := s.member.candidates ||| markOf src.sender
      let t : State := { s with member := { s.member with
        candidates := grown,
        quietTimer := if grown = s.member.candidates then s.member.quietTimer else some (s.clock + 15000) } }
      if inMark candidates (ownNumber s) = false ∧ presentQueued s = false then queuePresent t else t := by
  unfold presentForming
  rw [if_pos agrees]
  dsimp only
  simp only [ne_eq, decide_eq_true_eq, ite_not, Bool.and_eq_true, Bool.not_eq_true']
  rfl

theorem takePresent_of_client (client : src.sender.isStore = false) : takePresent s src candidates conf = s :=
  if_neg (by simp [client])

section
variable (store : src.sender.isStore = true)
include store

theorem takePresent_of_forming (forms : s.member.state = .forming) :
    takePresent s src candidates conf = presentForming s src candidates conf := by
  unfold takePresent
  rw [if_pos store, forms]

theorem takePresent_of_listening (listens : s.member.state = .listening) :
    takePresent s src candidates conf = presentForming (enterForming s) src candidates conf := by
  unfold takePresent
  rw [if_pos store, listens]

theorem takePresent_of_service (serves : inService s = true) :
    takePresent s src candidates conf = beginRosterWait s := by
  have state : s.member.state = .serving ∨ s.member.state = .catchingUp := by simpa [inService] using serves
  unfold takePresent
  rw [if_pos store]
  rcases state with state | state <;> rw [state]

end

theorem isOut_iff (s : State) : isOut s = true ↔ ∃ r, s.member.state = .out r := by
  cases state : s.member.state <;> simp [isOut, state]

/-- Past formation and out of service a PRESENT means nothing. -/
theorem takePresent_of_left (left : s.member.state = .spectator ∨ s.member.state = .resetting ∨ isOut s = true) :
    takePresent s src candidates conf = s := by
  rw [isOut_iff] at left
  unfold takePresent
  rcases left with state | state | ⟨r, state⟩ <;> rw [state] <;> exact ite_self s

end

/-- Settles O31: by the sender, the state of the station and, in FORMING, the configuration. -/
theorem presentHeard : Obligations.PresentHeard := by
  unfold Obligations.PresentHeard
  intro s src candidates conf takes h
  rw [exec_presentHeard takes]
  refine ⟨fun client => ?_, fun store forms => ⟨fun differs => ?_, fun agrees => ?_⟩, fun store listens => ?_,
    fun store serves => ?_, fun left => ?_⟩
  · rw [takePresent_of_client (s := afterEcho s) client]
  · rw [takePresent_of_forming (s := afterEcho s) store forms, presentForming_of_mismatch (s := afterEcho s) differs]
    unfold countMismatched
    rw [advance_eq]
    rfl
  · rw [takePresent_of_forming (s := afterEcho s) store forms, presentForming_of_match (s := afterEcho s) agrees]
    rfl
  · rw [takePresent_of_listening (s := afterEcho s) store listens]
  · rw [takePresent_of_service (s := afterEcho s) store serves]
  · rw [takePresent_of_left (s := afterEcho s) left]

/-! ### A ROSTER heard (R170, R174) -/

theorem exec_rosterHeard {s : State} {src : Source} {conf : Configuration}
    (h : takesFrame s (rosterFrame src conf) = true) :
    exec (.rosterHeard src conf) s = .next (settle (takeRoster (afterEcho s) src conf)) :=
  hear_of_takes (fun u => takeRoster u src conf) h

section
variable {s : State} {src : Source} {conf : Configuration}

/-- No roster answer of the station's own is left, wait or frame (R174). -/
def rosterSpared (s : State) : State :=
  withdraw { s with member := { s.member with rosterWait := none } } (forPurpose .roster) .plain

theorem rosterSpared_member (s : State) : (rosterSpared s).member = { s.member with rosterWait := none } :=
  withdraw_plain_member _ _

theorem takeRoster_of_otherMark (other : src.mark ≠ s.member.mark) : takeRoster s src conf = s := by
  have unmatched : markMatches s src = false := by simp [markMatches, other]
  have kept : rosterCancels s src = s := if_neg (by simp [unmatched])
  unfold takeRoster
  rw [kept]
  exact if_neg (by simp [unmatched])

variable (same : src.mark = s.member.mark)
include same

/-- With the station's mark the check is what is left to decide. -/
theorem takeRoster_of_mark : takeRoster s src conf =
    if s.member.checkPending = true ∧ inService s = true ∧ src.sender ≠ ownNumber s then
      if conf = ownConfiguration s ∧ copies s ≤ (markMembers s.member.mark).length then
        { rosterSpared s with member := { (rosterSpared s).member with checkPending := false, queryTimer := none } }
      else becomeSpectator (rosterSpared s)
    else rosterSpared s := by
  have cancels : rosterCancels s src = rosterSpared s := if_pos (by simp [markMatches, same])
  unfold takeRoster rosterChecks
  rw [cancels]
  simp only [inService, markMatches, ownNumber, ownConfiguration, copies, markSize, rosterSpared_member]
  simp only [same, decide_true, Bool.and_true, Bool.and_eq_true, decide_eq_true_eq, and_assoc]

end

/-- The failed check takes the station out of membership and service, and ends its recovery work (R138, R148, R162,
R170). -/
theorem becomeSpectator_leaves (s : State) :
    let u := becomeSpectator s
    u.member.state = .spectator ∧ u.member.member = false ∧ u.member.checkPending = false
      ∧ u.replay.pushes = [] ∧ u.repair.fetches = [] ∧ u.repair.active = false := by
  have member := leaveService_member s .spectator
  have pushes := leaveService_pushes s .spectator
  have fetches := leaveService_fetches s .spectator
  have active := leaveService_active s .spectator
  unfold becomeSpectator
  generalize leaveService s .spectator = u at *
  exact ⟨congrArg Membership.state member, rfl, rfl, pushes, fetches, active⟩

/-- Settles O32: by the mark; then by whether a check of another station's is pending, and what it finds. -/
theorem rosterHeard : Obligations.RosterHeard := by
  unfold Obligations.RosterHeard
  intro s src conf takes h
  rw [exec_rosterHeard takes]
  refine ⟨fun other => by rw [takeRoster_of_otherMark (s := afterEcho s) other], fun same => ?_⟩
  intro t
  have spared : rosterSpared (afterEcho s) = t := rfl
  rw [takeRoster_of_mark (s := afterEcho s) same, spared]
  refine ⟨fun noCheck => ?_, fun pending foreign serves => ⟨fun agrees enough => ?_, fun fails => ?_⟩⟩
  · rw [if_neg]
    rintro ⟨pending, serves, foreign⟩
    rcases noCheck with h | h | h
    · exact Bool.false_ne_true (h.symm.trans pending)
    · exact foreign h
    · exact Bool.false_ne_true (h.symm.trans serves)
  · rw [if_pos ⟨pending, serves, foreign⟩, if_pos ⟨agrees, enough⟩]
  · have unfit : ¬(conf = ownConfiguration (afterEcho s)
        ∧ copies (afterEcho s) ≤ (markMembers (afterEcho s).member.mark).length) := fun ⟨agrees, enough⟩ =>
      fails.elim (· agrees) (Nat.not_lt.2 enough)
    rw [if_pos ⟨pending, serves, foreign⟩, if_neg unfit]
    exact ⟨_, rfl, becomeSpectator_leaves t⟩

end Sys2Proof.Machine
end

section
/-! What the end of work leaves of the writes and of the acknowledgements queued: a write that has no answer yet to
withdraw, and any ACK or NACK, stays (R34, R39). -/

namespace Sys2Proof.Machine

/-! ### A write that stands -/

/-- An entry of the same write as `w`, in the same state and with the same ack window. -/
structure SameWrite (w x : Entry) : Prop where
  tag : x.tag = w.tag
  kind : x.kind = .clientWrite
  state : x.state = w.state
  reason : x.reason = w.reason
  window : x.ackWindow = w.ackWindow

/-- The table, its tags unique, has the write `w` in its state; neither a withdrawn answer nor the end of the station's
own requests is for an entry in that state. -/
structure WriteStands (w : Entry) (s : State) : Prop where
  unique : tagsUnique s = true
  found : ∃ x ∈ s.table, SameWrite w x
  unanswered : w.state ≠ .answered
  foreign : w.state ≠ .outstanding

section
variable {w : Entry} {s : State} (h : WriteStands w s)
include h

/-- A change of every entry, by one that keeps tags and makes the write `w` the write `w'`. -/
theorem WriteStands.becomes {w' : Entry} {t : State} (g : Entry → Entry) (table : t.table = s.table.map g)
    (tag : ∀ x, (g x).tag = x.tag) (same : ∀ x, SameWrite w x → SameWrite w' (g x)) (unanswered : w'.state ≠ .answered)
    (foreign : w'.state ≠ .outstanding) : WriteStands w' t := by
  obtain ⟨unique, ⟨x, mem, write⟩, -, -⟩ := h
  refine ⟨?_, ⟨g x, table ▸ List.mem_map_of_mem mem, same x write⟩, unanswered, foreign⟩
  have tags : t.table.map Entry.tag = s.table.map Entry.tag := by
    rw [table, List.map_map]
    exact List.map_congr_left fun x _ => tag x
  unfold tagsUnique
  rwa [tags]

theorem WriteStands.of_map {t : State} (g : Entry → Entry) (table : t.table = s.table.map g)
    (tag : ∀ x, (g x).tag = x.tag) (same : ∀ x, SameWrite w x → SameWrite w (g x)) : WriteStands w t :=
  h.becomes g table tag same h.unanswered h.foreign

theorem WriteStands.of_table {t : State} (table : t.table = s.table) : WriteStands w t :=
  h.of_map id (by rw [table, List.map_id]) (fun _ => rfl) fun _ => id

/-- An entry of another kind or in another state has another tag. -/
theorem WriteStands.other {z : Entry} (mem : z ∈ s.table) (differs : z.kind ≠ .clientWrite ∨ z.state ≠ w.state) :
    w.tag ≠ z.tag := by
  intro same
  obtain ⟨x, memX, write⟩ := h.found
  obtain rfl : z = x := entry_of_tag h.unique (findEntry_of_mem h.unique memX) mem (same.symm.trans write.tag.symm)
  exact differs.elim (· write.kind) (· write.state)

theorem WriteStands.updateEntry {t : Tag} {f : Entry → Entry} (tag : ∀ x, (f x).tag = x.tag)
    (same : ∀ x, SameWrite w x → x.tag = t → SameWrite w (f x)) : WriteStands w (updateEntry s t f) := by
  refine h.of_map (fun e => if e.tag = t then f e else e) rfl (fun x => ?_) fun x write => ?_
  · split
    · exact tag x
    · rfl
  · split
    next here => exact same x write here
    next => exact write

theorem WriteStands.finishEntry {t : Tag} (other : w.tag ≠ t) (st : EntryState) :
    WriteStands w (finishEntry s t st) :=
  (h.updateEntry (t := t)
    (f := fun e => { e with state := st, finished := e.finishTime st s.clock, wait := none, slot := none })
    (fun _ => rfl) fun _ write here => absurd (write.tag.symm.trans here) other).of_table rfl

theorem WriteStands.expireEntry {t : Tag} (other : w.tag ≠ t) : WriteStands w (expireEntry s t) :=
  (h.finishEntry other .expired).of_table rfl

theorem WriteStands.unrecorded (f : TxFrame) : WriteStands w (unrecorded s f) := by
  have unsent : WriteStands w
      (if f.frame.kind = .data then Machine.updateEntry s f.frame.tag fun e => { e with sent := none } else s) := by
    split
    · exact h.updateEntry (fun _ => rfl) fun _ write _ =>
        ⟨write.tag, write.kind, write.state, write.reason, write.window⟩
    · exact h
  unfold Machine.unrecorded
  split
  · exact h.of_table rfl
  · exact unsent
  · exact unsent
  · exact h

end

/-! ### What stays through an operation -/

/-- `t` comes from `s` by an operation that leaves the standing writes, and the acknowledgements queued, where they
are. -/
structure Spares (s t : State) : Prop where
  writes : ∀ w, WriteStands w s → WriteStands w t
  acks : ∀ f ∈ s.bus.queue, f.purpose = .acknowledgement → f ∈ t.bus.queue

theorem Spares.of_eq {s t : State} (table : t.table = s.table) (bus : t.bus = s.bus) : Spares s t :=
  ⟨fun _ h => h.of_table table, fun _ mem _ => bus ▸ mem⟩

theorem Spares.trans {s t u : State} (a : Spares s t) (b : Spares t u) : Spares s u :=
  ⟨fun w h => b.writes w (a.writes w h), fun f mem ack => b.acks f (a.acks f mem ack) ack⟩

/-- `Spares.trans` from the end: the last operation is taken off. -/
theorem Spares.after {s t u : State} (b : Spares t u) (a : Spares s t) : Spares s u := a.trans b

theorem spares_foldl {α : Type} (f : State → α → State) (hf : ∀ u x, Spares u (f u x)) (l : List α) (u : State) :
    Spares u (l.foldl f u) := by
  induction l generalizing u with
  | nil => exact .of_eq rfl rfl
  | cons x l ih => exact (hf u x).trans (ih (f u x))

/-- A withdrawal finishes an entry only where it is ANSWERED. -/
theorem afterWithdrawal_spares (s : State) (f : TxFrame) {w : Withdrawal} (h : w = .plain ∨ w = .entryBecomes .silent) :
    Spares s (afterWithdrawal s f w) := by
  refine ⟨fun x stands => ?_, fun g mem _ => afterWithdrawal_queue s f w ▸ mem⟩
  rw [afterWithdrawal_eq]
  have stands := stands.unrecorded f
  rcases h with rfl | rfl
  · exact stands
  · unfold entryLeft
    dsimp only
    split
    · exact stands
    next e found =>
      obtain ⟨mem, tag⟩ := findEntry_some found
      split
      next enters =>
        have answered : e.state = .answered := by simpa [Entry.entersOnWithdrawal] using enters
        exact stands.finishEntry (tag ▸ stands.other mem (.inr (answered ▸ stands.unanswered.symm))) _
      next => exact stands

theorem withdraw_spares (s : State) {sel : TxFrame → Bool} {w : Withdrawal}
    (kind : w = .plain ∨ w = .entryBecomes .silent) (others : ∀ f, sel f = true → f.purpose ≠ .acknowledgement) :
    Spares s (withdraw s sel w) := by
  refine ⟨fun x stands => ?_, fun f mem ack => mem_withdraw w mem ?_⟩
  · unfold withdraw
    dsimp only
    split
    · exact stands.of_table rfl
    · exact (spares_foldl _ (fun u f => afterWithdrawal_spares u f kind) _ _).writes x (stands.of_table rfl)
  · exact Bool.eq_false_iff.2 fun selected => others f selected ack

/-- Finishing the unfinished entries of a kind that is no write's. -/
theorem finishKind_spares {k : EntryKind} (noWrite : k ≠ .clientWrite) {act : State → Entry → State}
    (bus : ∀ u e, (act u e).bus = u.bus)
    (others : ∀ u e w, w.tag ≠ e.tag → WriteStands w u → WriteStands w (act u e)) (s : State) :
    Spares s ((s.table.filter fun e => decide (e.kind = k) && !e.state.finished).foldl act s) := by
  have queue (l : List Entry) (u : State) : (l.foldl act u).bus = u.bus := by
    induction l generalizing u with
    | nil => rfl
    | cons e l ih => exact (ih _).trans (bus u e)
  have writes (w : Entry) (l : List Entry) (apart : ∀ e ∈ l, w.tag ≠ e.tag) (u : State) (stands : WriteStands w u) :
      WriteStands w (l.foldl act u) := by
    induction l generalizing u with
    | nil => exact stands
    | cons e l ih =>
      exact ih (fun x mem => apart x (List.mem_cons_of_mem _ mem)) _ (others u e w (apart e List.mem_cons_self) stands)
  refine ⟨fun w stands => writes w _ (fun e mem => ?_) s stands, fun f mem _ => queue _ s ▸ mem⟩
  obtain ⟨mem, selected⟩ := List.mem_filter.1 mem
  have kind : e.kind = k := by
    simp only [Bool.and_eq_true, decide_eq_true_eq] at selected
    exact selected.1
  exact stands.other mem (.inl (kind ▸ noWrite))

theorem expireKind_spares (s : State) {k : EntryKind} (noWrite : k ≠ .clientWrite) : Spares s (expireKind s k) :=
  finishKind_spares noWrite (act := fun u e => expireEntry u e.tag) (fun _ _ => rfl)
    (fun _ _ _ other stands => stands.expireEntry other) s

theorem closeAnswers_spares (s : State) {k : EntryKind} {p : Purpose} (noWrite : k ≠ .clientWrite)
    (noAck : p ≠ .acknowledgement) : Spares s (closeAnswers s k p .silent) := by
  have finished : Spares s ((s.table.filter fun e => decide (e.kind = k) && !e.state.finished).foldl
      (fun u e => finishEntry u e.tag .silent) s) :=
    finishKind_spares noWrite (act := fun u e => finishEntry u e.tag .silent) (fun _ _ => rfl)
      (fun _ _ _ other stands => stands.finishEntry other _) s
  refine finished.trans (withdraw_spares _ (.inr rfl) fun f selected => ?_)
  have purpose : f.purpose = p := by simpa [forPurpose] using selected
  exact purpose ▸ noAck

theorem closeOwn_spares (s : State) (t : Tag) : Spares s (closeOwn s t .expired) := by
  unfold closeOwn
  split
  · exact .of_eq rfl rfl
  next e found =>
    split
    next own =>
      obtain ⟨mem, tag⟩ := findEntry_some found
      refine ⟨fun w stands => ?_, fun _ mem _ => mem⟩
      exact stands.expireEntry (tag ▸ stands.other mem (.inr (own ▸ stands.foreign.symm)))
    next => exact .of_eq rfl rfl

theorem forTag_spares (s : State) {p : Purpose} (noAck : p ≠ .acknowledgement) (t : Tag) :
    Spares s (withdraw s (forTag p t) .plain) := by
  refine withdraw_spares s (.inl rfl) fun f selected => ?_
  have purpose : f.purpose = p := by
    simp only [forTag, Bool.and_eq_true, decide_eq_true_eq] at selected
    exact selected.1
  exact purpose ▸ noAck

theorem endPush_spares (s : State) (p : Push) : Spares s (endPush s p none .expired) := by
  unfold endPush
  dsimp only
  split
  · exact .of_eq rfl rfl
  · exact (forTag_spares (p := .ownReplay) _ nofun _).after ((closeOwn_spares _ _).after (.of_eq rfl rfl))

theorem endFetch_spares (s : State) (f : Fetch) : Spares s (endFetch s f .expired) := by
  unfold endFetch
  dsimp only
  split
  · exact .of_eq rfl rfl
  · exact (forTag_spares (p := .ownFetch) _ nofun _).after ((closeOwn_spares _ _).after (.of_eq rfl rfl))

theorem ownEntriesEnded_spares (s : State) : Spares s (ownEntriesEnded s) :=
  ((spares_foldl _ endPush_spares _ _).trans (spares_foldl _ endFetch_spares _ _)).trans
    ((expireKind_spares _ (by decide)).trans (expireKind_spares _ (by decide)))

theorem answersSilenced_spares (s : State) : Spares s (answersSilenced s) :=
  (closeAnswers_spares s (by decide) (by decide)).trans (closeAnswers_spares _ (by decide) (by decide))

end Sys2Proof.Machine
end

section
/-! A STATION_RESET heard (R39, R56, R70, R138, R148, R162, R163, R165, R166, R175, R176, R188): the restart, and the
way to it through RESETTING. -/

namespace Sys2Proof.Machine

/-! ### The restart (R163, R165, R166, R188) -/

theorem stationRestart_eq (s : State) (sweepNeeded : Bool) :
    stationRestart s sweepNeeded = { State.reset with
      pins := s.pins, resetHeld := s.resetHeld, clock := s.clock, freeCount := s.freeCount, nextId := s.nextId,
      media := s.media, pending := s.pending,
      bus := { s.bus with queue := s.bus.queue.map orphaned, accepting := s.bus.queue.isEmpty },
      member := { State.reset.member with
        straps := s.pins, sweepNeeded := sweepNeeded,
        state := if s.pins.copiesCode = 0 ∨ s.pins.volumeCode = 7 then .out .badStrap else .starting },
      port :=
        if s.pins.copiesCode = 0 ∨ s.pins.volumeCode = 7 then { State.reset.port with op := s.port.op }
        else { State.reset.port with
          op := s.port.op + 1, phase := .probing,
          timer := some (s.clock + 50000), probeLimit := some (s.clock + 2000000) } } := by
  have empty : (s.bus.queue.map orphaned).isEmpty = s.bus.queue.isEmpty := List.isEmpty_map
  unfold stationRestart
  dsimp only
  rw [empty]
  by_cases invalid : s.pins.copiesCode = 0 ∨ s.pins.volumeCode = 7
  · rw [if_pos invalid, if_pos invalid, enterStarting_of_invalid ((validStraps_eq_false_iff s.pins).2 invalid)]
    rfl
  · have valid : validStraps s.pins = true := by simpa using (validStraps_eq_false_iff s.pins).not.2 invalid
    rw [if_neg invalid, if_neg invalid, enterStarting_of_valid valid]
    rfl

/-- While the frames of before a restart are there no frame is taken (R188). -/
theorem accepts_of_shut {s : State} (shut : s.bus.accepting = false) (k : Kind) : accepts s k = false := by
  simp [accepts, shut]

/-! ### The writes refused on the way to RESETTING (R39) -/

/-- A write's entry as the NACK RESETTING leaves it. -/
def Entry.refusedForReset (e : Entry) : Entry := { e with state := .refused, reason := some .resetting }

theorem nackWrite_resetting_table (s : State) (e : Entry) : (nackWrite s e .resetting).table =
    (updateEntry s e.tag fun x => x.refusedAt (nackVersion s e.blk e.ownVersion) .resetting s.clock).table := by
  rw [nackWrite_resetting, refuseEntry_offered]

section
variable {w : Entry} {s : State}

theorem WriteStands.nackOther (h : WriteStands w s) {e : Entry} (other : w.tag ≠ e.tag) :
    WriteStands w (nackWrite s e .resetting) :=
  (h.updateEntry (t := e.tag)
    (f := fun x => x.refusedAt (nackVersion s e.blk e.ownVersion) .resetting s.clock) (fun _ => rfl)
    fun _ write here => absurd (write.tag.symm.trans here) other).of_table (nackWrite_resetting_table s e)

theorem WriteStands.nackOwn (h : WriteStands w s) {e : Entry} (own : w.tag = e.tag) :
    WriteStands w.refusedForReset (nackWrite s e .resetting) := by
  refine h.becomes _ (nackWrite_resetting_table s e) (fun x => ?_) (fun x write => ?_) nofun nofun
  · split <;> rfl
  · rw [if_pos (write.tag.trans own)]
    exact ⟨write.tag, write.kind, rfl, rfl, write.window⟩

theorem WriteStands.nackAgain (h : WriteStands w.refusedForReset s) (e : Entry) :
    WriteStands w.refusedForReset (nackWrite s e .resetting) := by
  by_cases own : w.tag = e.tag
  · exact h.nackOwn own
  · exact h.nackOther own

theorem WriteStands.refuseOthers {l : List Entry} (h : WriteStands w s) (others : ∀ e ∈ l, w.tag ≠ e.tag) :
    WriteStands w (l.foldl (fun u e => nackWrite u e .resetting) s) := by
  induction l generalizing s with
  | nil => exact h
  | cons e l ih =>
    exact ih (h.nackOther (others e List.mem_cons_self)) fun x mem => others x (List.mem_cons_of_mem _ mem)

theorem WriteStands.staysRefused (h : WriteStands w.refusedForReset s) (l : List Entry) :
    WriteStands w.refusedForReset (l.foldl (fun u e => nackWrite u e .resetting) s) := by
  induction l generalizing s with
  | nil => exact h
  | cons e l ih => exact ih (h.nackAgain e)

theorem WriteStands.refuseOwn {l : List Entry} (h : WriteStands w s) (own : w ∈ l) :
    WriteStands w.refusedForReset (l.foldl (fun u e => nackWrite u e .resetting) s) := by
  induction l generalizing s with
  | nil => simp at own
  | cons e l ih =>
    by_cases same : w.tag = e.tag
    · exact (h.nackOwn same).staysRefused l
    · refine ih (h.nackOther same) ((List.mem_cons.1 own).resolve_left ?_)
      rintro rfl
      exact same rfl

end

/-! ### Their NACKs (R21, R186) -/

theorem accepts_nack_of_few {s : State} (open_ : s.bus.accepting = true) (few : s.bus.queue.length < 14) :
    accepts s .nack = true := by
  have low : lowClassCount s.bus.queue ≤ s.bus.queue.length := List.countP_le_length
  simp only [accepts, open_, Bool.true_and, Bool.and_eq_true, Bool.or_eq_true, decide_eq_true_eq]
  exact ⟨Nat.lt_trans few (by decide), .inr (Nat.lt_of_le_of_lt low few)⟩

theorem nackWrite_resetting_bus {s : State} (open_ : s.bus.accepting = true) (few : s.bus.queue.length < 14)
    (e : Entry) : (nackWrite s e .resetting).bus = { s.bus with queue := s.bus.queue ++
      [queuedFrame (nackFrame (self s) e.tag e.blk (nackVersion s e.blk e.ownVersion) 7) .acknowledgement] } := by
  rw [nackWrite_resetting, refuseEntry_offered]
  dsimp only
  unfold offerNack
  rw [offer_of_accepts _ (accepts_nack_of_few open_ few)]
  rfl

theorem self_nackWrite_resetting (s : State) (e : Entry) : self (nackWrite s e .resetting) = self s := by
  obtain ⟨_, _, _, _, refused⟩ := nackWrite_resetting_spec s e
  rw [refused]
  rfl

/-- With room for all of them the NACKs join the queue behind what stands there. -/
theorem refuseAll_acks (l : List Entry) {s : State} (open_ : s.bus.accepting = true)
    (room : s.bus.queue.length + l.length ≤ 14) :
    let t := l.foldl (fun u e => nackWrite u e .resetting) s
    (∀ f ∈ s.bus.queue, f ∈ t.bus.queue)
      ∧ ∀ e ∈ l, ∃ v, queuedFrame (nackFrame (self s) e.tag e.blk v 7) .acknowledgement ∈ t.bus.queue := by
  induction l generalizing s with
  | nil => exact ⟨fun _ => id, by simp⟩
  | cons e l ih =>
    intro t
    have bus := nackWrite_resetting_bus open_ (by simp only [List.length_cons] at room; omega) e
    obtain ⟨stays, nacks⟩ := ih (s := nackWrite s e .resetting) (by rw [bus]; exact open_)
      (by simp only [bus, List.length_append, List.length_cons, List.length_nil] at room ⊢; omega)
    rw [self_nackWrite_resetting] at nacks
    rw [bus] at stays
    refine ⟨fun f mem => stays f (List.mem_append_left _ mem), fun x mem => ?_⟩
    rcases List.mem_cons.1 mem with rfl | mem
    · exact ⟨_, stays _ (List.mem_append_right _ List.mem_cons_self)⟩
    · exact nacks x mem

/-! ### RESETTING (R39, R56, R70, R138, R148, R162, R176) -/

theorem withdraw_accepting {s : State} (open_ : s.bus.accepting = true) (sel : TxFrame → Bool) (w : Withdrawal) :
    (withdraw s sel w).bus.accepting = true := by
  have fold (l : List TxFrame) (u : State) : (l.foldl (fun u f => afterWithdrawal u f w) u).bus = u.bus := by
    induction l generalizing u with
    | nil => rfl
    | cons f l ih => exact (ih _).trans (afterWithdrawal_queue u f w)
  unfold withdraw
  dsimp only
  split
  · exact open_
  · rw [fold]
    simp [setQueue, open_]

theorem withdraw_length (s : State) (sel : TxFrame → Bool) (w : Withdrawal) :
    (withdraw s sel w).bus.queue.length ≤ s.bus.queue.length := by
  rw [withdraw_queue, List.length_map]
  exact List.length_filter_le _ _

theorem self_leftFor (s : State) (next : StationState) : self (leftFor s next) = self s := by
  have member : (leftFor s next).member = { s.member with state := next } := withdraw_plain_member _ _
  simp only [self, ownNumber, member]

theorem workOver_resetting (s : State) : workOver s .resetting =
    ownEntriesEnded (answersSilenced (refuseWrites (leftFor s .resetting))) := by
  unfold workOver
  rw [decide_eq_true rfl, endRequests_resetting]

/-- What follows the refusals leaves the writes, and the NACKs, as they are. -/
theorem leaveService_spares (s : State) :
    Spares (refuseWrites (leftFor s .resetting)) (leaveService s .resetting) := by
  have after := (answersSilenced_spares (refuseWrites (leftFor s .resetting))).trans (ownEntriesEnded_spares _)
  rw [← workOver_resetting] at after
  rw [leaveService_eq]
  exact after.trans (.of_eq (serviceLeft_table _) (serviceLeft_bus _))

/-- Reads and fetches heard, and the station's own requests, are finished (R56, R70). -/
theorem leaveService_done {s : State} {e : Entry} (mem : e ∈ (leaveService s .resetting).table)
    (kind : e.kind = .clientRead ∨ e.kind = .peerFetch ∨ e.kind = .ownFetch ∨ e.kind = .ownReplay) :
    e.state.finished = true := by
  rw [leaveService_eq, serviceLeft_table, workOver_resetting] at mem
  obtain ⟨reads, fetches⟩ := answersSilenced_done (refuseWrites (leftFor s .resetting))
  have own := ownEntriesEnded_ends (answersSilenced (refuseWrites (leftFor s .resetting)))
  obtain ⟨ownFetches, ownReplays⟩ := ownEntriesEnded_done (answersSilenced (refuseWrites (leftFor s .resetting)))
  rcases kind with kind | kind | kind | kind
  · exact own.done reads e mem kind
  · exact own.done fetches e mem kind
  · exact ownFetches e mem kind
  · exact ownReplays e mem kind

section
variable {s : State} {e : Entry} (unique : tagsUnique s = true) (mem : e ∈ s.table) (write : e.kind = .clientWrite)

theorem uncommitted_iff (e : Entry) :
    e.uncommitted = true ↔ e.kind = .clientWrite ∧ (e.state = .lookup ∨ e.state = .waitOrder) := by
  simp [Entry.uncommitted]

include unique mem write in
theorem writeStands_leftFor (unanswered : e.state ≠ .answered) (foreign : e.state ≠ .outstanding) :
    WriteStands e (leftFor s .resetting) :=
  WriteStands.of_table (s := s) ⟨unique, ⟨e, mem, rfl, write, rfl, rfl, rfl⟩, unanswered, foreign⟩ (leftFor_table _ _)

include unique mem in
theorem leaveService_refused (uncommitted : e.uncommitted = true) :
    WriteStands e.refusedForReset (leaveService s .resetting) := by
  obtain ⟨write, state⟩ := (uncommitted_iff e).1 uncommitted
  have stands : WriteStands e (leftFor s .resetting) := by
    refine writeStands_leftFor unique mem write ?_ ?_ <;> rcases state with state | state <;> rw [state] <;> decide
  refine (leaveService_spares s).writes _ (stands.refuseOwn (List.mem_filter.2 ⟨?_, uncommitted⟩))
  rw [leftFor_table]
  exact mem

include unique mem write in
theorem leaveService_committing (committing : e.state = .committing) :
    WriteStands e (leaveService s .resetting) := by
  have stands : WriteStands e (leftFor s .resetting) := by
    refine writeStands_leftFor unique mem write ?_ ?_ <;> rw [committing] <;> decide
  refine (leaveService_spares s).writes _ (stands.refuseOthers fun x memX => ?_)
  obtain ⟨memX, uncommitted⟩ := List.mem_filter.1 memX
  refine stands.other memX (.inr fun same => ?_)
  have state := ((uncommitted_iff x).1 uncommitted).2
  rw [same, committing] at state
  exact absurd state (by decide)

end

/-- With room for the NACKs of all the writes refused each is in the queue (R39, R186). -/
theorem leaveService_nacks {s : State} (open_ : s.bus.accepting = true)
    (room : s.bus.queue.length + s.table.countP Entry.uncommitted ≤ 14) {e : Entry} (mem : e ∈ s.table)
    (uncommitted : e.uncommitted = true) :
    ∃ v, queuedFrame (nackFrame (self s) e.tag e.blk v 7) .acknowledgement ∈ (leaveService s .resetting).bus.queue := by
  have few : (leftFor s .resetting).bus.queue.length ≤ s.bus.queue.length :=
    withdraw_length { s with member := { s.member with state := .resetting } } _ _
  have nacks := (refuseAll_acks ((leftFor s .resetting).table.filter Entry.uncommitted)
    (s := leftFor s .resetting)
    (withdraw_accepting (s := { s with member := { s.member with state := .resetting } }) open_ _ _) (by
      rw [leftFor_table, ← List.countP_eq_length_filter]
      omega)).2 e (List.mem_filter.2 ⟨by rw [leftFor_table]; exact mem, uncommitted⟩)
  rw [self_leftFor] at nacks
  obtain ⟨v, queued⟩ := nacks
  exact ⟨v, (leaveService_spares s).acks _ queued rfl⟩

/-! ### The frame heard (R175, R176) -/

theorem exec_stationResetHeard {s : State} {order : ResetOrder} {straps : Straps}
    (h : takesFrame s (stationResetFrame order.src order.target) = true) :
    exec (.stationResetHeard order straps) s = .next (settle (takeStationReset straps (afterEcho s))) :=
  hear_of_takes (takeStationReset straps) h

section
variable {s : State} (straps : Straps)

theorem takeStationReset_of_resetting (resetting : s.member.state = .resetting) :
    takeStationReset straps s = { s with pins := straps } := by
  unfold takeStationReset
  simp only [resetting]

/-- OUT with nothing to drain, the memory being down (R175). -/
theorem takeStationReset_of_down (down : s.member.state = .out .mediaDown
    ∨ (s.member.state = .out .duplicateNumber ∧ s.port.down = true)) :
    takeStationReset straps s = stationRestart { s with pins := straps } true := by
  unfold takeStationReset
  rcases down with state | ⟨state, down⟩
  · simp only [state, true_or, if_true]
  · simp only [state, down, or_true, if_true]

theorem takeStationReset_of_drains (drains : s.member.state = .listening ∨ s.member.state = .forming
    ∨ s.member.state = .serving ∨ s.member.state = .catchingUp ∨ s.member.state = .spectator
    ∨ ((s.member.state = .out .duplicateNumber ∨ s.member.state = .out .badStrap) ∧ s.port.down = false)) :
    takeStationReset straps s = drainCheck (settle (leaveService { s with pins := straps } .resetting)) := by
  unfold takeStationReset
  rcases drains with state | state | state | state | state | ⟨state | state, up⟩ <;> simp only [state]
  all_goals exact if_neg (by simp [up])

end

theorem drainComplete_iff (s : State) : drainComplete s = true ↔ s.cache.slots.countP Slot.isUnwritten = 0 :=
  decide_eq_true_iff

theorem drainCheck_eq (s : State) : drainCheck s =
    if s.member.state = .resetting ∧ s.cache.slots.countP Slot.isUnwritten = 0 then
      stationRestart s s.member.sweepNeeded
    else s := if_congr (and_congr Iff.rfl (drainComplete_iff s)) rfl rfl

/-- Settles O37: the restart; that no frame is taken with the queue shut; what leaving for RESETTING makes of the
writes, of the other requests and of the rest; and the frame by the state of the station. -/
theorem stationResetHeard : Obligations.StationResetHeard := by
  unfold Obligations.StationResetHeard
  refine ⟨stationRestart_eq, fun s k shut => accepts_of_shut shut k, fun s unique => ?_,
    fun s order straps takes => ?_⟩
  · intro t refused
    have member : t.member = _ := leaveService_member s .resetting
    refine ⟨by rw [member], fun e mem goes => ?_, fun open_ room e mem goes => ?_, fun e mem write committing => ?_,
      fun e mem kind => leaveService_done mem kind, fun x mem b d o v => leaveService_unheld s _ mem b d o v,
      leaveService_pendings s _, leaveService_pushes s _, leaveService_fetches s _, leaveService_active s _,
      leaveService_blocks s _, leaveService_media s _, leaveService_port s _, leaveService_peers s _⟩
    · obtain ⟨x, memX, same⟩ := (leaveService_refused unique mem ((uncommitted_iff e).2 goes)).found
      exact ⟨x, memX, same.tag, same.state, same.reason⟩
    · exact leaveService_nacks open_ room mem ((uncommitted_iff e).2 goes)
    · obtain ⟨x, memX, same⟩ := (leaveService_committing unique mem write committing).found
      exact ⟨x, memX, same.tag, same.state.trans committing, same.window⟩
  · intro h
    rw [exec_stationResetHeard takes]
    refine ⟨fun resetting => ?_, fun down => ?_, fun drains => ?_⟩
    · rw [takeStationReset_of_resetting (s := afterEcho s) straps resetting]
    · rw [takeStationReset_of_down (s := afterEcho s) straps down]
    · intro r
      rw [takeStationReset_of_drains (s := afterEcho s) straps drains, drainCheck_eq]

end Sys2Proof.Machine
end

section
/-! The layout of a frame on the line (R189): its bits pass the receive check (R183) and read back as the frame. -/

namespace Sys2Proof.Machine

/-! ### Words as bits, most significant first -/

@[simp] theorem length_bitsOf {w : Nat} (x : BitVec w) : (bitsOf x).length = w := by simp [bitsOf]

/-- The first `n` bits of a word spell its `n` upper bits. -/
theorem foldl_upperBits {w : Nat} (x : BitVec w) (n : Nat) (within : n ≤ w) :
    ((List.range n).map fun i => x.getMsbD i).foldl (fun n b => 2 * n + b.toNat) 0 = x.toNat / 2 ^ (w - n) := by
  induction n with
  | zero => simp [Nat.div_eq_of_lt x.isLt]
  | succ n ih =>
    have bit : (x.getMsbD n).toNat = x.toNat / 2 ^ (w - (n + 1)) % 2 := by
      rw [BitVec.getMsbD, decide_eq_true (by omega : n < w), Bool.true_and, ← BitVec.testBit_toNat,
        Nat.testBit_eq_decide_div_mod_eq, show w - 1 - n = w - (n + 1) by omega]
      rcases Nat.mod_two_eq_zero_or_one (x.toNat / 2 ^ (w - (n + 1))) with h | h <;> simp [h]
    have upper : x.toNat / 2 ^ (w - n) = x.toNat / 2 ^ (w - (n + 1)) / 2 := by
      rw [show w - n = w - (n + 1) + 1 by omega, Nat.pow_succ, Nat.div_div_eq_div_mul]
    rw [List.range_succ, List.map_append, List.foldl_append, ih (by omega), upper]
    simp only [List.map_cons, List.map_nil, List.foldl_cons, List.foldl_nil, bit]
    omega

@[simp] theorem wordOf_bitsOf {w : Nat} (x : BitVec w) : wordOf w (bitsOf x) = x := by
  unfold wordOf bitsOf
  rw [foldl_upperBits x w le_rfl, Nat.sub_self, Nat.pow_zero, Nat.div_one, BitVec.ofNat_toNat, BitVec.setWidth_eq]

theorem bitsOf_append {m n : Nat} (x : BitVec m) (y : BitVec n) : bitsOf (x ++ y) = bitsOf x ++ bitsOf y := by
  unfold bitsOf
  rw [List.range_add, List.map_append, List.map_map]
  refine congrArg₂ _ (List.map_congr_left fun i hi => ?_) (List.map_congr_left fun i _ => ?_)
  · rw [BitVec.getMsbD_append, if_neg (Nat.not_le.2 (List.mem_range.1 hi))]
  · rw [Function.comp_apply, BitVec.getMsbD_append, if_pos (Nat.le_add_right m i), Nat.add_sub_cancel_left]

/-! ### Fields -/

/-- The field that bits begin with. -/
theorem fieldOf_head {w : Nat} (x : BitVec w) (l : List Bool) : fieldOf (bitsOf x ++ l) 0 w = x := by
  unfold fieldOf
  rw [List.drop_zero, List.take_left' (length_bitsOf x), wordOf_bitsOf]

/-- A field that lies behind another one. -/
theorem fieldOf_behind {m i w : Nat} (x : BitVec m) (l : List Bool) (behind : m ≤ i) :
    fieldOf (bitsOf x ++ l) i w = fieldOf l (i - m) w := by
  unfold fieldOf
  rw [List.drop_append, List.drop_of_length_le (by simpa using behind), List.nil_append, length_bitsOf]

/-- What stands behind the header: the payload, the status report and the check field. -/
def trailerBits (f : Frame) : List Bool :=
  (if hasPayload f.kind then bitsOf (examined f).payload else [])
    ++ ((if hasReport f.kind then bitsOf (examined f).report else []) ++ bitsOf (frameCheck (bodyBits f)))

theorem bodyBits_eq (f : Frame) :
    bodyBits f = headerBits (examined f) ++ ((if hasPayload f.kind then bitsOf (examined f).payload else [])
      ++ if hasReport f.kind then bitsOf (examined f).report else []) := List.append_assoc _ _ _

theorem encodeFrame_eq (f : Frame) : encodeFrame f = headerBits (examined f) ++ trailerBits f := by
  unfold encodeFrame trailerBits
  rw [bodyBits_eq, List.append_assoc, List.append_assoc]

section
variable (f : Frame) (l : List Bool)

/-- Each field of the header stands at its place, whatever follows the header (R189). -/
structure HeaderReads : Prop where
  kindClass : fieldOf l 0 2 = kindClass f.kind
  sender : fieldOf l 2 5 = f.sender
  kindCode : fieldOf l 7 5 = kindCode f.kind
  mark : fieldOf l 12 16 = f.mark
  origin : fieldOf l 28 5 = f.tag.origin
  seq : fieldOf l 33 8 = f.tag.seq
  target : fieldOf l 41 5 = f.target
  block : fieldOf l 46 24 = f.block
  version : fieldOf l 70 32 = f.version
  aux : fieldOf l 102 8 = f.aux

theorem headerReads : HeaderReads f (headerBits f ++ l) := by
  constructor <;> simp [headerBits, fieldOf_behind, fieldOf_head]

theorem fieldOf_header {i w : Nat} (behind : 110 ≤ i) : fieldOf (headerBits f ++ l) i w = fieldOf l (i - 110) w := by
  unfold fieldOf
  rw [List.drop_append, List.drop_of_length_le (by simpa [headerBits] using behind), List.nil_append]
  simp [headerBits]

end

/-! ### The receive check (R183) -/

theorem kindOfCode_kindCode (k : Kind) : kindOfCode (kindCode k) = some k := by cases k <;> rfl

theorem length_bodyBits (f : Frame) : (bodyBits f).length = frameLength f.kind - 32 := by
  rw [bodyBits_eq, frameLength]
  cases hasPayload f.kind <;> cases hasReport f.kind <;> simp [headerBits]

theorem length_encodeFrame (f : Frame) : (encodeFrame f).length = frameLength f.kind := by
  have enough : 32 ≤ frameLength f.kind := by unfold frameLength; omega
  rw [encodeFrame, List.length_append, length_bodyBits, length_bitsOf, Nat.sub_add_cancel enough]

/-- A payload or a status report follows the header at once, no kind having both (R189). -/
theorem payload_encodeFrame {f : Frame} (has : hasPayload f.kind = true) :
    fieldOf (encodeFrame f) 110 8192 = f.payload := by
  rw [encodeFrame_eq, fieldOf_header _ _ le_rfl, trailerBits, if_pos has, fieldOf_head]
  exact if_pos has

theorem report_encodeFrame {f : Frame} (has : hasReport f.kind = true) :
    fieldOf (encodeFrame f) 110 256 = f.report := by
  have alone : hasPayload f.kind = false := by
    revert has
    cases f.kind <;> decide
  rw [encodeFrame_eq, fieldOf_header _ _ le_rfl, trailerBits, alone, if_pos has]
  exact (fieldOf_head _ _).trans (if_pos has)

/-- Two frames that agree in what their kind uses are examined alike (R189). -/
theorem examined_congr {f g : Frame} (kind : f.kind = g.kind) (sender : f.sender = g.sender) (mark : f.mark = g.mark)
    (tag : usesTag g.kind = true → f.tag = g.tag) (target : usesTarget g.kind = true → f.target = g.target)
    (block : usesBlock g.kind = true → f.block = g.block)
    (version : f.version &&& versionBits g.kind = g.version &&& versionBits g.kind)
    (aux : f.aux &&& auxBits g.kind = g.aux &&& auxBits g.kind)
    (payload : hasPayload g.kind = true → f.payload = g.payload)
    (report : hasReport g.kind = true → f.report = g.report) : examined f = examined g := by
  have field {α : Type} {used : Bool} {x y zero : α} (same : used = true → x = y) :
      (if used = true then x else zero) = if used = true then y else zero := ite_congr rfl same fun _ => rfl
  unfold examined
  rw [kind, sender, mark, version, aux, field tag, field target, field block, field payload, field report]

theorem readFrame_encodeFrame (f : Frame) : readFrame f.kind (encodeFrame f) = examined f := by
  have reads : HeaderReads (examined f) (encodeFrame f) := encodeFrame_eq f ▸ headerReads _ _
  refine examined_congr rfl reads.sender reads.mark
    (fun uses => (congrArg₂ Tag.mk reads.origin reads.seq).trans (if_pos uses))
    (fun uses => reads.target.trans (if_pos uses)) (fun uses => reads.block.trans (if_pos uses)) ?_ ?_
    payload_encodeFrame report_encodeFrame
  · rw [reads.version, examined, BitVec.and_assoc, BitVec.and_self]
  · rw [reads.aux, examined, BitVec.and_assoc, BitVec.and_self]

theorem receiveCheck_encodeFrame (f : Frame) : receiveCheck (encodeFrame f) = some (examined f) := by
  have reads : HeaderReads (examined f) (encodeFrame f) := encodeFrame_eq f ▸ headerReads _ _
  have body : (encodeFrame f).take (frameLength f.kind - 32) = bodyBits f := List.take_left' (length_bodyBits f)
  have check : fieldOf (encodeFrame f) (frameLength f.kind - 32) 32 = frameCheck (bodyBits f) := by
    unfold fieldOf encodeFrame
    rw [List.drop_left' (length_bodyBits f), List.take_of_length_le (length_bitsOf _).le, wordOf_bitsOf]
  have code : kindOfCode (fieldOf (encodeFrame f) 7 5) = some f.kind :=
    (congrArg kindOfCode reads.kindCode).trans (kindOfCode_kindCode f.kind)
  unfold receiveCheck
  simp only [code]
  rw [if_pos ⟨length_encodeFrame f, reads.kindClass, by rw [check, body]⟩, readFrame_encodeFrame]

/-- Settles O7: each field is read back from its place, and the check field is the check over what stands before it. -/
theorem frameReadsBack : Obligations.FrameReadsBack := by
  unfold Obligations.FrameReadsBack
  refine fun f pins => ⟨receiveCheck_encodeFrame f, ?_, length_encodeFrame f⟩
  unfold receptionOf
  rw [receiveCheck_encodeFrame]

end Sys2Proof.Machine
end

section
/-! The transmit queue and the line (R180, R181, R186, R187): a frame offered, the frame contended with at an idle line,
and the end of arbitration. -/

namespace Sys2Proof.Machine

/-! ### A frame offered (R186) -/

theorem accepts_of_open {s : State} (open_ : s.bus.accepting = true) (k : Kind) :
    accepts s k = true ↔ s.bus.queue.length < 16
      ∧ (kindClass k = 0 ∨ (s.bus.queue.countP fun t => decide (kindClass t.frame.kind ≠ 0)) < 14) := by
  simp only [accepts, open_, Bool.true_and, Bool.and_eq_true, Bool.or_eq_true, decide_eq_true_eq]
  rfl

theorem isAnswer_iff (k : Kind) : isAnswer k = true ↔ kindClass k = 1 ∨ k = .roster ∨ k = .statusReport := by
  simp only [isAnswer, Bool.or_eq_true, decide_eq_true_eq, or_assoc]

/-- Settles O9: by whether the queue has room for the frame, and where it has none by whether the frame is an answer. -/
theorem offeredFrameIsQueuedOrRefused : Obligations.OfferedFrameIsQueuedOrRefused := by
  unfold Obligations.OfferedFrameIsQueuedOrRefused
  intro s f p open_
  refine if_congr (accepts_of_open open_ f.kind) rfl (if_congr (isAnswer_iff f.kind) ?_ rfl)
  unfold countAnswerDropped
  rw [advance_eq]

/-! ### The frame contended with (R181) -/

section
variable {q : List TxFrame} {i : Nat} {f : TxFrame}

theorem oldestOfClass_of_first (place : q[i]? = some f)
    (first : ∀ (j : Nat) (g : TxFrame), j < i → q[j]? = some g → kindClass f.frame.kind ≠ kindClass g.frame.kind) :
    oldestOfClass q (kindClass f.frame.kind) = some i := by
  obtain ⟨inside, rfl⟩ := List.getElem?_eq_some_iff.1 place
  refine List.findIdx?_eq_some_iff_getElem.2 ⟨inside, decide_eq_true rfl, fun j hj => ?_⟩
  simpa using (first j _ hj (List.getElem?_eq_getElem (hj.trans inside))).symm

theorem oldestOfClass_of_urgent {c d : BitVec 2} (least : ∀ g ∈ q, c ≤ kindClass g.frame.kind) (urgent : d < c) :
    oldestOfClass q d = none := by
  refine List.findIdx?_eq_none_iff.2 fun g mem => decide_eq_false fun same => ?_
  exact BitVec.not_le.2 urgent (same ▸ least g mem)

/-- The classes are tried from the most urgent on. -/
theorem findSome_classes {found : BitVec 2 → Option Nat} (c : BitVec 2) (here : found c = some i)
    (before : ∀ d, d < c → found d = none) : [0, 1, 2, 3].findSome? found = some i := by
  have order : ∀ c : BitVec 2, c = 0 ∨ c = 1 ∨ c = 2 ∨ c = 3 := by decide
  rcases order c with rfl | rfl | rfl | rfl
  · simp only [List.findSome?_cons, here]
  · simp only [List.findSome?_cons, here, before 0 (by decide)]
  · simp only [List.findSome?_cons, here, before 0 (by decide), before 1 (by decide)]
  · simp only [List.findSome?_cons, here, before 0 (by decide), before 1 (by decide), before 2 (by decide)]

theorem activeIndex_of_queued (queued : ∀ g ∈ q, g.phase = .queued) : activeIndex q = none :=
  List.findIdx?_eq_none_iff.2 fun g mem => by simp [queued g mem]

/-- With nothing in transmission, the oldest frame of the most urgent class held. -/
theorem chooseFrame_of_queued (queued : ∀ g ∈ q, g.phase = .queued) (place : q[i]? = some f)
    (least : ∀ g ∈ q, kindClass f.frame.kind ≤ kindClass g.frame.kind)
    (first : ∀ (j : Nat) (g : TxFrame), j < i → q[j]? = some g → kindClass f.frame.kind ≠ kindClass g.frame.kind) :
    chooseFrame q = some i := by
  unfold chooseFrame
  rw [activeIndex_of_queued queued]
  exact findSome_classes _ (oldestOfClass_of_first place first) fun d => oldestOfClass_of_urgent least

theorem chooseFrame_of_active (active : activeIndex q = some i) : chooseFrame q = some i := by
  unfold chooseFrame
  rw [active]

theorem atIndex_of_place (change : TxFrame → TxFrame) (place : q[i]? = some f) :
    atIndex q i change = q.set i (change f) := by
  unfold atIndex
  rw [place]

theorem contend_of_sending (sending : f.phase = .inTransmission) : contend f = f := if_neg (by simp [sending])

theorem win_of_sending (sending : f.phase = .inTransmission) : win f = f := if_neg (by simp [sending])

/-- A change that leaves the frame at its place as it is leaves the queue so. -/
theorem atIndex_of_same {change : TxFrame → TxFrame} (place : q[i]? = some f) (same : change f = f) :
    atIndex q i change = q := by
  obtain ⟨inside, rfl⟩ := List.getElem?_eq_some_iff.1 place
  rw [atIndex_of_place change place, same, List.set_getElem_self]

end

section
variable {s : State} {i : Nat} {f : TxFrame}

theorem exec_lineIdle (released : s.resetHeld = false) : exec .lineIdle s = .next (settle (takeIdle s)) :=
  happening_of_released takeIdle released

theorem takeIdle_of_chosen (quiet : s.bus.line = .quiet) (chosen : chooseFrame s.bus.queue = some i) :
    takeIdle s = { s with bus := { s.bus with queue := atIndex s.bus.queue i contend, line := .arbitrating } } := by
  unfold takeIdle
  rw [quiet, chosen]

theorem takeIdle_of_empty (empty : s.bus.queue = []) : takeIdle s = s := by
  have none_ : chooseFrame s.bus.queue = none := by rw [empty]; rfl
  unfold takeIdle
  simp only [none_]
  cases s.bus.line <;> rfl

end

/-- Settles O24: the frame that the queue gives starts to contend, and one in transmission stays so. -/
theorem idleLineContends : Obligations.IdleLineContends := by
  unfold Obligations.IdleLineContends
  intro s released quiet
  rw [exec_lineIdle released]
  refine ⟨fun i f place all first => ?_, fun i f place sending before => ?_, fun empty => ?_⟩
  · have queued : f.phase = .queued := (all f (List.mem_of_getElem? place)).1
    rw [takeIdle_of_chosen quiet (chooseFrame_of_queued (fun g mem => (all g mem).1) place (fun g mem => (all g mem).2)
      first), atIndex_of_place contend place, contend, if_pos queued]
  · have active : f.phase ≠ .queued := by simp [sending]
    rw [takeIdle_of_chosen quiet (chooseFrame_of_active (activeIndex_of_first place active before)),
      atIndex_of_same place (contend_of_sending sending)]
  · rw [takeIdle_of_empty empty]

/-! ### The value contended with (R180) -/

theorem take_encodeFrame (f : Frame) : (encodeFrame f).take 7 = bitsOf (arbitrationValue f) := by
  rw [arbitrationValue, bitsOf_append, encodeFrame_eq, headerBits]
  simp only [List.append_assoc]
  rw [← List.append_assoc]
  exact List.take_left' (by simp)

theorem toNat_arbitrationValue (f : Frame) :
    (arbitrationValue f).toNat = (kindClass f.kind).toNat * 32 + f.sender.toNat := by
  rw [arbitrationValue, BitVec.toNat_append, ← Nat.shiftLeft_add_eq_or_of_lt f.sender.isLt, Nat.shiftLeft_eq]

theorem arbitrationValue_lt_iff (f g : Frame) : arbitrationValue f < arbitrationValue g ↔
    kindClass f.kind < kindClass g.kind ∨ (kindClass f.kind = kindClass g.kind ∧ f.sender < g.sender) := by
  have ours := f.sender.isLt
  have theirs := g.sender.isLt
  rw [BitVec.lt_def, BitVec.lt_def, BitVec.lt_def, ← BitVec.toNat_inj, toNat_arbitrationValue, toNat_arbitrationValue]
  omega

/-! ### A withdrawal (R187) -/

/-- The withdrawals that change nothing beyond the queue. -/
theorem afterWithdrawal_plain {s : State} {f : TxFrame} (notRead : f.purpose ≠ .readAnswer)
    (notFetch : f.purpose ≠ .fetchAnswer) (notSwept : ∀ p, f.purpose ≠ .replayDone p true) :
    afterWithdrawal s f .plain = s := by
  rw [afterWithdrawal_eq]
  unfold unrecorded
  split
  next p swept => exact absurd swept (notSwept p)
  next read => exact absurd read notRead
  next fetch => exact absurd fetch notFetch
  next => rfl

/-- What a withdrawal leaves in the queue: the frames that are not both selected and queued, the contending ones it
selects marked for it. -/
def leftQueued (q : List TxFrame) (sel : TxFrame → Bool) (w : Withdrawal) : List TxFrame :=
  (q.filter fun f => !(sel f && decide (f.phase = .queued))).map fun f =>
    if sel f = true ∧ f.phase = .contending then { f with withdrawal := some w } else f

section
variable {s : State} {sel : TxFrame → Bool} {w : Withdrawal}

theorem leftQueued_eq (q : List TxFrame) (sel : TxFrame → Bool) (w : Withdrawal) :
    ((q.filter fun f => !(sel f && decide (f.phase = .queued))).map fun f =>
      if sel f && decide (f.phase = .contending) then { f with withdrawal := some w } else f) = leftQueued q sel w :=
  List.map_congr_left fun f _ => if_congr (by simp) rfl rfl

theorem withdraw_of_stay (stay : ∀ f ∈ s.bus.queue, (sel f && decide (f.phase = .queued)) = false) :
    withdraw s sel w = { s with bus := { s.bus with queue := leftQueued s.bus.queue sel w } } := by
  have gone : (s.bus.queue.filter fun f => sel f && decide (f.phase = .queued)) = [] :=
    List.filter_eq_nil_iff.2 fun f mem => by simp [stay f mem]
  unfold withdraw
  dsimp only
  rw [gone, leftQueued_eq]
  rfl

theorem withdraw_of_goes (goes : ∃ f ∈ s.bus.queue, (sel f && decide (f.phase = .queued)) = true) :
    withdraw s sel w = (s.bus.queue.filter fun f => sel f && decide (f.phase = .queued)).foldl
      (fun u f => afterWithdrawal u f w) (setQueue s (leftQueued s.bus.queue sel w)) := by
  obtain ⟨f, mem, taken⟩ := goes
  have some_ : (s.bus.queue.filter fun f => sel f && decide (f.phase = .queued)).isEmpty = false := by
    rw [List.isEmpty_eq_false_iff_exists_mem]
    exact ⟨f, List.mem_filter.2 ⟨mem, taken⟩⟩
  unfold withdraw
  dsimp only
  rw [some_, leftQueued_eq]
  rfl

theorem foldl_afterWithdrawal_plain (l : List TxFrame) (s : State)
    (plain : ∀ f ∈ l, f.purpose ≠ .readAnswer ∧ f.purpose ≠ .fetchAnswer ∧ ∀ p, f.purpose ≠ .replayDone p true) :
    l.foldl (fun u f => afterWithdrawal u f .plain) s = s := by
  induction l with
  | nil => rfl
  | cons f l ih =>
    obtain ⟨notRead, notFetch, notSwept⟩ := plain f List.mem_cons_self
    rw [List.foldl_cons, afterWithdrawal_plain notRead notFetch notSwept]
    exact ih fun g mem => plain g (List.mem_cons_of_mem f mem)

end

/-! ### The end of arbitration (R180, R181, R187) -/

section
variable {s : State} {i : Nat} {f : TxFrame} {others : List (BitVec 7)}

theorem exec_arbitrationEnd (released : s.resetHeld = false) (arbitrating : s.bus.line = .arbitrating)
    (active : activeIndex s.bus.queue = some i) (place : s.bus.queue[i]? = some f) :
    exec (.arbitrationEnd others) s =
      .next (settle (if winsArbitration f.frame others then winArbitration s i else loseArbitration s i)) := by
  change execArbitrationEnd others s = _
  unfold execArbitrationEnd
  rw [happening_of_released _ released, if_pos arbitrating]
  simp only [active, place]

theorem winsArbitration_of_lower (loses : ∃ o ∈ others, o < arbitrationValue f.frame) :
    winsArbitration f.frame others = false := by
  obtain ⟨o, mem, lower⟩ := loses
  refine Bool.eq_false_iff.2 fun wins => ?_
  exact BitVec.not_le.2 lower ((winsArbitration_iff _ _).1 wins o mem)

theorem winArbitration_of_contending (place : s.bus.queue[i]? = some f) (contending : f.phase = .contending) :
    winArbitration s i = { s with bus := { s.bus with
      queue := s.bus.queue.set i { f with phase := .inTransmission, withdrawal := none }, line := .driving } } := by
  unfold winArbitration
  rw [atIndex_of_place win place, win, if_pos contending]

theorem winArbitration_of_sending (place : s.bus.queue[i]? = some f) (sending : f.phase = .inTransmission) :
    winArbitration s i = { s with bus := { s.bus with line := .driving } } := by
  unfold winArbitration
  rw [atIndex_of_same place (win_of_sending sending)]

theorem loseArbitration_of_contending (place : s.bus.queue[i]? = some f) (contending : f.phase = .contending)
    (kept : f.withdrawal = none) :
    loseArbitration s i = { s with bus := { s.bus with
      queue := s.bus.queue.set i { f with phase := .queued }, line := .quiet } } := by
  unfold loseArbitration
  simp only [place, contending, kept, if_true, atIndex]

theorem loseArbitration_of_withdrawn {w : Withdrawal} (place : s.bus.queue[i]? = some f)
    (contending : f.phase = .contending) (held : f.withdrawal = some w) :
    loseArbitration s i = afterWithdrawal
      { s with bus := { s.bus with
          queue := s.bus.queue.eraseIdx i, line := .quiet,
          accepting := s.bus.accepting || (s.bus.queue.eraseIdx i).isEmpty } } f w := by
  unfold loseArbitration
  simp only [place, contending, held, if_true]
  rfl

theorem loseArbitration_of_sending (place : s.bus.queue[i]? = some f) (sending : f.phase = .inTransmission) :
    loseArbitration s i = { s with bus := { s.bus with line := .quiet } } := by
  unfold loseArbitration
  simp only [place]
  exact if_neg (by simp [sending])

end

/-- Settles O25: the values by their bits and their order; a withdrawal by whether a frame leaves the queue; and the
end of arbitration by who wins and by the phase of the frame. -/
theorem arbitrationEnds : Obligations.ArbitrationEnds := by
  unfold Obligations.ArbitrationEnds
  refine ⟨take_encodeFrame, arbitrationValue_lt_iff, fun s sel w => ?_,
    fun s i f others released arbitrating place active before => ?_⟩
  · intro goes left
    refine ⟨(withdraw_queue s sel w).trans (leftQueued_eq _ _ _), withdraw_of_stay, fun leaves plainly plain => ?_⟩
    subst plainly
    refine (withdraw_of_goes leaves).trans (foldl_afterWithdrawal_plain _ (setQueue s left) fun f mem => ?_)
    obtain ⟨mem, taken⟩ := List.mem_filter.1 mem
    exact plain f mem taken
  · intro wins loses
    rw [exec_arbitrationEnd released arbitrating (activeIndex_of_first place active before) place]
    have won (h : wins) : winsArbitration f.frame others = true := (winsArbitration_iff _ _).2 h
    have lost (h : loses) : winsArbitration f.frame others = false := winsArbitration_of_lower h
    refine ⟨fun contending => ⟨fun h => ?_, fun h kept => ?_, fun h w held => ?_⟩, fun sending =>
      ⟨fun h => ?_, fun h => ?_⟩⟩
    · rw [won h, if_pos rfl, winArbitration_of_contending place contending]
    · rw [lost h, if_neg Bool.false_ne_true, loseArbitration_of_contending place contending kept]
    · rw [lost h, if_neg Bool.false_ne_true, loseArbitration_of_withdrawn place contending held]
    · rw [won h, if_pos rfl, winArbitration_of_sending place sending]
    · rw [lost h, if_neg Bool.false_ne_true, loseArbitration_of_sending place sending]

end Sys2Proof.Machine
end

section
/-! What the sending of a frame starts (R133, R145, R153, R170, R182), a damaged frame (R183, R195), and the status
report (R191, R192). -/

namespace Sys2Proof.Machine

/-! ### The awaited set (R153) -/

theorem inMark_markOf_iff {p : StationNo} (store : p.isStore = true) (q : StationNo) :
    inMark (markOf q) p = true ↔ q = p := by
  have small : p.toNat < 16 := of_decide_eq_true store
  simp only [inMark, markOf, BitVec.getLsbD_ofNat, small, decide_true, Bool.true_and, Nat.testBit_two_pow,
    decide_eq_true_eq, BitVec.toNat_inj]

theorem inMark_foldl_markOf {p : StationNo} (store : p.isStore = true) (l : List PeerEntry) (m : Mark) :
    inMark (l.foldl (fun m e => m ||| markOf e.peer) m) p = true ↔ inMark m p = true ∨ ∃ e ∈ l, e.peer = p := by
  induction l generalizing m with
  | nil => simp
  | cons e l ih =>
    rw [List.foldl_cons, ih, inMark_or, Bool.or_eq_true, inMark_markOf_iff store, List.exists_mem_cons_iff, or_assoc]

/-- The awaited set holds the live peers that share a group with the station. -/
theorem inMark_awaitedSet (s : State) {p : StationNo} (store : p.isStore = true) :
    inMark (awaitedSet s) p = true ↔ (∃ e ∈ s.peers, e.peer = p) ∧ isLive s p = true ∧ sharedGroups s p ≠ [] := by
  unfold awaitedSet
  rw [inMark_foldl_markOf store]
  have nobody : ¬inMark 0 p = true := by simp [inMark]
  rw [or_iff_right nobody]
  constructor
  · rintro ⟨e, mem, rfl⟩
    obtain ⟨mem, live⟩ := List.mem_filter.1 mem
    simp only [Bool.and_eq_true, Bool.not_eq_true', List.isEmpty_eq_false_iff] at live
    obtain ⟨live, shares⟩ := live
    exact ⟨⟨e, mem, rfl⟩, live, shares⟩
  · rintro ⟨⟨e, mem, rfl⟩, live, shares⟩
    exact ⟨e, List.mem_filter.2 ⟨mem, by simp [live, shares]⟩, rfl⟩

/-! ### What the sending of a frame starts, by its purpose -/

section
variable {s : State} {i : Nat} {f : TxFrame}

/-- The station with the frame at a place gone out whole, its own hearing due (R182, R184). -/
def frameEchoed (s : State) (i : Nat) (f : TxFrame) : State :=
  { s with bus := { s.bus with
      queue := s.bus.queue.eraseIdx i, line := .quiet, echo := some f.frame,
      accepting := s.bus.accepting || (s.bus.queue.eraseIdx i).isEmpty } }

theorem exec_frameSent (released : s.resetHeld = false) (driving : s.bus.line = .driving)
    (active : activeIndex s.bus.queue = some i) (place : s.bus.queue[i]? = some f) :
    exec .frameSent s = .next (settle (onSent (frameEchoed s i f) f)) := by
  change execFrameSent s = _
  unfold execFrameSent
  rw [happening_of_released _ released, whileDriving_of_active _ driving active place]
  rfl

/-- The frames whose sending starts nothing, whatever the state of the station. -/
def Purpose.endsWithSending : Purpose → Bool
  | .leadOrder | .supersedeOrder | .acknowledgement | .readAnswer | .fetchAnswer | .statusReport | .present | .roster
  | .caughtUp | .orphan | .overflowNotice | .mediaDownNotice | .peerNotice _ | .replayDone _ _ => true
  | .rosterQuery | .rejoin _ | .ownFetch | .ownReplay => false

theorem onSent_of_endsWithSending (h : f.purpose.endsWithSending = true) : onSent s f = s := by
  unfold onSent
  cases hp : f.purpose <;> simp [hp, Purpose.endsWithSending] at h ⊢

theorem onSent_rosterQuery (h : f.purpose = .rosterQuery) :
    onSent s f = if s.member.checkPending then
      { s with member := { s.member with queryTimer := some (s.clock + 25000) } } else s := by
  unfold onSent
  simp only [h]
  rfl

theorem onSent_ownFetch_none (h : f.purpose = .ownFetch) (gone : fetchOfTag s f.frame.tag = none) :
    onSent s f = s := by
  unfold onSent
  simp only [h, gone]

theorem onSent_ownFetch {g : Fetch} (h : f.purpose = .ownFetch) (found : fetchOfTag s f.frame.tag = some g)
    (queued : g.phase = .queued) :
    onSent s f = updateFetch s g.id fun x => { x with phase := .window (s.clock + 2000) } := by
  unfold onSent
  simp only [h, found]
  exact if_pos queued

theorem onSent_ownReplay_none (h : f.purpose = .ownReplay) (gone : pushOfTag s f.frame.tag = none) :
    onSent s f = s := by
  unfold onSent
  simp only [h, gone]

theorem onSent_ownReplay {p : Push} (h : f.purpose = .ownReplay) (found : pushOfTag s f.frame.tag = some p)
    (queued : p.phase = .queued) :
    onSent s f = updatePush s p.id fun x => { x with phase := .awaiting (s.clock + 3000) } := by
  unfold onSent
  simp only [h, found]
  exact if_pos queued

theorem onSent_rejoin (h : f.purpose = .rejoin s.repair.serial) (state : s.member.state = .catchingUp)
    (inProgress : s.repair.active = true) :
    onSent s f = { s with repair := { s.repair with
      rejoinSent := true, awaited := awaitedSet s,
      limit := if awaitedSet s = 0 then none else some (s.clock + 500000) } } := by
  unfold onSent
  simp only [h]
  exact if_pos (by simp [sweeping, state, inProgress])

end

/-- Settles O26: the frame leaves the queue, and what it starts is found by its purpose and by what its owner waits
for; the awaited set of a REJOIN holds the live peers that share a group. -/
theorem sentFrameLeaves : Obligations.SentFrameLeaves := by
  unfold Obligations.SentFrameLeaves
  refine ⟨fun s i f released driving place active before => ?_,
    fun s i f released driving place active before rejoin state inProgress => ?_⟩
  · intro t
    have sent : exec .frameSent s = .next (settle (onSent t f)) :=
      exec_frameSent released driving (activeIndex_of_first place active before) place
    rw [sent]
    refine ⟨fun plain => ?_, fun query pending => ?_, fun fetch g found queued => ?_, fun replay p found queued => ?_⟩
    · have nothing : onSent t f = t := by
        rcases plain with h | h | h | h | h | h | h | h | h | h | h | h | ⟨p, h⟩ | ⟨p, sweep, h⟩ | ⟨query, settled⟩
          | ⟨fetch, gone⟩ | ⟨replay, gone⟩
        iterate 14 exact onSent_of_endsWithSending (by rw [h]; rfl)
        · rw [onSent_rosterQuery query, if_neg (Bool.eq_false_iff.1 settled)]
        · exact onSent_ownFetch_none fetch gone
        · exact onSent_ownReplay_none replay gone
      rw [nothing]
    · rw [onSent_rosterQuery query, if_pos pending]
    · rw [onSent_ownFetch (s := t) fetch found queued]
      rfl
    · rw [onSent_ownReplay (s := t) replay found queued]
      rfl
  · refine ⟨awaitedSet s, fun p store => inMark_awaitedSet s store, ?_⟩
    rw [exec_frameSent released driving (activeIndex_of_first place active before) place,
      onSent_rejoin (s := frameEchoed s i f) rejoin state inProgress]
    rfl

/-! ### A damaged frame (R183, R195) -/

/-- Settles O28: the frame is counted, whatever the state of the station. -/
theorem damagedFrameIsCounted : Obligations.DamagedFrameIsCounted := by
  unfold Obligations.DamagedFrameIsCounted
  intro s released
  change execReceiveCheckFail s = _
  unfold execReceiveCheckFail countDiscarded
  rw [happening_of_released _ released, advance_eq]

/-! ### The status report (R191 to R193) -/

theorem exec_statusQueryHeard {s : State} {src : Source} {t : Tag} {target : StationNo}
    (h : takesFrame s (statusQueryFrame src t target) = true) :
    exec (.statusQueryHeard src t target) s = .next (settle (takeStatusQuery (afterEcho s) src t)) :=
  hear_of_takes (fun u => takeStatusQuery u src t) h

theorem exec_statusReportHeard {s : State} {src : Source} {t : Tag} {target : StationNo} {r : Report}
    (h : takesFrame s (statusReportFrame src t target r) = true) :
    exec (.statusReportHeard src t target r) s = .next (settle (afterEcho s)) :=
  hear_of_takes (fun u => u) h

/-- What a station reports does not turn on the echo due. -/
theorem statusReport_afterEcho (s : State) : statusReport (afterEcho s) = statusReport s := rfl

theorem takeStatusQuery_afterEcho (s : State) (src : Source) (t : Tag) :
    takeStatusQuery (afterEcho s) src t =
      offer (afterEcho s) (statusReportFrame (self s) t src.sender (statusReport s)) .statusReport := by
  unfold takeStatusQuery
  rw [statusReport_afterEcho]
  rfl

/-- Settles O47: by the frame that answers a query, and by the effects of a report, which has none. -/
theorem statusReported : Obligations.StatusReported := by
  unfold Obligations.StatusReported
  refine fun s src tag target r => ⟨fun takes => ?_, exec_statusReportHeard⟩
  rw [exec_statusQueryHeard takes, takeStatusQuery_afterEcho]
  rfl

end Sys2Proof.Machine
end

section
/-! One step of the station: the command at the front of its queue, or a microsecond of idling (log 1). -/

namespace Sys2Proof.Machine

theorem step_of_pending_cons {s : State} {c : Instr} {rest : List Instr} (front : s.pending = c :: rest) :
    step s = exec c { s with pending := rest } := by
  unfold step
  rw [front]

theorem step_of_pending_nil {s : State} (empty : s.pending = []) :
    step s = .next { s with clock := s.clock + 1 } := by
  unfold step
  rw [empty]

/-- Settles O1: by whether a command waits in the queue. -/
theorem stepRunsFrontCommand : Obligations.StepRunsFrontCommand := by
  unfold Obligations.StepRunsFrontCommand
  exact fun s => ⟨fun _ _ front => step_of_pending_cons front, fun empty => step_of_pending_nil empty⟩

end Sys2Proof.Machine
end
